-- ==== Sys2Proof/Syntax.lean ====
section
/-! DEFINITION. The commands of the block: one constructor of `Instr` for each row of the operation
table, with the operands the spec gives the row. The table gives no row any bits. -/

namespace Sys2Proof

abbrev CoreId := Fin 192
abbrev GangId := Fin 16
abbrev ThreadId := Fin 32
abbrev Reg := Fin 128
abbrev PReg := Fin 8
abbrev StreamId := Fin 8
abbrev GroupId := Fin 8
abbrev QuarterId := Fin 4
abbrev PierId := Fin 2
abbrev PortId := Fin 52
abbrev PartId := Fin 17
abbrev DomainId := Fin 80
abbrev StackId := Fin 12

/-- The completion codes (00 R11). `diverge` and the others are never reported outside their rules. -/
inductive Code where
  | done | align | overlap | shape | format | limit | varies | unmapped | uncorrectable | poisoned
  | incomplete | chunkCheck | staleEpoch | noCredit | unreachable | refused | health | diverge | thermal
  deriving DecidableEq, Repr

/-- What every thread instruction names: its core and gang, its guard predicate and sense bit (09 R192). An engine command
carries the values of its scalar operands; `args` names the registers they come from, each with the word the command has of
it, which must be what the lowest-numbered active thread holds there when the command issues (R197, log 186). -/
structure Th where
  core : CoreId
  gang : GangId
  guard : PReg
  sense : Bool
  args : List (Reg × Word) := []
  deriving DecidableEq, Repr

/-- The second ALU operand of add, sub, mul (09 R210): a register or a 16-bit immediate. -/
inductive Src where
  | reg (r : Reg)
  | imm (i : BitVec 16)
  deriving DecidableEq, Repr

/-- The operand type of a compare (09 R210). -/
inductive CmpTy where
  | i32 | u32 | f32
  deriving DecidableEq, Repr

/-- The selector of spec.get (09 R210). -/
inductive SpecSel where
  | thread | gang | core | device | partition
  deriving DecidableEq, Repr

/-- A barrier name: one of a core's 64 or one of the module's 64 device barriers (09 R207). -/
inductive BarId where
  | core (i : Fin 64)
  | device (i : Fin 64)
  deriving DecidableEq, Repr

/-- Operands of arr.loadw (03 R69). -/
structure LoadwOp where
  whalf : Fin 2
  src : Addr
  wide : Bool
  fmtA : BitVec 4
  fmtW : BitVec 4
  spo : BitVec 2
  deriving DecidableEq, Repr

/-- Operands of mma.run (03 R72). -/
structure RunOp where
  group : GroupId
  ktile : BitVec 20
  whalf : Fin 2
  fmtA : BitVec 4
  fmtW : BitVec 4
  spo : BitVec 2
  asrc : Bool
  astrm : StreamId
  aoff : BitVec 18
  rows : BitVec 9
  orow : BitVec 8
  sstrm : StreamId
  deriving DecidableEq, Repr

/-- Operands of ag.open (02 R52); `pre` is the preload's address and format, none for a zero start. -/
structure OpenOp where
  group : GroupId
  acctInt : Bool
  width : Nat
  rows : Nat
  pre : Option (Addr × BitVec 4)
  deriving DecidableEq, Repr

/-- Operands of ag.close (02 R56, 07 R153); `table` none is bypass. -/
structure CloseOp where
  group : GroupId
  ostrm : StreamId
  pstrm : StreamId
  fmt : BitVec 4
  rnd : BitVec 2
  ovf : BitVec 2
  table : Option (Fin 16)
  cbase : BitVec 12
  cmode : BitVec 2
  deriving DecidableEq, Repr

/-- The block range of a mask command (06 R135): header, first block row, block rows. -/
structure BlockRange where
  hdr : Addr
  kb0 : Nat
  nkb : Nat
  deriving DecidableEq, Repr

structure MskScoreOp where
  range : BlockRange
  master : Addr
  grad : Option Addr
  alphaK : Word
  alphaP : Word
  score : Addr
  deriving DecidableEq, Repr

structure MskSelectOp where
  range : BlockRange
  score : Addr
  sampled : Bool
  temp : Word
  drop : BitVec 16
  scratch : Addr
  proposal : Addr
  summary : Addr
  deriving DecidableEq, Repr

structure MskApplyOp where
  range : BlockRange
  proposal : Addr
  master : Addr
  mom1 : Option Addr
  mom2 : Option Addr
  mbf16 : Bool
  deriving DecidableEq, Repr

/-- Operands of msk.tiles (06 R135, R145). `blocks` is where the new blocks go and `cap` how many blocks
the new areas hold. -/
structure MskTilesOp where
  oldHdr : Addr
  newHdr : Addr
  oldMaster : Addr
  newMaster : Addr
  oldMom : Option (Addr × Addr)
  newMom : Option (Addr × Addr)
  mbf16 : Bool
  blocks : Addr
  cap : Nat
  grad : Addr
  target : Nat
  tstep : Nat
  swap : Nat
  alphaK : Word
  alphaP : Word
  summary : Addr
  deriving DecidableEq, Repr

/-- Operands of sp.mm (05 R112, R114). -/
structure SpMmOp where
  a : Addr
  b : Addr
  y : Addr
  beta : Bool
  rnd : BitVec 2
  ovf : BitVec 2
  sstrm : StreamId
  deriving DecidableEq, Repr

structure SpSddmmOp where
  s : Addr
  a : Addr
  bt : Addr
  out : Addr
  fmtOut : BitVec 4
  rnd : BitVec 2
  ovf : BitVec 2
  sstrm : StreamId
  deriving DecidableEq, Repr

/-- Operands of sp.gemm (05 R112, R121); `c` is the output's CSR descriptor. -/
structure SpGemmOp where
  a : Addr
  b : Addr
  c : Addr
  cap : Nat
  staging : Addr
  rnd : BitVec 2
  ovf : BitVec 2
  sstrm : StreamId
  deriving DecidableEq, Repr

/-- Operands of mtch.load (05 R117): no payload array means POS. -/
structure MtchLoadOp where
  keys : Addr
  payload : Option Addr
  count : Nat
  key16 : Bool
  deriving DecidableEq, Repr

structure MtchProbeOp where
  keys : Addr
  out : Addr
  count : Nat
  key16 : Bool
  deriving DecidableEq, Repr

structure MtchIsectOp where
  keys : Addr
  count : Nat
  key16 : Bool
  out : Addr
  cap : Nat
  countOnly : Bool
  deriving DecidableEq, Repr

/-- Operands of the segment reductions (05 R123). -/
structure SegOp where
  vals : Addr
  fmt : BitVec 4
  len : Nat
  ptrs : Addr
  nseg : Nat
  out : Addr
  outIdx : Addr
  fmtOut : BitVec 4
  rnd : BitVec 2
  ovf : BitVec 2
  sstrm : StreamId
  deriving DecidableEq, Repr

/-- Operands of gat.rows, sct.rows (05 R124). -/
structure RowsOp where
  idx : Addr
  n : Nat
  src : Addr
  dst : Addr
  rnd : BitVec 2
  ovf : BitVec 2
  sstrm : StreamId
  deriving DecidableEq, Repr

/-- Operands of sct.add (05 R125); `atomic` is PATH 1. -/
structure SctAddOp where
  idx : Addr
  n : Nat
  src : Addr
  dst : Addr
  atomic : Bool
  scratch : Addr
  scratchBytes : Nat
  rnd : BitVec 2
  ovf : BitVec 2
  sstrm : StreamId
  deriving DecidableEq, Repr

structure RngSeedOp where
  mask : BitVec 32
  fresh : Bool
  seed : BitVec 64
  pos : BitVec 64
  deriving DecidableEq, Repr

structure RngFillOp where
  dist : Nat
  count : Nat
  addr : Addr
  n : Word
  p : BitVec 16
  mu : Word
  sigma : Word
  lo : Word
  hi : Word
  deriving DecidableEq, Repr

structure RngCatOp where
  scores : Addr
  out : Addr
  temp : Word
  topk : Nat
  deriving DecidableEq, Repr

structure QntTabOp where
  table : Fin 16
  first : Nat
  count : Nat
  addr : Addr
  deriving DecidableEq, Repr

/-- A scale operand of qnt.pass (07 R158). -/
inductive ScaleMode where
  | none
  | tensor (v : Word)
  | channel (a : Addr)
  | slot (s : Fin 64)
  deriving DecidableEq, Repr

structure QntPassOp where
  inS : StreamId
  inPair : StreamId
  outS : StreamId
  outPair : StreamId
  fmtIn : BitVec 4
  fmtOut : BitVec 4
  rnd : BitVec 2
  ovf : BitVec 2
  width : Nat
  count : Nat
  iscale : ScaleMode
  oscale : ScaleMode
  rot : Option Nat
  sign : Bool
  inv : Bool
  seed : BitVec 64
  deriving DecidableEq, Repr

/-- What a remote module answers the parts of an access in order: to each its code and the value read (01 R27, 09 R198). -/
structure RemoteReply where
  answers : List (Code × BitVec 64)
  deriving DecidableEq, Repr

/-- Bit errors found in the bits of one stored line (11 R249-R250, 12 R266). -/
inductive Upset where
  | single | double
  deriving DecidableEq, Repr

/-- A 256-byte flit of the link protocol (14 R302). -/
structure Flit where
  seq : BitVec 12
  ftype : BitVec 4
  ack : BitVec 12
  vc : BitVec 3
  first : Bool
  cred : BitVec 16
  len : BitVec 16
  payload : List Byte
  crc : BitVec 32
  deriving DecidableEq, Repr

/-- What a thread's memory instruction does (09 R210). -/
inductive AccKind where
  | load | store
  | add | max | min | and | or | xchg | cas | addF32
  deriving DecidableEq, Repr

/-- What a fabric message carries: the data of a remote write, a stream chunk or a collective chunk (14 R319), or a request
of VC 0 (14 R304): a load of `w` bytes, an atomic on `w` bytes, or a cred.req for `units` of 64 bytes (11 R247), which says
the balance and generation it gives back and whether the sender's table has no place for a new entry. -/
inductive MsgKind where
  | write | stream | chunk
  | load (w : Nat)
  | atomic (kind : AccKind) (w : Nat)
  | credReq (units back gen : Nat) (full : Bool)
  deriving DecidableEq, Repr

/-- What the header of a fabric message says of a flit that carries it (14 R302-R304): where it comes from and goes, its VC,
its route and its partition. -/
structure FlitHead where
  src : Nat
  dst : Nat
  vc : Fin 8
  adaptive : Bool
  part : PartId
  deriving DecidableEq, Repr, Inhabited

/-- What the answer to a remote cred.req tells of the window (11 R246-R247): its first byte and length at the address the
request named it by, and its generation. -/
structure Grant where
  base : Nat
  size : Nat
  gen : Nat
  deriving DecidableEq, Repr

/-- A fabric message received whole (14 R319), as the destination pier sees it (18 R402-R403). `last` false
is the arrival of a flit that leaves the message incomplete. -/
structure Msg where
  pier : PierId
  src : Nat
  fabricB : Bool
  dst : Nat
  vc : Fin 8
  adaptive : Bool
  part : PartId
  kind : MsgKind
  op : Nat
  epoch : BitVec 16
  core : CoreId
  addr : Addr
  /-- Length of the whole message in bytes. -/
  len : Nat
  data : List Byte
  aad : List Byte
  counter : BitVec 64
  tag : List Byte
  first : Bool
  last : Bool
  deriving DecidableEq, Repr

/-- An Ethernet frame at an ETH side port (14 R316-R318), by what the ingest engine reads in it. -/
inductive EthBody where
  | arp (target : BitVec 32)
  | ndp (target : BitVec 128)
  | ingest (addrOk : Bool) (udpPort : BitVec 16) (sid : BitVec 32) (seq : BitVec 64) (msg : BitVec 32) (off : BitVec 32)
      (total : BitVec 32) (cipher : List Byte) (tag : List Byte)
  | other
  deriving DecidableEq, Repr

structure EthFrame where
  bytes : Nat
  body : EthBody
  deriving DecidableEq, Repr

/-- A collective chunk as it arrives at this module's engine (15 R335, R340, R341); `op` names it to its sender. -/
structure Chunk where
  op : Nat
  group : Nat
  num : Nat
  src : Nat
  epoch : BitVec 16
  index : Nat
  sigOp : BitVec 8
  sigFmt : BitVec 8
  sigCount : BitVec 32
  back : Bool
  last : Bool
  data : List Byte
  crc : BitVec 32
  deriving DecidableEq, Repr

/-- The cut of one quarter's crown (11 R240, R253). -/
structure CutCfg where
  ws : Nat
  scr : Nat
  sc : Nat
  ilvWs : Bool
  ilvScr : Bool
  deriving DecidableEq, Repr

/-- One line of the coordinate table (19 R423). -/
structure CoordRow where
  tray : Nat
  slot : Nat
  fabricB : Bool
  x : Nat
  y : Nat
  z : Nat
  w : Nat
  deriving DecidableEq, Repr

/-- What a tenant partition receives (18 R397). -/
structure PartSpec where
  id : PartId
  quads : List Nat
  wsBanks : List (Nat × Nat)
  dramUnits : List Nat
  ways : List (Nat × Nat)
  barriers : List (Fin 64)
  scrWindows : List (Nat × Nat)
  links : Nat
  lend : Bool
  det : Bool
  pages : List (Nat × BitVec 64)
  devices : List (Nat × Nat)
  deriving DecidableEq, Repr

/-- The configuration image (19 R423). -/
structure CfgImage where
  coords : List CoordRow
  cuts : List CutCfg
  hbmIlv : Nat
  excluded : List (Nat × Nat)
  sideEth : List (Nat × Bool)
  ingestV4 : List (BitVec 32)
  ingestV6 : List (BitVec 128)
  udpPort : BitVec 16
  members : List Nat
  routes : List (Nat × Nat)
  pairMode : Nat
  pairWait : Nat
  stateRegion : Nat × Nat
  ckptRegion : Nat × Nat
  parts : List PartSpec
  accepted : List (List Byte)
  successor : Option (List Byte)
  ownerKey : List Byte
  partPad : Nat
  pwrCap : Nat
  idleMs : Nat
  clkMax : Nat
  stallMs : Nat
  fill : Bool
  deriving DecidableEq, Repr

/-- A boot image with its header (19 R416-R418). The firmware bodies stand as their bytes. -/
structure SlotImage where
  magic : BitVec 32
  seq : BitVec 32
  svn : Nat
  steward : List Byte
  controllers : List (List Byte)
  config : CfgImage
  cfgBytes : List Byte
  digests : List (List Byte)
  fwSig : List Byte
  cfgSig : List Byte
  ownerPub : List Byte
  blocksOk : Bool
  deriving DecidableEq, Repr

/-- A gang the steward launches at job start (09, launch and spawn). -/
structure GangSpec where
  core : CoreId
  gang : GangId
  threads : Nat
  entry : Addr
  arg : Word
  deriving DecidableEq, Repr

/-- A member of a collective group: device number, fabric bit, its local participants ascending (15 R327). -/
structure GroupMember where
  dev : Nat
  fabricB : Bool
  locals : List Nat
  deriving DecidableEq, Repr

/-- One entry of the group table (15 R327): the member list in position order, the mesh, this module's position,
and for TREE its parent and its children in ascending position (positions); `tree` false is RING. -/
structure GroupSpec where
  id : Nat
  members : List GroupMember
  axes : List Nat
  tree : Bool
  parent : Option Nat
  children : List Nat
  deriving DecidableEq, Repr

/-- A job description (16 R361-R369, 15 R327). -/
structure JobSpec where
  id : Nat
  part : PartId
  cores : List CoreId
  gangs : List GangSpec
  stages : List Nat
  seed : BitVec 64
  epoch : BitVec 16
  dramBytes : Nat
  crownBanks : Nat
  seqLen : Nat
  updPerQuarter : List Nat
  lossAddr : Option Nat
  cleanLimit : Nat
  alpha : Word
  threshold : Word
  warmup : Nat
  spikeAct : Bool
  trust : List (List Byte)
  groups : List GroupSpec
  deriving DecidableEq, Repr

/-- An event of a placement change (10 R229): a new epoch with the cores that stages move to, or the fabric barrier that completes
once every module has confirmed the new epoch. -/
inductive Placement where
  | epoch (e : BitVec 16) (moved : List CoreId)
  | confirmed
  deriving DecidableEq, Repr

/-- Die temperatures of one sample, in degrees Celsius (17 R384). -/
structure Temps where
  quarters : List Int
  piers : List Int
  hbms : List Int
  deriving DecidableEq, Repr

/-- What starts a module shutdown (17 R385). -/
inductive ShutCause where
  | sideband | thermal | undervoltage | reset | pier
  deriving DecidableEq, Repr

/-- A gauntlet sensor (18 R409, R412). -/
inductive AlarmCause where
  | mesh | light | rail | reference | cold
  deriving DecidableEq, Repr

/-- Who asks the DRBG, and how (08 R184-R185). -/
inductive DrbgUse where
  | keygen | tls | nonce | seedFresh (core : CoreId)
  deriving DecidableEq, Repr

/-- The target of one step request of the ramp governor (17 R380). -/
inductive StepTarget where
  | domain (d : DomainId) (gate : Bool)
  | stack (s : StackId)
  | clock (q : QuarterId)
  | array (c : CoreId)
  deriving DecidableEq, Repr

/-- The headers of the snapshot copies (20 R433). A core has one header over its sub-blocks; `sub` of a quarter is
0 CRWN, 1 HBM, 2 UPD, 3 QPWR; of a pier 0 PORT, 1 SWT, 2 COLL, 3 ING. -/
inductive SnapBlock where
  | core (c : CoreId)
  | quarter (q : QuarterId) (sub : Fin 4)
  | pier (p : PierId) (sub : Fin 4)
  | pwr
  deriving DecidableEq, Repr

/-- A die of the module, as an end of a span (01 R16). -/
inductive Die where
  | quarter (q : QuarterId)
  | pier (p : PierId)
  deriving DecidableEq, Repr

/-- Which side of a redundant pair a write comes from (15 R346). -/
inductive PairSide where
  | a | b
  deriving DecidableEq, Repr

/-- A member that is to leave (14 R313): announced by its own steward, or silent for the modules listed. -/
structure Leave where
  dev : Nat
  announced : Bool
  silentFor : List Nat
  deriving DecidableEq, Repr

/-- A measurement log (18 R396): the configuration digest, the slot header's SEQ and CFGSIG, the owner key, and the digests of the
partition tables extended into MR2. -/
structure MeasLog where
  cfgDigest : List Byte
  seq : BitVec 32
  cfgSig : List Byte
  ownerKey : List Byte
  tables : List (List Byte)
  deriving DecidableEq, Repr

/-- What a module shows a neighbour (18 R393, R394, R396): its quote for partition 0, the certificate of its attestation key, the
chain of its device identity key, and its measurement log. -/
structure Evidence where
  quote : List Byte
  cert : List Byte
  chain : List (List Byte)
  log : MeasLog
  deriving DecidableEq, Repr

/-- A module that is to join: the modules whose links with it have locked and that have accepted its attestation, and what it has
shown to this module if it is a neighbour. -/
structure Join where
  dev : Nat
  acceptedBy : List Nat
  shown : Option Evidence
  deriving DecidableEq, Repr

/-- What a training of a port leaves (14 R305): the lanes that lock, and of each lane where its next marker is due and the
lane number found there. -/
structure Training where
  locks : BitVec 8
  marks : List (Nat × Fin 8)
  deriving DecidableEq, Repr

/-- What a notice of the other end tells (14 R319): its code, and what a granted cred.req brings (11 R247). -/
structure Notice where
  code : Code
  grant : Option Grant
  deriving DecidableEq, Repr

/-- The loss words of a step that the all-reduce adds before and after this module's own, in its fixed order (16 R365). -/
structure LossWords where
  before : List Word
  after : List Word
  deriving DecidableEq, Repr

/-- The commands: one constructor per row of the table, in the table's order. -/
inductive Instr where
  -- thread integer unit (09 R210)
  | add (h : Th) (sgn : Bool) (vd va : Reg) (b : Src)
  | sub (h : Th) (sgn : Bool) (vd va : Reg) (b : Src)
  | mulLo (h : Th) (sgn : Bool) (vd va : Reg) (b : Src)
  | mulHi (h : Th) (sgn : Bool) (vd va : Reg) (b : Src)
  | and (h : Th) (vd va vb : Reg)
  | or (h : Th) (vd va vb : Reg)
  | xor (h : Th) (vd va vb : Reg)
  | not (h : Th) (vd va : Reg)
  | shl (h : Th) (vd va vb : Reg)
  | shr (h : Th) (vd va vb : Reg)
  | sra (h : Th) (vd va vb : Reg)
  | rotl (h : Th) (vd va vb : Reg)
  | popc (h : Th) (vd va : Reg)
  | clz (h : Th) (vd va : Reg)
  | cmpEq (h : Th) (ty : CmpTy) (pd : PReg) (va vb : Reg)
  | cmpNe (h : Th) (ty : CmpTy) (pd : PReg) (va vb : Reg)
  | cmpLt (h : Th) (ty : CmpTy) (pd : PReg) (va vb : Reg)
  | cmpLe (h : Th) (ty : CmpTy) (pd : PReg) (va vb : Reg)
  | mov (h : Th) (vd va : Reg)
  | movi (h : Th) (vd : Reg) (imm : Word)
  | sel (h : Th) (vd va vb : Reg) (ps : PReg)
  -- thread floating-point unit (02 R61, R63; 09 R210)
  | fadd (h : Th) (rnd : BitVec 2) (vd va vb : Reg)
  | fmul (h : Th) (rnd : BitVec 2) (vd va vb : Reg)
  | ffma (h : Th) (rnd : BitVec 2) (vd va vb vc : Reg)
  | fmax (h : Th) (vd va vb : Reg)
  | fmin (h : Th) (vd va vb : Reg)
  | fexp2 (h : Th) (vd va : Reg)
  | flog2 (h : Th) (vd va : Reg)
  | frcp (h : Th) (vd va : Reg)
  | frsqrt (h : Th) (vd va : Reg)
  | cvt (h : Th) (fmtIn fmtOut : BitVec 4) (rnd ovf : BitVec 2) (vd va : Reg)
  | gredAdd (h : Th) (vd va : Reg)
  | gredMax (h : Th) (vd vi va : Reg)
  | gredMin (h : Th) (vd vi va : Reg)
  -- memory and atomics (09 R198, R202, R206); an address is the register pair va, va + 1 plus imm
  | ld8 (h : Th) (vd va : Reg) (imm : Addr) (ps : Option PReg)
  | ld16 (h : Th) (vd va : Reg) (imm : Addr) (ps : Option PReg)
  | ld32 (h : Th) (vd va : Reg) (imm : Addr) (ps : Option PReg)
  | ld64 (h : Th) (vd va : Reg) (imm : Addr) (ps : Option PReg)
  | st8 (h : Th) (va : Reg) (imm : Addr) (vb : Reg) (ps : Option PReg)
  | st16 (h : Th) (va : Reg) (imm : Addr) (vb : Reg) (ps : Option PReg)
  | st32 (h : Th) (va : Reg) (imm : Addr) (vb : Reg) (ps : Option PReg)
  | st64 (h : Th) (va : Reg) (imm : Addr) (vb : Reg) (ps : Option PReg)
  | atomAdd (h : Th) (vd va vb : Reg) (ps : Option PReg)
  | atomMax (h : Th) (vd va vb : Reg) (ps : Option PReg)
  | atomMin (h : Th) (vd va vb : Reg) (ps : Option PReg)
  | atomAnd (h : Th) (vd va vb : Reg) (ps : Option PReg)
  | atomOr (h : Th) (vd va vb : Reg) (ps : Option PReg)
  | atomXchg (h : Th) (vd va vb : Reg) (ps : Option PReg)
  | atomCas32 (h : Th) (vd va vb vc : Reg) (ps : Option PReg)
  | atomCas64 (h : Th) (vd va vb vc : Reg) (ps : Option PReg)
  | atomAddF32 (h : Th) (vd va vb : Reg) (ps : Option PReg)
  -- branches and predicates (09 R210)
  | br (h : Th) (target : Addr)
  | brAny (h : Th) (target : Addr)
  | brAll (h : Th) (target : Addr)
  | call (h : Th) (target : Addr)
  | ret (h : Th)
  | pand (h : Th) (pd pa pb : PReg)
  | por (h : Th) (pd pa pb : PReg)
  | pxor (h : Th) (pd pa pb : PReg)
  | pnot (h : Th) (pd pa : PReg)
  | exit (h : Th)
  -- synchronisation (09 R203, R207; 11 R247)
  | fenceAcq (h : Th) (scope : BitVec 3)
  | fenceRel (h : Th) (scope : BitVec 3)
  | fenceSc (h : Th) (scope : BitVec 3)
  | barInit (h : Th) (bar : BarId) (count : Nat) (cpl : Option Reg)
  | barArrive (h : Th) (bar : BarId) (cpl : Option Reg)
  | barWait (h : Th) (bar : BarId) (phase : Nat) (limitUs : Nat) (cpl : Option Reg)
  | barWaitLimitExpiry (core : CoreId) (gang : GangId)
  | credReq (h : Th) (addr : Addr) (bytes : Nat) (cpl : Reg)
  | spawn (h : Th) (target : Nat) (entry : Addr) (arg : Word) (count : Nat) (cpl : Reg)
  | spawnQueueServe (core : CoreId)
  | specGet (h : Th) (vd : Reg) (sel : SpecSel)
  | snapTrig (h : Th)
  | nop (h : Th)
  | reservedEncoding (core : CoreId) (gang : GangId)
  | fetchFailure (core : CoreId) (gang : GangId) (code : Code)
  | gangFree (core : CoreId) (gang : GangId)
  -- matrix array (02, 03, 04)
  | arrMode (h : Th) (wide : Bool) (cpl : Reg)
  | arrangementSwitch (core : CoreId)
  | arrLoadw (h : Th) (op : LoadwOp) (cpl : Reg)
  | loadwStart (core : CoreId)
  | loadwComplete (core : CoreId)
  | mmaRun (h : Th) (op : RunOp) (cpl : Reg)
  | runStart (core : CoreId)
  | rowEntry (core : CoreId) (wgtLate : Bool)
  | outputRowWrite (core : CoreId)
  | agOpen (h : Th) (op : OpenOp) (cpl : Reg)
  | preloadStart (core : CoreId)
  | preloadComplete (core : CoreId)
  | agClose (h : Th) (op : CloseOp) (cpl : Reg)
  | drainStart (core : CoreId)
  | drainComplete (core : CoreId)
  | idleTimerExpiry (core : CoreId)
  -- tile sequencer (10)
  | seqRun (h : Th) (desc : Addr) (cpl : Reg)
  | spkRun (h : Th) (desc : Addr) (cpl : Reg)
  | spnRun (h : Th) (desc : Addr) (cpl : Reg)
  | nestStart (core : CoreId)
  | seqIssue (core : CoreId)
  -- masks and the update engine (06, 16)
  | mskScore (h : Th) (op : MskScoreOp) (cpl : Reg)
  | mskSelect (h : Th) (op : MskSelectOp) (cpl : Reg)
  | mskApply (h : Th) (op : MskApplyOp) (cpl : Reg)
  | mskTiles (h : Th) (op : MskTilesOp) (cpl : Reg)
  | updateEngineCommandStart (q : QuarterId)
  | mskApplyComplete (q : QuarterId)
  | mskTilesComplete (q : QuarterId)
  | updOpt (h : Th) (desc : Addr) (cpl : Reg)
  | updAccept (q : QuarterId)
  | updComplete (q : QuarterId)
  -- irregular operands and the matcher (05)
  | spMm (h : Th) (op : SpMmOp) (cpl : Reg)
  | spSddmm (h : Th) (op : SpSddmmOp) (cpl : Reg)
  | spGemm (h : Th) (op : SpGemmOp) (cpl : Reg)
  | mtchLoad (h : Th) (op : MtchLoadOp) (cpl : Reg)
  | mtchProbe (h : Th) (op : MtchProbeOp) (cpl : Reg)
  | mtchIsect (h : Th) (op : MtchIsectOp) (cpl : Reg)
  | mtchClear (h : Th) (cpl : Reg)
  | segSum (h : Th) (op : SegOp) (cpl : Reg)
  | segMax (h : Th) (op : SegOp) (cpl : Reg)
  | segMin (h : Th) (op : SegOp) (cpl : Reg)
  | gatRows (h : Th) (op : RowsOp) (cpl : Reg)
  | sctRows (h : Th) (op : RowsOp) (cpl : Reg)
  | sctAdd (h : Th) (op : SctAddOp) (cpl : Reg)
  | irregularComplete (core : CoreId)
  -- random unit (08)
  | rngSeed (h : Th) (op : RngSeedOp) (cpl : Reg)
  | rngFill (h : Th) (op : RngFillOp) (cpl : Reg)
  | rngCat (h : Th) (op : RngCatOp) (cpl : Reg)
  | randomConsumerStart (core : CoreId)
  | stuckDetector (core : CoreId) (lane : ThreadId)
  -- quantiser (07)
  | qntLdtab (h : Th) (op : QntTabOp) (cpl : Reg)
  | qntSttab (h : Th) (op : QntTabOp) (cpl : Reg)
  | qntPass (h : Th) (op : QntPassOp) (cpl : Reg)
  | qntPassComplete (core : CoreId)
  | qntStep (h : Th) (cpl : Reg)
  | quantiserCommandStart (core : CoreId)
  -- layout engine and streams (13)
  | layCopy (h : Th) (desc : Addr) (cpl : Reg)
  | layCopyStart (core : CoreId)
  | layCopyComplete (core : CoreId)
  | strmOpen (h : Th) (strm : StreamId) (desc : Addr) (cpl : Reg)
  | strmClose (h : Th) (strm : StreamId) (cpl : Reg)
  | streamRequest (core : CoreId)
  | streamDataReturn (core : CoreId) (strm : StreamId) (reply : RemoteReply)
  | chunkWritten (core : CoreId) (strm : StreamId)
  | streamComplete (core : CoreId) (strm : StreamId)
  -- collectives (15)
  | collAllreduce (h : Th) (desc : Addr) (cpl : Reg)
  | collRscatter (h : Th) (desc : Addr) (cpl : Reg)
  | collAllgather (h : Th) (desc : Addr) (cpl : Reg)
  | collAlltoall (h : Th) (desc : Addr) (cpl : Reg)
  | collBcast (h : Th) (desc : Addr) (cpl : Reg)
  | collBarrier (h : Th) (desc : Addr) (cpl : Reg)
  | collectiveStart (group : Nat)
  | collectiveChunk (c : Chunk)
  | dueExpiry (group : Nat)
  -- lanes, link, switch, membership, ingest (14)
  | alignmentMarker (port : PortId) (lane : Fin 8) (bit : Nat) (errs : Nat) (laneNo : Fin 8)
  | flitSend (port : PortId)
  | dataFlit (port : PortId) (f : Flit)
  | ackFlit (port : PortId) (f : Flit)
  | nakFlit (port : PortId) (f : Flit)
  | creditFlit (port : PortId) (f : Flit)
  | controlFlit (port : PortId) (f : Flit)
  | idleFlit (port : PortId) (f : Flit)
  | ackTimeout (port : PortId)
  | retrainComplete (port : PortId) (locks : Training)
  | flowRecompute (src dst : Nat) (vc : Fin 8)
  | adaptiveEscape (port : PortId)
  | message (m : Msg)
  | stallTimeout (src op : Nat)
  | senderTimeout (op : Nat)
  | abortNotice (op : Nat) (code : Notice)
  | heartbeat (port : PortId)
  | heartbeatSilence (port : PortId)
  | membershipChange (leaves : List Leave) (joins : List Join)
  | membership (version : Nat) (members : List Nat) (coordinator standby : Option Nat)
  | ethernetFrame (port : PortId) (link : Fin 2) (f : EthFrame)
  | tlsHandshake (port : PortId) (job : Nat) (cert : List Byte)
  | sessionClose (sid : BitVec 32)
  -- redundant pair (15 R345-R347)
  | forwardedWrite (addr : Nat) (data : List Byte)
  | pairCompare (side : PairSide) (addr : Nat) (data : List Byte)
  | pairWaitExpiry (addr : Nat)
  -- placement, failures and memory events (01, 10, 11, 12)
  | placementChange (job : Nat) (change : Placement)
  | coreFailure (core : CoreId)
  | pierFailure (p : PierId)
  | spanFailure (a b : Die)
  | crownPatrol (q : QuarterId) (bank : Fin 64) (found : Option Upset)
  | hbmPatrol (s : StackId) (chan : Fin 32) (found : Option Upset)
  | channelTimeout (s : StackId) (chan : Fin 32) (line : Nat)
  | refresh (s : StackId) (bank : Nat)
  | sharedReload (region : Nat) (line : Nat)
  | pageEntryChange (part : PartId) (page : Nat) (entry : BitVec 64)
  -- entropy (08 R184-R185)
  | healthTestFailure
  | retestExpiry (pass : Bool)
  | drbgRequest (use : DrbgUse) (resist : Bool)
  -- supply, clocks and sleep (17, 22)
  | stepGrant (up : Bool)
  | rampTimeEnd (t : StepTarget)
  | wakeComplete (t : StepTarget)
  | s1Entry
  | idleTimeout
  | powerCapAverage (watts : Nat)
  | thermalSample (t : Temps)
  | moduleShutdown (cause : ShutCause)
  | shutdownStep
  | inputUndervoltage (mv : Nat) (us : Nat)
  | inputTurnOn (mv : Nat) (ms : Nat)
  | resetN (samples : Nat)
  | snapIn (highNs : Nat)
  | gauntletAlarm (cause : AlarmCause)
  -- sideband (22 R461)
  | status
  | wake
  | shutdown
  | image (img : SlotImage)
  -- start-up and update (19), debug (18)
  | startUp (trayId slotId : Nat) (parity : Bool)
  | stewardSignalTimeout
  | fieldUpdate (owner : List Byte) (img : SlotImage)
  | liveActivation (ok : Bool)
  | debugSignature (key : List Byte) (sig : List Byte)
  -- jobs and steps (16)
  | jobSubmit (job : JobSpec)
  | stageReport (job stage : Nat) (step : BitVec 16)
  | stepBoundary (job : Nat) (othersNf : Bool) (lossSum : LossWords)
  | updVerdict (q : QuarterId) (v : Word)
  -- partitions and trust (18)
  | partitionCreate (owner : List Byte) (p : PartSpec)
  | partitionDestroy (p : PartId)
  | publish (part : PartId) (quarter : QuarterId) (bank banks : Nat) (master copy : Option Nat) (mappers : List PartId)
    (digest : List Byte)
  | withdraw (part : PartId) (region : Nat)
  | quote (requester part : PartId) (nonce : List Byte)
  | refusalComplete (idx : Nat)
  -- snapshots (20)
  | fabricTrigger (target : BitVec 64)
  | targetTime
  | trig
  | send
  | release
  | snapStatValidClear (b : SnapBlock)
  -- register writes with rows of their own
  | seqCtlAbort (core : CoreId) (stale : Bool)
  | mtchSeed (core : CoreId) (v : Word)
  | mtchSpill (core : CoreId) (v : Word)
  | qntSlotCfg (core : CoreId) (slot : Fin 64) (v : Word)
  | arrFreezeLo (core : CoreId) (v : Word)
  | arrFillLo (core : CoreId) (v : Word)
  | arrColdWait (core : CoreId) (v : Word)
  | timePhaseLo (p : Fin 7) (v : Word)
  | loReadLatch (off : Nat)
  | crwnRxwinCfg (q : QuarterId) (w : Fin 64) (v : Word)
  | crwnRxwinBase (q : QuarterId) (w : Fin 64) (v : Word)
  | crwnRxwinSize (q : QuarterId) (w : Fin 64) (v : Word)
  | crwnRxwinFree (q : QuarterId) (w : Fin 64) (v : Word)
  | cmemRxwinCfg (part : PartId) (core : CoreId) (w : Fin 8) (v : Word)
  | cmemRxwinFree (core : CoreId) (w : Fin 8) (v : Word)
  | bootLock
  | registerWrite (part : PartId) (off : Nat) (v : Word)
  -- completions
  | threadAccessComplete (core : CoreId) (gang : GangId) (idx : Nat) (reply : RemoteReply)
  | randomConsumerComplete (core : CoreId)
  | alwaysOnSupplyFall
  deriving DecidableEq, Repr

end Sys2Proof
end

