-- ==== Sys2Proof/Decode.lean ====
section
/-! DEFINITION. Commands spelled by a word: spec/opcode_table.json gives bits to none of its rows, so no
word spells a command. -/

namespace Sys2Proof

/-- The command the bits of a table word spell: none, for every word (no row has bits). -/
def decodeTableWord (_nbits _w : Nat) : Option Instr := none

end Sys2Proof
end

