-- ==== Sys2Proof/Config.lean ====
section
/-! DEFINITION. What the manual leaves open or to mathematics outside it, as constants without a body:
nothing in Lean can evaluate one, so a claim holds whatever it is. The log entries named here give each its mark. -/

namespace Sys2Proof.Config

/-- Whether a 16-bit ALU immediate is sign-extended (true) or zero-extended (09 R210 does not say; log 6). -/
opaque immSigned : Bool

/-- What ld.8 and ld.16 put above the loaded bits, which no rule says (09 R210; log 48): by width in bytes and value. -/
opaque loadHigh : Nat → Word → Word

/-- Which value of those within 1 ulp fexp2, flog2, frcp and frsqrt give (09 R210; log 7): by operation and argument. -/
opaque ulpPick : Nat → Word → Nat

/-- A 32-bit value the manual does not fix, by the model's counter `State.free` (log 5). -/
opaque freeWord : Nat → Word

/-- A 64-bit address the manual does not fix, by the model's counter `State.free` (log 5). -/
opaque freeAddr : Nat → Addr

/-- A choice the manual leaves to timing, by the model's counter `State.free` (log 5). -/
opaque freeBool : Nat → Bool

/-- The AES-256 block cipher, key and block (08 R184; log 8). -/
opaque aes256 : BitVec 256 → BitVec 128 → BitVec 128

/-- What the entropy source gives the DRBG at its n-th seeding, after its health tests (08 R184-R185; log 8). -/
opaque entropy : Nat → List Byte

/-- The value thread conversion of an MX or PX8E code gives, which no rule states (log 9). -/
opaque cvtUnstated : BitVec 4 → BitVec 4 → Word → Word

/-- The fill generator's seed from the logical core number, and its next state (03 R81; log 12). -/
opaque fillSeed : Nat → BitVec 32
opaque fillNext : BitVec 32 → BitVec 32

/-- ECDSA P-384 verification: key, digest, signature (18 R391, 19 R418; log 10). -/
opaque ecdsaVerify : List Byte → List Byte → List Byte → Bool

/-- ECDSA P-384 signature by the key pair drawn or fused under a name (18 R393-R394; log 10): 96 bytes r then s. -/
opaque ecdsaSign : List Byte → List Byte → List Byte

/-- The device identity key, fused at manufacture and read by the steward's key unit only, and the public half of a pair
(18 R391, R393; log 10). -/
opaque deviceKey : List Byte
opaque publicHalf : List Byte → List Byte

/-- The key that an X.509 chain certifies, where it leads to the Wobusal device root (18 R391, R396; log 10). -/
opaque chainLeaf : List (List Byte) → Option (List Byte)

/-- AES-256-XTS of a 64-byte line: key pair, tweak, line (12 R271; log 10). -/
opaque xtsLine : List Byte → Nat → List Byte → List Byte

/-- AES-256-GCM opening: key, 12-byte nonce, associated data, ciphertext, tag (14 R318, 18 R402-R403; log 10). -/
opaque gcmOpen : List Byte → List Byte → List Byte → List Byte → List Byte → Option (List Byte)

/-- AES-256-GCM sealing: key, 12-byte nonce, associated data, plaintext; ciphertext then tag (18 R402; log 10). -/
opaque gcmSeal : List Byte → List Byte → List Byte → List Byte → List Byte

/-- The fabric management key of partition 0 (18 R402; log 10). -/
opaque managementKey : List Byte

/-- The Wobusal firmware public key whose digest the boot ROM holds (19 R419; log 10). -/
opaque firmwareKey : List Byte

/-- The debug authority keys the firmware lists (18 R411; log 10). -/
opaque debugKeys : List (List Byte)

/-- The order and number of the bytes of a partition table that MR2 and the quote take in are not given (18 R392; log 11). -/
opaque tableBytes : List PartSpec → List Byte

/-- Channels that fail link training at a start (12 R268): a physical given, by device time of the start (log 13). -/
opaque failsTraining : Nat → Nat → Nat → Bool

/-- The header of a fabric message, whose layout the manual does not give (14 R302; log 32), by operation number and, for
data, the placement epoch it is tagged with (10 R227). -/
opaque msgHeader : Nat → Option Nat → List Byte

/-- What the message header that a flit's payload bytes belong to says (14 R302-R304; log 32). -/
opaque flitHead : List Byte → FlitHead

/-- The bytes of a flit's payload field above LEN, which no rule gives (14 R302; log 32): by the bytes used and the place. -/
opaque flitPad : List Byte → Nat → Byte

/-- The VC whose credits the next flit returns, which the manual does not choose (14 R302, R304; log 32): by the credits
owed per VC. -/
opaque returnVc : List Nat → Fin 8

/-- Codewords that the FEC corrected, and those it could not, while a flit arrived: a physical given (14 R299, R324; log 85),
by flit and device time. -/
opaque fecCorrected : Flit → Nat → Nat
opaque fecLost : Flit → Nat → Nat

/-- The bytes by which a membership travels, which the manual does not give (14 R314; log 32): version, members,
coordinator, standby. -/
opaque membershipData : Nat → List Nat → Option Nat → Option Nat → List Byte

/-- Whether a flit's payload is a heartbeat's; the manual does not give its layout (14 R313; log 32). -/
opaque isHeartbeat : List Byte → Bool

/-- The key and salt of each direction a TLS exporter gives, 72 bytes, by the model's counter `State.free` (14 R317; log 10). -/
opaque tlsExport : Nat → List Byte

/-- Where the data of an ingest message goes, which the manual does not say (14 R318; log 45): session and message number. -/
opaque ingestAddr : Nat → Nat → Nat

/-- The layout of an 8-byte scratch record of msk.select, which the manual does not give (06 R139; log 36): nibble, change
count, gain. -/
opaque mskRecord : Nat → Nat → Word → BitVec 64

/-- The bytes of a collective chunk's tag and signature, whose layout the manual does not give (15 R335, R341; log 40):
group, number, epoch, index, and the signature's OP, FMT and COUNT. -/
opaque chunkTag : Nat → Nat → Nat → Nat → Nat → Nat → Nat → List Byte

end Sys2Proof.Config
end

