-- ==== Sys2Proof/Machine/Drbg.lean ====
section
/-! DEFINITION. The steward's DRBG (08 R184): the CTR_DRBG of NIST SP 800-90A over AES-256 with the derivation function. The block
cipher and the samples of the entropy source are constants of Config (log 8). -/

namespace Sys2Proof.Machine

/-- The DRBG's working state, and how many entropy inputs it has taken: the model's own counter. -/
structure Drbg where
  key : BitVec 256
  v : BitVec 128
  inputs : Nat
  deriving DecidableEq, Repr

/-- `n` blocks of keystream after counter `v`, in order. -/
def drbgBlocks (key : BitVec 256) (v : BitVec 128) (n : Nat) : List (BitVec 128) :=
  (List.range n).map (fun i => Config.aes256 key (v + BitVec.ofNat 128 (i + 1)))

/-- The first byte is the most significant. -/
def bytesToBits (w : Nat) (l : List Byte) : BitVec w := BitVec.ofNat w (l.foldl (fun a b => 256 * a + b.toNat) 0)

def bitsToBytes (n : Nat) (x : Nat) : List Byte := (List.range n).map (fun i => BitVec.ofNat 8 (x / 256 ^ (n - 1 - i)))

/-- Cuts bytes into blocks of 16. -/
def drbgCut : Nat → List Byte → List (BitVec 128)
  | 0, _ => []
  | n + 1, l => if l.isEmpty then [] else bytesToBits 128 (l.take 16) :: drbgCut n (l.drop 16)

/-- The derivation function's chaining over blocks. -/
def drbgChain (key : BitVec 256) (l : List (BitVec 128)) : BitVec 128 := l.foldl (fun c b => Config.aes256 key (c ^^^ b)) 0

/-- The derivation function: 48 bytes from any input. -/
def drbgDerive (input : List Byte) : BitVec 384 :=
  let s := bitsToBytes 4 input.length ++ bitsToBytes 4 48 ++ input ++ [0x80]
  let s := s ++ List.replicate ((16 - s.length % 16) % 16) 0
  let key := bytesToBits 256 ((List.range 32).map (fun i => BitVec.ofNat 8 i))
  let at_ (i : Nat) : BitVec 128 := drbgChain key (bytesToBits 128 (bitsToBytes 4 i ++ List.replicate 12 0) :: drbgCut (s.length + 1) s)
  let k2 : BitVec 256 := at_ 0 ++ at_ 1
  let x1 := Config.aes256 k2 (at_ 2)
  let x2 := Config.aes256 k2 x1
  x1 ++ x2 ++ Config.aes256 k2 x2

/-- The update of key and counter with 384 bits. -/
def Drbg.update (d : Drbg) (seed : BitVec 384) : Drbg :=
  let b (i : Nat) : BitVec 128 := Config.aes256 d.key (d.v + BitVec.ofNat 128 i)
  let x := (b 1 ++ b 2 ++ b 3) ^^^ seed
  { d with key := x.extractLsb' 128 256, v := x.extractLsb' 0 128 }

/-- Takes the entropy source's next input. -/
def Drbg.reseed (d : Drbg) : Drbg := { d.update (drbgDerive (Config.entropy d.inputs)) with inputs := d.inputs + 1 }

/-- Instantiated when `inputs` entropy inputs have been taken before. -/
def Drbg.start (inputs : Nat) : Drbg := Drbg.reseed ⟨0, 0, inputs⟩

/-- A generate request: `n` blocks, then the update that ends it. -/
def Drbg.generate (d : Drbg) (n : Nat) : Drbg × List (BitVec 128) :=
  (({ d with v := d.v + BitVec.ofNat 128 n }).update 0, drbgBlocks d.key d.v n)

/-- Bytes of DRBG blocks, the first byte of a block its most significant. -/
def drbgBytes (l : List (BitVec 128)) : List Byte := l.flatMap (fun b => bitsToBytes 16 b.toNat)

end Sys2Proof.Machine
end

