-- ==== Sys2Proof/Machine/Jump.lean ====
section
/-! DEFINITION. The register of a random lane (08 R173, R176): its bit-step, its jump-ahead, and where a lane's coordinates
start it. -/

namespace Sys2Proof.Machine

/-- One bit-step (R173). -/
def bitStep (s : BitVec 128) : BitVec 128 :=
  let fb := (s.getLsbD 127 ^^ s.getLsbD 125) ^^ (s.getLsbD 100 ^^ s.getLsbD 98)
  (s <<< 1) ||| (if fb then 1 else 0)

/-! ## Jump-ahead: powers of the bit-step as polynomials modulo its characteristic polynomial -/

/-- Multiplies by the indeterminate modulo x^128 + x^29 + x^27 + x^2 + 1. -/
def polyX (p : BitVec 128) : BitVec 128 :=
  (p <<< 1) ^^^ (if p.getLsbD 127 then 0x28000005 else 0)

def polyMulGo : Nat → BitVec 128 → BitVec 128 → BitVec 128 → BitVec 128
  | 0, _, _, acc => acc
  | n + 1, p, q, acc => polyMulGo n p (polyX q) (if p.getLsbD (127 - n) then acc ^^^ q else acc)

/-- The product of two polynomials. -/
def polyMul (p q : BitVec 128) : BitVec 128 := polyMulGo 128 p q 0

def polyPowGo : Nat → Nat → BitVec 128 → BitVec 128 → BitVec 128
  | 0, _, _, acc => acc
  | k + 1, n, b, acc => polyPowGo k (n / 2) (polyMul b b) (if n % 2 = 1 then polyMul acc b else acc)

/-- x to the n. -/
def polyPow (n : Nat) : BitVec 128 := polyPowGo 160 n 2 1

def polyApplyGo : Nat → BitVec 128 → BitVec 128 → BitVec 128 → BitVec 128
  | 0, _, _, acc => acc
  | n + 1, p, s, acc => polyApplyGo n p (bitStep s) (if p.getLsbD (127 - n) then acc ^^^ s else acc)

/-- A state advanced by `n` bit-steps. -/
def jumpBits (n : Nat) (s : BitVec 128) : BitVec 128 := polyApplyGo 128 (polyPow n) s 0

/-- The base state of a job seed (R176). -/
def baseState (j : BitVec 64) : BitVec 128 := ((~~~j).setWidth 128 <<< 64) ||| j.setWidth 128

/-- The stream index of a lane's coordinates (R176). -/
def streamIndex (dev core lane : Nat) : Nat := (dev * 192 + core) * 32 + lane

/-- The register of a lane at a position of a seed (R176). -/
def laneState (dev core lane : Nat) (j : BitVec 64) (pos : Nat) : BitVec 128 :=
  jumpBits (32 * (streamIndex dev core lane * 2 ^ 96 + pos)) (baseState j)

end Sys2Proof.Machine
end

