-- ==== Sys2Proof/Machine/State.lean ====
section
/-! DEFINITION. The state of the module as plain data, and the state right after reset. Every field's
docstring names its register or rule, its width where the manual gives one, and its reset value.
Sparse tables list only what differs from the value the docstring names; Machine/Ops.lean reads and
writes them. -/

namespace Sys2Proof.Machine

/-- A sparse table: keys rising, an unlisted key holds the table's default. -/
abbrev Tab (α : Type) := List (Nat × α)

/-- Why the machine stops. No command of the manual stops the machine: failures are completion codes. -/
inductive Fault where
  /-- Raised by a command whose operand lists do not have the length its encoding fixes (a flit payload, a
  64-byte line, a 48-byte digest): no hardware command is spelled so. Safe: the model stops early. -/
  | illFormed
  deriving DecidableEq, Repr

/-- Why a command is refused. -/
inductive Refusal where
  /-- Raised by exec's arm of a command that has no meaning yet. Safe: nothing is claimed of it. -/
  | notModelled (mnemonic : String)
  deriving DecidableEq, Repr

/-! ## Threads (09) -/

/-- 09 R194. -/
inductive GangStatus where
  | free | live | ending
  deriving DecidableEq, Repr

/-- CORE_GFAULTg (09 R214, R215); every field resets to 0. -/
structure GFault where
  /-- VALID, 1 bit, 09 R214; reset 0. -/
  valid : Bool := false
  /-- FETCH, 1 bit, 09 R214; reset 0. -/
  fetch : Bool := false
  /-- THREAD, 5 bits, 09 R214; reset 0. -/
  thread : Nat := 0
  /-- CODE, 16 bits, 09 R214; reset 0x0000 (DONE). -/
  code : Code := .done
  /-- ADDR_LO and ADDR_HI, 64 bits, 09 R215; reset 0. -/
  addr : Addr := 0
  deriving DecidableEq, Repr

/-- Where a command's completion goes (09 R197): the CPL register of every thread active at issue. -/
structure Cpl where
  core : CoreId
  gang : GangId
  mask : BitVec 32
  reg : Reg
  /-- Device time of issue, for the fixed latency of R404. -/
  issued : Nat
  deriving DecidableEq, Repr

/-- Who a command reports to: a thread's CPL register, the nest that issued it (10 R216, R225), a barrier
instruction without a CPL register, or the steward. -/
inductive Owner where
  | thread (c : Cpl)
  | nest (core : CoreId)
  | quiet
  deriving DecidableEq, Repr

/-- A gang waiting in bar.wait (09 R207). -/
structure BarWait where
  bar : BarId
  phase : Nat
  deadline : Option Nat
  cpl : Option Reg
  mask : BitVec 32
  deriving DecidableEq, Repr

/-- One thread's part of an access. -/
structure AccItem where
  thread : ThreadId
  addr : Addr
  val : BitVec 64
  cmp : BitVec 64
  deriving DecidableEq, Repr

/-- A memory instruction issued and not yet complete (THREAD_ACCESS_COMPLETE completes it). -/
structure Access where
  kind : AccKind
  /-- Width in bytes: 1, 2, 4 or 8. -/
  width : Nat
  items : List AccItem
  vd : Option Reg
  ps : Option PReg
  mask : BitVec 32
  issued : Nat
  /-- The per-thread failures and values once performed, while a refusal waits for its latency (18 R404). -/
  answer : Option (List (Nat × Code) × List (Nat × BitVec 64))
  deriving DecidableEq, Repr

/-- 09 R203. -/
inductive FenceKind where
  | acq | rel | sc
  deriving DecidableEq, Repr

/-- A gang's memory instructions in program order, with the fences between them. -/
inductive MemOp where
  | acc (a : Access)
  | fence (k : FenceKind) (scope : BitVec 3)
  deriving DecidableEq, Repr

/-- A gang (09 R191-R198). -/
structure Gang where
  /-- 09 R194; reset free. -/
  status : GangStatus := .free
  /-- Program counter, 09 R192, 20 R442; reset 0 (DESIGN CHOICE, log 3). -/
  pc : Addr := 0
  /-- Active mask, 32 bits, 09 R192; reset 0. -/
  mask : BitVec 32 := 0
  /-- v0-v127 of 32 threads, key 128 t + r, 09 R191; reset 0 (DESIGN CHOICE, log 3). -/
  regs : Tab Word := []
  /-- p0-p7 of 32 threads, key 8 t + p, 09 R191; reset 0 (DESIGN CHOICE, log 3). -/
  preds : Tab Bool := []
  /-- Return stack, at most 16 entries, 09 R210; reset empty. -/
  stack : List Addr := []
  /-- CPL registers not yet written, 09 R197; reset none. -/
  cplWait : List Reg := []
  /-- CPL registers in which a command completed with DONE: reading one is an acquire, 09 R204; reset none. -/
  cplDone : List Reg := []
  /-- Engine commands issued and not complete, 09 R194; reset 0. -/
  outstanding : Nat := 0
  /-- Memory instructions in flight, 09 R198, R202-R203; reset none. -/
  memops : List MemOp := []
  /-- The barrier this gang waits at, 09 R207; reset none. -/
  wait : Option BarWait := none
  /-- Held at a synchronous command, 05 R111; reset false. -/
  held : Bool := false
  /-- CORE_GFAULTg, 09 R214-R215; reset 0. -/
  gfault : GFault := {}
  deriving DecidableEq, Repr

/-- A queued spawn (09 R195-R196). -/
structure SpawnReq where
  owner : Cpl
  entry : Addr
  arg : Word
  count : Nat
  ident : Nat
  deriving DecidableEq, Repr

/-- A named barrier (09 R207). -/
structure Barrier where
  /-- Expected count, 16 bits; reset 0 (any arrive or wait completes with SHAPE). -/
  count : Nat := 0
  /-- Arrivals of the current phase; reset 0. -/
  arrived : Nat := 0
  /-- Phase number; reset 0. -/
  phase : Nat := 0
  deriving DecidableEq, Repr

/-- Sticky flags in the layout of 02 R58. -/
structure Flags where
  /-- ACC_SAT, bit 0; reset 0. -/
  accSat : Bool := false
  /-- NARROW_SAT, bit 1; reset 0. -/
  narrowSat : Bool := false
  /-- NONFINITE, bit 2; reset 0. -/
  nonfinite : Bool := false
  /-- SIDE_UNDERRUN, bit 3; reset 0. -/
  sideUnder : Bool := false
  deriving DecidableEq, Repr

/-! ## The matrix array (02, 03, 04) -/

/-- 03 R85. -/
inductive HalfState where
  | empty | loading | ready | bad
  deriving DecidableEq, Repr

/-- What a weight half was last loaded for (03 R71). -/
structure TileKey where
  wide : Bool
  fmtA : BitVec 4
  fmtW : BitVec 4
  spo : BitVec 2
  deriving DecidableEq, Repr

/-- A weight buffer half with its metadata half (03 R69, 04). -/
structure Half where
  /-- ARR_STAT.WB0 / WB1, 2 bits, 03 R85; reset EMPTY. -/
  state : HalfState := .empty
  /-- The last arr.loadw issued into the half, 03 R71; reset none. -/
  key : Option TileKey := none
  /-- The code of the last load that ended, 03 R71; reset none. -/
  last : Option Code := none
  /-- Issue number of the last load issued into the half, 03 R70; reset 0. -/
  issued : Nat := 0
  /-- Issue number of the load whose tile the half holds, 03 R70; reset 0. -/
  cur : Nat := 0
  /-- The weight half's bytes, at most 32 KiB, 11 R235; reset empty, which reads 0 (11 R236). -/
  bytes : List Byte := []
  /-- The metadata half's bytes, at most 8 KiB, 11 R235; reset empty, which reads 0 (11 R236). -/
  md : List Byte := []
  /-- NHALF of the tile descriptor (04 R96) of an MSK tile; reset 0. -/
  nhalf : Bool := false
  deriving DecidableEq, Repr

/-- An arr.loadw waiting or under way (03 R69, R70). `op.src` holds the local address. -/
structure LoadCmd where
  owner : Owner
  part : PartId
  seq : Nat
  op : LoadwOp
  /-- The tile descriptor (04 R96): slots, DADDR, NHALF and SFMT; none for a dense tile. -/
  slots : Option (List Nat × Nat × Bool × BitVec 4)
  started : Bool
  code : Code
  deriving DecidableEq, Repr

/-- A run in the queue (03 R72-R79). -/
structure RunCmd where
  owner : Owner
  part : PartId
  seq : Nat
  op : RunOp
  wide : Bool
  /-- Issue number of the load whose tile it uses, 03 R70. -/
  load : Nat
  /-- Present reduction positions of a partial R tile (10 R224); none is all. -/
  rlen : Option Nat
  started : Bool
  /-- Rows that have entered. -/
  entered : Nat
  /-- Output rows written. -/
  written : Nat
  /-- Its weights are in the PEs (03 R70, R73): weight and metadata bytes. -/
  moved : Bool
  weights : List Byte
  md : List Byte
  nhalf : Bool
  deriving DecidableEq, Repr

/-- One group row's new content, on its way down the pipeline (03, pipeline and dependences). -/
structure RowInFlight where
  run : Nat
  group : GroupId
  row : Nat
  due : Nat
  vals : List (Nat × Word)
  flags : Flags
  satK : Option Nat
  lastRow : Bool
  deriving DecidableEq, Repr

/-- 02 R53. -/
inductive AgState where
  | closed | opened | draining
  deriving DecidableEq, Repr

/-- An accumulation group (02 R52-R60). -/
structure Group where
  /-- ARR_AGn_STAT.STATE, 2 bits, 02 R59; reset CLOSED. -/
  state : AgState := .closed
  /-- ACCT, 1 bit, 02 R59; reset 0 (FP32). -/
  acctInt : Bool := false
  /-- PRELOAD, 1 bit, 02 R59; reset 0. -/
  preload : Bool := false
  /-- WIDTH, 1 bit, 02 R59; reset 0 (128 columns). -/
  wide : Bool := false
  /-- Rows of the open group, 02 R52; reset 0. -/
  rows : Nat := 0
  /-- SAT_KTILE, 20 bits, 02 R59; reset 0. -/
  satK : Nat := 0
  /-- ARR_AGn flags, 02 R59; reset 0. -/
  flags : Flags := {}
  /-- EMPTY, 1 bit, 02 R60; reset 1. -/
  empty : Bool := true
  /-- LASTK, 20 bits, 02 R60; reset 0. -/
  lastk : Nat := 0
  /-- 32,768 elements of 4 bytes, key row * width + column, 02 and 11 R235; reset 0 (11 R236). -/
  elems : Tab Word := []
  /-- A preload of the group is not complete, 02 R52; reset false. -/
  loading : Bool := false
  /-- An addition has saturated since the open, 02 R49; reset false. -/
  satSeen : Bool := false
  deriving DecidableEq, Repr

/-- A preload or a close on the shared transfer path (03 R78). A preload reads `rows` rows of `cols` elements, `stride`
elements apart; `fac` group rows hold one of them (2 in an SPN nest); `moved` counts its elements in the group, `bad` is the code
its memory gave. A close drains `rows` group rows; `done` counts
elements drained, `ended` is the code it ends with. -/
inductive Xfer where
  | preload (owner : Owner) (part : PartId) (g : GroupId) (addr : Nat) (fmt : BitVec 4) (stride fac cols rows : Nat)
      (started : Bool) (moved : Nat) (bad : Code)
  | close (owner : Owner) (part : PartId) (seq : Nat) (op : CloseOp) (fac cols rows : Nat) (started : Bool) (done : Nat)
      (ended : Option Code)
  deriving DecidableEq, Repr

/-- 03 R82. -/
inductive Warmth where
  | cold | upWaiting | warm | downWaiting | rampDown
  deriving DecidableEq, Repr

/-- The matrix array of a core. -/
structure Arr where
  /-- ARR_MODE.ARRANGE, 1 bit, 03 R84; reset 0 (DEEP). -/
  wide : Bool := false
  /-- The arr.mode that waits (ARR_MODE.PENDING), with the issue number it follows, 03 R65, R84; reset none. -/
  pending : Option (Owner × Bool × Nat) := none
  /-- Issue numbers of array commands, 02 R55; reset 0. -/
  seq : Nat := 0
  /-- WB0 and WB1, 03 R85; reset EMPTY. -/
  halves : Vector Half 2 := Vector.replicate 2 {}
  /-- arr.loadw commands at the crown port, 03 R74; reset none. -/
  loads : List LoadCmd := []
  /-- The run queue, at most 16, 03 R74 (ARR_STAT.QDEPTH); reset empty. -/
  runs : List RunCmd := []
  /-- Rows on their way to their groups; reset none. -/
  pipe : List RowInFlight := []
  /-- Array cycles passed, the clock of `pipe`; reset 0. -/
  cycle : Nat := 0
  /-- The half and load whose tile the PEs hold, with its bytes (03 R73); none after a switch or wake; reset none. -/
  held : Option (Fin 2 × Nat × List Byte × List Byte × Bool) := none
  /-- The shared path of preloads and closes, 03 R78; reset empty. -/
  xfers : List Xfer := []
  /-- AG0-AG7, 02 R52; reset CLOSED. -/
  groups : Vector Group 8 := Vector.replicate 8 {}
  /-- 03 R82 (ARR_STAT.COLD); reset cold. -/
  warmth : Warmth := .cold
  /-- Device time of the last real row or of the grant, 03 R82; reset 0. -/
  idleSince : Nat := 0
  /-- Array cycle in which the last real row entered since the last upward grant, 03 R83; reset none. -/
  fedAt : Option Nat := none
  /-- Device time of the downward grant, 17 R380; reset 0. -/
  rampAt : Nat := 0
  /-- ARR_STAT.FILLING, 1 bit, 03 R85; reset 0. -/
  filling : Bool := false
  /-- ARR_STAT.FROZEN, 1 bit, 03 R85; reset 0. -/
  frozen : Bool := false
  /-- ARR_FREEZE count, 64 bits, 03 R86; reset 0. -/
  freezes : Nat := 0
  /-- ARR_FREEZE_CAUSE, 5 bits, 03 R87; reset 0. -/
  cause : BitVec 5 := 0
  /-- ARR_FILL_CTL.ENABLE, 1 bit RWL, 03 R88; reset 1. -/
  fillEn : Bool := true
  /-- ARR_FILL count, 64 bits, 03 R89; reset 0. -/
  fills : Nat := 0
  /-- ARR_COLD_WAIT.CYCLES, 32 bits, 03 R90; reset 0. -/
  coldWait : Nat := 0
  /-- The fill generator, 32 bits, 03 R81; seeded at every wake (log 12); reset 0 until the first wake (DESIGN CHOICE, log 3). -/
  lfsr : BitVec 32 := 0
  deriving DecidableEq, Repr

/-! ## The tile sequencer (10) -/

/-- A sparse weight header as read (04 R95); MAP and DIR are local addresses. -/
structure SparseHdr where
  map : Nat
  dir : Nat
  kb : Nat
  nb : Nat
  fmtW : BitVec 4
  deriving DecidableEq, Repr

/-- One step of a nest (10 R218), in issue order: open a group with a preload address; load tile (k, n) at a dense
address or from a header; run tile (k, n) into a group; close a group. -/
inductive SeqOp where
  | opn (g : GroupId) (rows cols : Nat) (pre : Nat)
  | tile (k n : Nat) (src : Nat) (hdr : Option SparseHdr)
  | run (k n : Nat) (g : GroupId) (rows : Nat) (aoff : Nat) (rlen : Option Nat)
  | close (g : GroupId) (rows cols : Nat) (cbase : Nat)
  deriving DecidableEq, Repr

/-- A nest descriptor as read (10 R217). -/
structure NestDesc where
  wsrc : Nat
  pre : Nat
  wstrR : Nat
  wstrO : Nat
  abase : Nat
  fmtA : BitVec 4
  fmtW : BitVec 4
  spo : BitVec 2
  wide : Bool
  asrc : Bool
  start : Bool
  bypass : Bool
  cmode : BitVec 2
  astrm : StreamId
  sstrm : StreamId
  ostrm : StreamId
  pstrm : StreamId
  fmtOut : BitVec 4
  rnd : BitVec 2
  ovf : BitVec 2
  tab : Fin 16
  pfmt : BitVec 4
  cbase : Nat
  gbase : Nat
  ni : Nat
  nlev : Nat
  mrows : Nat
  /-- Per level: MAXLEN, LENREG, WSTR, PSTR. -/
  levels : List (Nat × Nat × Nat × Nat)
  deriving DecidableEq, Repr

/-- A nest in the queue, not started. -/
structure NestCmd where
  owner : Owner
  part : PartId
  desc : Addr
  spo : Option (BitVec 2)
  deriving DecidableEq, Repr

/-- The running nest. -/
structure NestRun where
  owner : Owner
  part : PartId
  d : NestDesc
  /-- What is still to be issued (10 R218). -/
  ops : List SeqOp
  /-- Commands issued and not complete. -/
  open_ : Nat
  /-- Groups held (10 R221). -/
  groups : List Nat
  /-- The code that stopped it (10 R225), once stopped. -/
  failed : Option Code
  /-- SEQ_CTL.ABORT, 1 bit SC, 10 R232: set until the stopped nest has completed. -/
  aborted : Bool
  deriving DecidableEq, Repr

structure Seq where
  /-- Nests waiting, at most 4 (SEQ_STAT.QDEPTH), 10 R230; reset empty. -/
  queue : List NestCmd := []
  /-- The running nest (SEQ_STAT.BUSY, HELD), 10 R230; reset none. -/
  run : Option NestRun := none
  /-- SEQ_POS.KTILE, 20 bits, 10 R231; reset 0. -/
  pos : Nat := 0
  /-- SEQ_EPOCH.EPOCH, 16 bits, 10 R233; reset 0x0000. -/
  epoch : BitVec 16 := 0
  /-- SEQ_STALE, 32 bits, 10 R234; reset 0. -/
  stale : Nat := 0
  /-- SEQ_SKIP, 32 bits, 10 R234; reset 0. -/
  skip : Nat := 0
  /-- SEQ_LEN0-SEQ_LEN15, 32 bits each, 10 R234; reset 0. -/
  lens : Tab Word := []
  /-- Which weight half the next tile takes, 10 R218; reset WB0. -/
  half : Fin 2 := 0
  deriving DecidableEq, Repr

/-! ## Irregular engine, matcher, random unit (05, 08) -/

/-- An 8-byte word of an operand buffer (11 R235, R236): of the array input buffer, of a weight or metadata half, of an accumulator
group, a matcher entry, an entry of a rescale table. -/
inductive BufWord where
  | input (w : Nat)
  | weight (h : Fin 2) (w : Nat)
  | metadata (h : Fin 2) (w : Nat)
  | acc (g : GroupId) (w : Nat)
  | matcher (slot : Nat)
  | table (entry : Nat)
  deriving DecidableEq, Repr

/-- An irregular or matcher command (05 R112). -/
inductive IrrOp where
  | spMm (o : SpMmOp) | spSddmm (o : SpSddmmOp) | spGemm (o : SpGemmOp)
  | mtchLoad (o : MtchLoadOp) | mtchProbe (o : MtchProbeOp) | mtchIsect (o : MtchIsectOp) | mtchClear
  | segSum (o : SegOp) | segMax (o : SegOp) | segMin (o : SegOp)
  | gatRows (o : RowsOp) | sctRows (o : RowsOp) | sctAdd (o : SctAddOp)
  deriving DecidableEq, Repr

structure Mtch where
  /-- The command running or waiting, in issue order, each with its issue number (MTCH_STAT.BUSY), 05 R111, R128, 13 R280;
  reset none. -/
  queue : List (Cpl × PartId × IrrOp × Nat) := []
  /-- 4,096 entries (key, payload) by slot; an unlisted slot is invalid, 05, 11 R235; reset none. -/
  slots : Tab (Word × Word) := []
  /-- Entries of the spill table (MTCH_SPILL_COUNT), 20 bits, 05 R129; reset 0. -/
  spillCount : Nat := 0
  /-- MTCH_DUP, 32 bits, 05 R130; reset 0. -/
  dup : Nat := 0
  /-- MTCH_SEED, 32 bits, 05 R131; reset 0. -/
  seed : Word := 0
  /-- MTCH_SPILL.BASE, 17 bits, 05 R132; reset 0. -/
  spillBase : Nat := 0
  /-- MTCH_SPILL.LOG2, 5 bits, 05 R132; reset 0. -/
  spillLog : Nat := 0
  /-- Hit count of the last mtch.isect's completion record, 05 R119; reset 0. -/
  hits : Nat := 0
  /-- Side-list bytes the command at the head has read off its paired stream, 05 R111 (log 167); reset none. -/
  sideIn : List Byte := []
  /-- Side-list bytes it has emitted into its paired stream, 05 R111 (log 167); reset 0. -/
  sideOut : Nat := 0
  deriving DecidableEq, Repr

/-- One random lane (08 R173, R176). -/
structure Lane where
  /-- 128-bit state, 08 R173; reset: position 0 of J = 0 (08 R178), set at start and wake. -/
  s : BitVec 128 := 0
  /-- RNG_LANEl_POS, 64 bits, 08 R190; reset 0. -/
  pos : Nat := 0
  deriving DecidableEq, Repr

/-- A consumer of the random unit (08 R174). -/
inductive Consumer where
  | seed (c : Cpl) (o : RngSeedOp)
  | fill (c : Cpl) (p : PartId) (o : RngFillOp)
  | cat (c : Cpl) (p : PartId) (o : RngCatOp) (desc : List Byte)
  | irregular
  | quantiser (id : Nat)
  | close (id : Nat)
  deriving DecidableEq, Repr

structure Rng where
  /-- 32 lanes, 08 R173; reset: each lane as its own fields say. -/
  lanes : Vector Lane 32 := Vector.replicate 32 {}
  /-- Consumers in issue order, 08 R174; reset none. -/
  queue : List Consumer := []
  /-- The consumer that holds the unit (RNG_STAT.BUSY), 08 R186; reset none. -/
  busy : Option Consumer := none
  /-- RNG_STAT.STUCK, 1 bit, 08 R186; reset 0. -/
  stuck : Bool := false
  /-- RNG_CFG.FRESH, 1 bit, 08 R187; reset 0. -/
  fresh : Bool := false
  /-- RNG_SEED, 64 bits, 08 R188; reset 0. -/
  seed : BitVec 64 := 0
  /-- RNG_STUCK, 32 bits, 08 R189; reset 0. -/
  stuckCount : Nat := 0
  /-- RNG_TRUNC, 32 bits, 08 R189; reset 0. -/
  trunc : Nat := 0
  deriving DecidableEq, Repr

/-! ## Quantiser (07) -/

/-- A tensor slot (07 R164-R172). -/
structure Slot where
  /-- QNT_SLOTs_CFG.STATIC, 1 bit, 07 R171; reset 0. -/
  static_ : Bool := false
  /-- HLEN, 6 bits, 07 R171; reset 0. -/
  hlen : Nat := 0
  /-- MARGIN, 2 bits, 07 R171; reset 0. -/
  margin : Nat := 0
  /-- FMT, 4 bits, 07 R171; reset 0 (disabled). -/
  fmt : BitVec 4 := 0
  /-- QNT_SLOTs_EXP.EXP, 8 bits signed, 07 R172; reset 0. -/
  exp : Int := 0
  /-- QNT_SLOTs_AMAX, FP32, 07 R172; reset +0. -/
  amax : Word := 0
  /-- The history, oldest first (QNT_SLOTs_HMAX is its largest), 07 R165, R172; reset empty. -/
  hist : List Word := []
  /-- QNT_SLOTs_NF, 32 bits, 07 R172; reset 0. -/
  nf : Nat := 0
  /-- QNT_SLOTs_SAT, 32 bits, 07 R172; reset 0. -/
  sat : Nat := 0
  /-- The step recorded at least one element, 07 R165; reset false. -/
  seen : Bool := false
  /-- The step recorded a non-finite element, 07 R165; reset false. -/
  seenNf : Bool := false
  deriving DecidableEq, Repr

/-- A quantiser command (07 R154). -/
inductive QntOp where
  | ldtab (o : QntTabOp) | sttab (o : QntTabOp)
  | pass (o : QntPassOp) (chanIn chanOut : List Word) (exp : Int)
  | step
  deriving DecidableEq, Repr

structure QntCmd where
  owner : Owner
  part : PartId
  /-- Place in the quantiser's issue order with the closes (07 R154). -/
  seq : Nat
  op : QntOp
  deriving DecidableEq, Repr

/-- A pass under way (07 R159-R160). -/
structure PassRun where
  cmd : QntCmd
  /-- EXP of its output slot as it was accepted (07 R159). -/
  exp : Int
  /-- Elements consumed so far. -/
  done : Nat
  /-- What is converted and not yet emitted: pieces for the output stream and for its paired stream. -/
  buf : List (List Byte × List Byte)
  ended : Option Code
  deriving DecidableEq, Repr

structure Qnt where
  /-- Commands waiting (QNT_STAT.QDEPTH), at most 16, 07 R169; reset empty. -/
  queue : List QntCmd := []
  /-- The pass that runs (QNT_STAT.BUSY), 07 R169; reset none. -/
  pass : Option PassRun := none
  /-- 16 rescale tables of 4,096 entries, key 4096 t + i, multiplier and bias FP32, 07 R152; reset 0 (11 R236). -/
  tables : Tab (Word × Word) := []
  /-- QNT_LSCALE.CLEAN, 16 bits, 07 R170; reset 0. -/
  clean : Nat := 0
  /-- QNT_LSCALE.FLOOR, 8 bits, 07 R170; reset 0. -/
  floor : Nat := 0
  /-- QNT_LSCALE.L, 5 bits, 07 R170; reset 0x10. -/
  l : Nat := 16
  /-- 64 tensor slots; an unlisted slot is at its reset, 07 R171-R172. -/
  slots : Tab Slot := []
  deriving DecidableEq, Repr

/-! ## Streams and layout engine (13) -/

/-- 13 R277. -/
inductive StrmState where
  | idle | opened | closing
  deriving DecidableEq, Repr

inductive StrmKind where
  | mem | inp | out
  deriving DecidableEq, Repr

/-- A stream descriptor as read (13 R278). -/
structure StrmDesc where
  saddr : Addr := 0
  daddr : Addr := 0
  rowb : Nat := 0
  nrows : Nat := 0
  sstr : Nat := 0
  dstr : Nat := 0
  kind : StrmKind := .mem
  adaptive : Bool := false
  gbar : Option BarId := none
  sbar : Option BarId := none
  gphase : Nat := 0
  chunk : Nat := 0
  iboff : Nat := 0
  iblen : Nat := 32
  slack : Nat := 0
  deriving DecidableEq, Repr

/-- A stream (13 R277-R297). -/
structure Stream where
  /-- STRMs_STAT.STATE, 2 bits, 13 R294; reset IDLE. -/
  state : StrmState := .idle
  /-- The last open's descriptor (KIND of STRMs_STAT), 13 R278, R294; reset KIND 0. -/
  desc : StrmDesc := {}
  /-- The CPL target of the open and its partition, 13 R281; reset none. -/
  owner : Owner := .quiet
  part : PartId := 0
  /-- CPL targets of waiting strm.close commands, 13 R282; reset none. -/
  closers : List Cpl := []
  /-- STRMs_STAT.CODE, 16 bits, 13 R294; reset DONE. -/
  code : Code := .done
  /-- STRMs_FLAGS, 13 R295; reset 0. -/
  flags : Flags := {}
  /-- Bytes requested, 13 R284; reset 0. -/
  asked : Nat := 0
  /-- Requests outstanding: offset and length, oldest first; reset none. -/
  reqs : List (Nat × Nat) := []
  /-- Bytes landed in the ring or at the destination; reset 0. -/
  landed : Nat := 0
  /-- Bytes of the ring its consumers have read, 13 R280; reset 0. -/
  readPos : Nat := 0
  /-- Bytes already read off the ring for an item that the ring cannot hold whole (log 154); reset none. -/
  stage : List Byte := []
  /-- The output FIFO, at most 2 KiB, 13 R277; reset empty. -/
  fifo : List Byte := []
  /-- Bytes producers have emitted, 13 R281; reset 0. -/
  emitted : Nat := 0
  /-- Bytes read by consumers or emitted by producers, by stream-engine cycle, for Q of 13 R284; reset none. -/
  recent : List (Nat × Nat) := []
  /-- Requests of others since this stream last won, 13 R284; reset 0. -/
  lost : Nat := 0
  /-- STRMs_SLACK, 16 bits, 13 R296; reset 0xFFFF. -/
  slackNow : Nat := 0xFFFF
  /-- Chunks whose last byte is written and that have arrived at SBAR, 13 R286; reset 0. -/
  signalled : Nat := 0
  /-- A code that stops the stream (13 R281-R282), before it completes; reset none. -/
  stop : Option Code := none
  deriving DecidableEq, Repr

/-- A lay.copy waiting or running (13 R287). -/
structure LayCmd where
  owner : Cpl
  part : PartId
  desc : Addr
  deriving DecidableEq, Repr

structure Lay where
  /-- Commands waiting, the next to run first, at most 8 behind the one that runs (LAY_STAT.QDEPTH), 13 R287, R298; reset
  empty. -/
  queue : List LayCmd := []
  /-- The running command with its descriptor's bytes (LAY_STAT.BUSY), 13 R298; reset none. -/
  run : Option (LayCmd × List Byte) := none
  /-- LAY_STAT.INPLACE, 1 bit, 13 R298; reset 0. -/
  inplace : Bool := false
  /-- LAY_STAT.CODE, 16 bits, 13 R298; reset DONE. -/
  code : Code := .done
  deriving DecidableEq, Repr

/-! ## Receive windows and credits (11) -/

/-- A receive window (11 R246, R256, R257); units of 64 bytes, `size` of a core-memory window in 64 KiB steps. -/
structure Window where
  /-- EN, 1 bit, 11 R256-R257; reset 0. -/
  en : Bool := false
  /-- OPEN, 1 bit (scratch windows), 11 R256; reset 0. -/
  open_ : Bool := false
  /-- PART, 5 bits, 11 R256-R257; reset 0. -/
  part : Nat := 0
  /-- CFGERR, 2 bits, 11 R256-R257; reset 0b00. -/
  cfgerr : Nat := 0
  /-- BASE, 25 or 17 bits, 11 R256-R257; reset 0. -/
  base : Nat := 0
  /-- SIZE, 26 or 5 bits, 11 R256-R257; reset 0. -/
  size : Nat := 0
  /-- AVAIL, 26 or 17 bits, 11 R256-R257; reset 0. -/
  avail : Nat := 0
  /-- GEN, 32 bits, 11 R256-R257; reset 0, kept through every power state short of S3. -/
  gen : Nat := 0
  deriving DecidableEq, Repr

/-- Names a window of this module, or of another one by device (11 R247). -/
inductive WinRef where
  | scratch (q : QuarterId) (w : Fin 64)
  | cmem (c : CoreId) (w : Fin 8)
  | remote (dev : Nat) (fabricB : Bool) (base size : Nat)
  deriving DecidableEq, Repr

/-- An entry of a core's credit table (11 R247); `bytes` is its balance. -/
structure Credit where
  win : WinRef
  gen : Nat
  bytes : Nat
  deriving DecidableEq, Repr

/-- A latched ECC address (11 R255, 12 R276). -/
structure EccLatch where
  /-- VALID, 1 bit; reset 0. -/
  valid : Bool := false
  /-- UE, 1 bit; reset 0. -/
  ue : Bool := false
  /-- DEAD, 1 bit (HBM), 12 R276; reset 0. -/
  dead : Bool := false
  /-- STACK, 2 bits (HBM), 12 R276; reset 0. -/
  stack : Nat := 0
  /-- CHAN, 5 bits (HBM), 12 R276; reset 0. -/
  chan : Nat := 0
  /-- LINE, 30 bits (crown) or 25 bits (HBM); reset 0. -/
  line : Nat := 0
  deriving DecidableEq, Repr

/-- A snapshot copy (20 R433-R442). -/
structure Snap where
  /-- SNAP_STAT.VALID, 1 bit, 20 R440; reset 0. -/
  valid : Bool := false
  /-- LATE, 1 bit, 20 R440; reset 0. -/
  late : Bool := false
  /-- OFF, 1 bit, 20 R440; reset 0. -/
  off : Bool := false
  /-- TENANT, 1 bit, 20 R440; reset 0. -/
  tenant : Bool := false
  /-- SOURCE, 4 bits, 20 R440; reset 0. -/
  source : BitVec 4 := 0
  /-- SNAP_AT, 64 bits, 20 R434; reset 0. -/
  at_ : Nat := 0
  /-- The copy by register offset; of a core by offset in its SNAP sub-block, SNAP_GPC included (20 R433, R442); reset 0. -/
  regs : Tab Word := []
  /-- The physical core a core's copy came from, in copies the steward takes (01 R24); reset none. -/
  phys : Option Nat := none
  deriving DecidableEq, Repr

/-- A logical core. -/
structure Core where
  /-- The bound physical core of its quarter, 01 R23-R24; none is unbound; reset none (the map is built at start). -/
  phys : Option Nat := none
  /-- CORE_PART.PART, 5 bits, 09 R211; reset 0. -/
  part : PartId := 0
  /-- CORE_PART.DET, 1 bit, 09 R211; reset 0. -/
  det : Bool := false
  /-- Gangs 0-15, 09 R191 (CORE_GANG.LIVE, 16 bits, 09 R212); reset free. -/
  gangs : Vector Gang 16 := Vector.replicate 16 {}
  /-- The spawn queue, at most 16 (CORE_GANG.SPQ, 5 bits), 09 R196, R212; reset empty. -/
  spawns : List SpawnReq := []
  /-- CORE_VARIES, 32 bits, 09 R213; reset 0. -/
  varies : Nat := 0
  /-- CORE_TFLAGS.NONFINITE, 16 bits, 02 R61; reset 0. -/
  tNonfinite : BitVec 16 := 0
  /-- CORE_TFLAGS.NARROW_SAT, 16 bits, 02 R61; reset 0. -/
  tNarrowSat : BitVec 16 := 0
  /-- CORE_CFLAGS, 02 R62; reset 0. -/
  cflags : Flags := {}
  /-- CORE_PHASE.TAG, 3 bits, 16 R372; reset 0b101. -/
  phase : BitVec 3 := 0b101
  /-- Named barriers 0-63, 09 R207; unlisted is count 0. -/
  barriers : Tab Barrier := []
  /-- The matrix array and its groups, 02, 03. -/
  arr : Arr := {}
  /-- The array input buffer, 256 KiB, 11 R235; reset 0 (11 R236). -/
  ibuf : Tab Byte := []
  /-- The tile sequencer, 10. -/
  seq : Seq := {}
  /-- The matcher, 05. -/
  mtch : Mtch := {}
  /-- The random unit, 08. -/
  rng : Rng := {}
  /-- The quantiser, 07. -/
  qnt : Qnt := {}
  /-- Streams 0-7, 13. -/
  streams : Vector Stream 8 := Vector.replicate 8 {}
  /-- Cycles of the stream engine passed (STREAM_REQUEST), the clock of 13 R284; reset 0. -/
  strmCycle : Nat := 0
  /-- The layout engine, 13. -/
  lay : Lay := {}
  /-- CMEM_RXWIN0-7, 11 R257. -/
  wins : Vector Window 8 := Vector.replicate 8 {}
  /-- The credit table, at most 16 entries (CMEM_STAT.CRED, 5 bits), 11 R247, R258; reset empty. -/
  credits : List Credit := []
  /-- Words of the operand buffers with bit errors, 11 R236 (log 101); reset none. -/
  bufErr : List (BufWord × Upset) := []
  /-- CMEM_STAT.ECC_UE, 1 bit, 11 R258; reset 0. -/
  eccUe : Bool := false
  /-- CMEM_STAT.ECC_CE, 16 bits, 11 R258; reset 0. -/
  eccCe : Nat := 0
  deriving DecidableEq, Repr

/-! ## Quarters: crown, stacked memory, update engine (11, 12, 06, 16) -/

/-- A command of the update engine (06 R143), with the bytes of its descriptor, its headers and its gradient row
descriptor as read when it was accepted (00 R466). -/
inductive UpdOp where
  | opt (desc : List Byte) (step : Nat) (rng : List (BitVec 128)) (ls : Nat)
  | apply (o : MskApplyOp) (desc : List Byte)
  | tiles (o : MskTilesOp) (desc : List Byte)
  | reload (region : Nat) (line : Nat)
  deriving DecidableEq, Repr

structure UpdCmd where
  owner : Owner
  core : Option CoreId
  part : PartId
  op : UpdOp
  deriving DecidableEq, Repr

structure Upd where
  /-- upd.opt commands sent and not yet accepted, in arrival order, 16 R356; reset none. -/
  arrivals : List (Owner × CoreId × PartId × Addr × List (BitVec 128)) := []
  /-- The run queue in arrival order, 06 R143, 16 R356 (UPD_STAT.HELD); reset none. -/
  queue : List UpdCmd := []
  /-- The command that runs (UPD_STAT.BUSY, UPD_MSK_STAT.BUSY), 16 R370, 06 R147; reset none. -/
  run : Option UpdCmd := none
  /-- UPD_STAT.BLOCKS, 24 bits, 16 R370; reset 0. -/
  blocks : Nat := 0
  /-- UPD_VERDICT.VALID, 1 bit, 16 R371; reset 0. -/
  vValid : Bool := false
  /-- UPD_VERDICT.SKIP, 1 bit, 16 R371; reset 0. -/
  vSkip : Bool := false
  /-- UPD_VERDICT.LS, 5 bits, 16 R371; reset 0x10. -/
  vLs : Nat := 16
  /-- UPD_VERDICT.STEP, 16 bits, 16 R371; reset 0. -/
  vStep : Nat := 0
  /-- UPD_NF.NF, 1 bit, 16 R371; reset 0. -/
  nf : Bool := false
  /-- UPD_NF.ACC, 15 bits, 16 R371; reset 0. -/
  acc : Nat := 0
  /-- UPD_NF.NSTEP, 16 bits, 16 R371; reset 0. -/
  nstep : Nat := 0
  /-- UPD_MSK_STAT.TILES, 1 bit, 06 R147; reset 0. -/
  tiles : Bool := false
  /-- UPD_MSK_STAT.BLOCKS, 24 bits, 06 R147; reset 0. -/
  mskBlocks : Nat := 0
  /-- UPD_MSK_CHG.COUNT, 32 bits, 06 R148; reset 0. -/
  chg : Nat := 0
  deriving DecidableEq, Repr

structure Quarter where
  /-- CRWN_CUT, RWL, 11 R253; reset 0 in every field. -/
  cut : CutCfg := ⟨0, 0, 0, false, false⟩
  /-- CRWN_ECC_CE, 32 bits, 11 R255; reset 0. -/
  crownCe : Nat := 0
  /-- CRWN_ECC_UE, 32 bits, 11 R255; reset 0. -/
  crownUe : Nat := 0
  /-- CRWN_ECC_ADDR, 11 R255; reset 0. -/
  crownLatch : EccLatch := {}
  /-- CRWN_RXWIN0-63; unlisted is at its reset, 11 R256. -/
  wins : Tab Window := []
  /-- Next line of each bank's patrol, 11 R249; reset 0 (DESIGN CHOICE, log 3). -/
  patrol : Tab Nat := []
  /-- Bank replacing another (logical bank, physical bank), 11 R251; reset none. -/
  remap : List (Nat × Nat) := []
  /-- HBM_CFG.ILV, 2 bits RWL, 12 R273; reset 0b00. -/
  ilv : Nat := 0
  /-- HBM_STAT.SELFREF, 3 bits, 12 R274; reset 0. -/
  selfref : BitVec 3 := 0
  /-- HBM_STAT.REF2X, 3 bits, 12 R274; reset 0. -/
  ref2x : BitVec 3 := 0
  /-- Stacks leaving self-refresh, 17 R380; reset 0. -/
  waking : BitVec 3 := 0
  /-- Stacks held to one access per channel per 4 cycles, 17 R384; reset 0. -/
  slowed : BitVec 3 := 0
  /-- HBM_CHMAPj.LIVE, 3 x 32 bits, 12 R275; reset: the start-up map, 0 before start. -/
  chmap : List (BitVec 32) := [0, 0, 0]
  /-- HBM_ECC_CE, 32 bits, 12 R276; reset 0. -/
  hbmCe : Nat := 0
  /-- HBM_ECC_UE, 32 bits, 12 R276; reset 0. -/
  hbmUe : Nat := 0
  /-- HBM_ECC_LOC and HBM_ECC_LINE, 12 R276; reset 0. -/
  hbmLatch : EccLatch := {}
  /-- Channels (j, c) that stopped responding, 12 R267; reset none. -/
  dead : List (Nat × Nat) := []
  /-- Lines whose access has run into the 100 us of a channel, counted already and not yet ended, 12 R267; reset none. -/
  timedOut : List Nat := []
  /-- Next line of each channel's patrol, key 32 j + c, 12 R266; reset 0 (DESIGN CHOICE, log 3). -/
  hbmPatrol : Tab Nat := []
  /-- The update engine, 06, 16. -/
  upd : Upd := {}
  /-- QPWR_CLK.MAX, 5 bits RWL, 17 R390; reset 20. -/
  clkMax : Nat := 20
  /-- QPWR_CLK.FREQ, 6 bits, 17 R390; reset 40. -/
  freq : Nat := 40
  /-- Tripped and not yet below 85 degrees, 17 R384; reset false. -/
  tripped : Bool := false
  /-- Clock stepping down for heat, 17 R384; reset false. -/
  hot : Bool := false
  /-- Spare physical cores of the start-up map, ascending, 01 R23-R24; reset none. -/
  spares : List Nat := []
  /-- Spans to P0, P1 and to the ring neighbours that have failed, 01 R17; reset none. -/
  deadSpans : List Die := []
  deriving DecidableEq, Repr

/-! ## Piers: ports, switch, ingest, collectives, pair (14, 15) -/

/-- A lane receiver (14 R300-R301). -/
structure LaneRx where
  /-- LOCK, 1 bit, 14 R323; reset 0. -/
  locked : Bool := false
  /-- LOST, 1 bit W1C, 14 R323; reset 0. -/
  lost : Bool := false
  /-- FAILED, 1 bit, 14 R323; reset 0. -/
  failed : Bool := false
  /-- Candidates, oldest first: bit of the last match and matches so far, at most 4, 14 R300; reset none. -/
  cands : List (Nat × Nat) := []
  /-- Bit where the next marker is due, 14 R301; reset 0. -/
  due : Nat := 0
  /-- Consecutive misses, 14 R301; reset 0. -/
  misses : Nat := 0
  /-- Lane number carried in the marker, 14 R299, R301; reset 0. -/
  number : Nat := 0
  deriving DecidableEq, Repr

/-- A flit waiting to be sent, with the flow and route it belongs to (14 R304, R309-R310). -/
structure TxFlit where
  vc : Fin 8
  first : Bool
  payload : List Byte
  src : Nat
  dst : Nat
  adaptive : Bool
  /-- Device time it began to wait, 14 R310. -/
  since : Nat
  part : PartId
  deriving DecidableEq, Repr

/-- A fabric port (14 R299-R326). -/
structure Port where
  /-- PORTi_CFG.EN, 1 bit RWL, 14 R322; reset 0. -/
  en : Bool := false
  /-- PORTi_CFG.SIDEMODE, 1 bit RWL, 14 R322; reset 0 (PAIR). -/
  eth : Bool := false
  /-- Lane receivers, 14 R300, R323; reset unlocked. -/
  lanes : Vector LaneRx 8 := Vector.replicate 8 {}
  /-- PORTi_LANE_STAT.WIDTH, 2 bits, 14 R323; reset 0b00 (down). -/
  width : Nat := 0
  /-- PORTi_ERR.RETRAIN, 16 bits, 14 R324; reset 0. -/
  retrains : Nat := 0
  /-- PORTi_ERR.REPLAY, 16 bits, 14 R324; reset 0. -/
  replays : Nat := 0
  /-- PORTi_FEC.UNCORR, 16 bits, 14 R324; reset 0. -/
  fecUncorr : Nat := 0
  /-- PORTi_FEC.CORR, 16 bits, 14 R324; reset 0. -/
  fecCorr : Nat := 0
  /-- Device times of the replays of the last ms, 14 R305; reset none. -/
  burst : List Nat := []
  /-- Next sequence number to send, 12 bits, 14 R302; reset 0 (DESIGN CHOICE, log 3). -/
  txSeq : Nat := 0
  /-- Next sequence number expected, 12 bits, 14 R302; reset 0 (DESIGN CHOICE, log 3). -/
  rxSeq : Nat := 0
  /-- The replay buffer, at most 1,024 flits, oldest first: number and content, 14 R303; reset empty. -/
  replay : List (Nat × TxFlit) := []
  /-- Flits of the replay buffer to be sent again, 14 R303; reset none. -/
  resend : List Nat := []
  /-- A nak is owed to the partner, 14 R303; reset false. -/
  nakOwed : Bool := false
  /-- Flit credits per VC, 14 R304; reset 0 (DESIGN CHOICE, log 3). -/
  credit : Vector Nat 8 := Vector.replicate 8 0
  /-- Flits waiting per VC are one list in arrival order, 14 R304; reset none. -/
  txq : List TxFlit := []
  /-- Position of the round robin over VC 0, 2, 3, 5, 7, 14 R304; reset 0. -/
  rr : Nat := 0
  /-- Position in the cycle of 64 flit slots, 18 R399; reset 0. -/
  slot : Nat := 0
  /-- Flits handed on in sequence order that still take buffer space, oldest first: FIRST, the payload bytes used and the
  VC, 14 R303-R304; reset none. -/
  rxq : List (Bool × List Byte × Fin 8) := []
  /-- The last flit sent, 14 R302; reset none. -/
  sent : Option Flit := none
  /-- The partner has a nak already and no flit in sequence has come since, 14 R303; reset false. -/
  nakked : Bool := false
  /-- An ack is owed to the partner, 14 R303; reset false. -/
  ackOwed : Bool := false
  /-- Credits to be returned to the partner per VC, 14 R304; reset 0. -/
  owed : Vector Nat 8 := Vector.replicate 8 0
  /-- The port has narrowed to 4 lanes since the start, 14 R305; reset false. -/
  narrowed : Bool := false
  /-- Retraining, 14 R305; reset false. -/
  retraining : Bool := false
  /-- Device time of the last ack, 14 R305; reset 0. -/
  lastAck : Nat := 0
  /-- Device time of the last heartbeat received and sent, 14 R313; reset 0. -/
  beatIn : Nat := 0
  beatOut : Nat := 0
  /-- The neighbour is reported silent, 14 R313; reset false. -/
  silent : Bool := false
  /-- ETH links up (lanes 0-3, lanes 4-7), 14 R307; reset down. -/
  links : Bool × Bool := (false, false)
  deriving DecidableEq, Repr

/-- An ingest session (14 R317-R318). -/
structure Session where
  sid : Nat
  job : Nat
  port : PortId
  /-- Key and salt of what comes in and of what goes out, 32 + 4 bytes each. -/
  keyIn : List Byte
  saltIn : List Byte
  keyOut : List Byte
  saltOut : List Byte
  highest : Nat
  seen : List Nat
  /-- Open messages: number, total length, bytes landed, device time of the last datagram. -/
  msgs : List (Nat × Nat × Nat × Nat)
  /-- The highest message number opened. -/
  newest : Option Nat
  deriving DecidableEq, Repr

/-- A write waiting at the pair comparator (15 R346). -/
structure PairLine where
  side : PairSide
  addr : Nat
  data : List Byte
  since : Nat
  deriving DecidableEq, Repr

/-- A collective descriptor as read (15 R333). -/
structure CollDesc where
  src : Nat
  dst : Nat
  idx : Nat
  cnts : Nat
  cntr : Nat
  stage : Nat
  due : Nat
  record : Nat
  count : Nat
  dcap : Nat
  group : Nat
  red : Nat
  narrow : Bool
  policy : Nat
  var : Bool
  shard : Bool
  fmtIn : BitVec 4
  fmtOut : BitVec 4
  rnd : BitVec 2
  ovf : BitVec 2
  chunk : Nat
  depth : Nat
  root : Nat
  deriving DecidableEq, Repr

/-- 15 R332. -/
inductive CollKind where
  | allreduce | rscatter | allgather | alltoall | bcast | barrier
  deriving DecidableEq, Repr

/-- A local participant's issue of a collective (15 R335). -/
structure CollIssue where
  owner : Cpl
  part : PartId
  kind : CollKind
  desc : CollDesc
  core : CoreId
  deriving DecidableEq, Repr

/-- A collective that runs on its home engine (15 R335-R344). An element of a reduction is an FP32 or INT32 word with the
participant number that max and min return. -/
structure CollRun where
  num : Nat
  /-- Issues of the local participants in ascending core number. -/
  issues : List CollIssue
  /-- Local sums (reductions). -/
  local_ : List (Word × Nat)
  /-- The bytes this member moves, by destination position (moves). -/
  blocks : List (List Byte)
  /-- Chunks received, in order of arrival: source position, back, index, last, data. -/
  got : List (Nat × Bool × Nat × Bool × List Byte)
  /-- Outbound edges: destination position and back, bytes not yet sent, next chunk index, and whether these bytes end with the
  edge's last chunk. -/
  outs : List ((Nat × Bool) × List Byte × Nat × Bool)
  /-- Steps of the schedule done, forward and back (15 R336). -/
  fwd : Nat
  bwd : Nat
  /-- Blocks of the result known here, by block number. -/
  result : List (Nat × List (Word × Nat))
  /-- Children late at DUE, by position (15 R344). -/
  late : List Nat
  /-- Of these, the ones whose subtotal has come since. -/
  lateSeen : List Nat
  /-- This member proceeded at or after DUE (15 R344). -/
  lateSelf : Bool
  /-- 0 counts, 1 the check bit, 2 data (15 R339). -/
  phase : Nat
  /-- Counts to receive by source position (15 R339). -/
  counts : List Nat
  /-- The staging window, and the units of 64 bytes that the inbound edges hold of it (15 R340). -/
  staged : Option (WinRef × Nat)
  deriving DecidableEq, Repr

/-- A late child's subtotal still to come after its collective ended here (15 R344). -/
structure LateWait where
  group : Nat
  num : Nat
  child : Nat
  defers : Bool
  /-- Whether elements are INT32, and whether they carry a participant number. -/
  int : Bool
  red : Nat
  narrow : Option (BitVec 4)
  got : List Byte
  deriving DecidableEq, Repr

structure Coll where
  /-- COLL_STAT.CODE, 16 bits, 15 R348; reset DONE. -/
  code : Code := .done
  /-- COLL_CHUNK_CHECK, 32 bits, 15 R349; reset 0. -/
  chunkCheck : Nat := 0
  /-- COLL_LATE, 32 bits, 15 R349; reset 0. -/
  late : Nat := 0
  /-- COLL_DEFER, 32 bits, 15 R349; reset 0. -/
  defer_ : Nat := 0
  /-- COLL_PAIR_CFG.WAIT, 10 bits RWL, 15 R350; reset 1,000. -/
  pairWait : Nat := 1000
  /-- COLL_PAIR_CFG.MODE, 2 bits RWL, 15 R350; reset 0b00. -/
  pairMode : Nat := 0
  /-- COLL_PAIR_STAT.SUSPECT, 1 bit, 15 R351; reset 0. -/
  suspect : Bool := false
  /-- COLL_PAIR_STAT.SOLO, 1 bit, 15 R351; reset 0. -/
  solo : Bool := false
  /-- Lines held (COLL_PAIR_STAT.PEND, 13 bits), at most 4,096, 15 R346, R351; reset none. -/
  held : List PairLine := []
  /-- Writes of a side that found the holding full: they stall, in order, 15 R346; reset none. -/
  stalled : List PairLine := []
  /-- Writes whose partner's wait ended before they came: side and address, one entry each, 15 R346; reset none. -/
  missed : List (PairSide × Nat) := []
  /-- COLL_PAIR_DIVERGE, 32 bits, 15 R351; reset 0. -/
  diverge : Nat := 0
  /-- COLL_PAIR_CKPTNO, 32 bits, 15 R351; reset 0. -/
  ckptNo : Word := 0
  deriving DecidableEq, Repr

/-- A fabric message that is not complete (14 R319): who sends it, where it goes and how long it is. -/
structure OpenMsg where
  src : Nat
  op : Nat
  part : PartId
  addr : Addr
  len : Nat
  /-- Device time of its latest flit. -/
  at_ : Nat
  deriving DecidableEq, Repr

structure Pier where
  /-- The pier works, 01 R21; reset true. -/
  alive : Bool := true
  /-- Local ports 0-25, 14 R306. -/
  ports : Vector Port 26 := Vector.replicate 26 {}
  /-- SWT_STALL.MS, 14 bits, 14 R325; reset 50. -/
  stallMs : Nat := 50
  /-- SWT_LATE, 32 bits, 14 R325; reset 0. -/
  late : Nat := 0
  /-- SWT_ABORT, 32 bits, 14 R325; reset 0. -/
  abort : Nat := 0
  /-- Messages not complete, 14 R319; reset none. -/
  msgs : List OpenMsg := []
  /-- Sessions of this pier (ING_STAT.SESS, 13 bits), 14 R317, R326; reset none. -/
  sessions : List Session := []
  /-- ING_DROP, 32 bits, 14 R326; reset 0. -/
  drop : Nat := 0
  /-- Answers the ingest engine sent to ARP and neighbour discovery, 14 R316; reset 0. -/
  answered : Nat := 0
  /-- TLS alerts by which the steward refused a session, 14 R317; reset 0. -/
  alerts : Nat := 0
  /-- The route table: direction 0-7 or LOCAL (8) by destination; unlisted is NONE, 14 R308; reset none. -/
  routes : Tab (Option Nat) := []
  /-- The collective engine and the pair comparator, 15. -/
  coll : Coll := {}
  /-- Highest counter accepted per flow, and counters seen within 64 of it, 18 R403; reset none. -/
  marks : List ((Nat × Nat × Nat) × Nat × List Nat) := []
  deriving DecidableEq, Repr

/-! ## Module: power, trust, boot, snapshots, jobs (16-20) -/

/-- 17 R376. -/
inductive DomState where
  | off | on | gated | waking
  deriving DecidableEq, Repr

/-- A waiting step request (17 R380-R381). -/
structure StepReq where
  target : StepTarget
  at_ : Nat
  deriving DecidableEq, Repr

structure Pwr where
  /-- PWR_STATE.IDLE_MS, 16 bits RWL, 17 R386; reset 1,000. -/
  idleMs : Nat := 1000
  /-- PWR_DOMk.DSTATE, 80 x 2 bits, 17 R375, R387; reset OFF. -/
  dom : Vector DomState 80 := Vector.replicate 80 .off
  /-- Upward queue (PWR_GOV.UPQ, 11 bits), at most 1,024, 17 R381, R388; reset empty. -/
  up : List StepReq := []
  /-- Downward queue (PWR_GOV.DNQ, 11 bits), 17 R381, R388; reset empty. -/
  down : List StepReq := []
  /-- Granted upward steps: device time and units of 0.125 A (PWR_GOV_USED.UPUSED), 17 R380, R388; reset none. -/
  upUsed : List (Nat × Nat) := []
  /-- Granted downward steps (PWR_GOV_USED.DNUSED), 17 R380, R388; reset none. -/
  downUsed : List (Nat × Nat) := []
  /-- Downward grants whose ramp runs: target and device time of the grant, 17 R380; reset none. -/
  ramps : List (StepTarget × Nat) := []
  /-- Upward grants whose wake is not complete: target, and whether it was OFF, 17 R378, R380; reset none. -/
  wakes : List (StepTarget × Bool) := []
  /-- Core groups to be requested once their quarter fabric is ON, 17 R378; reset none. -/
  want : List DomainId := []
  /-- PWR_GOV_WAIT.US, 32 bits, 17 R388; reset 0. -/
  wait : Nat := 0
  /-- The microsecond of device time last counted in PWR_GOV_WAIT, 17 R388: the model's own; reset none. -/
  waitLast : Option Nat := none
  /-- PWR_CAP.W, 12 bits RWL, 17 R389; reset 3,600. -/
  cap : Nat := 3600
  /-- PWR_THERM.HOT, 8 bits signed, 17 R389; reset 0. -/
  hot : Int := 0
  /-- PWR_THERM.TRIP, 4 bits, 17 R389; reset 0. -/
  trip : BitVec 4 := 0
  /-- PWR_THERM.THROTTLE, 4 bits, 17 R389; reset 0. -/
  throttle : BitVec 4 := 0
  /-- Successive averages below the cap less 100 W, 17 R383; reset 0. -/
  lowAvg : Nat := 0
  /-- Device time the entry into S1 completed, 17 R378; reset none. -/
  s1Since : Option Nat := none
  /-- Domains still to be turned off by a shutdown, in order, with its cause, 17 R385; reset none. -/
  shut : Option (ShutCause × List DomainId) := none
  /-- Device time the shutdown started, 17 R385; reset 0. -/
  shutAt : Nat := 0
  /-- The always-on domain runs, 17 R374, 22 R457; reset true. -/
  alwaysOn : Bool := true
  deriving DecidableEq, Repr

/-- A published shared weight region (18 R406, 11 R252). -/
structure Region where
  id : Nat
  owner : PartId
  quarter : QuarterId
  bank : Nat
  banks : Nat
  /-- Reload source (11 R252): the masters that an update descriptor at this local address of the owner names (log 47), an exact
  image at a local address, or none. -/
  master : Option Nat
  copy : Option Nat
  mappers : List PartId
  digest : List Byte
  deriving DecidableEq, Repr

/-- What a tenant was refused (18 R405): an address, a barrier, a core, a window of a quarter or core by its address, a request of
the job interface, or an engine command, named by its CPL register. -/
inductive Refused where
  | address (a : Addr)
  | barrier (i : Nat)
  | core (n : Nat)
  | request
  | command (c : Cpl)
  deriving DecidableEq, Repr

/-- What a partition's owner is told (11 R252, 18 R405, R407). -/
inductive PartEvent where
  /-- A region reloaded, and EXACT. -/
  | reloaded (region : Nat) (exact_ : Bool)
  /-- The same for the region's owner, with the bank and the line. -/
  | ownReloaded (region bank line : Nat) (exact_ : Bool)
  | withdrawn (region : Nat)
  /-- Another partition was refused something that this one owns. -/
  | refused (part : PartId) (core : Nat) (what : Refused) (time : Nat)
  deriving DecidableEq, Repr

/-- A partition (18 R397, 09 R199-R200). -/
structure Part where
  /-- The partition exists, 18 R397; partition 0 always; reset false. -/
  live : Bool := false
  /-- Page table by page number, 64 bits an entry, 09 R200; reset none. -/
  pages : Tab (BitVec 64) := []
  /-- Device table by virtual device number, 09 R199; reset none. -/
  devices : List (Nat × Nat) := []
  /-- What it received, 18 R397; reset none. -/
  spec : Option PartSpec := none
  /-- XTS key pair and fabric key present, 12 R271, 18 R402; reset none. -/
  keys : Option (List Byte) := none
  /-- Weight list, 80 bytes an entry, 18 R395; reset empty. -/
  weights : List (List Byte) := []
  /-- Message counter per partition, 64 bits, 18 R402; reset 0. -/
  counter : Nat := 0
  /-- Events delivered to the owner or mappers (11 R252, 18 R405, R407); reset none. -/
  events : List PartEvent := []
  deriving DecidableEq, Repr

/-- A key the steward generates: a tenant's, partition 0's own XTS pair, or the attestation key (12 R271, 18 R393, R397). -/
inductive KeyUse where
  | part (x : PartSpec)
  | own
  | attest
  deriving DecidableEq, Repr

structure Sec where
  /-- SEC_STAT.LOCKED, 1 bit, 18 R412; reset 0. -/
  locked : Bool := false
  /-- SEC_STAT.DEBUG, 1 bit, 18 R412; reset 0. -/
  debug : Bool := false
  /-- SEC_STAT.SLEEPEV, 1 bit, 18 R412; reset 0. -/
  sleepEv : Bool := false
  /-- An alarm fired in S3 and the next start sets SLEEPEV, 18 R409; reset false. -/
  sleepAlarm : Bool := false
  /-- SEC_STAT.TCOUNT, 3 bits, fused, 18 R410, R412; reset 0 (DESIGN CHOICE, log 4). -/
  tcount : Nat := 0
  /-- SEC_STAT.CAUSE, 8 bits W1C, 18 R412; reset 0x00. -/
  cause : BitVec 8 := 0
  /-- Device time of the first alarm of the current event, 18 R409; reset none. -/
  eventAt : Option Nat := none
  /-- SEC_TAGFAIL, 32 bits, 18 R413; reset 0. -/
  tagfail : Nat := 0
  /-- SEC_DEBUG challenge, 64 bytes, 18 R411, R413; drawn at reset. -/
  challenge : List Byte := []
  /-- MR0-MR3, 48 bytes each, 18 R392; reset all zero. -/
  mr : List (List Byte) := [List.replicate 48 0, List.replicate 48 0, List.replicate 48 0, List.replicate 48 0]
  /-- Measurement log: digests of partition tables extended into MR2, 18 R396; reset empty. -/
  mlog : List (List Byte) := []
  /-- The attestation key is held, 18 R393; reset none. -/
  akey : Option (List Byte) := none
  /-- The certificate of the attestation key's public half, signed with the device identity key, 18 R393; reset none. -/
  acert : List Byte := []
  /-- PART_PAD.NS, 24 bits RWL, 18 R414; reset 10,000. -/
  pad : Nat := 10000
  /-- Owner fuse sets used, 19 R419; reset none (DESIGN CHOICE, log 4). -/
  owners : List (List Byte) := []
  /-- Entropy: the source failed and is being retested since, 08 R185; reset none. -/
  retest : Option Nat := none
  /-- Requests waiting for fresh entropy with their time, 08 R185; reset none. -/
  drbgWait : List (DrbgUse × Nat) := []
  /-- Keys waiting for fresh entropy with their time, 08 R185; reset none. -/
  keyWait : List (KeyUse × Nat) := []
  /-- Generate requests since the last reseed, 08 R184; reset 0. -/
  drbgCount : Nat := 0
  /-- The DRBG's key and counter, 08 R184; reset: instantiated from the source's first input (log 8). -/
  drbg : Drbg := Drbg.start 0
  /-- Code of the last DRBG request served, 08 R185; reset DONE. -/
  drbgLast : Code := .done
  deriving DecidableEq, Repr

/-- A boot slot (19 R415-R418). -/
structure FlashSlot where
  /-- The image the slot holds, none when its body is erased or half-written; reset none (DESIGN CHOICE, log 4). -/
  img : Option SlotImage := none
  /-- INTENT programmed, 19 R418; reset false. -/
  intent : Bool := false
  /-- COMPLETE programmed, 19 R418; reset false. -/
  complete : Bool := false
  deriving DecidableEq, Repr

/-- What the module is doing at the top level (17 R377, 18 R409, 19 R422, 22 R460). -/
inductive RunMode where
  | reset | running | recovery | idFault | startFault
  deriving DecidableEq, Repr

structure Boot where
  /-- Top-level mode (BOOT_STAT.RECOVERY), 19 R422, R430; reset: waiting for start-up. -/
  mode : RunMode := .reset
  /-- BOOT_STAT.SLOT, 1 bit, 19 R430; reset 0. -/
  slot : Bool := false
  /-- BOOT_STAT.STATE_A, STATE_B, 2 bits each, 19 R430; reset 0b00. -/
  stateA : Nat := 0
  stateB : Nat := 0
  /-- BOOT_STAT.SVN, 6 bits, fused, 19 R430; reset 0 (DESIGN CHOICE, log 4). -/
  svn : Nat := 0
  /-- BOOT_STAT.SEQ, 16 bits, 19 R430; reset 0. -/
  seq : Nat := 0
  /-- BOOT_LOCK.LOCK, 1 bit RWL, 19 R431; reset 0. -/
  lock : Bool := false
  /-- BOOT_UPD.BUSY, 1 bit, 19 R432; reset 0. -/
  updBusy : Bool := false
  /-- BOOT_UPD.STEP, 3 bits, 19 R432; reset 0. -/
  updStep : Nat := 0
  /-- BOOT_UPD.CODE, 16 bits, 19 R432; reset DONE. -/
  updCode : Code := .done
  /-- Flash slots A and B, 19 R415; reset empty. -/
  flash : Vector FlashSlot 2 := Vector.replicate 2 {}
  /-- The chain of certificates that leads from the device identity key to the Wobusal device root, in the boot flash, 18 R391;
  reset none (DESIGN CHOICE, log 4). -/
  chain : List (List Byte) := []
  /-- The booted configuration image, 19 R423; reset none. -/
  cfg : Option CfgImage := none
  /-- The steward that is active, 01 R21; reset P0. -/
  steward : PierId := 0
  /-- Device time the reset was released, 19 R421; reset 0. -/
  resetAt : Nat := 0
  /-- The active steward firmware is the new one of a live activation, 19 R428; reset false. -/
  activated : Bool := false
  /-- RESET_N took effect during a shutdown, 22 R459; reset false. -/
  resetPending : Bool := false
  /-- The straps as read, 22 R460; reset 0. -/
  straps : Nat × Nat := (0, 0)
  deriving DecidableEq, Repr

/-- Snapshot control (20 R438-R441). -/
structure Snapg where
  /-- SNAPG_CTL.BOTH, 1 bit, 20 R438; reset 0. -/
  both : Bool := false
  /-- SNAPG_CTL.SRCEN, 4 bits, 20 R438; reset 0b1111. -/
  srcen : BitVec 4 := 0b1111
  /-- SNAPG_CTL.FWD_US, 16 bits, 20 R438; reset 0. -/
  fwdUs : Nat := 0
  /-- SNAPG_MATCH.FLAGS, 4 bits, 20 R439; reset 0. -/
  mFlags : BitVec 4 := 0
  /-- SNAPG_MATCH.CODE, 16 bits, 20 R439; reset 0. -/
  mCode : Nat := 0
  /-- SNAPG_MISSED, 32 bits, 20 R441; reset 0. -/
  missed : Nat := 0
  /-- SNAPG_TGT, 64 bits, 20 R441; reset 0. -/
  target : Nat := 0
  /-- A received fabric trigger waits for its target, 20 R437; reset none. -/
  waiting : Option Nat := none
  /-- Fabric triggers this module sent: target and both fabrics, 20 R437; reset none. -/
  sent : List (Nat × Bool) := []
  /-- SNAPG_STAT, SNAPG_AT and the PWR copy, 20 R433, R440-R441; reset 0. -/
  pwr : Snap := {}
  /-- Copies of the other blocks; unlisted is at its reset, 20 R433. -/
  copies : List (SnapBlock × Snap) := []
  deriving DecidableEq, Repr

/-- A fault that start-up does not leave and that the module reports over the sideband (01 R23, 12 R268, 22 R460). -/
inductive StartFault where
  | cores (q : QuarterId)
  | channels
  | straps
  | piers
  deriving DecidableEq, Repr

/-- 16 R369. -/
inductive JobState where
  | waiting | running
  deriving DecidableEq, Repr

/-- A job the steward holds (16 R361-R367, 07 R167). -/
structure Job where
  spec : JobSpec
  state : JobState
  epoch : BitVec 16
  /-- Loss-scale exponent L, 5 bits, 07 R167; 16 at job start. -/
  l : Nat
  /-- CLEAN, 16 bits, 07 R167; 0 at job start. -/
  clean : Nat
  /-- FLOOR, 8 bits, 07 R167; 0 at job start. -/
  floor : Nat
  /-- Stages that have reported step `step`, 16 R361. -/
  reports : List (Nat × Nat)
  /-- Moving average of the loss, FP32, 16 R366; starts empty. -/
  avg : Option Word
  /-- Finite losses seen, 16 R366. -/
  losses : Nat
  /-- Loss-spike events delivered, 16 R366. -/
  spikes : Nat
  /-- Highest committed boundary, 10 R228; on the coordinator it is the record of a job that spans modules; 0 at job start. -/
  committed : Nat
  /-- A new placement waits for its fabric barrier: no stage issues work, 10 R229; false at job start. -/
  placing : Bool
  /-- Earlier epochs of the last 10 s with the time each ended, 10 R229; none at job start. -/
  past : List (BitVec 16 × Nat)
  /-- Step log: step, device time, phase counters, 16 R367. -/
  log : List (Nat × Nat × List Nat)
  deriving DecidableEq, Repr

/-- A record of the steward's log (20 R443, 18 R405, 08 R185, 11 R246, R252). -/
inductive LogRec where
  | code (c : Code) (time : Nat)
  | refusal (part : PartId) (core : Nat) (what : Refused) (time : Nat)
  | window (q : Nat) (w : Nat) (c : Code)
  | entropy (time : Nat)
  | channel (stack chan : Nat)
  | suspect (ckpt : Word)
  | rebind (core : Nat) (phys : Option Nat)
  | reload (region bank line : Nat) (exact_ : Bool)
  | startFault
  deriving DecidableEq, Repr

/-- A row of a physical memory bank (11 R251): 8 KiB of a crown bank, or 2 KiB of a core-memory bank of a physical core. -/
inductive RepairRow where
  | crown (quarter bank row : Nat)
  | core (quarter phys bank row : Nat)
  deriving DecidableEq, Repr

/-- A refusal waiting for its fixed latency (18 R404). -/
inductive Parked where
  | cpl (c : Cpl)
  | access (core : CoreId) (gang : GangId)
  | wait (core : CoreId) (gang : GangId) (cpl : Option Reg) (issued : Nat)
  | reply (part : PartId) (issued : Nat)
  deriving DecidableEq, Repr

/-- Fabric membership (14 R313-R315). -/
structure Membership where
  /-- 32-bit version, 14 R314; reset 0. -/
  version : Nat := 0
  /-- Members by device number, ascending, 14 R313; reset none. -/
  members : List Nat := []
  /-- Coordinator and standby coordinator, 14 R315; reset none. -/
  coordinator : Option Nat := none
  standby : Option Nat := none
  /-- The twin is a member, 14 R313; reset false. -/
  twin : Bool := false
  deriving DecidableEq, Repr

/-- A fabric operation this module sent and that is not yet acknowledged (14 R319-R320). -/
structure SentOp where
  id : Nat
  owner : Owner
  at_ : Nat
  dst : Nat
  fabricB : Bool
  /-- A remote cred.req: the core, the address named and the bytes asked (11 R247). -/
  credit : Option (CoreId × Nat × Nat)
  /-- A collective chunk: its group, and the edge it travels on by destination position and back (15 R340, R342). -/
  coll : Option (Nat × Nat × Bool)
  deriving DecidableEq, Repr

/-- The whole module. -/
structure State where
  /-- Commands waiting, first in, first out: the model's own; reset empty. -/
  pending : List Instr := []
  /-- Device time in ns, 64 bits (TIME_NOW), 16 R368, R373; reset 0 (the manual gives 0). -/
  now : Nat := 0
  /-- IKZ-4810 (true) or IKZ-4812, CORE_ID.GRADE, 00 R1, 01 R25; reset IKZ-4812 (DESIGN CHOICE, log 4). -/
  grade4810 : Bool := false
  /-- Device number and fabric bit of this module, 14 bits + 1, 01 R26, 14 R306; reset 0, set at start. -/
  dev : Nat := 0
  fabricB : Bool := false
  /-- All addressed memory by physical local address, 01 R28; unlisted reads 0; reset nothing listed. -/
  mem : List Host.Cell := []
  /-- Poisoned lines (address / 64), rising, 11 R250, 12 R266; reset none. -/
  poison : List Nat := []
  /-- Bit errors struck and not yet found, by line, 11 R249, 12 R266; reset none. -/
  upsets : List (Nat × Upset) := []
  /-- Logical cores 0-191, 01 R22; reset: each at position 0 of seed 0 (08 R178). -/
  cores : Vector Core 192 := Vector.replicate 192 {}
  /-- Quarters Q0-Q3, 01 R15. -/
  quarters : Vector Quarter 4 := Vector.replicate 4 {}
  /-- Piers P0, P1, 01 R15. -/
  piers : Vector Pier 2 := Vector.replicate 2 {}
  /-- Device barriers 0-63, 09 R207; unlisted is count 0. -/
  barriers : Tab Barrier := []
  /-- Owner of each device barrier; unlisted belongs to partition 0, 09 R207, 18 R397. -/
  barOwner : Tab Nat := []
  /-- Partitions 0-16, 18 R397. -/
  parts : Vector Part 17 := Vector.replicate 17 {}
  /-- Frame owner table by frame (address bits 48:21); unlisted belongs to partition 0, 12 R271. -/
  frames : Tab Nat := []
  /-- Published regions, 18 R406; reset none. -/
  regions : List Region := []
  /-- Power, 17. -/
  pwr : Pwr := {}
  /-- Trust, 18, and entropy, 08. -/
  sec : Sec := {}
  /-- Start-up and update, 19. -/
  boot : Boot := {}
  /-- Snapshots, 20. -/
  snapg : Snapg := {}
  /-- TIME_PHASE0-6, 64 bits each, 16 R373; reset 0. -/
  phases : Vector Nat 7 := Vector.replicate 7 0
  /-- HI halves latched by the last read of their LO register, by offset of LO, 03 R86; reset 0. -/
  latches : Tab Word := []
  /-- Jobs, 16; reset none. -/
  jobs : List Job := []
  /-- Group table, at most 256 entries, 15 R327; reset none. -/
  groups : List GroupSpec := []
  /-- Issues of collectives by group, waiting to start, 15 R335; reset none. -/
  collIssues : List (Nat × CollIssue) := []
  /-- Collectives that run, by group (COLL_STAT.BUSY, ACTIVE), 15 R335, R348; reset none. -/
  collRuns : List (Nat × CollRun) := []
  /-- Next collective number of each group, 15 R335; reset 0. -/
  collNext : Tab Nat := []
  /-- Deferred subtotals by group and child, 15 R344; reset none. -/
  deferred : List ((Nat × Nat) × List (Word × Nat)) := []
  /-- Late subtotals still to come, 15 R344; reset none. -/
  lateWait : List LateWait := []
  /-- Chunks that came before this module started their collective, 15 R335; reset none. -/
  collEarly : List Chunk := []
  /-- Membership and routes, 14. -/
  net : Membership := {}
  /-- Port of each flow (source, destination, VC), 14 R309; reset none. -/
  flows : List ((Nat × Nat × Nat) × PortId) := []
  /-- Flows held after a port change, with the flits that wait in the switch, 14 R309; reset none. -/
  heldFlows : List ((Nat × Nat × Nat) × List TxFlit) := []
  /-- ROUTE 1 flits that wait in the switch for a port, oldest first, 14 R310; reset none. -/
  adaptQ : List TxFlit := []
  /-- Operations sent to other modules, 14 R319-R320; reset none. -/
  sentOps : List SentOp := []
  nextOp : Nat := 0
  /-- Abort and other notices sent on VC 4, 14 R319, 15 R341: destination, operation, code; reset none. -/
  notices : List (Nat × Nat × Code) := []
  /-- Refusals waiting for PART_PAD, 18 R404; reset none. -/
  parked : List Parked := []
  /-- The newest group of combined float adds at each address: address, value before the group, sum of its addends,
  09 R206; reset none. -/
  addGroups : List (Nat × Word × Word) := []
  /-- The steward's log, 20 R443; reset empty. -/
  log : List LogRec := []
  /-- Repair log: the row of each uncorrectable error and the lines corrected, with their rows, since start, 11 R251; reset none. -/
  repairUe : List RepairRow := []
  repairCe : List (RepairRow × Nat) := []
  /-- Rows mapped to spares at earlier starts, 11 R251; reset none (DESIGN CHOICE, log 4). -/
  spareRows : List RepairRow := []
  /-- Channels to be mapped out at the next start, 12 R268; reset none. -/
  badChannels : List (Nat × Nat) := []
  /-- Physical cores fused bad or excluded for good (quarter, core), 01 R23, 11 R251; reset none (DESIGN CHOICE, log 4). -/
  badCores : List (Nat × Nat) := []
  /-- Crown banks (quarter, physical bank) mapped out at every start, 11 R251; reset none (DESIGN CHOICE, log 4). -/
  badBanks : List (Nat × Nat) := []
  /-- SB_INT_N is low, 22 R461; reset high. -/
  sbInt : Bool := false
  /-- Last sideband reply: BOOT_STAT, SEC_STAT, PWR_STATE, PWR_THERM, or a code, 22 R461; reset none. -/
  sbReply : Option (List Word × Code) := none
  /-- The fault of a start as the sideband reports it, 01 R23, 12 R268, 22 R460; reset none. -/
  sbFault : Option StartFault := none
  /-- Last answer of the job interface or of a quote, 18 R394; reset none. -/
  reply : Option (Code × List Byte) := none
  /-- A model's own counter for free values (log 5); reset 0. -/
  free : Nat := 0
  /-- The quarter whose core or engine, or the pier whose engine, makes the access at hand, for the paths of 01 R17 and
  14 R311; none is the steward: the model's own, none between commands (log 46); reset none. -/
  viewer : Option Die := none
  deriving DecidableEq, Repr

/-- The debug challenge (18 R411): 48 bytes of DRBG output, the device number and 14 zero bytes. -/
def challengeOf (bits : List (BitVec 128)) (dev : Nat) : List Byte :=
  drbgBytes bits ++ [BitVec.ofNat 8 dev, BitVec.ofNat 8 (dev / 256)] ++ List.replicate 14 0

/-- The trust state of a start: the DRBG is instantiated and the debug challenge drawn from it. -/
def Sec.start (inputs : Nat) : Sec :=
  let (d, bits) := (Drbg.start inputs).generate 3
  { drbg := d, drbgCount := 1, challenge := challengeOf bits 0 }

/-- A logical core at reset: its lanes stand at position 0 of seed 0 (08 R178), with the device number at its reset value. -/
def Core.start (n : Nat) : Core := { rng := { lanes := Vector.ofFn (fun l => { s := laneState 0 n l.val 0 0 }) } }

/-- The module right after reset: every field at its reset value (00 R10); no program, no image. -/
def State.reset : State := { cores := Vector.ofFn (fun n => Core.start n.val), sec := Sec.start 0 }

end Sys2Proof.Machine
end

