-- ==== Sys2Proof/Machine/Table.lean ====
section
/-! DEFINITION. Reading and writing sparse tables. `State.mem` is such a table with default 0. -/

namespace Sys2Proof.Machine

/-- The value at a key: the listed one, or the default. -/
def Tab.get {α : Type} (d : α) : Tab α → Nat → α
  | [], _ => d
  | (k, v) :: r, a => if k = a then v else Tab.get d r a

/-- Lists a value at its place in the rising keys. -/
def Tab.ins {α : Type} : Tab α → Nat → α → Tab α
  | [], a, v => [(a, v)]
  | (k, x) :: r, a, v =>
    if a < k then (a, v) :: (k, x) :: r else if a = k then (a, v) :: r else (k, x) :: Tab.ins r a v

/-- Takes a key out. -/
def Tab.del {α : Type} (t : Tab α) (a : Nat) : Tab α := t.filter (fun p => p.1 != a)

/-- Writes a key; writing the default takes the key out, so equal tables are equal data. -/
def Tab.set {α : Type} [DecidableEq α] (d : α) (t : Tab α) (a : Nat) (v : α) : Tab α :=
  if v = d then Tab.del t a else Tab.ins t a v

/-- Changes the value at a key. -/
def Tab.mod {α : Type} [DecidableEq α] (d : α) (t : Tab α) (a : Nat) (f : α → α) : Tab α :=
  Tab.set d t a (f (Tab.get d t a))

/-- The canonical form: keys strictly rising, no entry equal to the default. -/
def Tab.wf {α : Type} [DecidableEq α] (d : α) : Tab α → Bool
  | [] => true
  | [(_, v)] => v != d
  | (k, v) :: (k', v') :: r => v != d && k < k' && Tab.wf d ((k', v') :: r)

/-- Writes consecutive keys. -/
def Tab.setList {α : Type} [DecidableEq α] (d : α) (t : Tab α) (a : Nat) : List α → Tab α
  | [] => t
  | v :: vs => Tab.setList d (Tab.set d t a v) (a + 1) vs

/-- Reads consecutive keys. -/
def Tab.getList {α : Type} (d : α) (t : Tab α) (a n : Nat) : List α :=
  (List.range n).map (fun i => Tab.get d t (a + i))

/-- The element of a list, or a default. -/
def nth {α : Type} (d : α) (l : List α) (i : Nat) : α := l.getD i d

/-- Changes one element of a vector. -/
def vmod {α : Type} {n : Nat} (v : Vector α n) (i : Fin n) (f : α → α) : Vector α n := v.set i.val (f v[i.val])

/-- The little-endian value of bytes, byte 0 first (00 R464). -/
def leNat : List Byte → Nat
  | [] => 0
  | b :: bs => b.toNat + 256 * leNat bs

/-- The `n` little-endian bytes of a value (00 R464). -/
def leBytes : Nat → Nat → List Byte
  | 0, _ => []
  | n + 1, x => BitVec.ofNat 8 x :: leBytes n (x / 256)

/-- The field of `n` bytes at offset `o` of a structure (00 R464). -/
def fieldAt (bs : List Byte) (o n : Nat) : Nat := leNat ((bs.drop o).take n)

end Sys2Proof.Machine
end

