-- ==== Sys2Proof/Machine/Operands.lean ====
section
/-! DEFINITION. Number formats, exact values and rounding (02): every format's codes as exact values, the one
rounding function of R40-R42, narrowing with its special values (R44-R46), MX blocks (R47), PX8E output (R161),
exact sums and products, and the order of maxima and minima (R63). -/

namespace Sys2Proof.Machine

/-- A value of the arithmetic: `fin neg m e` is `(-1)^neg * m * 2^e`, with the sign of a zero kept. -/
inductive Val where
  | nan
  | inf (neg : Bool)
  | fin (neg : Bool) (m : Nat) (e : Int)
  deriving DecidableEq, Repr

def Val.zero : Val := .fin false 0 0

/-- An integer as a value. -/
def Val.ofInt (i : Int) : Val := .fin (decide (i < 0)) i.natAbs 0

def Val.isZero : Val → Bool
  | .fin _ m _ => m == 0
  | _ => false

def Val.isNan : Val → Bool
  | .nan => true
  | _ => false

def Val.isFin : Val → Bool
  | .fin _ _ _ => true
  | _ => false

def Val.neg : Val → Val
  | .nan => .nan
  | .inf n => .inf !n
  | .fin n m e => .fin (!n) m e

def Val.abs : Val → Val
  | .nan => .nan
  | .inf _ => .inf false
  | .fin _ m e => .fin false m e

def Val.sign : Val → Bool
  | .nan => false
  | .inf n => n
  | .fin n _ _ => n

/-- The signed integer of a finite value in units of `2^u`, for `u` at most its exponent. -/
def Val.units (n : Bool) (m : Nat) (e u : Int) : Int :=
  let x : Int := m * 2 ^ (e - u).toNat
  if n then -x else x

/-- The exact sum; opposite infinities give NaN, an exact cancellation gives +0 (IEEE 754, log 14). -/
def Val.add : Val → Val → Val
  | .nan, _ => .nan
  | _, .nan => .nan
  | .inf a, .inf b => if a = b then .inf a else .nan
  | .inf a, .fin _ _ _ => .inf a
  | .fin _ _ _, .inf b => .inf b
  | .fin a m e, .fin b k f =>
    let u := min e f
    let t := Val.units a m e u + Val.units b k f u
    if t = 0 then .fin (a && b) 0 0 else .fin (decide (t < 0)) t.natAbs u

/-- The exact product; zero times infinity gives NaN. -/
def Val.mul : Val → Val → Val
  | .nan, _ => .nan
  | _, .nan => .nan
  | .inf a, .inf b => .inf (a != b)
  | .inf a, .fin b m _ => if m = 0 then .nan else .inf (a != b)
  | .fin a m _, .inf b => if m = 0 then .nan else .inf (a != b)
  | .fin a m e, .fin b k f => .fin (a != b) (m * k) (e + f)

/-- A value times `2^k`, exactly. -/
def Val.scale (k : Int) : Val → Val
  | .fin n m e => .fin n m (e + k)
  | v => v

/-- The numeric order of values that are not NaN; both zeros are equal here. -/
def Val.lt : Val → Val → Bool
  | .nan, _ => false
  | _, .nan => false
  | .inf a, .inf b => a && !b
  | .inf a, .fin _ _ _ => a
  | .fin _ _ _, .inf b => !b
  | .fin a m e, .fin b k f => decide (Val.units a m e (min e f) < Val.units b k f (min e f))

/-- Numeric equality; NaN equals nothing. -/
def Val.eqv (x y : Val) : Bool := !x.isNan && !y.isNan && !x.lt y && !y.lt x

/-- The order of R63: numeric, with -0 below +0. -/
def Val.below (x y : Val) : Bool :=
  x.lt y || (x.isZero && y.isZero && x.sign && !y.sign)

/-! ## Floating-point formats (R31, R33) -/

/-- A floating-point layout: significand bits with the hidden one, exponent bits, and its special codes. -/
structure FpFmt where
  prec : Nat
  ebits : Nat
  hasInf : Bool
  hasNan : Bool
  deriving DecidableEq, Repr

def fp32 : FpFmt := ⟨24, 8, true, true⟩
def bf16 : FpFmt := ⟨8, 8, true, true⟩
def fp16 : FpFmt := ⟨11, 5, true, true⟩
def e4m3 : FpFmt := ⟨4, 4, false, true⟩
def e5m2 : FpFmt := ⟨3, 5, true, true⟩
def e2m1 : FpFmt := ⟨2, 2, false, false⟩
/-- IEEE 754 binary64, in which the tables of R181 are computed. -/
def fp64 : FpFmt := ⟨53, 11, true, true⟩

/-- Exponent bias (R33). -/
def FpFmt.bias (f : FpFmt) : Nat := 2 ^ (f.ebits - 1) - 1

/-- The exponent of the least significant bit of a subnormal. -/
def FpFmt.lmin (f : FpFmt) : Int := 2 - f.bias - f.prec

/-- The magnitude code of the largest finite value (R33). -/
def FpFmt.maxCode (f : FpFmt) : Nat :=
  if f.hasInf then (2 ^ f.ebits - 1) * 2 ^ (f.prec - 1) - 1
  else if f.hasNan then 2 ^ (f.ebits + f.prec - 1) - 2 else 2 ^ (f.ebits + f.prec - 1) - 1

/-- The magnitude code of infinity, for formats that have it. -/
def FpFmt.infCode (f : FpFmt) : Nat := (2 ^ f.ebits - 1) * 2 ^ (f.prec - 1)

/-- The NaN the device writes (R33, R35). -/
def FpFmt.nanCode (f : FpFmt) : Nat :=
  if f.hasInf then f.infCode + 2 ^ (f.prec - 2) else if f.hasNan then 2 ^ (f.ebits + f.prec - 1) - 1 else 0

def FpFmt.signCode (f : FpFmt) (neg : Bool) : Nat := if neg then 2 ^ (f.ebits + f.prec - 1) else 0

/-- The exact value of a code (R33, R34). -/
def FpFmt.decode (f : FpFmt) (c : Nat) : Val :=
  let fb := f.prec - 1
  let mag := c % 2 ^ (f.ebits + fb)
  let neg := bitOf c (f.ebits + fb)
  if f.hasInf && f.infCode == mag then .inf neg
  else if f.hasInf && f.infCode < mag then .nan
  else if !f.hasInf && f.hasNan && f.maxCode < mag then .nan
  else
    let ex := mag / 2 ^ fb
    let fr := mag % 2 ^ fb
    if ex = 0 then .fin neg fr f.lmin else .fin neg (2 ^ fb + fr) (f.lmin + (ex - 1))

/-- The integer nearest to `m * 2^e / 2^l` under RND (R40, R42); `r` is the 12-bit random value. -/
def roundAt (rnd : BitVec 2) (r m : Nat) (e l : Int) : Nat :=
  if l ≤ e then m * 2 ^ (e - l).toNat
  else
    let d := (l - e).toNat
    let q := m / 2 ^ d
    let t := m % 2 ^ d
    match rnd.toNat with
    | 0 => if 2 ^ (d - 1) ≤ t then q + 1 else q
    | 1 => if 2 ^ (d - 1) < t ∨ (t = 2 ^ (d - 1) ∧ q % 2 = 1) then q + 1 else q
    | 2 => q
    | _ => ((if d ≤ 12 then m * 2 ^ (12 - d) else m / 2 ^ (d - 12)) + r) / 4096

/-- The result of a conversion: its code and the flags it sets (R46). -/
structure Conv where
  code : Nat
  sat : Bool := false
  nonfin : Bool := false
  deriving DecidableEq, Repr

/-- The magnitude code of a finite magnitude rounded once; above `maxCode` it is out of range. -/
def FpFmt.roundMag (f : FpFmt) (rnd : BitVec 2) (r m : Nat) (e : Int) : Nat :=
  if m = 0 then 0
  else
    let l := max (e + Nat.log2 m - (f.prec - 1 : Nat)) f.lmin
    (l - f.lmin).toNat * 2 ^ (f.prec - 1) + roundAt rnd r m e l

/-- Whether a value beyond the range becomes infinite: OVF, its default, and RND 0b10 (R45). -/
def FpFmt.overInf (f : FpFmt) (rnd ovf : BitVec 2) : Bool :=
  f.hasInf && rnd != 2 && (if ovf = 0 then f.prec != 3 else ovf == 2)

/-- Narrowing into a floating-point format (R45, R46). -/
def FpFmt.encode (f : FpFmt) (rnd ovf : BitVec 2) (r : Nat) : Val → Conv
  | .nan => { code := f.nanCode, nonfin := true }
  | .inf n => if f.hasInf then { code := f.signCode n + f.infCode } else { code := f.signCode n + f.maxCode, sat := true }
  | .fin n m e =>
    let c := f.roundMag rnd r m e
    if c ≤ f.maxCode then { code := f.signCode n + c }
    else if f.overInf rnd ovf then { code := f.signCode n + f.infCode, nonfin := true }
    else { code := f.signCode n + f.maxCode, sat := true }

/-- Narrowing into an integer format with bounds `lo .. hi` in `w` bits (R42: L is 0; R46). -/
def encodeInt (w : Nat) (lo hi : Int) (rnd : BitVec 2) (r : Nat) : Val → Conv
  | .nan => { code := 0, nonfin := true }
  | .inf n => { code := (BitVec.ofInt w (if n then lo else hi)).toNat, sat := true }
  | .fin n m e =>
    let q : Int := roundAt rnd r m e 0
    let x := if n then -q else q
    if x < lo then { code := (BitVec.ofInt w lo).toNat, sat := true }
    else if hi < x then { code := (BitVec.ofInt w hi).toNat, sat := true }
    else { code := (BitVec.ofInt w x).toNat }

/-! ## The FMT field (R31, R32) -/

def fmtReserved (f : BitVec 4) : Bool := f == 0x7 || f == 0xF

def fmtIsMx (f : BitVec 4) : Bool := f == 0xB || f == 0xC || f == 0xD

/-- Formats that carry a paired stream: MX scales or a PX8E side list. -/
def fmtPaired (f : BitVec 4) : Bool := fmtIsMx f || f == 0xE

/-- Bits of one element. -/
def fmtBits (f : BitVec 4) : Nat :=
  match f.toNat with
  | 0x0 => 32 | 0x1 => 16 | 0x2 => 16 | 0x5 => 4 | 0x6 => 32 | 0xA => 4 | 0xC => 4 | _ => 8

/-- The integer class of R39, with INT32. -/
def fmtIsInt (f : BitVec 4) : Bool := f == 0x6 || f == 0x8 || f == 0x9 || f == 0xA

/-- The format of a floating-point FMT value or of an MX format's elements. -/
def fpOf (f : BitVec 4) : Option FpFmt :=
  match f.toNat with
  | 0x0 => some fp32 | 0x1 => some bf16 | 0x2 => some fp16 | 0x3 => some e4m3 | 0x4 => some e5m2 | 0x5 => some e2m1
  | 0xB => some e4m3 | 0xC => some e2m1 | _ => none

/-- The exact value of an element code before block scales and escapes (R31, R37). -/
def decodeElem (f : BitVec 4) (c : Nat) : Val :=
  match fpOf f with
  | some p => p.decode c
  | none =>
    match f.toNat with
    | 0x6 => .ofInt (BitVec.ofNat 32 c).toInt
    | 0x9 => .ofInt (c % 256)
    | 0xA => .ofInt (BitVec.ofNat 4 c).toInt
    | 0xD => (Val.ofInt (BitVec.ofNat 8 c).toInt).scale (-6)
    | _ => .ofInt (BitVec.ofNat 8 c).toInt

/-- An element under its E8M0 block scale (R36). -/
def applyScale (scale : Nat) (v : Val) : Val := if scale = 0xFF then .nan else v.scale (scale - 127)

/-- Conversion into a format without block scale or side list (R44-R46). -/
def encodeElem (f : BitVec 4) (rnd ovf : BitVec 2) (r : Nat) (v : Val) : Conv :=
  match fpOf f with
  | some p => p.encode rnd ovf r v
  | none =>
    match f.toNat with
    | 0x6 => encodeInt 32 (-2147483648) 2147483647 rnd r v
    | 0x9 => encodeInt 8 0 255 rnd r v
    | 0xA => encodeInt 4 (-8) 7 rnd r v
    | _ => encodeInt 8 (-128) 127 rnd r v

/-- Conversions that are exact for every source value, NaN included, and so set no flag (R44). -/
def exactPair (fi fo : BitVec 4) : Bool :=
  fi == fo || (fo == 0x0 && !fmtIsInt fi && !fmtIsMx fi)
    || ((fo == 0x1 || fo == 0x2) && (fi == 0x3 || fi == 0x4 || fi == 0x5)) || (fi == 0xE && fo == 0x2)

/-- A conversion from one format to another, with no flag where it is exact. -/
def convert (fi fo : BitVec 4) (rnd ovf : BitVec 2) (r : Nat) (v : Val) : Conv :=
  let c := encodeElem fo rnd ovf r v
  if exactPair fi fo then { code := c.code } else c

/-! ## FP32 -/

def f32 (w : Word) : Val := fp32.decode w.toNat

/-- FP32 by ties to even, the rounding of every accumulation and reduction (R41, R48). -/
def toF32 (v : Val) : Word := BitVec.ofNat 32 (fp32.encode 1 0 0 v).code

/-- FP32 with a chosen rounding. -/
def toF32R (rnd : BitVec 2) (r : Nat) (v : Val) : Word := BitVec.ofNat 32 (fp32.encode rnd 0 r v).code

def f32Add (a b : Word) : Word := toF32 ((f32 a).add (f32 b))
def f32Sub (a b : Word) : Word := toF32 ((f32 a).add (f32 b).neg)
def f32Mul (a b : Word) : Word := toF32 ((f32 a).mul (f32 b))

def f32Nan : Word := 0x7FC0_0000
def f32IsNan (w : Word) : Bool := (f32 w).isNan
def f32IsFin (w : Word) : Bool := (f32 w).isFin

/-- The exact quotient rounded once into a format by ties to even; a zero divisor of a nonzero value gives infinity. -/
def divRound (p : FpFmt) (x y : Val) : Nat :=
  match x, y with
  | .fin a m e, .fin b k f =>
    if k = 0 then (if m = 0 then p.nanCode else p.signCode (a != b) + p.infCode)
    else if m = 0 then p.signCode (a != b)
    else
      let sh := p.prec + 3 + (Nat.log2 k + 1)
      let q := m * 2 ^ sh / k
      let st := if m * 2 ^ sh % k = 0 then 0 else 1
      (p.encode 1 0 0 (.fin (a != b) (2 * q + st) (e - f - sh - 1))).code
  | .inf a, .fin b _ _ => p.signCode (a != b) + p.infCode
  | .fin a _ _, .inf b => p.signCode (a != b)
  | _, _ => p.nanCode

def f32Div (a b : Word) : Word := BitVec.ofNat 32 (divRound fp32 (f32 a) (f32 b))

/-- The integer square root. -/
def natSqrtGo : Nat → Nat → Nat → Nat
  | 0, _, g => g
  | k + 1, n, g => natSqrtGo k n (if (g + 2 ^ k) * (g + 2 ^ k) ≤ n then g + 2 ^ k else g)

def natSqrt (n : Nat) : Nat := natSqrtGo (Nat.log2 n / 2 + 1) n 0

/-- The exact square root rounded once by ties to even; of a negative value, NaN. -/
def sqrtRound (p : FpFmt) : Val → Nat
  | .nan => p.nanCode
  | .inf n => if n then p.nanCode else p.infCode
  | .fin n m e =>
    if m = 0 then p.signCode n
    else if n then p.nanCode
    else
      let sh := 2 * (p.prec + 3) + (if e % 2 = 0 then 0 else 1)
      let x := m * 2 ^ sh
      let q := natSqrt x
      (p.encode 1 0 0 (.fin false (2 * q + (if q * q = x then 0 else 1)) ((e - sh) / 2 - 1))).code

def f32Sqrt (a : Word) : Word := BitVec.ofNat 32 (sqrtRound fp32 (f32 a))

/-! ## Maxima and minima (R63) -/

/-- Whether candidate `(x, i)` wins over the best so far `(y, j)`: NaN wins, then the order, then the lower index. -/
def wins (isMax : Bool) (x : Val) (i : Nat) (y : Val) (j : Nat) : Bool :=
  match x.isNan, y.isNan with
  | true, true => decide (i < j)
  | true, false => true
  | false, true => false
  | false, false =>
    if isMax then y.below x || (!x.below y && decide (i < j))
    else x.below y || (!y.below x && decide (i < j))

/-- The winner of a nonempty list of values with their indices. -/
def pickBest (isMax : Bool) : List (Val × Nat) → Option (Val × Nat)
  | [] => none
  | p :: ps =>
    match pickBest isMax ps with
    | none => some p
    | some q => if wins isMax p.1 p.2 q.1 q.2 then some p else some q

/-- The value an empty reduction returns (R63): the extreme of the format, infinite where it has infinities. -/
def emptyExtreme (isMax : Bool) (f : BitVec 4) : Val :=
  match fpOf f with
  | some p => if p.hasInf then .inf isMax else p.decode (p.signCode isMax + p.maxCode)
  | none =>
    match f.toNat with
    | 0x6 => .ofInt (if isMax then -2147483648 else 2147483647)
    | 0x9 => .ofInt (if isMax then 0 else 255)
    | 0xA => .ofInt (if isMax then -8 else 7)
    | _ => .ofInt (if isMax then -128 else 127)

/-! ## MX blocks (R36, R47) -/

/-- The result of one MX block. -/
structure MxBlock where
  scale : Nat
  codes : List Nat
  sat : Bool
  nonfin : Bool
  deriving DecidableEq, Repr

/-- The largest finite magnitude of a list of values. -/
def maxMag : List Val → Val
  | [] => .zero
  | v :: vs =>
    let m := maxMag vs
    if v.isFin && m.lt v.abs then v.abs else m

/-- The largest element magnitude of an MX format as `m * 2^e` (R47). -/
def mxEmax (f : BitVec 4) : Nat × Int := if f = 0xB then (7, 6) else if f = 0xC then (3, 1) else (127, -6)

/-- `ceil(log2(a / Emax))` clamped to -127 .. 127, and -127 for zero (R47). -/
def mxExp (f : BitVec 4) (a : Val) : Int :=
  match a with
  | .fin _ m e =>
    if m = 0 then -127
    else
      let (k, g) := mxEmax f
      let x := (e + Nat.log2 m) - (g + Nat.log2 k)
      let y := if (Val.fin false k (g + x)).lt a then x + 1 else x
      max (-127) (min 127 y)
  | _ => -127

/-- One element under a block exponent (R47 step 3). -/
def mxElem (f : BitVec 4) (rnd : BitVec 2) (x : Int) (v : Val) (r : Nat) : Conv :=
  if f = 0xD then encodeInt 8 (-128) 127 rnd r (v.scale (6 - x))
  else encodeElem (if f = 0xB then 0x3 else 0x5) rnd 1 r (v.scale (-x))

/-- A block of at most 32 values with the random value of each (R47). -/
def mxEncode (f : BitVec 4) (rnd : BitVec 2) (vs : List Val) (rs : List Nat) : MxBlock :=
  if vs.any (·.isNan) then ⟨0xFF, vs.map (fun _ => 0), false, true⟩
  else
    let x := mxExp f (maxMag vs)
    let cs := List.zipWith (mxElem f rnd x) vs rs
    ⟨(x + 127).toNat, cs.map (·.code), cs.any (·.sat), false⟩

/-! ## PX8E output (R161) -/

/-- A code with its side-list entry, if the value escapes. -/
def px8eEncode (rnd ovf : BitVec 2) (r : Nat) (v : Val) : Conv × Option Nat :=
  match v with
  | .nan => ({ code := 0x80, nonfin := true }, some 0x7E00)
  | .inf n =>
    if ovf = 1 then ({ code := 0x80, sat := true }, some (fp16.signCode n + fp16.maxCode))
    else ({ code := 0x80 }, some (fp16.signCode n + fp16.infCode))
  | .fin n m e =>
    let q := roundAt rnd r m e 0
    if q ≤ 127 then ({ code := (BitVec.ofInt 8 (if n then -(q : Int) else q)).toNat }, none)
    else
      let c := fp16.encode rnd ovf r v
      ({ code := 0x80, sat := c.sat, nonfin := c.nonfin }, some c.code)

/-- The block axis: an element's place in packed memory, low nibble first (R31). -/
def elemBytes (f : BitVec 4) (n : Nat) : Nat := ceilDiv (n * fmtBits f) 8

/-- Element codes out of bytes. -/
def codesOf (f : BitVec 4) (bs : List Byte) (n : Nat) : List Nat :=
  match fmtBits f with
  | 4 => (List.range n).map (fun i => (nth 0 bs (i / 2)).toNat / 16 ^ (i % 2) % 16)
  | b => (List.range n).map (fun i => fieldAt bs (i * (b / 8)) (b / 8))

/-- Packs pairs of nibbles. -/
def packNibbles : List Nat → List Byte
  | [] => []
  | [a] => [BitVec.ofNat 8 (a % 16)]
  | a :: b :: r => BitVec.ofNat 8 (a % 16 + 16 * (b % 16)) :: packNibbles r

/-- Element codes as bytes. -/
def bytesOf (f : BitVec 4) (cs : List Nat) : List Byte :=
  match fmtBits f with
  | 4 => packNibbles cs
  | b => cs.flatMap (fun c => leBytes (b / 8) c)

end Sys2Proof.Machine
end

