-- ==== Sys2Proof/Machine/Functions.lean ====
section
/-! DEFINITION. Logarithm, exponential, their base-2 forms, reciprocals (08 R180-R182, 09 R210), evaluated in
fixed point with `fixBits` fraction bits and a sticky bit below, so that one rounding follows (log 15); and
the 1-ulp choice of R210 (log 7). -/

namespace Sys2Proof.Machine

/-- Fraction bits of the fixed-point evaluation. -/
def fixBits : Nat := 320

/-- `sum z^(2i+1) / (2i+1)`, from the running power and its odd denominator. -/
def atanhGo : Nat → Nat → Nat → Nat → Nat
  | 0, _, _, _ => 0
  | n + 1, zz, pw, d => pw / d + atanhGo n zz (pw * zz / 2 ^ fixBits) (d + 2)

/-- `2 * atanh(p / q)` in fixed point, for `0 <= p / q <= 1/3`. -/
def atanh2 (p q : Nat) : Nat :=
  let z := p * 2 ^ fixBits / q
  2 * atanhGo 110 (z * z / 2 ^ fixBits) z 1

/-- ln 2 in fixed point. -/
def ln2Fix : Nat := atanh2 1 3

/-- ln of `m / 2^(log2 m)`, a value in [1, 2). -/
def lnMant (m : Nat) : Nat :=
  let one := 2 ^ Nat.log2 m
  atanh2 (m - one) (m + one)

/-- A nonzero fixed-point integer as a value with a sticky bit below it. -/
def sticky (x : Int) (e : Int) : Val := .fin (decide (x < 0)) (2 * x.natAbs + 1) (e - 1)

/-- ln of a positive exact value; of 1 exactly 0. -/
def lnVal : Val → Val
  | .fin false m e =>
    if m = 0 then .inf true
    else
      let k : Int := e + Nat.log2 m
      if m = 2 ^ Nat.log2 m ∧ k = 0 then .zero
      else sticky (lnMant m + k * ln2Fix) (-(fixBits : Nat))
  | .inf false => .inf false
  | .fin true m _ => if m = 0 then .inf true else .nan
  | _ => .nan

/-- Taylor sum of exp: the running term and the next divisor. -/
def expGo : Nat → Nat → Nat → Nat → Nat
  | 0, _, _, _ => 0
  | n + 1, t, term, d => term + expGo n t (term * t / 2 ^ fixBits / d) (d + 1)

/-- exp of a fixed-point `t` in [0, 1). -/
def expFix (t : Nat) : Nat := expGo 90 t (2 ^ fixBits) 1

/-- A finite value in fixed point, rounded toward minus infinity. -/
def toFix (n : Bool) (m : Nat) (e : Int) : Int :=
  let k := e + fixBits
  let x : Int := m
  let y := if n then -x else x
  if 0 ≤ k then y * 2 ^ k.toNat else y / 2 ^ (-k).toNat

/-- exp of an exact value; of 0 exactly 1. -/
def expVal : Val → Val
  | .nan => .nan
  | .inf n => if n then .zero else .inf false
  | .fin n m e =>
    if m = 0 then .fin false 1 0
    else if 12 ≤ e + Nat.log2 m then (if n then .fin false 1 (-4000) else .fin false 1 4000)
    else
      let x := toFix n m e
      let k := x / ln2Fix
      sticky (expFix (x - k * ln2Fix).toNat) (k - fixBits)

/-- 2 to an exact value; of an integer exactly. -/
def exp2Val : Val → Val
  | .nan => .nan
  | .inf n => if n then .zero else .inf false
  | .fin n m e =>
    if m = 0 then .fin false 1 0
    else if 12 ≤ e + Nat.log2 m then (if n then .fin false 1 (-4000) else .fin false 1 4000)
    else
      let x := toFix n m e
      let k := x / 2 ^ fixBits
      let f := (x - k * 2 ^ fixBits).toNat
      if f = 0 then .fin false 1 k
      else sticky (expFix (f * ln2Fix / 2 ^ fixBits)) (k - fixBits)

/-- log2 of a positive exact value; of a power of two exactly. -/
def log2Val : Val → Val
  | .fin false m e =>
    if m = 0 then .nan
    else
      let k : Int := e + Nat.log2 m
      if m = 2 ^ Nat.log2 m then .ofInt k
      else sticky (k * 2 ^ fixBits + lnMant m * 2 ^ fixBits / ln2Fix) (-(fixBits : Nat))
  | _ => .nan

/-- 1 over a nonzero finite value, exact where a sticky bit says so. -/
def rcpVal : Val → Val
  | .fin n m e =>
    if m = 0 then .nan
    else
      let q := 2 ^ fixBits / m
      if q * m = 2 ^ fixBits then .fin n q (-e - fixBits) else .fin n (2 * q + 1) (-e - fixBits - 1)
  | _ => .nan

/-- 1 over the square root of a positive finite value. -/
def rsqrtVal : Val → Val
  | .fin false m e =>
    if m = 0 then .nan
    else
      let m' := if e % 2 = 0 then m else 2 * m
      let e' := if e % 2 = 0 then e else e - 1
      let big := 2 ^ (2 * fixBits)
      let q := natSqrt (big / m')
      if q * q * m' = big then .fin false q (-(e' / 2) - fixBits) else .fin false (2 * q + 1) (-(e' / 2) - fixBits - 1)
  | _ => .nan

/-- FP32 by ties to even of a logarithm, exponential and their like. -/
def f32Ln (v : Val) : Word := toF32 (lnVal v)
def f32Exp (v : Val) : Word := toF32 (expVal v)

/-- The FP32 values within 1 ulp of an exact value (09 R210): the two neighbours of an inexact one, or
an exact one with both its neighbours, as signed magnitude codes. -/
def ulpCands (v : Val) : List Int :=
  match v with
  | .fin n m e =>
    let c := fp32.roundMag 2 0 m e
    let sgn (x : Int) : Int := if n then -x else x
    if (fp32.decode c).eqv (.fin false m e) then [sgn c, sgn (c + 1), sgn ((c : Int) - 1)] else [sgn c, sgn (c + 1)]
  | _ => []

/-- A signed magnitude code as an FP32 word. -/
def ofCand (i : Int) : Word := BitVec.ofNat 32 (fp32.signCode (decide (i < 0)) + min i.natAbs fp32.infCode)

/-- A result within 1 ulp (log 7). Where the manual states no value (an argument outside the function's
domain, or a value beyond the FP32 range) the result is free, the same for one operation and argument. -/
def within1ulp (op : Nat) (x : Word) (v : Val) : Word :=
  match v with
  | .fin _ m e =>
    if fp32.roundMag 2 0 m e ≤ fp32.maxCode then
      let cs := ulpCands v
      ofCand (nth 0 cs (Config.ulpPick op x % cs.length))
    else BitVec.ofNat 32 (Config.ulpPick (op + 4) x)
  | _ => BitVec.ofNat 32 (Config.ulpPick (op + 4) x)

/-- fexp2, flog2, frcp, frsqrt by number 0-3 (09 R210); a NaN gives the NaN of R33 (02 R35). -/
def unaryF (op : Nat) (x : Word) : Word :=
  if f32IsNan x then f32Nan
  else
    match op with
    | 0 => if f32IsFin x then within1ulp 0 x (exp2Val (f32 x)) else BitVec.ofNat 32 (Config.ulpPick 4 x)
    | 1 => within1ulp 1 x (log2Val (f32 x))
    | 2 => within1ulp 2 x (rcpVal (f32 x))
    | _ => within1ulp 3 x (rsqrtVal (f32 x))

/-! ## Binary64, for the tables of R181 (log 16) -/

def f64 (c : Nat) : Val := fp64.decode c
def toF64 (v : Val) : Nat := (fp64.encode 1 0 0 v).code
def f64Add (a b : Nat) : Nat := toF64 ((f64 a).add (f64 b))
def f64Mul (a b : Nat) : Nat := toF64 ((f64 a).mul (f64 b))
def f64Div (a b : Nat) : Nat := divRound fp64 (f64 a) (f64 b)
def f64Neg (a : Nat) : Nat := toF64 (f64 a).neg
def f64Exp (a : Nat) : Nat := toF64 (expVal (f64 a))
def f64Ln (a : Nat) : Nat := toF64 (lnVal (f64 a))
def f64Sqrt (a : Nat) : Nat := sqrtRound fp64 (f64 a)

/-- A decimal `n / 10^k` in binary64. -/
def f64Dec (n k : Nat) : Nat := divRound fp64 (.ofInt n) (.ofInt (10 ^ k))

/-- r and v of R181. -/
def zigR : Nat := f64Dec 36541528853610088 16
def zigV : Nat := f64Dec 492867323399 14
def f64Half : Nat := f64Dec 5 1

/-- `exp(-x^2 / 2)` in binary64. -/
def zigF (x : Nat) : Nat := f64Exp (f64Neg (f64Mul f64Half (f64Mul x x)))

/-- The next layer boundary: `x[i+1] = sqrt(-2 ln(v / x[i] + f(x[i])))`. -/
def zigNext (x : Nat) : Nat :=
  f64Sqrt (f64Neg (f64Mul (f64Dec 2 0) (f64Ln (f64Add (f64Div zigV x) (zigF x)))))

def zigGo : Nat → Nat → List Nat
  | 0, _ => []
  | n + 1, x => x :: zigGo n (zigNext x)

/-- x[0..256] in binary64: `v / f(r)`, then r and its successors, and 0. -/
def zigX64 : List Nat := f64Div zigV (zigF zigR) :: (zigGo 255 zigR ++ [0])

/-- x and f of R181, rounded to FP32. -/
def zigX : List Word := zigX64.map (fun x => toF32 (f64 x))
def zigFs : List Word := zigX64.map (fun x => toF32 (f64 (zigF x)))

/-- FP32 r. -/
def zigR32 : Word := toF32 (f64 zigR)

end Sys2Proof.Machine
end

