-- ==== Sys2Proof/Machine/Lanes.lean ====
section
/-! DEFINITION. The lanes of a random unit (08 R173, R176, R178): words and word-steps, and the
random values conversions take from them (02 R43). -/

namespace Sys2Proof.Machine

/-- Applies a step `n` times. -/
def iterate {α : Type} (f : α → α) : Nat → α → α
  | 0, x => x
  | n + 1, x => iterate f n (f x)

/-- A word-step: 32 bit-steps (R173). -/
def wordStep (s : BitVec 128) : BitVec 128 := iterate bitStep 32 s

/-- The filter (R173). -/
def laneFilter (s : BitVec 128) : Word :=
  let a : Word := s.extractLsb' 0 32
  let b : Word := s.extractLsb' 32 32
  let c : Word := s.extractLsb' 64 32
  let d : Word := s.extractLsb' 96 32
  ((a + c.rotateLeft 11) ^^^ ((b &&& d) <<< 1)) ^^^ (b ^^^ d).rotateLeft 17

/-- Takes one word from a lane. -/
def Lane.take (l : Lane) : Word × Lane := (laneFilter l.s, { s := wordStep l.s, pos := (l.pos + 1) % 2 ^ 64 })

/-- Takes `n` words; the list is in order. -/
def Lane.takes : Nat → Lane → List Word × Lane
  | 0, l => ([], l)
  | n + 1, l =>
    let (w, l') := l.take
    let (ws, l'') := Lane.takes n l'
    (w :: ws, l'')

/-! ## Positions -/

/-- A lane at a position of a seed (R176). -/
def laneAt (dev core lane : Nat) (j : BitVec 64) (pos : Nat) : Lane :=
  { s := laneState dev core lane j pos, pos := pos % 2 ^ 64 }

/-! ## Words for the elements of a conversion -/

/-- Words one lane gives a conversion of `c` elements (R43). -/
def laneWords (c l : Nat) : Nat := if l < c then ceilDiv (ceilDiv (c - l) 32) 2 else 0

/-- The random value of element `j` out of each lane's words (R43). -/
def pickBits (ws : List (List Word)) (j : Nat) : Nat :=
  let w := (nth 0 (nth [] ws (j % 32)) (j / 64)).toNat
  if j / 32 % 2 = 0 then w % 4096 else w / 4096 % 4096

/-- The random values of a conversion of `c` elements from a unit's lanes, and the lanes after it. -/
def drawBits (ls : Vector Lane 32) (c : Nat) : List Nat × Vector Lane 32 :=
  let taken := ls.toList.mapIdx (fun i l => l.takes (laneWords c i))
  ((List.range c).map (pickBits (taken.map (·.1))), Vector.ofFn (fun i => (nth ([], {}) taken i.val).2))

/-- Elements `from_ .. from_ + c - 1` of a conversion, when the words of the earlier ones are already taken. The lanes
stand at the words element `from_` starts with, except that a half-used word stays until its second half is used. -/
def drawFrom (ls : Vector Lane 32) (from_ c : Nat) : List Nat × Vector Lane 32 :=
  let before (i : Nat) : Nat := if i < from_ then ceilDiv (from_ - i) 32 / 2 else 0
  let taken := ls.toList.mapIdx (fun i l => l.takes (laneWords (from_ + c) i - before i))
  let bits := (List.range c).map (fun k =>
    let j := from_ + k
    let w := (nth 0 (nth [] (taken.map (·.1)) (j % 32)) (j / 64 - before (j % 32))).toNat
    if j / 32 % 2 = 0 then w % 4096 else w / 4096 % 4096)
  let after (i : Nat) : Nat := if i < from_ + c then ceilDiv (from_ + c - i) 32 / 2 else 0
  (bits, Vector.ofFn (fun i => ((nth {} ls.toList i.val).takes (after i.val - before i.val)).2))

/-- Ends a conversion of `c` elements whose full words are taken: a lane with a half-used word moves past it. -/
def closeDraw (ls : Vector Lane 32) (c : Nat) : Vector Lane 32 :=
  Vector.ofFn (fun i => ((nth {} ls.toList i.val).takes
    (laneWords c i.val - (if i.val < c then ceilDiv (c - i.val) 32 / 2 else 0))).2)

/-- All lanes at position 0 of a seed (R178). -/
def freshLanes (dev core : Nat) (j : BitVec 64) : Vector Lane 32 := Vector.ofFn (fun i => laneAt dev core i.val j 0)

end Sys2Proof.Machine
end

