-- ==== Sys2Proof/Machine/Memory.lean ====
section
/-! DEFINITION. The local address map (01 R26-R29), what is populated (11 R241, 12 R260), where an address
lies, translation (09 R199-R200, R467), and memory with its errors (11 R249-R250, 12 R262-R267). -/

namespace Sys2Proof.Machine

/-- The number of bytes of a completion code (00 R11). -/
def codeVal : Code → Nat
  | .done => 0x0000 | .align => 0x0101 | .overlap => 0x0102 | .shape => 0x0103 | .format => 0x0104
  | .limit => 0x0105 | .varies => 0x0106 | .unmapped => 0x0107 | .uncorrectable => 0x0201 | .poisoned => 0x0202
  | .incomplete => 0x0301 | .chunkCheck => 0x0302 | .staleEpoch => 0x0303 | .noCredit => 0x0304
  | .unreachable => 0x0305 | .refused => 0x0401 | .health => 0x0501 | .diverge => 0x0601 | .thermal => 0x0701

/-- Logical cores per quarter: 48, or 40 for IKZ-4810 (00 R1, 01 R22). -/
def State.perQuarter (s : State) : Nat := if s.grade4810 then 40 else 48

/-- Logical cores of the module (00 R1). -/
def State.coreCount (s : State) : Nat := 4 * s.perQuarter

/-- The quarter of a logical core (01 R22). -/
def State.quarterOf (s : State) (c : CoreId) : QuarterId := Fin.ofNat 4 (c.val / s.perQuarter)

def State.core (s : State) (c : CoreId) : Core := s.cores[c.val]

def State.setCore (s : State) (c : CoreId) (k : Core) : State := { s with cores := s.cores.set c.val k }

def State.onCore (s : State) (c : CoreId) (f : Core → Core) : State := s.setCore c (f (s.core c))

def State.quarter (s : State) (q : QuarterId) : Quarter := s.quarters[q.val]

def State.onQuarter (s : State) (q : QuarterId) (f : Quarter → Quarter) : State :=
  { s with quarters := s.quarters.set q.val (f (s.quarter q)) }

def State.pier (s : State) (p : PierId) : Pier := s.piers[p.val]

def State.onPier (s : State) (p : PierId) (f : Pier → Pier) : State :=
  { s with piers := s.piers.set p.val (f (s.pier p)) }

def State.partOf (s : State) (p : PartId) : Part := s.parts[p.val]

def State.onPart (s : State) (p : PartId) (f : Part → Part) : State :=
  { s with parts := s.parts.set p.val (f (s.partOf p)) }

/-! ## The map -/

def bankBytes : Nat := 0x200_0000
def crownBase : Nat := 0x1_0000_0000
def crownSlice : Nat := 0x8000_0000
def dramBase : Nat := 0x100_0000_0000
def regBase : Nat := 0x1F00_0000_0000
def regBytes : Nat := 0x4_0000_0000
def coreWindow : Nat := 0x80_0000
def coreBytes : Nat := 0x60_0000

/-- Where a physical local address lies (01 R28). -/
inductive Place where
  | cmem (c : CoreId) (off : Nat)
  | weight (q : QuarterId) (off : Nat)
  | scratch (q : QuarterId) (off : Nat)
  | dram (off : Nat)
  | regs (off : Nat)
  | hole
  deriving DecidableEq, Repr

/-- Live channels of one quarter's stack map (12 R260, R275). -/
def popcount32 (w : BitVec 32) : Nat := ((List.range 32).filter (fun i => w.getLsbD i)).length

/-- The live channels (s, c) of the module in ascending position 12 c + s (12 R262). -/
def State.liveChannels (s : State) : List (Nat × Nat) :=
  ((List.range 384).map (fun i => (i % 12, i / 12))).filter (fun p =>
    (nth 0 (s.quarter (Fin.ofNat 4 (p.1 / 3))).chmap (p.1 % 3)).getLsbD p.2)

/-- Number of live channels, counted from the stack maps (12 R260). -/
def State.liveCount (s : State) : Nat :=
  ((List.range 4).map (fun q => ((s.quarter (Fin.ofNat 4 q)).chmap.map popcount32).sum)).sum

/-- Where a local address lies; what is not populated is a hole (01 R28, 11 R241, 12 R260). -/
def State.place (s : State) (a : Nat) : Place :=
  if a < 0x6000_0000 then
    if h : a / coreWindow < 192 then
      if a / coreWindow < s.coreCount ∧ a % coreWindow < coreBytes then .cmem ⟨a / coreWindow, h⟩ (a % coreWindow) else .hole
    else .hole
  else if crownBase ≤ a ∧ a < crownBase + 4 * crownSlice then
    let q : QuarterId := Fin.ofNat 4 ((a - crownBase) / crownSlice)
    let o := (a - crownBase) % crownSlice
    let cut := (s.quarter q).cut
    if o < cut.ws * bankBytes then .weight q o
    else if o < (cut.ws + cut.scr) * bankBytes then .scratch q (o - cut.ws * bankBytes) else .hole
  else if dramBase ≤ a ∧ a < dramBase + s.liveCount * 0x8000_0000 then .dram (a - dramBase)
  else if regBase ≤ a ∧ a < regBase + regBytes then .regs (a - regBase)
  else .hole

/-- The bank and byte within it that hold an offset of a crown region of `nb` banks from bank `f` (11 R241). -/
def crownBank (ilv : Bool) (f nb o : Nat) : Nat × Nat :=
  if ilv then (f + o / 1024 % nb, o / (1024 * nb) * 1024 + o % 1024) else (f + o / bankBytes, o % bankBytes)

/-- The bank and line of a core-memory offset (11 R237). -/
def cmemBank (o : Nat) : Nat × Nat := (o / 64 % 32, o / 2048)

/-- The live channels of one interleave region, and where each region starts (12 R261-R262). -/
def State.dramChannel (s : State) (o : Nat) : Option (Nat × Nat × Nat) :=
  let all := s.liveChannels
  let ilv := (s.quarter 0).ilv
  let sets : List (List (Nat × Nat)) :=
    if ilv = 1 then (List.range 4).map (fun q => all.filter (fun p => p.1 / 3 == q))
    else if ilv = 2 then (List.range 12).map (fun k => all.filter (fun p => p.1 == k)) else [all]
  let rec go : List (List (Nat × Nat)) → Nat → Option (Nat × Nat × Nat)
    | [], _ => none
    | l :: ls, o =>
      let m := l.length
      if o < m * 0x8000_0000 then
        let g := o / 512
        (l[g % m]?).map (fun p => (p.1, p.2, g / m * 512 + o % 512))
      else go ls (o - m * 0x8000_0000)
  go sets o

/-- The quarter whose controllers own a stacked-DRAM offset (01 R19, 12 R262). -/
def State.dramQuarter (s : State) (o : Nat) : QuarterId :=
  match s.dramChannel o with
  | some (k, _, _) => Fin.ofNat 4 (k / 3)
  | none => 0

/-! ## Translation -/

/-- The kind of an access, for page rights (09 R200). -/
inductive Right where
  | read | write | fetch
  deriving DecidableEq, Repr

/-- What an address resolves to. -/
inductive Target where
  | here (a : Nat)
  | remote (dev : Nat) (fabricB : Bool) (a : Nat)
  deriving DecidableEq, Repr

/-- A page-table entry's answer (09 R200): V, RD, WR with SH, EX, and the frame. -/
def pageLookup (e : BitVec 64) (r : Right) : Except Code Nat :=
  if !e.getLsbD 63 then .error .unmapped
  else
    let ok := match r with
      | .read => e.getLsbD 62
      | .write => e.getLsbD 61 && !e.getLsbD 59
      | .fetch => e.getLsbD 60
    if ok then .ok ((e.toNat % 2 ^ 28) * 0x20_0000) else .error .refused

/-- Whether a physical local address is populated for loads and stores (01 R28). -/
def State.mapped (s : State) (a : Nat) : Bool :=
  match s.place a with
  | .hole => false
  | _ => true

/-- A local address of a partition as a physical local address (09 R199-R200, R467). A frame in a hole is UNMAPPED before the rights
of its page are asked. -/
def State.translate (s : State) (p : PartId) (a : Nat) (r : Right) : Except Code Nat :=
  if p = 0 then .ok a
  else
    let e := Tab.get 0 (s.partOf p).pages (a / 0x20_0000)
    let x := (e.toNat % 2 ^ 28) * 0x20_0000 + a % 0x20_0000
    match pageLookup e r with
    | .ok f => .ok (f + a % 0x20_0000)
    | .error c => .error (if c = .refused ∧ !s.mapped x then .unmapped else c)

/-- The address lies in the core-memory window or the register block of a core with no physical core (01 R24). -/
def State.unbound (s : State) (a : Nat) : Bool :=
  match s.place a with
  | .cmem c _ => (s.core c).phys.isNone
  | .regs o => if h : o / 0x10_0000 < 192 then decide (o / 0x10_0000 < s.coreCount) && (s.core ⟨_, h⟩).phys.isNone else false
  | _ => false

/-- A span of a quarter is live (01 R16-R17). -/
def State.spanLive (s : State) (q : QuarterId) (d : Die) : Bool := !(s.quarter q).deadSpans.contains d

/-- A ring span between neighbours is live. -/
def State.ringLive (s : State) (a b : QuarterId) : Bool := s.spanLive a (.quarter b) && s.spanLive b (.quarter a)

/-- A pier's relay is usable for a pair of quarters (01 R17). -/
def State.relayUsable (s : State) (p : PierId) (a b : QuarterId) : Bool :=
  (s.pier p).alive && s.spanLive a (.pier p) && s.spanLive b (.pier p)

/-- The ring as seen from quarter 0: Q0, Q1, Q3, Q2 (01 R16). -/
def ringOrder : List QuarterId := [0, 1, 3, 2]

/-- Places on the ring (R16) are counted modulo 4. -/
def ringPlace (q : QuarterId) : Nat := (ringOrder.findIdx? (· == q)).getD 0

def ringAt (i : Nat) : QuarterId := nth 0 ringOrder (i % 4)

/-- Ring neighbours (R16). -/
def ringPair (a b : QuarterId) : Bool :=
  (ringPlace a + 1) % 4 == ringPlace b || (ringPlace b + 1) % 4 == ringPlace a

/-- Every ring span from place `i` of the ring over `n` steps upward is live. -/
def State.ringPath (s : State) (i n : Nat) : Bool :=
  (List.range n).all (fun k => s.ringLive (ringAt (i + k)) (ringAt (i + k + 1)))

/-- How traffic goes between two quarters (R17). -/
inductive Path where
  | direct
  | relay (p : PierId)
  | ring (through : List QuarterId)
  deriving DecidableEq, Repr

/-- The way along the ring over live spans: the shorter one, and of two equally short ones that whose first intermediate
quarter has the lower number (R17). -/
def State.ringWay (s : State) (a b : QuarterId) : Option Path :=
  let i := ringPlace a
  let j := ringPlace b
  let up := (j + 4 - i) % 4
  let dn := (i + 4 - j) % 4
  let upVia := (List.range (up - 1)).map (fun k => ringAt (i + k + 1))
  let dnVia := (List.range (dn - 1)).map (fun k => ringAt (i + 3 - k))
  match s.ringPath i up, s.ringPath j dn with
  | true, true =>
    if up < dn ∨ (up = dn ∧ nth 0 upVia 0 < nth 0 dnVia 0) then some (.ring upVia) else some (.ring dnVia)
  | true, false => some (.ring upVia)
  | false, true => some (.ring dnVia)
  | false, false => none

/-- The path between two quarters of a request for an address (R17): the ring span of live neighbours; else the relay of the
pier that bit 6 of the line address names, or the other pier's; else the ring. -/
def State.path (s : State) (a b : QuarterId) (addr : Nat) : Option Path :=
  let p : PierId := if addr / 64 % 2 = 0 then 0 else 1
  let other : PierId := if p = 0 then 1 else 0
  if a = b ∨ (ringPair a b ∧ s.ringLive a b) then some .direct
  else if s.relayUsable p a b then some (.relay p)
  else if s.relayUsable other a b then some (.relay other)
  else s.ringWay a b

/-- The quarter in whose crown, cores, stacks or register blocks a physical local address lies. -/
def State.homeQuarter (s : State) (a : Nat) : Option QuarterId :=
  match s.place a with
  | .cmem c _ => some (s.quarterOf c)
  | .weight q _ => some q
  | .scratch q _ => some q
  | .dram o => some (s.dramQuarter o)
  | .regs o =>
    if h : o / 0x10_0000 < 192 then some (s.quarterOf ⟨_, h⟩)
    else if 0x1_0000_0000 ≤ o ∧ o < 0x1_0400_0000 then some (Fin.ofNat 4 ((o - 0x1_0000_0000) / 0x100_0000))
    else none
  | .hole => none

/-- The requester at hand has a path to an address. -/
def State.reachable (s : State) (a : Nat) : Bool :=
  match s.viewer, s.homeQuarter a with
  | some (.quarter v), some q => (s.path v q a).isSome
  | _, _ => true

/-- Names the requester of the accesses that follow (01 R17; log 46). -/
def State.from_ (s : State) (c : CoreId) : State := { s with viewer := some (.quarter (s.quarterOf c)) }

/-- The state after a command, with no requester at hand. -/
def State.back (t s : State) : State := { t with viewer := s.viewer }

/-- Runs an event of a core's engine, or of a quarter's update engine, as the requester of its accesses. -/
def asCore (c : CoreId) (f : State → Host.Outcome State Fault Refusal) (s : State) : Host.Outcome State Fault Refusal :=
  match f (s.from_ c) with
  | .next t => .next (t.back s)
  | o => o

def asQuarter (q : QuarterId) (f : State → Host.Outcome State Fault Refusal) (s : State) : Host.Outcome State Fault Refusal :=
  match f { s with viewer := some (.quarter q) } with
  | .next t => .next (t.back s)
  | o => o

/-- Runs an event of a pier's switch or engines likewise (14 R311). -/
def asPier (p : PierId) (f : State → Host.Outcome State Fault Refusal) (s : State) : Host.Outcome State Fault Refusal :=
  match f { s with viewer := some (.pier p) } with
  | .next t => .next (t.back s)
  | o => o

/-- A populated address of a bound part that a path leads to, or why not (01 R17, R24, R28). -/
def State.present (s : State) (a : Nat) : Except Code Nat :=
  if !s.mapped a then .error .unmapped
  else if s.unbound a || !s.reachable a then .error .unreachable else .ok a

/-- A physical local address that names no memory on any module: the register window, which only its own module reaches, or
a hole that is the same on all of them (01 R27-R28). -/
def unpopulated (a : Nat) : Bool :=
  decide (0x6000_0000 ≤ a ∧ a < 0x1_0000_0000) || (decide (a < 0x6000_0000) && decide (coreBytes ≤ a % coreWindow))
    || decide (0x3_0000_0000 ≤ a ∧ a < dramBase) || decide (dramBase + 0xC0_0000_0000 ≤ a)

/-- Resolves a global address (01 R26-R27, 09 R199): device number first, then the local part. -/
def State.resolve (s : State) (p : PartId) (g : Addr) (r : Right) : Except Code Target :=
  let fb := g.getLsbD 63
  let dev := bitsOf g.toNat 62 49
  let loc := g.toNat % 2 ^ 49
  let phys : Except Code Nat :=
    if p = 0 then (if dev > 12287 then .error .unmapped else .ok dev)
    else match (s.partOf p).devices.find? (fun d => d.1 == dev) with
      | some d => .ok d.2
      | none => .error .unmapped
  match phys with
  | .error c => .error c
  | .ok d =>
    if fb = s.fabricB ∧ d = s.dev then
      match s.translate p loc r with
      | .error c => .error c
      | .ok a => (s.present a).map .here
    else if fb = s.fabricB ∧ d ∉ s.net.members then .error .unreachable
    else if fb ≠ s.fabricB ∧ !s.net.twin then .error .unreachable
    else if p = 0 ∧ unpopulated loc then .error .unmapped
    else .ok (.remote d fb loc)

/-- A local field of a structure, for an engine: populated memory, never the register window (01 R28). -/
def State.resolveLocal (s : State) (p : PartId) (a : Nat) (r : Right) : Except Code Nat :=
  match s.translate p (a % 2 ^ 49) r with
  | .error c => .error c
  | .ok x => match s.place x with
    | .regs _ => .error .unmapped
    | _ => s.present x

/-- A global address given to an engine command that works on this module only (01 R27-R28). -/
def State.resolveEngine (s : State) (p : PartId) (g : Addr) (r : Right) : Except Code Nat :=
  match s.resolve p g r with
  | .error c => .error c
  | .ok (.remote _ _ _) => .error .unmapped
  | .ok (.here a) => match s.place a with
    | .regs _ => .error .unmapped
    | _ => .ok a

/-! ## Memory and its errors -/

/-- The 64-byte lines that bytes `a .. a + n - 1` touch. -/
def linesOf (a n : Nat) : List Nat := (List.range ((a + n + 63) / 64 - a / 64)).map (· + a / 64)

def State.rd (s : State) (a n : Nat) : List Byte := Tab.getList 0 s.mem a n

def State.rdByte (s : State) (a : Nat) : Byte := Tab.get 0 s.mem a

/-- Writes bytes, with no check: the one place memory changes. -/
def State.wr (s : State) (a : Nat) (bs : List Byte) : State := { s with mem := Tab.setList 0 s.mem a bs }

/-- Adds a line to a rising list. -/
def addLine (l : List Nat) (x : Nat) : List Nat :=
  if l.contains x then l else (l.filter (· < x)) ++ x :: l.filter (x < ·)

/-- Latches an ECC address if none is latched. -/
def EccLatch.take (e new : EccLatch) : EccLatch := if e.valid then e else new

/-- The physical bank that stands in for a crown bank (11 R251). -/
def Quarter.physBank (k : Quarter) (b : Nat) : Nat := ((k.remap.find? (fun e => e.1 == b)).map (·.2)).getD b

/-- The bank of the cut and the byte within it where a crown address lies (11 R241). -/
def State.crownPlace (s : State) (a : Nat) : Option (QuarterId × Nat × Nat) :=
  match s.place a with
  | .weight q o => let cut := (s.quarter q).cut; some (q, crownBank cut.ilvWs 0 cut.ws o)
  | .scratch q o => let cut := (s.quarter q).cut; some (q, crownBank cut.ilvScr cut.ws cut.scr o)
  | _ => none

/-- The physical row of a line (11 R251). -/
def State.rowOf (s : State) (line : Nat) : Option RepairRow :=
  match s.place (line * 64) with
  | .cmem c o => (s.core c).phys.map (fun p => .core (s.quarterOf c).val p (cmemBank o).1 ((cmemBank o).2 / 32))
  | _ => (s.crownPlace (line * 64)).map (fun x => .crown x.1.val ((s.quarter x.1).physBank x.2.1) (x.2.2 / 8192))

/-- The steward's repair log takes an error: of a row, with the line that was corrected (R251). -/
def State.noteRow (s : State) (r : RepairRow) (line : Nat) (ue : Bool) : State :=
  if ue then { s with repairUe := s.repairUe ++ [r] }
  else if s.repairCe.contains (r, line) then s else { s with repairCe := s.repairCe ++ [(r, line)] }

/-- Counts and latches an error of a crown line at a byte of its quarter's slice (11 R255). -/
def State.countCrown (s : State) (q : QuarterId) (o : Nat) (ue : Bool) : State :=
  s.onQuarter q (fun k => { k with
    crownCe := if ue then k.crownCe else satInc 32 k.crownCe
    crownUe := if ue then satInc 32 k.crownUe else k.crownUe
    crownLatch := k.crownLatch.take { valid := true, ue := ue, line := o / 64 } })

/-- The repair log takes an error of a line, where it lies in a row (11 R251). -/
def State.noteErr (s : State) (line : Nat) (ue : Bool) : State :=
  match s.rowOf line with
  | some r => s.noteRow r line ue
  | none => s

/-- Counts an error of a line where it lies (11 R249-R250, R255, R258; 12 R266, R276). -/
def State.countErr (s : State) (line : Nat) (ue : Bool) : State :=
  let s := s.noteErr line ue
  match s.place (line * 64) with
  | .cmem c _ => s.onCore c (fun k => { k with
      eccCe := if ue then k.eccCe else satInc 16 k.eccCe
      eccUe := k.eccUe || ue })
  | .weight q o => s.countCrown q o ue
  | .scratch q o => s.countCrown q (o + (s.quarter q).cut.ws * bankBytes) ue
  | .dram o =>
    match s.dramChannel o with
    | some (k, c, b) =>
      let s := s.onQuarter (Fin.ofNat 4 (k / 3)) (fun u => { u with
        hbmCe := if ue then u.hbmCe else satInc 32 u.hbmCe
        hbmUe := if ue then satInc 32 u.hbmUe else u.hbmUe
        hbmLatch := u.hbmLatch.take { valid := true, ue := ue, stack := k % 3, chan := c, line := b / 64 } })
      if ue then { s with badChannels := if s.badChannels.contains (k, c) then s.badChannels else s.badChannels ++ [(k, c)] } else s
    | none => s
  | _ => s

/-! ### Operand buffers (11 R236) -/

/-- A buffer access of the words that `f` names: single-bit errors are corrected in flight and counted; the answer is whether a
double-bit error was met. An error stays in its word until the word is written (log 101). -/
def State.bufRead (s : State) (c : CoreId) (f : BufWord → Bool) : State × Bool :=
  let hit := (s.core c).bufErr.filter (fun x => f x.1)
  if hit.isEmpty then (s, false)
  else
    let ue := hit.any (fun x => x.2 == .double)
    (s.onCore c (fun k => { k with
      eccCe := min 0xFFFF (k.eccCe + (hit.filter (fun x => x.2 == .single)).length)
      eccUe := k.eccUe || ue }), ue)

/-- The words that `f` names are written whole. -/
def State.bufWrite (s : State) (c : CoreId) (f : BufWord → Bool) : State :=
  if (s.core c).bufErr.isEmpty then s else s.onCore c (fun k => { k with bufErr := k.bufErr.filter (fun x => !f x.1) })

/-- The words of `n` bytes of the input buffer from position `at_` of a wrapping region. -/
def inputWords (base size at_ n : Nat) (w : BufWord) : Bool :=
  match w with
  | .input i => (List.range n).any (fun j => ((base + (at_ + j) % max size 1) % 2 ^ 18) / 8 == i)
  | _ => false

/-- The words of some elements of a group: two elements share a word. -/
def accWords (g : GroupId) (keys : List Nat) (w : BufWord) : Bool :=
  match w with
  | .acc h i => h == g && keys.any (fun k => k / 2 == i)
  | _ => false

def tableWords (es : List Nat) (w : BufWord) : Bool :=
  match w with
  | .table i => es.contains i
  | _ => false

def matcherWords (slots : List Nat) (w : BufWord) : Bool :=
  match w with
  | .matcher i => slots.contains i
  | _ => false

/-- A weight half with its metadata half. -/
def halfWords (h : Fin 2) (w : BufWord) : Bool :=
  match w with
  | .weight k _ => k == h
  | .metadata k _ => k == h
  | _ => false

/-- Whether the channel of a line is declared dead (12 R267). -/
def State.deadLine (s : State) (line : Nat) : Bool :=
  match s.place (line * 64) with
  | .dram o => match s.dramChannel o with
    | some (k, c, _) => (s.quarter (Fin.ofNat 4 (k / 3))).dead.contains (k % 3, c)
    | none => false
  | _ => false

/-- An access that a dead channel ends at once: it is counted and latched (12 R267, R276); the one whose wait found the channel
dead has been. -/
def State.countDead (s : State) (line : Nat) : State :=
  match s.place (line * 64) with
  | .dram o => match s.dramChannel o with
    | some (k, c, b) => s.onQuarter (Fin.ofNat 4 (k / 3)) (fun u =>
        if u.timedOut.contains line then { u with timedOut := u.timedOut.erase line } else { u with
        hbmUe := satInc 32 u.hbmUe
        hbmLatch := u.hbmLatch.take { valid := true, ue := true, dead := true, stack := k % 3, chan := c, line := b / 64 } })
    | none => s
  | _ => s

/-- Takes the bit errors out of a line that is read: corrected, or poisoned (11 R249-R250, 12 R266). The code is that of
the access that reads the line. -/
def State.readLine (s : State) (line : Nat) : State × Code :=
  if s.deadLine line then (s.countDead line, .uncorrectable)
  else if s.poison.contains line then (s, .poisoned)
  else match s.upsets.find? (fun u => u.1 == line) with
    | none => (s, .done)
    | some (_, .single) => (({ s with upsets := s.upsets.filter (fun u => u.1 != line) }).countErr line false, .done)
    | some (_, .double) =>
      let t := ({ s with upsets := s.upsets.filter (fun u => u.1 != line), poison := addLine s.poison line }).countErr line true
      (t, match s.place (line * 64) with | .weight _ _ => .poisoned | _ => .uncorrectable)

/-- Reads every line in order until one fails. -/
def State.readLines (s : State) : List Nat → State × Code
  | [] => (s, .done)
  | l :: ls => match s.readLine l with
    | (t, .done) => t.readLines ls
    | (t, c) => (t, c)

/-- Checks that bytes can be read; the data are `rd` of the same range. -/
def State.touch (s : State) (a n : Nat) : State × Code := s.readLines (linesOf a n)

/-- In stacked DRAM a part write reads its lines first (12 R264). -/
def State.readFirst (s : State) (a : Nat) (part : List Nat) : State × Code :=
  match s.place a with
  | .dram _ => s.readLines part
  | _ => (s, .done)

/-- The lines that `n` bytes at `a` cover only in part. -/
def partLines (a n : Nat) : List Nat := (linesOf a n).filter (fun l => l * 64 < a ∨ a + n < l * 64 + 64)

/-- What a write of `n` bytes meets before it is performed: on a dead channel it ends (12 R267), a part of a poisoned line
fails (11 R250), and in stacked DRAM the lines it covers in part are read (12 R264). -/
def State.storeCheck (s : State) (a n : Nat) : State × Code :=
  match (linesOf a n).find? s.deadLine with
  | some l => (s.countDead l, .uncorrectable)
  | none => if (partLines a n).any s.poison.contains then (s, .poisoned) else s.readFirst a (partLines a n)

/-- Performs a write: a line covered whole loses its poison and its errors (11 R250). -/
def State.lay (s : State) (a : Nat) (bs : List Byte) : State :=
  let full := (linesOf a bs.length).filter (fun l => !(partLines a bs.length).contains l)
  ({ s with poison := s.poison.filter (fun l => !full.contains l), upsets := s.upsets.filter (fun u => !full.contains u.1) }).wr a bs

/-- A write with its checks. -/
def State.store (s : State) (a : Nat) (bs : List Byte) : State × Code :=
  match s.storeCheck a bs.length with
  | (t, .done) => (t.lay a bs, .done)
  | (t, c) => (t, c)

/-- The pieces of `n` bytes at `a` in their 64-byte lines: address and length of each, ascending. -/
def pieces (a n : Nat) : List (Nat × Nat) :=
  (linesOf a n).map (fun l => (max a (64 * l), min (a + n) (64 * l + 64) - max a (64 * l)))

/-- Stacked DRAM. -/
def State.isDram (s : State) (a : Nat) : Bool :=
  match s.place a with
  | .dram _ => true
  | _ => false

/-- Every page of a range that resolves lies where `ok` allows; the places of the others are not asked. No page spans two memories. -/
def State.rangeIn (s : State) (p : PartId) (a n : Nat) (r : Right) (ok : Nat → Bool) : Bool :=
  ((List.range ((a + n + 0x1F_FFFF) / 0x20_0000 - a / 0x20_0000)).map (fun i => max a ((a / 0x20_0000 + i) * 0x20_0000))).all (fun x =>
    match s.resolveLocal p x r with
    | .ok y => ok y
    | .error _ => true)

/-- Reads the pieces of a structure, each translated on its own (09 R201), until one fails. -/
def State.readPieces (s : State) (p : PartId) : List (Nat × Nat) → State × Except Code (List Byte)
  | [] => (s, .ok [])
  | (a, n) :: r =>
    match s.resolveLocal p a .read with
    | .error c => (s, .error c)
    | .ok x => match s.touch x n with
      | (t, .done) => match t.readPieces p r with
        | (u, .ok bs) => (u, .ok (t.rd x n ++ bs))
        | (u, .error c) => (u, .error c)
      | (t, c) => (t, .error c)

/-- A descriptor or header of `n` bytes at a local address (00 R466). `onlyFast` requires core memory or the crown. -/
def State.readStruct (s : State) (p : PartId) (a n : Nat) (onlyFast : Bool) : State × Except Code (List Byte) :=
  if onlyFast && !s.rangeIn p a n .read (fun x => !s.isDram x) then (s, .error .unmapped) else s.readPieces p (pieces a n)

/-! ## Quarters -/

def allQuarters : List QuarterId := [0, 1, 2, 3]

/-! ## The layout engine's places (13 R287, R298) -/

/-- A command runs, or is next to run. -/
def Lay.busy (l : Lay) : Bool := l.run.isSome || !l.queue.isEmpty

/-- Commands that wait behind it. -/
def Lay.depth (l : Lay) : Nat := l.queue.length - (if l.run.isSome then 0 else 1)

/-- Another command may be issued: fewer than 8 wait behind the one that runs. -/
def Lay.room (l : Lay) : Bool := !l.busy || decide (l.depth < 8)

end Sys2Proof.Machine
end

