-- ==== Sys2Proof/Machine/Flags.lean ====
section
/-! DEFINITION. Sticky flags (00 R14, 02 R57-R62) and counts: the layout of R58, setting and clearing. -/

namespace Sys2Proof.Machine

/-- The layout of R58. -/
def Flags.bits (f : Flags) : Nat :=
  b2n f.accSat + 2 * b2n f.narrowSat + 4 * b2n f.nonfinite + 8 * b2n f.sideUnder

/-- Flags that either operand has. -/
def Flags.join (a b : Flags) : Flags :=
  { accSat := a.accSat || b.accSat, narrowSat := a.narrowSat || b.narrowSat,
    nonfinite := a.nonfinite || b.nonfinite, sideUnder := a.sideUnder || b.sideUnder }

/-- A W1C write in the layout of R58 (00 R6). -/
def Flags.w1c (f : Flags) (v : Nat) : Flags :=
  { accSat := f.accSat && !bitOf v 0, narrowSat := f.narrowSat && !bitOf v 1,
    nonfinite := f.nonfinite && !bitOf v 2, sideUnder := f.sideUnder && !bitOf v 3 }

/-- The flags one narrowing sets. -/
def flagsOf (sat nonfin : Bool) : Flags := { narrowSat := sat, nonfinite := nonfin }

/-- Flags newly set by a change, in the layout of R58. -/
def Flags.newly (old new : Flags) : Nat :=
  b2n (new.accSat && !old.accSat) + 2 * b2n (new.narrowSat && !old.narrowSat)
    + 4 * b2n (new.nonfinite && !old.nonfinite) + 8 * b2n (new.sideUnder && !old.sideUnder)

/-- A saturating count that any written 1 clears (R6, R9). -/
def w1cCount (n v : Nat) : Nat := if v = 0 then n else 0

end Sys2Proof.Machine
end

