-- ==== Sys2Proof/Machine/Power.lean ====
section
/-! DEFINITION. The switched domains and what they say of the parts in them (17 R375-R377). -/

namespace Sys2Proof.Machine

/-- The domain of core group `j` of quarter `q` (R375). -/
def domGroup (q j : Nat) : DomainId := Fin.ofNat 80 (18 * q + j)
def domZone (q z : Nat) : DomainId := Fin.ofNat 80 (18 * q + 13 + z)
def domFabric (q : Nat) : DomainId := Fin.ofNat 80 (18 * q + 17)
def domPorts (p b : Nat) : DomainId := Fin.ofNat 80 (72 + 4 * p + b)
def domSwitch (p : Nat) : DomainId := Fin.ofNat 80 (74 + 4 * p)
def domSteward (p : Nat) : DomainId := Fin.ofNat 80 (75 + 4 * p)

/-- What a domain number names (R375). -/
inductive DomKind where
  | group (q j : Nat)
  | zone (q z : Nat)
  | fabric (q : Nat)
  | ports (p b : Nat)
  | switch (p : Nat)
  | steward (p : Nat)
  deriving DecidableEq, Repr

def DomKind.of (d : DomainId) : DomKind :=
  if d.val < 72 then
    if d.val % 18 < 13 then .group (d.val / 18) (d.val % 18)
    else if d.val % 18 < 17 then .zone (d.val / 18) (d.val % 18 - 13) else .fabric (d.val / 18)
  else
    match (d.val - 72) % 4 with
    | 0 => .ports ((d.val - 72) / 4) 0
    | 1 => .ports ((d.val - 72) / 4) 1
    | 2 => .switch ((d.val - 72) / 4)
    | _ => .steward ((d.val - 72) / 4)

def State.dom (s : State) (d : DomainId) : DomState := s.pwr.dom[d.val]

def State.onPwr (s : State) (f : Pwr → Pwr) : State := { s with pwr := f s.pwr }

def State.setDom (s : State) (d : DomainId) (v : DomState) : State :=
  s.onPwr (fun p => { p with dom := p.dom.set d.val v })

/-! ## Step requests (R380-R382) -/

/-- Requests for one target; whether a domain is to be OFF or GATED does not matter. -/
def sameTarget : StepTarget → StepTarget → Bool
  | .domain d _, .domain e _ => d == e
  | a, b => a == b

/-- An upward request: it withdraws a waiting downward one and is then not queued itself (R382). -/
def State.requestUp (s : State) (t : StepTarget) : State :=
  if s.pwr.down.any (fun r => sameTarget r.target t) then
    s.onPwr (fun p => { p with down := p.down.filter (fun r => !sameTarget r.target t) })
  else if s.pwr.up.any (fun r => sameTarget r.target t) then s
  else s.onPwr (fun p => { p with up := p.up ++ [⟨t, s.now⟩] })

/-- The goal of two downward requests for one domain: OFF, if either asks for it. -/
def lowerGoal : StepTarget → StepTarget → StepTarget
  | .domain d a, .domain _ b => .domain d (a && b)
  | a, _ => a

/-- A downward request: with a waiting upward one both are withdrawn (R382); a waiting downward one takes the lower goal. -/
def State.requestDown (s : State) (t : StepTarget) : State :=
  if s.pwr.up.any (fun r => sameTarget r.target t) then
    s.onPwr (fun p => { p with up := p.up.filter (fun r => !sameTarget r.target t) })
  else if s.pwr.down.any (fun r => sameTarget r.target t) then
    s.onPwr (fun p => { p with down := p.down.map (fun r => if sameTarget r.target t then { r with target := lowerGoal r.target t } else r) })
  else s.onPwr (fun p => { p with down := p.down ++ [⟨t, s.now⟩] })

/-- The domain is not up and not on its way up. -/
def State.domDown (s : State) (d : DomainId) : Bool := s.dom d == .off || s.dom d == .gated

/-- A downward grant of the target still ramps (R380). -/
def State.ramping (s : State) (t : StepTarget) : Bool := s.pwr.ramps.any (fun r => sameTarget r.1 t)

/-- The domain is down, or will be when its ramp has run. -/
def State.sinking (s : State) (d : DomainId) : Bool := s.domDown d || s.ramping (.domain d false)

/-- A downward request of the target waits. -/
def State.leaving (s : State) (t : StepTarget) : Bool := s.pwr.down.any (fun r => sameTarget r.target t)

/-- A target that is down is wanted up: where a waiting downward request is only withdrawn (R382), it is requested again
(log 162). -/
def State.askUp (s : State) (t : StepTarget) : State := if s.leaving t then (s.requestUp t).requestUp t else s.requestUp t

/-- Keeps a target up: a waiting downward request is withdrawn. -/
def State.keepUp (s : State) (t : StepTarget) : State := if s.leaving t then s.requestUp t else s

/-- A domain is wanted up, whether it is down, on its way down, or about to be. -/
def State.wantUp (s : State) (d : DomainId) : State :=
  if s.sinking d then s.askUp (.domain d false) else s.keepUp (.domain d false)

/-- Wakes a core group. From OFF it is requested only once its fabric is ON; the fabric is requested first, and stays up (R376,
R378). A tripped quarter is not woken (R384). -/
def State.wakeGroup (s : State) (d : DomainId) : State :=
  match DomKind.of d with
  | .group q _ =>
    let f := domFabric q
    if (s.quarter (Fin.ofNat 4 q)).tripped then s
    else if !s.sinking d then s.keepUp (.domain d false)
    else if s.dom f = .on ∧ !s.ramping (.domain f false) then (s.keepUp (.domain f false)).askUp (.domain d false)
    else (if s.pwr.want.contains d then s else s.onPwr (fun p => { p with want := p.want ++ [d] })).wantUp f
  | _ => s

/-- The domain of a logical core's group, if the core is bound (01 R23, R375). -/
def State.coreDom (s : State) (c : CoreId) : Option DomainId :=
  (s.core c).phys.map (fun p => domGroup (s.quarterOf c).val (p / 4))

/-- The core is bound and its group is ON: its threads and engines run. -/
def State.coreOn (s : State) (c : CoreId) : Bool :=
  decide (c.val < s.coreCount) &&
  match s.coreDom c with
  | some d => s.dom d == .on
  | none => false

/-- The quarter fabric is ON. -/
def State.fabricOn (s : State) (q : QuarterId) : Bool := s.dom (domFabric q.val) == .on

/-- The pier works and its switch domain is ON. -/
def State.pierOn (s : State) (p : PierId) : Bool := (s.pier p).alive && s.dom (domSwitch p.val) == .on

/-- PWR_STATE.STATE by the conditions of R377. -/
def State.pwrState (s : State) : Nat :=
  let any (f : DomKind → Bool) (ok : DomState → Bool) : Bool :=
    (List.range 80).any (fun i => f (.of (Fin.ofNat 80 i)) && ok (s.dom (Fin.ofNat 80 i)))
  let grp : DomKind → Bool := fun k => match k with | .group _ _ => true | _ => false
  let fab : DomKind → Bool := fun k => match k with | .fabric _ => true | _ => false
  let sw : DomKind → Bool := fun k => match k with | .switch _ => true | .steward _ => true | _ => false
  let up : DomState → Bool := fun d => d == .on || d == .waking
  if any grp (· == .on) then 0 else if any fab up then 1 else if any sw up then 2 else 3

/-- The two bits a domain state reads as (R387). -/
def DomState.bits : DomState → Nat
  | .off => 0 | .on => 1 | .gated => 2 | .waking => 3

/-- The crown zone of an offset in a quarter's slice, for banks without replacement (11 R245). -/
def zoneOfBank (b : Nat) : Nat := b / 16

/-- GEN of a core-memory window, which is held in the quarter fabric (11 R248, R257). -/
def isCmemGen (off : Nat) : Bool :=
  let o := off % 0x10_0000
  decide (0x9_0100 ≤ o) && decide (o < 0x9_0180) && o % 16 == 12

/-- The domain a register offset lies in; none is always-on (registers of 02-20). -/
def State.regDomain (s : State) (off : Nat) : Option (Option DomainId) :=
  if off < 0x1_0000_0000 then
    if h : off / 0x10_0000 < 192 then
      let sub := off % 0x10_0000 / 0x1_0000
      if sub = 8 ∨ isCmemGen off then some (some (domFabric (s.quarterOf ⟨_, h⟩).val)) else (s.coreDom ⟨_, h⟩).map some
    else some none
  else if off < 0x2_0000_0000 then
    if off - 0x1_0000_0000 < 0x400_0000 then some (some (domFabric ((off - 0x1_0000_0000) / 0x100_0000))) else some none
  else if off < 0x3_0000_0000 then
    if off - 0x2_0000_0000 < 0x200_0000 then some (some (domSwitch ((off - 0x2_0000_0000) / 0x100_0000))) else some none
  else some none

/-- The offset lies in a core's own register block, its snapshot sub-block apart, which is of the quarter fabric (20 R433). -/
def inCoreBlock (c : CoreId) (off : Nat) : Bool := off / 0x10_0000 == c.val && off % 0x10_0000 / 0x1_0000 != 8

/-- HI halves of registers that came up anew return to their reset value (00 R10). -/
def State.dropLatches (s : State) (lost : Nat → Bool) : State := { s with latches := s.latches.filter (fun l => !lost l.1) }

/-- A core group with a bound core. -/
def State.groupBound (s : State) (q j : Nat) : Bool :=
  (List.range s.coreCount).any (fun n =>
    let c : CoreId := Fin.ofNat 192 n
    (s.quarterOf c).val == q && (match (s.core c).phys with | some p => p / 4 == j | none => false))

/-- A crown zone holds a bank in use (11 R245). -/
def State.zoneInUse (s : State) (q z : Nat) : Bool :=
  let k := s.quarter (Fin.ofNat 4 q)
  decide (16 * z < k.cut.ws + k.cut.scr + k.cut.sc) || k.remap.any (fun e => zoneOfBank e.2 == z)

/-- The fabric of a quarter, its crown zones in use, a pier's parts: what a running module holds up besides core groups. -/
def State.heldUp (s : State) (d : DomainId) : Bool :=
  match DomKind.of d with
  | .group _ _ => false
  | .zone q z => s.zoneInUse q z
  | .fabric _ => true
  | _ => s.dom d != .off

/-- A tripped quarter's domain is not woken (R384). -/
def State.tripBars (s : State) (d : DomainId) : Bool := decide (d.val < 72) && (s.quarter (Fin.ofNat 4 (d.val / 18))).tripped

/-- The steward raises the module towards S0 (R377): what is down goes up through the governor, of the core groups those it
wants and that hold a bound core. -/
def State.raise (s : State) (wants : DomainId → Bool) : State :=
  let all : List DomainId := (List.range 80).map (Fin.ofNat 80)
  let step (late : Bool) (t : State) (d : DomainId) : State :=
    if t.tripBars d then t
    else match DomKind.of d with
    | .group q j =>
      if wants d ∧ s.groupBound q j ∧ (late ∨ t.dom (domFabric q) = .on) then t.wakeGroup d else t
    | _ => if !late ∧ t.heldUp d then t.wantUp d else t
  let t := all.foldl (step true) (all.foldl (step false) s)
  (List.range 12).foldl (fun u k =>
    let x : StepTarget := .stack (Fin.ofNat 12 k)
    if (u.quarter (Fin.ofNat 4 (k / 3))).selfref.getLsbD (k % 3) ∨ u.ramping x then u.askUp x else u.keepUp x) t

/-- Traffic that S2 does not carry raises the module (R377). -/
def State.rouse (s : State) : State := if s.pwrState = 2 ∧ s.pwr.shut.isNone then s.raise (fun _ => true) else s

/-- The active steward runs (01 R21): the module is started, not locked, and the steward's domain is ON. -/
def State.stewardUp (s : State) : Bool :=
  s.boot.mode == .running && !s.sec.locked && s.dom (domSteward s.boot.steward.val) == .on

/-- Whether the registers at an offset are powered: their domain is ON or GATED (00 R10), or the always-on domain runs. -/
def State.regLive (s : State) (off : Nat) : Bool :=
  match s.regDomain off with
  | none => false
  | some none => s.pwr.alwaysOn
  | some (some d) => s.dom d == .on || s.dom d == .gated

end Sys2Proof.Machine
end

