-- ==== Sys2Proof/Machine/RegRead.lean ====
section
/-! DEFINITION. What every register reads as, by its offset from 0x1F00_0000_0000 (the register maps of 01 to 20),
the LO / HI latches (03 R86), and the images snapshot copies hold (20 R433). -/

namespace Sys2Proof.Machine

/-- A 32-bit register value. -/
def w32 (n : Nat) : Word := BitVec.ofNat 32 n

/-- A field at bit `lo`. -/
def fld (v lo : Nat) : Nat := v * 2 ^ lo

/-- Phase `k` of a barrier has completed (09 R207). -/
def Barrier.passed (b : Barrier) (k : Nat) : Bool := decide (k < b.phase)

/-- A named barrier as seen from a core. -/
def State.barrier (s : State) (c : CoreId) : BarId → Barrier
  | .core i => Tab.get {} (s.core c).barriers i.val
  | .device i => Tab.get {} s.barriers i.val

/-- COUNT of a stream (13 R278). -/
def Stream.count (t : Stream) : Nat := t.desc.rowb * t.desc.nrows

/-- The chunk that holds byte `b` (13 R278, R286). -/
def Stream.chunkOf (t : Stream) (b : Nat) : Nat := if t.desc.chunk = 0 then 0 else b / t.desc.chunk

/-- STRMs_CHUNK (13 R297). -/
def Stream.chunkNow (t : Stream) : Nat := t.chunkOf (min t.landed (t.count - 1))

/-- The next request waits for its gate (13 R286). -/
def State.gated (s : State) (c : CoreId) (t : Stream) : Bool :=
  t.state == .opened &&
  match t.desc.gbar with
  | some b => decide (t.asked < t.count) && !(s.barrier c b).passed (t.desc.gphase + t.chunkOf t.asked)
  | none => false

/-- Level L of R284. -/
def Stream.level (t : Stream) : Nat :=
  match t.desc.kind with
  | .inp => t.asked - t.readPos
  | .out => 2048 - t.fifo.length
  | .mem => 0

/-! ## Core blocks -/

def liveBits (k : Core) : Nat :=
  ((List.range 16).map (fun g => if (k.gangs.toList.getD g {}).status = .free then 0 else 2 ^ g)).sum

/-- CORE sub-block: CORE_ID (01 R25), CORE_PART (09 R211), CORE_GANG (R212), CORE_VARIES (R213), CORE_PHASE (16 R372),
CORE_TFLAGS (02 R61), CORE_CFLAGS (02 R62), CORE_GFAULT (09 R214-R215). -/
def readCore (s : State) (c : CoreId) (k : Core) (o : Nat) : Nat :=
  if o = 0x000 then fld (s.quarterOf c).val 26 + fld (b2n s.grade4810) 25 + fld (c.val % s.perQuarter) 16 + c.val
  else if o = 0x008 then fld (b2n k.det) 31 + k.part.val
  else if o = 0x010 then fld k.spawns.length 16 + liveBits k
  else if o = 0x020 then k.varies
  else if o = 0x030 then k.phase.toNat
  else if o = 0x040 then fld k.tNonfinite.toNat 16 + k.tNarrowSat.toNat
  else if o = 0x044 then k.cflags.bits % 8 - b2n k.cflags.accSat
  else if 0x080 ≤ o ∧ o < 0x180 then
    let f := (k.gangs.toList.getD ((o - 0x080) / 0x10) {}).gfault
    match o % 0x10 with
    | 0 => fld (b2n f.valid) 31 + fld (b2n f.fetch) 30 + fld f.thread 16 + codeVal f.code
    | 4 => f.addr.toNat % 2 ^ 32
    | 8 => f.addr.toNat / 2 ^ 32
    | _ => 0
  else 0

def halfBits : HalfState → Nat
  | .empty => 0 | .loading => 1 | .ready => 2 | .bad => 3

def agBits : AgState → Nat
  | .closed => 0 | .opened => 1 | .draining => 2

/-- ARR sub-block (03 R84-R90) and the group registers (02 R59-R60). -/
def readArr (k : Core) (latch : Nat) (o : Nat) : Nat :=
  let a := k.arr
  if o = 0x000 then fld (b2n a.pending.isSome) 1 + b2n a.wide
  else if o = 0x004 then
    fld (a.runs.filter (fun r => !r.started)).length 16 + fld (halfBits a.halves[1].state) 12 + fld (halfBits a.halves[0].state) 10
      + fld (b2n (a.warmth == .cold || a.warmth == .upWaiting || a.warmth == .rampDown)) 3
      + fld (b2n a.filling) 2 + fld (b2n a.frozen) 1 + b2n (!a.pipe.isEmpty)
  else if o = 0x010 then a.freezes % 2 ^ 32
  else if o = 0x014 then latch
  else if o = 0x018 then a.cause.toNat
  else if o = 0x020 then b2n a.fillEn
  else if o = 0x028 then a.fills % 2 ^ 32
  else if o = 0x02C then latch
  else if o = 0x030 then a.coldWait
  else if 0x400 ≤ o ∧ o < 0x480 then
    let g := a.groups.toList.getD ((o - 0x400) / 0x10) {}
    match o % 0x10 with
    | 0 => fld (agBits g.state) 30 + fld (b2n g.acctInt) 29 + fld (b2n g.preload) 28 + fld (b2n g.wide) 27
             + fld g.satK 4 + g.flags.bits % 8
    | 4 => fld (b2n g.empty) 31 + g.lastk
    | _ => 0
  else 0

/-- SEQ sub-block (10 R230-R234). -/
def readSeq (k : Core) (o : Nat) : Nat :=
  let q := k.seq
  if o = 0x000 then
    fld (b2n q.run.isSome) 31 + fld (min q.queue.length 4) 16
      + fld (match q.run with
          | some r => ((List.range 8).map (fun g => if r.groups.contains g then 2 ^ g else 0)).sum
          | none => 0) 8
  else if o = 0x004 then q.pos
  else if o = 0x008 then b2n (match q.run with | some r => r.aborted | none => false)
  else if o = 0x00C then q.epoch.toNat
  else if o = 0x010 then q.stale
  else if o = 0x014 then q.skip
  else if 0x100 ≤ o ∧ o < 0x140 ∧ o % 4 = 0 then (Tab.get 0 q.lens ((o - 0x100) / 4)).toNat
  else 0

/-- MTCH sub-block (05 R128-R132). -/
def readMtch (k : Core) (o : Nat) : Nat :=
  let m := k.mtch
  if o = 0x000 then fld (b2n (!m.queue.isEmpty)) 31 + m.slots.length
  else if o = 0x004 then m.spillCount
  else if o = 0x008 then m.dup
  else if o = 0x00C then m.seed.toNat
  else if o = 0x010 then fld m.spillBase 8 + m.spillLog
  else 0

/-- RNG sub-block (08 R186-R190). -/
def readRng (k : Core) (latch : Nat) (o : Nat) : Nat :=
  let r := k.rng
  if o = 0x000 then fld (b2n r.busy.isSome) 31 + fld (b2n r.stuck) 1
  else if o = 0x004 then b2n r.fresh
  else if o = 0x008 then r.seed.toNat % 2 ^ 32
  else if o = 0x00C then r.seed.toNat / 2 ^ 32
  else if o = 0x010 then r.stuckCount
  else if o = 0x014 then r.trunc
  else if 0x100 ≤ o ∧ o < 0x200 then
    if r.fresh then 0
    else if o % 8 = 0 then (r.lanes.toList.getD ((o - 0x100) / 8) {}).pos % 2 ^ 32
    else if o % 8 = 4 then latch else 0
  else 0

/-- The largest of FP32 magnitudes, all non-negative. -/
def maxWord : List Word → Word
  | [] => 0
  | w :: ws =>
    let m := maxWord ws
    if m.toNat < w.toNat then w else m

/-- QNT sub-block (07 R169-R172). -/
def readQnt (k : Core) (o : Nat) : Nat :=
  let q := k.qnt
  let draining := k.arr.xfers.any (fun x => match x with | .close _ _ _ _ _ _ _ started _ _ => started | _ => false)
  if o = 0x000 then fld (b2n (q.pass.isSome || draining)) 31 + q.queue.length
  else if o = 0x008 then fld q.clean 16 + fld q.floor 8 + q.l
  else if 0x1000 ≤ o ∧ o < 0x1800 then
    let t := Tab.get {} q.slots ((o - 0x1000) / 0x20)
    match o % 0x20 with
    | 0x00 => fld (b2n t.static_) 31 + fld t.hlen 8 + fld t.margin 4 + t.fmt.toNat
    | 0x04 => (BitVec.ofInt 8 t.exp).toNat
    | 0x08 => t.amax.toNat
    | 0x0C => (maxWord t.hist).toNat
    | 0x10 => t.nf
    | 0x14 => t.sat
    | _ => 0
  else 0

def strmStateBits : StrmState → Nat
  | .idle => 0 | .opened => 1 | .closing => 2

def strmKindBits : StrmKind → Nat
  | .mem => 0 | .inp => 1 | .out => 2

/-- STRM sub-block (13 R294-R297). -/
def readStrm (s : State) (c : CoreId) (k : Core) (o : Nat) : Nat :=
  if o < 0x200 then
    let t := k.streams.toList.getD (o / 0x40) {}
    match o % 0x40 with
    | 0x00 => fld (strmStateBits t.state) 30 + fld (strmKindBits t.desc.kind) 28 + fld (b2n (s.gated c t)) 27 + codeVal t.code
    | 0x04 => t.flags.bits - b2n t.flags.accSat
    | 0x08 => t.level
    | 0x0C => t.slackNow
    | 0x10 => t.chunkNow
    | _ => 0
  else 0

/-- LAY sub-block (13 R298). -/
def readLay (k : Core) (o : Nat) : Nat :=
  if o = 0x000 then
    fld (b2n k.lay.busy) 31 + fld (b2n k.lay.inplace) 30 + fld k.lay.depth 16 + codeVal k.lay.code
  else 0

/-- CMEM sub-block (11 R257-R258). -/
def readCmem (k : Core) (o : Nat) : Nat :=
  if o = 0x000 then fld (b2n k.eccUe) 31 + fld k.credits.length 16 + k.eccCe
  else if 0x100 ≤ o ∧ o < 0x180 then
    let w := k.wins.toList.getD ((o - 0x100) / 0x10) {}
    match o % 0x10 with
    | 0x0 => fld (b2n w.en) 31 + fld w.part 26 + fld w.cfgerr 22 + fld w.size 17 + w.base
    | 0x4 => w.avail
    | 0xC => w.gen
    | _ => 0
  else 0

/-- A copy header's SNAP_STAT (20 R440). -/
def Snap.stat (p : Snap) : Nat :=
  fld (b2n p.valid) 31 + fld (b2n p.late) 30 + fld (b2n p.off) 29 + fld (b2n p.tenant) 28 + fld p.source.toNat 16

/-- A block's copy; the initial one if none was latched. -/
def State.copyOf (s : State) (b : SnapBlock) : Snap :=
  match b with
  | .pwr => s.snapg.pwr
  | b => match s.snapg.copies.find? (fun p => p.1 == b) with
    | some p => p.2
    | none => {}

/-- A live register of one of a core's sub-blocks (0 CORE .. 7 LAY, 9 CMEM). -/
def readSub (s : State) (c : CoreId) (sub o latch : Nat) : Nat :=
  let k := s.core c
  match sub with
  | 0 => readCore s c k o
  | 1 => readArr k latch o
  | 2 => readSeq k o
  | 3 => readMtch k o
  | 4 => readRng k latch o
  | 5 => readQnt k o
  | 6 => readStrm s c k o
  | 7 => readLay k o
  | 9 => readCmem k o
  | _ => 0

/-- The SNAP sub-block of a core (20 R433, R440-R442). -/
def readSnap (p : Snap) (latch o : Nat) : Nat :=
  if o = 0x000 then p.stat
  else if o = 0x004 then p.at_ % 2 ^ 32
  else if o = 0x008 then latch
  else (Tab.get 0 p.regs o).toNat

/-! ## Quarter, pier and module blocks -/

def zoneBits (s : State) (q : QuarterId) : Nat :=
  ((List.range 4).map (fun z => fld (s.dom (domZone q.val z)).bits (2 * z))).sum

/-- CRWN sub-block (11 R253-R256). -/
def readCrwn (s : State) (q : QuarterId) (o : Nat) : Nat :=
  let k := s.quarter q
  if o = 0x000 then fld (b2n k.cut.ilvScr) 25 + fld (b2n k.cut.ilvWs) 24 + fld k.cut.sc 16 + fld k.cut.scr 8 + k.cut.ws
  else if o = 0x004 then zoneBits s q
  else if o = 0x010 then k.crownCe
  else if o = 0x014 then k.crownUe
  else if o = 0x018 then fld (b2n k.crownLatch.valid) 31 + fld (b2n k.crownLatch.ue) 30 + k.crownLatch.line
  else if 0x1000 ≤ o ∧ o < 0x1800 then
    let w := Tab.get {} k.wins ((o - 0x1000) / 0x20)
    match o % 0x20 with
    | 0x00 => fld (b2n w.en) 31 + fld (b2n w.open_) 30 + fld w.part 25 + w.cfgerr
    | 0x04 => w.base
    | 0x08 => w.size
    | 0x0C => w.avail
    | 0x14 => w.gen
    | _ => 0
  else 0

/-- HBM sub-block (12 R273-R276). -/
def readHbm (s : State) (q : QuarterId) (o : Nat) : Nat :=
  let k := s.quarter q
  if o = 0x000 then k.ilv
  else if o = 0x004 then fld k.selfref.toNat 8 + fld k.ref2x.toNat 4
  else if o = 0x010 then (nth 0 k.chmap 0).toNat
  else if o = 0x014 then (nth 0 k.chmap 1).toNat
  else if o = 0x018 then (nth 0 k.chmap 2).toNat
  else if o = 0x020 then k.hbmCe
  else if o = 0x024 then k.hbmUe
  else if o = 0x028 then
    fld (b2n k.hbmLatch.valid) 31 + fld (b2n k.hbmLatch.ue) 30 + fld (b2n k.hbmLatch.dead) 29 + fld k.hbmLatch.stack 7
      + k.hbmLatch.chan
  else if o = 0x02C then k.hbmLatch.line
  else 0

/-- The head of the update queue is held for its verdict (16 R357, R370). -/
def Upd.held (u : Upd) : Bool :=
  u.run.isNone &&
  match u.queue with
  | ⟨_, _, _, .opt _ st _ _⟩ :: _ => !u.vValid || decide (32768 ≤ (u.vStep + 65536 - st) % 65536)
  | _ => false

/-- UPD sub-block (06 R147-R148, 16 R370-R371). -/
def readUpd (s : State) (q : QuarterId) (o : Nat) : Nat :=
  let u := (s.quarter q).upd
  let runs (f : UpdOp → Bool) : Bool := match u.run with | some c => f c.op | none => false
  if o = 0x000 then
    fld (b2n (runs (fun p => match p with | .opt _ _ _ _ => true | _ => false))) 31 + fld (b2n u.held) 30 + u.blocks % 2 ^ 24
  else if o = 0x004 then fld (b2n u.vValid) 31 + fld (b2n u.vSkip) 30 + fld u.vLs 16 + u.vStep
  else if o = 0x008 then fld (b2n u.nf) 31 + fld u.acc 16 + u.nstep
  else if o = 0x100 then
    fld (b2n (runs (fun p => match p with | .apply _ _ => true | .tiles _ _ => true | _ => false))) 31 + fld (b2n u.tiles) 30
      + u.mskBlocks
  else if o = 0x104 then u.chg
  else 0

/-- QPWR sub-block (17 R390). -/
def readQpwr (s : State) (q : QuarterId) (o : Nat) : Nat :=
  if o = 0x000 then fld (s.quarter q).clkMax 8 + (s.quarter q).freq else 0

def laneBits (p : Port) (f : LaneRx → Bool) : Nat :=
  ((List.range 8).map (fun l => if f (p.lanes.toList.getD l {}) then 2 ^ l else 0)).sum

/-- PORT registers (14 R322-R324). -/
def readPort (s : State) (p : PierId) (o : Nat) : Nat :=
  if o < 0x1A00 then
    let t := (s.pier p).ports.toList.getD (o / 0x100) {}
    match o % 0x100 with
    | 0x00 => fld (b2n (t.eth && decide (24 ≤ o / 0x100))) 1 + b2n t.en
    | 0x04 => fld t.width 24 + fld (laneBits t (·.failed)) 16 + fld (laneBits t (·.lost)) 8 + laneBits t (·.locked)
    | 0x08 => fld t.retrains 16 + t.replays
    | 0x0C => fld t.fecUncorr 16 + t.fecCorr
    | _ => 0
  else 0

/-- SWT registers (14 R325). -/
def readSwt (s : State) (p : PierId) (o : Nat) : Nat :=
  match o with
  | 0x000 => (s.pier p).stallMs
  | 0x004 => (s.pier p).late
  | 0x008 => (s.pier p).abort
  | _ => 0

/-- The home engine of a group (15 R327). -/
def State.homePier (s : State) (g : Nat) : PierId :=
  if (s.pier (Fin.ofNat 2 g)).alive then Fin.ofNat 2 g else Fin.ofNat 2 (g + 1)

/-- COLL registers (15 R348-R351). -/
def readColl (s : State) (p : PierId) (o : Nat) : Nat :=
  let c := (s.pier p).coll
  let mine := s.collRuns.filter (fun r => s.homePier r.1 == p)
  match o with
  | 0x000 => fld (b2n (!mine.isEmpty)) 31 + fld mine.length 16 + codeVal c.code
  | 0x004 => c.chunkCheck
  | 0x008 => c.late
  | 0x00C => c.defer_
  | 0x010 => fld c.pairWait 16 + c.pairMode
  | 0x014 => fld (b2n c.suspect) 31 + fld (b2n c.solo) 30 + c.held.length
  | 0x018 => c.diverge
  | 0x01C => c.ckptNo.toNat
  | _ => 0

/-- ING registers (14 R326). -/
def readIng (s : State) (p : PierId) (o : Nat) : Nat :=
  match o with
  | 0x000 => (s.pier p).sessions.length
  | 0x004 => (s.pier p).drop
  | _ => 0

/-- Grants that still count: within the last 10 us (17 R380). -/
def grantsUsed (now : Nat) (l : List (Nat × Nat)) : Nat :=
  ((l.filter (fun g => decide (now < g.1 + 10000))).map (·.2)).sum

/-- PWR registers (17 R386-R389). -/
def readPwr (s : State) (o : Nat) : Nat :=
  let p := s.pwr
  if o = 0x000 then fld s.pwrState 16 + p.idleMs
  else if 0x010 ≤ o ∧ o < 0x024 ∧ o % 4 = 0 then
    ((List.range 16).map (fun i => fld (s.dom (Fin.ofNat 80 (16 * ((o - 0x010) / 4) + i))).bits (2 * i))).sum
  else if o = 0x030 then fld p.up.length 21 + fld p.down.length 10
  else if o = 0x034 then p.wait
  else if o = 0x038 then fld (grantsUsed s.now p.upUsed) 8 + grantsUsed s.now p.downUsed
  else if o = 0x040 then p.cap
  else if o = 0x044 then fld (BitVec.ofInt 8 p.hot).toNat 24 + fld p.trip.toNat 4 + p.throttle.toNat
  else 0

/-- SEC registers (18 R412-R413). -/
def readSec (s : State) (o : Nat) : Nat :=
  let p := s.sec
  if o = 0x000 then
    fld (b2n p.locked) 31 + fld (b2n p.debug) 30 + fld (b2n p.sleepEv) 29 + fld p.tcount 16 + p.cause.toNat
  else if o = 0x004 then p.tagfail
  else if 0x100 ≤ o ∧ o < 0x140 ∧ o % 4 = 0 then fieldAt p.challenge (o - 0x100) 4
  else 0

/-- BOOT registers (19 R430-R432). -/
def readBoot (s : State) (o : Nat) : Nat :=
  let b := s.boot
  match o with
  | 0x000 =>
    fld (b2n (b.mode == .recovery)) 31 + fld (b2n b.slot) 30 + fld b.stateB 26 + fld b.stateA 24 + fld b.svn 16 + b.seq
  | 0x004 => b2n b.lock
  | 0x008 => fld (b2n b.updBusy) 31 + fld b.updStep 28 + codeVal b.updCode
  | _ => 0

/-- SNAPG registers (20 R438-R441) and the PWR copy (R433). -/
def readSnapg (s : State) (latch o : Nat) : Nat :=
  let p := s.snapg
  if o = 0x000 then fld (b2n p.both) 29 + fld p.srcen.toNat 16 + p.fwdUs
  else if o = 0x004 then fld p.mFlags.toNat 16 + p.mCode
  else if o = 0x008 then p.pwr.stat
  else if o = 0x00C then p.missed
  else if o = 0x010 then p.pwr.at_ % 2 ^ 32
  else if o = 0x014 then latch
  else if o = 0x018 then (p.waiting.getD p.target) % 2 ^ 32
  else if o = 0x01C then latch
  else if 0x100 ≤ o then (Tab.get 0 p.pwr.regs (o - 0x100)).toNat
  else 0

/-- TIME registers (16 R373). -/
def readTime (s : State) (latch o : Nat) : Nat :=
  if o = 0x000 then s.now % 2 ^ 32
  else if o = 0x004 then latch
  else if 0x100 ≤ o ∧ o < 0x138 then
    if o % 8 = 0 then s.phases.toList.getD ((o - 0x100) / 8) 0 % 2 ^ 32 else if o % 8 = 4 then latch else 0
  else 0

/-- One live register of a quarter sub-block: 0 CRWN, 1 HBM, 2 UPD, 3 QPWR. -/
def readQuarterSub (s : State) (q : QuarterId) (sub o : Nat) : Nat :=
  match sub with
  | 0 => readCrwn s q o
  | 1 => readHbm s q o
  | 2 => readUpd s q o
  | _ => readQpwr s q o

/-- One live register of a pier sub-block: 0 PORT, 1 SWT, 2 COLL, 3 ING. -/
def readPierSub (s : State) (p : PierId) (sub o : Nat) : Nat :=
  match sub with
  | 0 => readPort s p o
  | 1 => readSwt s p o
  | 2 => readColl s p o
  | _ => readIng s p o

/-- The value a register reads as (00 R8: unassigned offsets read 0). -/
def State.regRead (s : State) (off : Nat) : Word :=
  let latch (o : Nat) : Nat := (Tab.get 0 s.latches (o - 4)).toNat
  w32 <|
    if off < 0x1_0000_0000 then
      if h : off / 0x10_0000 < 192 then
        if off / 0x10_0000 < s.coreCount then
          let c : CoreId := ⟨off / 0x10_0000, h⟩
          let o := off % 0x1_0000
          match off % 0x10_0000 / 0x1_0000 with
          | 8 => readSnap (s.copyOf (.core c)) (latch off) o
          | sub => readSub s c sub o (latch off)
        else 0
      else 0
    else if off < 0x1_0400_0000 then
      let q : QuarterId := Fin.ofNat 4 ((off - 0x1_0000_0000) / 0x100_0000)
      let sub := off % 0x100_0000 / 0x40_0000
      let o := off % 0x40_0000
      if o < 0x20_0000 then readQuarterSub s q sub o
      else
        let p := s.copyOf (.quarter q (Fin.ofNat 4 sub))
        if 0x3F_0000 ≤ o then (if o < 0x3F_000C then readSnap p (latch off) (o - 0x3F_0000) else 0)
        else (Tab.get 0 p.regs (o - 0x20_0000)).toNat
    else if 0x2_0000_0000 ≤ off ∧ off < 0x2_0200_0000 then
      let i : PierId := Fin.ofNat 2 ((off - 0x2_0000_0000) / 0x100_0000)
      let sub := off % 0x100_0000 / 0x40_0000
      let o := off % 0x40_0000
      if o < 0x20_0000 then readPierSub s i sub o
      else
        let p := s.copyOf (.pier i (Fin.ofNat 4 sub))
        if 0x3F_0000 ≤ o then (if o < 0x3F_000C then readSnap p (latch off) (o - 0x3F_0000) else 0)
        else (Tab.get 0 p.regs (o - 0x20_0000)).toNat
    else if 0x3_0000_0000 ≤ off ∧ off < 0x3_0060_0000 then
      let o := off % 0x10_0000
      match (off - 0x3_0000_0000) / 0x10_0000 with
      | 0 => readPwr s o
      | 1 => readSec s o
      | 2 => readBoot s o
      | 3 => readSnapg s (latch off) o
      | 4 => readTime s (latch off) o
      | _ => if o = 0x000 then s.sec.pad else 0
    else 0

/-- Bits 63:32 of the counter whose LO register lies at an offset; none for other offsets (03 R86, 08 R190, 16 R373,
20 R440-R441). -/
def State.hiOf (s : State) (off : Nat) : Option Nat :=
  let hi (n : Nat) : Option Nat := some (n / 2 ^ 32 % 2 ^ 32)
  if off < 0x1_0000_0000 then
    if h : off / 0x10_0000 < 192 then
      let k := s.core ⟨off / 0x10_0000, h⟩
      let o := off % 0x10_0000
      if o = 0x1_0010 then hi k.arr.freezes
      else if o = 0x1_0028 then hi k.arr.fills
      else if 0x4_0100 ≤ o ∧ o < 0x4_0200 ∧ o % 8 = 0 then
        (if k.rng.fresh then some 0 else hi (k.rng.lanes.toList.getD ((o - 0x4_0100) / 8) {}).pos)
      else if o = 0x8_0004 then hi (s.copyOf (.core ⟨off / 0x10_0000, h⟩)).at_
      else none
    else none
  else if off < 0x1_0400_0000 then
    if off % 0x40_0000 = 0x3F_0004 then
      hi (s.copyOf (.quarter (Fin.ofNat 4 ((off - 0x1_0000_0000) / 0x100_0000)) (Fin.ofNat 4 (off % 0x100_0000 / 0x40_0000)))).at_
    else none
  else if 0x2_0000_0000 ≤ off ∧ off < 0x2_0200_0000 then
    if off % 0x40_0000 = 0x3F_0004 then
      hi (s.copyOf (.pier (Fin.ofNat 2 ((off - 0x2_0000_0000) / 0x100_0000)) (Fin.ofNat 4 (off % 0x100_0000 / 0x40_0000)))).at_
    else none
  else if off = 0x3_0030_0010 then hi s.snapg.pwr.at_
  else if off = 0x3_0030_0018 then hi (s.snapg.waiting.getD s.snapg.target)
  else if off = 0x3_0040_0000 then hi s.now
  else if 0x3_0040_0100 ≤ off ∧ off < 0x3_0040_0138 ∧ off % 8 = 0 then
    hi (s.phases.toList.getD ((off - 0x3_0040_0100) / 8) 0)
  else none

/-- A read of a LO register latches HI (R86). -/
def State.latchHi (s : State) (off : Nat) : State :=
  match s.hiOf off with
  | some v => { s with latches := Tab.set 0 s.latches off (w32 v) }
  | none => s

/-- A register read by software: the value, and the latch it sets. The register of an unpowered domain reads a
free value (log 17). -/
def State.readReg (s : State) (off : Nat) : State × Word :=
  if s.regLive off then (s.latchHi off, s.regRead off)
  else ({ s with free := s.free + 1 }, Config.freeWord s.free)

/-! ## Images for snapshot copies -/

/-- Offsets of the registers of a core sub-block that a copy holds (R433: below 0x1000). -/
def coreOffsets : Nat → List Nat
  | 0 => [0x000, 0x008, 0x010, 0x020, 0x030, 0x040, 0x044] ++ (List.range 16).flatMap (fun g => [0x80 + 16 * g, 0x84 + 16 * g, 0x88 + 16 * g])
  | 1 => [0x000, 0x004, 0x010, 0x014, 0x018, 0x020, 0x028, 0x02C, 0x030]
           ++ (List.range 8).flatMap (fun g => [0x400 + 16 * g, 0x404 + 16 * g])
  | 2 => [0x000, 0x004, 0x008, 0x00C, 0x010, 0x014] ++ (List.range 16).map (fun j => 0x100 + 4 * j)
  | 3 => [0x000, 0x004, 0x008, 0x00C, 0x010]
  | 4 => [0x000, 0x004, 0x008, 0x00C, 0x010, 0x014] ++ (List.range 64).map (fun i => 0x100 + 4 * i)
  | 5 => [0x000, 0x008]
  | 6 => (List.range 8).flatMap (fun t => [0x40 * t, 0x40 * t + 4, 0x40 * t + 8, 0x40 * t + 0xC, 0x40 * t + 0x10])
  | 7 => [0x000]
  | 9 => 0x000 :: (List.range 8).flatMap (fun w => [0x100 + 16 * w, 0x104 + 16 * w, 0x10C + 16 * w])
  | _ => []

/-- The copy of a core: nine sub-block images and the gangs' program counters (R433, R442). -/
def State.coreImage (s : State) (c : CoreId) : Tab Word :=
  let regs : List (Nat × Word) := [0, 1, 2, 3, 4, 5, 6, 7, 9].flatMap (fun sub =>
    (coreOffsets sub).map (fun o => (0x1000 * (sub + 1) + o, s.regRead (c.val * 0x10_0000 + sub * 0x1_0000 + o))))
  let pcs : List (Nat × Word) := (List.range 16).flatMap (fun g =>
    let k := (s.core c).gangs.toList.getD g {}
    [(0x100 + 8 * g, w32 k.pc.toNat), (0x104 + 8 * g, w32 (fld (b2n (k.status != .free)) 31 + k.pc.toNat / 2 ^ 32 % 2 ^ 17))])
  (pcs ++ regs).foldl (fun t p => Tab.set 0 t p.1 p.2) []

def quarterOffsets : Nat → List Nat
  | 0 => [0x000, 0x004, 0x010, 0x014, 0x018] ++ (List.range 64).flatMap (fun w =>
      [0x1000 + 32 * w, 0x1004 + 32 * w, 0x1008 + 32 * w, 0x100C + 32 * w, 0x1014 + 32 * w])
  | 1 => [0x000, 0x004, 0x010, 0x014, 0x018, 0x020, 0x024, 0x028, 0x02C]
  | 2 => [0x000, 0x004, 0x008, 0x100, 0x104]
  | _ => [0x000]

def State.quarterImage (s : State) (q : QuarterId) (sub : Nat) : Tab Word :=
  (quarterOffsets sub).foldl (fun t o => Tab.set 0 t o (w32 (readQuarterSub s q sub o))) []

def pierOffsets : Nat → List Nat
  | 0 => (List.range 26).flatMap (fun i => [0x100 * i, 0x100 * i + 4, 0x100 * i + 8, 0x100 * i + 0xC])
  | 1 => [0x000, 0x004, 0x008]
  | 2 => [0x000, 0x004, 0x008, 0x00C, 0x010, 0x014, 0x018, 0x01C]
  | _ => [0x000, 0x004]

def State.pierImage (s : State) (p : PierId) (sub : Nat) : Tab Word :=
  (pierOffsets sub).foldl (fun t o => Tab.set 0 t o (w32 (readPierSub s p sub o))) []

def State.pwrImage (s : State) : Tab Word :=
  [0x000, 0x010, 0x014, 0x018, 0x01C, 0x020, 0x030, 0x034, 0x038, 0x040, 0x044].foldl
    (fun t o => Tab.set 0 t o (w32 (readPwr s o))) []

end Sys2Proof.Machine
end

