-- ==== Sys2Proof/Machine/Links.lean ====
section
/-! DEFINITION. Sending on the fabric (14 R302-R312): which port a message leaves by, and its flits in that port's
queue. Ports and their events are in Machine/Fabric.lean. -/

namespace Sys2Proof.Machine

def pierOf (n : PortId) : PierId := Fin.ofNat 2 (n.val / 26)

/-- A port by its number (R306). -/
def State.port (s : State) (n : PortId) : Port := (s.pier (pierOf n)).ports.toList.getD (n.val % 26) {}

def State.onPort (s : State) (n : PortId) (f : Port → Port) : State :=
  s.onPier (pierOf n) (fun p => { p with ports := vmod p.ports (Fin.ofNat 26 n.val) f })

/-- A side port that runs as an ETH port (R307). -/
def State.isEth (s : State) (n : PortId) : Bool := decide (24 ≤ n.val % 26) && (s.port n).eth

/-- The state of a port's group (17 R375). -/
def State.portDom (s : State) (n : PortId) : DomState :=
  let i := n.val % 26
  s.dom (domPorts (pierOf n).val (if i < 12 ∨ i = 24 then 0 else 1))

/-- A port that carries flits: enabled, trained, its group and pier running. -/
def State.portLive (s : State) (n : PortId) : Bool :=
  (s.port n).en && (s.port n).width != 0 && (s.portDom n == .on || s.portDom n == .gated) && s.pierOn (pierOf n) && !s.isEth n

/-- The six ports of a direction in ascending number (R306). -/
def dirPorts (d : Nat) : List PortId :=
  if d < 8 then [3 * d, 3 * d + 1, 3 * d + 2, 26 + 3 * d, 27 + 3 * d, 28 + 3 * d].map (Fin.ofNat 52) else []

def sidePorts : List PortId := [24, 25, 50, 51]

def State.livePorts (s : State) (d : Nat) : List PortId := (dirPorts d).filter s.portLive

/-- Coordinates of a device number, X first (R306). -/
def coordsOf (n : Nat) : List Nat := [n % 8, n / 8 % 8, n / 64 % 12, n / 768]

def dimSizes : List Nat := [8, 8, 12, 16]

/-- Directions that shorten the way from one module to another: both, half a ring away. -/
def shortening (a b : Nat) : List Nat :=
  ((List.range 4).zip ((coordsOf a).zip ((coordsOf b).zip dimSizes))).flatMap (fun p =>
    let (i, x, y, n) := p
    let up := (y + n - x) % n
    if up = 0 then [] else if 2 * up = n then [2 * i, 2 * i + 1] else if 2 * up < n then [2 * i] else [2 * i + 1])

/-- One step from a module in a direction. -/
def stepDir (a d : Nat) : Nat :=
  let n := nth 1 dimSizes (d / 2)
  let x := nth 0 (coordsOf a) (d / 2)
  let y := if d % 2 = 0 then (x + 1) % n else (x + n - 1) % n
  let w := nth 0 [1, 8, 64, 768] (d / 2)
  a - x * w + y * w

/-- The number by which a membership names the twin: its device number in the other fabric. -/
def twinName (dev : Nat) : Nat := 16384 + dev

/-- The free credit of a port on a VC. -/
def State.creditOf (s : State) (n : PortId) (vc : Fin 8) : Nat := (s.port n).credit[vc.val]

/-- The first of ports with the most free credit. -/
def State.mostCredit (s : State) (vc : Fin 8) : List PortId → Option PortId
  | [] => none
  | p :: ps => match s.mostCredit vc ps with
    | some q => if s.creditOf p vc < s.creditOf q vc then some q else some p
    | none => some p

/-! ## The two halves of the switch (R311) -/

/-- The requester at hand reaches a pier's half of the switch without the relay of a quarter. -/
def State.spanTo (s : State) (p : PierId) : Bool :=
  match s.viewer with
  | some (.quarter q) => s.spanLive q (.pier p)
  | some (.pier x) => x == p
  | none => true

/-- The span relay of quarter (destination mod 4) joins the piers. -/
def State.joins (s : State) (dst : Nat) : Bool :=
  let q : QuarterId := Fin.ofNat 4 (dst % 4)
  s.pierOn 0 && s.pierOn 1 && s.spanLive q (.pier 0) && s.spanLive q (.pier 1)

/-- Traffic for a destination gets to a port: it enters at the port's own pier, else at the other and crosses (log 183). -/
def State.wayOut (s : State) (n : PortId) (dst : Nat) : Bool :=
  s.spanTo (pierOf n) || (s.spanTo (if pierOf n = 0 then 1 else 0) && s.joins dst)

/-- The pier whose route table the requester's traffic meets. -/
def State.entryPier (s : State) : PierId := if s.pierOn 0 && s.spanTo 0 then 0 else 1

/-- The route table's entry for a destination (R308). -/
def State.route (s : State) (dst : Nat) : Option Nat := Tab.get none (s.pier s.entryPier).routes dst

/-! ## Ports of flows (R308-R310, R312) -/

/-- The port a flow takes now: position (source + destination) mod m among the live ports of the routed direction (R308-R309). -/
def State.flowPort (s : State) (src dst : Nat) : Except Code PortId :=
  match s.route dst with
  | none => .error .unreachable
  | some d =>
    let live := s.livePorts d
    match live[(src + dst) % max live.length 1]? with
    | some p => .ok p
    | none => .error .unreachable

/-- The port of a ROUTE 0 flow: the one it has, else the one it takes now. -/
def State.portOf (s : State) (src dst : Nat) (vc : Fin 8) : Except Code PortId :=
  match s.flows.find? (fun f => f.1 == (src, dst, vc.val)) with
  | some f => .ok f.2
  | none => s.flowPort src dst

/-- The PAIR port that leads to the other fabric: the lowest-numbered one that is up (R312). -/
def State.pairPort (s : State) : Except Code PortId :=
  match sidePorts.find? s.portLive with
  | some p => .ok p
  | none => .error .unreachable

/-- The port by which a ROUTE 1 flit may go on now: of the live ports that shorten its way, the one with the most free
credit (R310). -/
def State.bestPort (s : State) (f : TxFlit) : Option PortId :=
  s.mostCredit f.vc (((shortening s.dev f.dst).flatMap s.livePorts).filter (fun n => s.creditOf n f.vc != 0))

/-- Puts flits of one ROUTE 0 flow into the queue of its port, or with those its held flow keeps back (R309). -/
def State.enqueue (s : State) (src dst : Nat) (vc : Fin 8) (fs : List TxFlit) : Except Code State :=
  let key := (src, dst, vc.val)
  if s.heldFlows.any (fun h => h.1 == key) then
    .ok { s with heldFlows := s.heldFlows.map (fun h => if h.1 = key then (h.1, h.2 ++ fs) else h) }
  else match s.portOf src dst vc with
    | .error e => .error e
    | .ok n =>
      if !s.wayOut n dst then .error .unreachable
      else
        let t := s.onPort n (fun p => { p with txq := p.txq ++ fs })
        .ok (if t.flows.any (fun f => f.1 == key) then t else { t with flows := t.flows ++ [(key, n)] })

/-- Puts a message's flits where they wait to leave: for the other fabric at the PAIR port, for this module nowhere (LOCAL),
on an adaptive route in the switch, else with their flow (R308-R310, R312). -/
def State.dispatch (s : State) (dst : Nat) (fb : Bool) (vc : Fin 8) (adaptive : Bool) (fs : List TxFlit) : Except Code State :=
  if fb ≠ s.fabricB then
    match s.pairPort with
    | .error e => .error e
    | .ok n => if s.wayOut n dst then .ok (s.onPort n (fun p => { p with txq := p.txq ++ fs })) else .error .unreachable
  else if dst = s.dev then .ok s
  else if dst ∉ s.net.members ∨ (s.route dst).isNone then .error .unreachable
  else if adaptive then .ok { s with adaptQ := s.adaptQ ++ fs }
  else s.enqueue s.dev dst vc fs

/-- Cuts a message into payloads of at most 244 bytes (R302). -/
def cutPayload : Nat → List Byte → List (List Byte)
  | 0, _ => []
  | k + 1, bs => if bs.isEmpty then [] else bs.take 244 :: cutPayload k (bs.drop 244)

/-- The flits of a message. -/
def flitsOf (now src dst : Nat) (vc : Fin 8) (part : PartId) (adaptive : Bool) (bs : List Byte) : List TxFlit :=
  (cutPayload (bs.length / 244 + 1) bs).mapIdx (fun i p => ⟨vc, i == 0, p, src, dst, adaptive, now, part⟩)

/-- One bit of a reflected CRC-32 with polynomial `p`. -/
def crcBit (p c : Nat) : Nat := if c % 2 = 1 then (c / 2) ^^^ p else c / 2

/-- A reflected CRC-32 of bytes, with the all-ones start and end of both polynomials. -/
def crcBytes (p : Nat) (bs : List Byte) : Nat :=
  (bs.foldl (fun c b => (List.range 8).foldl (fun x _ => crcBit p x) (c ^^^ b.toNat)) 0xFFFF_FFFF) ^^^ 0xFFFF_FFFF

/-- CRC-32 of IEEE 802.3 (R302), and CRC-32C (15 R341, 19 R417). -/
def crc32 (bs : List Byte) : Nat := crcBytes 0xEDB8_8320 bs
def crc32c (bs : List Byte) : Nat := crcBytes 0x82F6_3B78 bs

/-- The key a partition's messages are sealed with: the last 32 bytes of its keys, or the management key (18 R402). -/
def State.fabricKey (s : State) (p : PartId) : List Byte :=
  if p = 0 then Config.managementKey else ((s.partOf p).keys.getD []).drop 64

/-- The nonce of a message (18 R402). -/
def gcmNonce (dev : Nat) (fb : Bool) (p : PartId) (counter : Nat) : List Byte :=
  leBytes 12 (dev * 2 ^ 82 + b2n fb * 2 ^ 81 + p.val * 2 ^ 76 + counter % 2 ^ 64)

/-- A message's bytes as they travel (18 R402): 16 bytes of associated data, ciphertext, tag. -/
def State.sealMsg (s : State) (p : PartId) (plain : List Byte) : List Byte :=
  plain.take 16 ++ Config.gcmSeal (s.fabricKey p) (gcmNonce s.dev s.fabricB p (s.partOf p).counter) (plain.take 16) (plain.drop 16)

/-- Sends a message of this module; data carry the placement epoch of their sender (10 R227). The message's header is not
given by the manual (log 32). -/
def State.sendMsg (s : State) (dst : Nat) (fb : Bool) (vc : Fin 8) (part : PartId) (adaptive : Bool) (op : Nat)
    (epoch : Option Nat) (data : List Byte) : Except Code State :=
  let fs := flitsOf s.now s.dev dst vc part adaptive (s.sealMsg part (Config.msgHeader op epoch ++ data))
  (s.onPart part (fun p => { p with counter := p.counter + 1 })).dispatch dst fb vc adaptive fs

/-- Sends a message that carries no data of a core, if there is a way. -/
def State.trySend (s : State) (dst : Nat) (fb : Bool) (vc : Fin 8) (op : Nat) (data : List Byte) : State :=
  match s.sendMsg dst fb vc 0 false op none data with
  | .ok t => t
  | .error _ => s

/-- An abort or other notice to a module on VC 4 (14 R319, 15 R341). -/
def State.notice (s : State) (dst op : Nat) (code : Code) : State :=
  let t := s.trySend dst s.fabricB 4 op (leBytes 2 (codeVal code))
  { t with notices := t.notices ++ [(dst, op, code)] }

end Sys2Proof.Machine
end

