-- ==== Sys2Proof/Machine/Snapshot.lean ====
section
/-! DEFINITION. Snapshot captures and triggers (20 R434-R437), as shared operations: every completion code and every
newly set flag may trigger one (R435). -/

namespace Sys2Proof.Machine

def State.onSnapg (s : State) (f : Snapg → Snapg) : State := { s with snapg := f s.snapg }

def State.setCopy (s : State) (b : SnapBlock) (p : Snap) : State :=
  match b with
  | .pwr => s.onSnapg (fun g => { g with pwr := p })
  | b => s.onSnapg (fun g => { g with copies := (g.copies.filter (fun x => x.1 != b)) ++ [(b, p)] })

/-- The domain whose state a block's capture depends on (R433-R434). -/
def State.blockDom (s : State) : SnapBlock → Option DomState
  | .core c => some ((s.coreDom c).elim .off s.dom)
  | .quarter q _ => some (s.dom (domFabric q.val))
  | .pier p _ => some (s.dom (domSwitch p.val))
  | .pwr => none

/-- The registers of a block. -/
def State.image (s : State) : SnapBlock → Tab Word
  | .core c => s.coreImage c
  | .quarter q i => s.quarterImage q i.val
  | .pier p i => s.pierImage p i.val
  | .pwr => s.pwrImage

/-- A capture latches a copy that is not held (R434). -/
def State.capture (s : State) (b : SnapBlock) (source : BitVec 4) (late tenant : Bool) : State :=
  if (s.copyOf b).valid then s
  else
    let off := match s.blockDom b with
      | some .off => true
      | some .waking => true
      | _ => false
    let phys := match b with
      | .core c => if tenant then none else (s.core c).phys
      | _ => none
    s.setCopy b { valid := true, late, off, tenant, source, at_ := s.now, regs := if off then [] else s.image b, phys }

/-- Every block of the module that holds a copy (R433). -/
def State.snapBlocks (s : State) : List SnapBlock :=
  ((List.range s.coreCount).map (fun n => SnapBlock.core (Fin.ofNat 192 n)))
    ++ ((List.range 16).map (fun i => SnapBlock.quarter (Fin.ofNat 4 (i / 4)) (Fin.ofNat 4 i)))
    ++ ((List.range 8).map (fun i => SnapBlock.pier (Fin.ofNat 2 (i / 4)) (Fin.ofNat 4 i)))
    ++ [SnapBlock.pwr]

/-- A module trigger reaches every block (R435). -/
def State.moduleTrigger (s : State) (source : BitVec 4) (late : Bool) : State :=
  let s' := if s.snapg.pwr.valid then s.onSnapg (fun g => { g with missed := satInc 32 g.missed }) else s
  s.snapBlocks.foldl (fun t b => t.capture b source late false) s'

/-- A trigger from one source, if SRCEN enables it (R435). -/
def State.trigger (s : State) (bit : Nat) : State :=
  if s.snapg.srcen.getLsbD bit then s.moduleTrigger (BitVec.ofNat 4 (2 ^ bit)) false else s

/-- Sends a fabric trigger for a target time on VC 4 to every other member of this fabric, and over the PAIR port to the other
fabric's members, which have the same numbers (15 R345), when both are meant (R437). -/
def State.sendTrigger (s : State) (target : Nat) (both : Bool) : State :=
  let t := (s.net.members.filter (· != s.dev)).foldl (fun u d => u.trySend d u.fabricB 4 u.nextOp (leBytes 8 target)) s
  let twins := if s.net.members.contains s.dev then s.net.members else s.dev :: s.net.members
  let t := if both then twins.foldl (fun u d => u.trySend d (!u.fabricB) 4 u.nextOp (leBytes 8 target)) t else t
  t.onSnapg (fun g => { g with sent := g.sent ++ [(target, both)] })

/-- A MATCH trigger; a capture by it sends a fabric trigger when FWD_US is not 0 (R437). -/
def State.matchTrigger (s : State) : State :=
  if s.snapg.srcen.getLsbD 1 then
    let some_ := s.snapBlocks.any (fun b => !(s.copyOf b).valid)
    let t := s.moduleTrigger 2 false
    if some_ && s.snapg.fwdUs != 0 then
      t.sendTrigger (s.now + 1000 * s.snapg.fwdUs) s.snapg.both
    else t
  else s

/-- The codes the steward logs (R443). -/
def codeLogged (c : Code) : Bool :=
  c == .uncorrectable || c == .poisoned || c == .chunkCheck || c == .diverge || c == .health || c == .thermal

def State.addLog (s : State) (r : LogRec) : State := { s with log := s.log ++ [r] }

/-- A completion code is reported somewhere on the module: the log (R443) and the MATCH source (R435; 0x0000 matches nothing). -/
def State.report (s : State) (c : Code) : State :=
  let t := if codeLogged c then s.addLog (.code c s.now) else s
  if s.snapg.mCode ≠ 0 ∧ codeVal c = s.snapg.mCode then t.matchTrigger else t

/-- Flags newly set somewhere, in the layout of R58, for the MATCH source (R435). -/
def State.flagged (s : State) (newly : Nat) : State :=
  if (BitVec.ofNat 4 newly) &&& s.snapg.mFlags = 0 then s else s.matchTrigger

/-- Sets flags in CORE_CFLAGS (02 R62). -/
def State.setCFlags (s : State) (c : CoreId) (f : Flags) : State :=
  let old := (s.core c).cflags
  let new := old.join { narrowSat := f.narrowSat, nonfinite := f.nonfinite }
  (s.onCore c (fun k => { k with cflags := new })).flagged (old.newly new)

/-- Sets flags of a stream (02 R58, 13 R295). -/
def State.setStrmFlags (s : State) (c : CoreId) (i : StreamId) (f : Flags) : State :=
  let old := (s.core c).streams[i.val].flags
  let new := old.join { f with accSat := false }
  (s.onCore c (fun k => { k with streams := vmod k.streams i (fun t => { t with flags := new }) })).flagged (old.newly new)

/-- Sets flags of an accumulation group (02 R57). -/
def State.setAgFlags (s : State) (c : CoreId) (g : GroupId) (f : Flags) : State :=
  let old := (s.core c).arr.groups[g.val].flags
  let new := old.join { f with sideUnder := false }
  (s.onCore c (fun k => { k with arr := { k.arr with groups := vmod k.arr.groups g (fun t => { t with flags := new }) } })).flagged
    (old.newly new)

/-- Sets a gang's bits of CORE_TFLAGS (02 R61). -/
def State.setTFlags (s : State) (c : CoreId) (g : GangId) (sat nonfin : Bool) : State :=
  let k := s.core c
  let bit : BitVec 16 := BitVec.ofNat 16 (2 ^ g.val)
  let newly := b2n (sat && !k.tNarrowSat.getLsbD g.val) * 2 + b2n (nonfin && !k.tNonfinite.getLsbD g.val) * 4
  (s.onCore c (fun k => { k with
    tNarrowSat := if sat then k.tNarrowSat ||| bit else k.tNarrowSat
    tNonfinite := if nonfin then k.tNonfinite ||| bit else k.tNonfinite })).flagged newly

end Sys2Proof.Machine
end

