-- ==== Sys2Proof/Machine/Ops.lean ====
section
/-! DEFINITION. The shared operations of every family: gangs, their registers and predicates, issue (09 R191-R194),
completion (R197, 18 R404), and what each core's engines share. -/

namespace Sys2Proof.Machine

/-- The outcome of a command. -/
abbrev Out := Host.Outcome State Fault Refusal

/-! ## Gangs (09 R191-R193) -/

def State.gang (s : State) (c : CoreId) (g : GangId) : Gang := (s.core c).gangs[g.val]

def State.onGang (s : State) (c : CoreId) (g : GangId) (f : Gang → Gang) : State :=
  s.onCore c (fun k => { k with gangs := vmod k.gangs g f })

/-- v`r` of thread `t`. -/
def Gang.reg (k : Gang) (t : Nat) (r : Reg) : Word := Tab.get 0 k.regs (128 * t + r.val)

def Gang.setReg (k : Gang) (t : Nat) (r : Reg) (v : Word) : Gang := { k with regs := Tab.set 0 k.regs (128 * t + r.val) v }

/-- p`p` of thread `t`. -/
def Gang.pred (k : Gang) (t : Nat) (p : PReg) : Bool := Tab.get false k.preds (8 * t + p.val)

def Gang.setPred (k : Gang) (t : Nat) (p : PReg) (v : Bool) : Gang :=
  { k with preds := Tab.set false k.preds (8 * t + p.val) v }

/-- The 64-bit value of the register pair `r`, `r + 1` (log 18). -/
def Gang.reg64 (k : Gang) (t : Nat) (r : Reg) : BitVec 64 := (k.reg t (r + 1)).setWidth 64 <<< 32 ||| (k.reg t r).setWidth 64

def Gang.setReg64 (k : Gang) (t : Nat) (r : Reg) (v : BitVec 64) : Gang :=
  (k.setReg t r (v.setWidth 32)).setReg t (r + 1) ((v >>> 32).setWidth 32)

/-- The threads of the active mask, ascending (R192). -/
def Gang.active (k : Gang) : List Nat := (List.range 32).filter (fun t => k.mask.getLsbD t)

/-- The threads that execute an instruction with this guard and sense (R192). -/
def Gang.execs (k : Gang) (h : Th) : List Nat := k.active.filter (fun t => k.pred t h.guard == h.sense)

/-- The same threads as a mask. -/
def maskOf (ts : List Nat) : BitVec 32 := ts.foldl (fun m t => m ||| BitVec.ofNat 32 (2 ^ t)) 0

def threadsOf (m : BitVec 32) : List Nat := (List.range 32).filter (fun t => m.getLsbD t)

/-- Destination registers of memory instructions in flight (R193). -/
def accRegs : MemOp → List Reg
  | .acc a => match a.vd with
    | some r => if a.width = 8 then [r, r + 1] else [r]
    | none => []
  | _ => []

def accPreds : MemOp → List PReg
  | .acc a => a.ps.toList
  | _ => []

/-- Registers and predicates that unfinished instructions will write (R193). -/
def Gang.pendingRegs (k : Gang) : List Reg := k.cplWait ++ k.memops.flatMap accRegs
def Gang.pendingPreds (k : Gang) : List PReg := k.memops.flatMap accPreds

/-- The gang may issue an instruction that reads these registers and predicates: it is live, its core runs, it does not
wait at a barrier or a synchronous command, and nothing it reads is still to be written (R193, R207, 05 R111). -/
def State.ready (s : State) (h : Th) (rs : List Reg) (ps : List PReg) : Bool :=
  let k := s.gang h.core h.gang
  s.coreOn h.core && k.status == .live && k.wait.isNone && !k.held
    && rs.all (fun r => !k.pendingRegs.contains r) && (h.guard :: ps).all (fun p => !k.pendingPreds.contains p)

/-! ## Fences within instructions (R203, R204) -/

/-- Whether an access counts for `fence.acq`: it returns a value. -/
def isLoad : MemOp → Bool
  | .acc a => a.kind != .store
  | .fence _ _ => false

def isAcc : MemOp → Bool
  | .acc _ => true
  | .fence _ _ => false

/-- Drops the fences that no earlier access holds. -/
def pruneGo : List MemOp → List MemOp → List MemOp
  | before, [] => before
  | before, .acc a :: r => pruneGo (before ++ [.acc a]) r
  | before, .fence k sc :: r =>
    let open_ := match k with
      | .acq => before.any isLoad
      | _ => before.any isAcc
    if open_ then pruneGo (before ++ [.fence k sc]) r else pruneGo before r

def pruneFences (l : List MemOp) : List MemOp := pruneGo [] l

def State.addMemop (s : State) (c : CoreId) (g : GangId) (m : MemOp) : State :=
  s.onGang c g (fun k => { k with memops := pruneFences (k.memops ++ [m]) })

/-- Reading a register in which a command completed with DONE acts as `fence.acq` (R204, log 187). -/
def State.acquire (s : State) (h : Th) (rs : List Reg) : State :=
  let k := s.gang h.core h.gang
  if k.cplDone.any (fun r => rs.contains r && k.active.any (fun t => k.reg t r == 0)) then
    s.addMemop h.core h.gang (.fence .acq 3)
  else s

/-- Past this instruction: each is 64 bits wide (R210). -/
def State.advance (s : State) (h : Th) : State := s.onGang h.core h.gang (fun k => { k with pc := k.pc + 8 })

/-- Issues an instruction, or leaves it unissued (R193; log 1). -/
def State.issue (s : State) (h : Th) (rs : List Reg) (ps : List PReg) (f : State → State) : Out :=
  if s.ready h rs ps then .next (f ((s.acquire h rs).advance h)) else .next s

/-- Writes one register of every executing thread from the gang as it was. -/
def State.writeV (s : State) (h : Th) (vd : Reg) (f : Gang → Nat → Word) : State :=
  s.onGang h.core h.gang (fun k => (k.execs h).foldl (fun n t => n.setReg t vd (f k t)) k)

/-- Writes one predicate of every executing thread from the gang as it was. -/
def State.writeP (s : State) (h : Th) (pd : PReg) (f : Gang → Nat → Bool) : State :=
  s.onGang h.core h.gang (fun k => (k.execs h).foldl (fun n t => n.setPred t pd (f k t)) k)

/-- Ends a gang (R194): nothing more issues; it is free once its commands have completed. -/
def State.endGang (s : State) (c : CoreId) (g : GangId) : State :=
  s.onGang c g (fun k => { k with status := .ending, mask := 0, wait := none })

/-- Latches a failure in CORE_GFAULTg while none is latched (R198, R214). -/
def State.gfault (s : State) (c : CoreId) (g : GangId) (fetch : Bool) (thread : Nat) (code : Code) (addr : Addr) : State :=
  s.onGang c g (fun k => if k.gfault.valid then k else { k with gfault := { valid := true, fetch, thread, code, addr } })

/-! ## Completion (R197, 18 R404) -/

/-- Writes a code, zero-extended, into the CPL registers of the threads active at issue. An ending gang discards it (R194). -/
def State.writeCpl (s : State) (c : Cpl) (code : Code) : State :=
  s.onGang c.core c.gang (fun k =>
    let others := k.cplDone.filter (· != c.reg)
    let k := { k with
      outstanding := k.outstanding - 1, cplWait := k.cplWait.erase c.reg
      cplDone := if code = .done then others ++ [c.reg] else others }
    if k.status = .live then (threadsOf c.mask).foldl (fun n t => n.setReg t c.reg (w32 (codeVal code))) k else k)

/-- The partition that owns what lies at a physical local address (18 R397, 12 R271). -/
def State.ownerAt (s : State) (a : Nat) : PartId :=
  match s.place a with
  | .cmem c _ => (s.core c).part
  | .dram _ => Fin.ofNat 17 (Tab.get 0 s.frames (a / 0x20_0000))
  | _ => match s.crownPlace a with
    | some (q, b, _) => (((List.range 17).map (Fin.ofNat 17)).find? (fun p =>
        match (s.partOf p).spec with
        | some x => x.wsBanks.contains (q.val, b)
        | none => false)).getD 0
    | none => 0

/-- The record of a refusal goes to the partition that owns the resource (18 R405). -/
def State.tellOwner (s : State) (owner p : PartId) (core : Nat) (what : Refused) : State :=
  if owner = p then s else s.onPart owner (fun k => { k with events := k.events ++ [.refused p core what s.now] })

/-- The steward records a refusal of a tenant (18 R405). -/
def State.noteRefusal (s : State) (p : PartId) (core : Nat) (what : Refused) : State := s.addLog (.refusal p core what s.now)

/-- A code reaches its thread. A tenant's REFUSED waits for the fixed latency of R404. -/
def State.finishCpl (s : State) (c : Cpl) (code : Code) : State :=
  let p := (s.core c.core).part
  if code = .refused ∧ p ≠ 0 then
    (({ s with parked := s.parked ++ [.cpl c] } : State).noteRefusal p c.core.val (.command c))
  else s.writeCpl c code

/-- An inner command of a nest has ended: its code, if not DONE, stops the nest (10 R225). -/
def State.nestInner (s : State) (c : CoreId) (code : Code) : State :=
  s.onCore c (fun k => { k with seq := { k.seq with run := k.seq.run.map (fun r =>
    { r with open_ := r.open_ - 1, failed := if code = .done then r.failed else r.failed.or (some code) }) } })

/-- Completes an operation with a code. -/
def State.finish (s : State) (o : Owner) (code : Code) : State :=
  match o with
  | .thread c => (s.report code).finishCpl c code
  | .nest c => s.nestInner c code
  | .quiet => s.report code

/-- The owner of a command that a thread issues now. -/
def State.cplOf (s : State) (h : Th) (cpl : Reg) : Cpl :=
  { core := h.core, gang := h.gang, mask := maskOf ((s.gang h.core h.gang).execs h), reg := cpl, issued := s.now }

/-- An engine command leaves a gang: its CPL register is awaited. -/
def State.await (s : State) (h : Th) (cpl : Reg) : State :=
  s.onGang h.core h.gang (fun k => { k with outstanding := k.outstanding + 1, cplWait := k.cplWait ++ [cpl] })

/-- The scalar operands a command carries are those of the lowest-numbered active thread (R197). -/
def Gang.holds (k : Gang) (h : Th) : Bool := h.args.all (fun a => k.reg (k.active.headD 0) a.1 == a.2)

/-- A job of the core waits for the fabric barrier of its new placement (10 R229). -/
def State.placing (s : State) (c : CoreId) : Bool := s.jobs.any (fun j => j.placing && j.spec.cores.contains c)

/-- An engine may take a command: the gang is ready, the registers of its scalar operands are written and hold what the command
carries (R193, R197), and its earlier accesses are performed, since issuing acts as `fence.rel` (R204). During a module shutdown
no new work is accepted (17 R385), and none is issued while a job of the core is being placed anew (10 R229). -/
def State.readyEngine (s : State) (h : Th) : Bool :=
  s.ready h (h.args.map (·.1)) [] && (s.gang h.core h.gang).holds h && (s.gang h.core h.gang).memops.isEmpty && s.pwr.shut.isNone
    && !s.placing h.core

/-- Issues an engine command. With no executing thread nothing happens but the advance (R192). `room` is false while
the queue the command needs is full: the gang stalls (R193). -/
def State.engine (s : State) (h : Th) (cpl : Reg) (room : Bool) (f : Cpl → State → State) : Out :=
  if s.readyEngine h && room then
    let c := s.cplOf h cpl
    if c.mask = 0 then .next (s.advance h) else .next ((f c (((s.advance h).await h cpl).from_ h.core)).back s)
  else .next s

/-- A refusal under R208: VARIES, counted (09 R208, R213). -/
def State.varies (s : State) (c : CoreId) (o : Owner) : State :=
  (s.onCore c (fun k => { k with varies := satInc 32 k.varies })).finish o .varies

/-- The partition of a core. -/
def State.part (s : State) (c : CoreId) : PartId := (s.core c).part

/-- The core's partition is deterministic (09 R208, R211). -/
def State.det (s : State) (c : CoreId) : Bool := (s.core c).det

/-- A free word, and the counter that makes the next one another (log 5). -/
def State.freeWord (s : State) : Word × State := (Config.freeWord s.free, { s with free := s.free + 1 })

/-! ## Memory as an engine of this module sees it -/

/-- The kind of memory an address lies in. -/
def State.isCmemOf (s : State) (c : CoreId) (a : Nat) : Bool :=
  match s.place a with
  | .cmem d _ => d == c
  | _ => false

def State.isCrown (s : State) (a : Nat) : Bool :=
  match s.place a with
  | .weight _ _ => true
  | .scratch _ _ => true
  | _ => false

def State.isCmem (s : State) (a : Nat) : Bool :=
  match s.place a with
  | .cmem _ _ => true
  | _ => false

/-- A whole range of local addresses resolves: each 2 MiB page of it is translated on its own (09 R201); the first
failure answers. -/
def State.checkRange (s : State) (p : PartId) (a n : Nat) (r : Right) : Code :=
  let pages := (List.range ((a + n + 0x1F_FFFF) / 0x20_0000 - a / 0x20_0000)).map (fun i =>
    max a ((a / 0x20_0000 + i) * 0x20_0000))
  let ends := pages.map (fun x => min (a + n - 1) (x / 0x20_0000 * 0x20_0000 + 0x1F_FFFF))
  let bad (x : Nat) : Option Code := match s.resolveLocal p x r with | .error c => some c | .ok _ => none
  match (List.zipWith (fun x y => (bad x).or (bad y)) pages ends).findSome? id with
  | some c => c
  | none => .done

/-- Reads a range of local addresses for an engine, line by line; the bytes and the code met. On a failure the
bytes before the failing line are returned. -/
def State.readRangeGo (s : State) (p : PartId) : Nat → Nat → Nat → State × List Byte × Code
  | 0, _, _ => (s, [], .done)
  | fuel + 1, a, n =>
    if n = 0 then (s, [], .done)
    else
      let k := min n (64 - a % 64)
      match s.resolveLocal p a .read with
      | .error c => (s, [], c)
      | .ok x =>
        match s.readLine (x / 64) with
        | (t, .done) =>
          let (u, bs, c) := t.readRangeGo p fuel (a + k) (n - k)
          (u, t.rd x k ++ bs, c)
        | (t, c) => (t, [], c)

def State.readRange (s : State) (p : PartId) (a n : Nat) : State × List Byte × Code :=
  s.readRangeGo p (n / 64 + 2) a n

end Sys2Proof.Machine
end

