-- ==== Sys2Proof/Machine/Credits.lean ====
section
/-! DEFINITION. Receive windows and credits (11 R239, R246-R248): which writes need one, what they consume, and
what configuration writes do. -/

namespace Sys2Proof.Machine

/-- A window and whether it is enabled and current, with its range in bytes within its memory. -/
def State.window (s : State) : WinRef → Window
  | .scratch q w => Tab.get {} (s.quarter q).wins w.val
  | .cmem c w => (s.core c).wins[w.val]
  | .remote _ _ _ _ => {}

def State.onWindow (s : State) (r : WinRef) (f : Window → Window) : State :=
  match r with
  | .scratch q w => s.onQuarter q (fun k => { k with wins := Tab.mod {} k.wins w.val f })
  | .cmem c w => s.onCore c (fun k => { k with wins := vmod k.wins w f })
  | .remote _ _ _ _ => s

/-- Size of a window in 64-byte units: SIZE of a core-memory window counts 64 KiB steps (R257). -/
def winUnits (r : WinRef) (w : Window) : Nat :=
  match r with
  | .cmem _ _ => w.size * 1024
  | _ => w.size

def winHolds (r : WinRef) (w : Window) (off : Nat) : Bool :=
  w.en && decide (w.base * 64 ≤ off) && decide (off < (w.base + winUnits r w) * 64)

/-- The enabled window that holds a physical local address (R246). -/
def State.windowAt (s : State) (a : Nat) : Option WinRef :=
  match s.place a with
  | .cmem c off => ((List.range 8).map (fun i => WinRef.cmem c (Fin.ofNat 8 i))).find? (fun r => winHolds r (s.window r) off)
  | .scratch q off => ((List.range 64).map (fun i => WinRef.scratch q (Fin.ofNat 64 i))).find? (fun r => winHolds r (s.window r) off)
  | _ => none

/-- What a write of a line by a core of this module needs (R239, R246). -/
inductive Need where
  | free
  | credit (r : WinRef)
  | none_
  deriving DecidableEq, Repr

def State.need (s : State) (from_ : CoreId) (a : Nat) : Need :=
  match s.place a with
  | .cmem c _ => if c = from_ then .free else match s.windowAt a with
    | some r => .credit r
    | none => .none_
  | .scratch _ _ => match s.windowAt a with
    | some r => if (s.window r).open_ then .free else .credit r
    | none => .free
  | _ => .free

/-- The balance of a core's entry for a window, void under an older generation (R247-R248). -/
def State.balance (s : State) (from_ : CoreId) (r : WinRef) : Nat :=
  match (s.core from_).credits.find? (fun e => e.win == r && e.gen == (s.window r).gen) with
  | some e => e.bytes
  | none => 0

/-- The lines of a write that need a credit, by window; none when a line may not be written at all. -/
def State.needs (s : State) (from_ : CoreId) (a n : Nat) : Option (List WinRef) :=
  let ns := (linesOf a n).map (fun l => s.need from_ (l * 64))
  if ns.any (· == .none_) then none
  else some (ns.filterMap (fun x => match x with | .credit r => some r | _ => none))

/-- A store or engine write by a core may be performed (R248). -/
def State.mayWrite (s : State) (from_ : CoreId) (a n : Nat) : Bool :=
  match s.needs from_ a n with
  | none => false
  | some rs => rs.all (fun r => decide (64 * rs.count r ≤ s.balance from_ r))

/-- An atomic needs an entry with a balance and consumes nothing (R248). -/
def State.mayAtomic (s : State) (from_ : CoreId) (a : Nat) : Bool :=
  match s.need from_ a with
  | .free => true
  | .credit r => decide (0 < s.balance from_ r)
  | .none_ => false

/-- Takes 64 bytes of credit for each line that needs one (R248). -/
def State.consume (s : State) (from_ : CoreId) (a n : Nat) : State :=
  match s.needs from_ a n with
  | none => s
  | some rs => s.onCore from_ (fun k => { k with
      credits := k.credits.map (fun e => { e with bytes := e.bytes - 64 * rs.count e.win }) })

/-- Returns units of 64 bytes to a window: AVAIL never exceeds the size (R256). -/
def State.release (s : State) (r : WinRef) (units : Nat) : State :=
  s.onWindow r (fun w => { w with avail := min (w.avail + units) (winUnits r w) })

/-- The other core whose memory holds an address and whose placement epoch differs from the sender's (10 R227). -/
def State.staleAt (s : State) (from_ : CoreId) (a : Nat) : Option CoreId :=
  match s.place a with
  | .cmem d _ => if d ≠ from_ ∧ (s.core d).seq.epoch ≠ (s.core from_).seq.epoch then some d else none
  | _ => none

/-- Data discarded for its epoch: SEQ_STALE counts it at the receiver (10 R227, R234). -/
def State.countStale (s : State) (d : CoreId) : State :=
  s.onCore d (fun k => { k with seq := { k.seq with stale := satInc 32 k.seq.stale } })

/-- What a write of `n` bytes by a core's thread or engine to memory of this module meets: credits, then the receiver's epoch,
then poison; its credits are then spent. A write discarded for its epoch returns its credits to the window (10 R227, R248). -/
def State.coreCheck (s : State) (from_ : CoreId) (a n : Nat) : State × Code :=
  if s.mayWrite from_ a n then
    match s.staleAt from_ a with
    | some d =>
      let t := ((s.needs from_ a n).getD []).foldl (fun u r => u.release r 1) (s.consume from_ a n)
      (t.countStale d, .staleEpoch)
    | none =>
      match s.storeCheck a n with
      | (t, .done) => (t.consume from_ a n, .done)
      | r => r
  else (s, .noCredit)

/-- Such a write with its bytes. -/
def State.coreWrite (s : State) (from_ : CoreId) (a : Nat) (bs : List Byte) : State × Code :=
  match s.coreCheck from_ a bs.length with
  | (t, .done) => (t.lay a bs, .done)
  | r => r

/-- Gives a core back the credits that `n` bytes at `a` spent. -/
def State.unspend (s : State) (from_ : CoreId) (a n : Nat) : State :=
  match s.needs from_ a n with
  | none => s
  | some rs => s.onCore from_ (fun k => { k with
      credits := k.credits.map (fun e => { e with bytes := e.bytes + 64 * rs.count e.win }) })

/-- Checks the pieces of a write, each translated on its own (09 R201), and answers their physical addresses. Where one fails
the write as a whole spends nothing. -/
def State.checkWhole (s : State) (c : CoreId) (p : PartId) : List (Nat × Nat) → State × Except Code (List Nat)
  | [] => (s, .ok [])
  | (a, n) :: r =>
    match s.resolveLocal p a .write with
    | .error e => (s, .error e)
    | .ok x => match s.coreCheck c x n with
      | (t, .done) => match t.checkWhole c p r with
        | (u, .ok xs) => (u, .ok (x :: xs))
        | (u, .error e) => (u.unspend c x n, .error e)
      | (t, e) => (t, .error e)

/-- Writes an element, row or block of an engine's command whole: where an access of it fails, nothing of it is written
(00 R465). -/
def State.writeWhole (s : State) (c : CoreId) (p : PartId) (a : Nat) (bs : List Byte) : State × Code :=
  if bs.isEmpty then (s, .done)
  else
    let ps := pieces a bs.length
    match s.checkWhole c p ps with
    | (t, .ok xs) => ((xs.zip ps).foldl (fun u x => u.lay x.1 ((bs.drop (x.2.1 - a)).take x.2.2)) t, .done)
    | (t, .error e) => (t, e)

/-- Writes a range of local addresses for an engine of a core, line by line, each translated on its own (09 R201);
stops at the first failure, which answers. -/
def State.writeRangeGo (s : State) (c : CoreId) (p : PartId) : Nat → Nat → List Byte → State × Code
  | 0, _, _ => (s, .done)
  | fuel + 1, a, bs =>
    if bs.isEmpty then (s, .done)
    else
      let k := min bs.length (64 - a % 64)
      match s.resolveLocal p a .write with
      | .error e => (s, e)
      | .ok x => match s.coreWrite c x (bs.take k) with
        | (t, .done) => t.writeRangeGo c p fuel (a + k) (bs.drop k)
        | r => r

def State.writeRange (s : State) (c : CoreId) (p : PartId) (a : Nat) (bs : List Byte) : State × Code :=
  s.writeRangeGo c p (bs.length / 64 + 2) a bs

/-! ## Atomics (09 R206) -/

/-- What an atomic stores, from the old value and its operands (09 R206, R210). -/
def atomicNew (kind : AccKind) (old val cmp : BitVec 64) : BitVec 64 :=
  let o : Word := old.setWidth 32
  let v : Word := val.setWidth 32
  let r : Word := match kind with
    | .add => o + v
    | .max => if o.slt v then v else o
    | .min => if v.slt o then v else o
    | .and => o &&& v
    | .or => o ||| v
    | _ => v
  if kind = .cas then (if old = cmp then val else old) else r.setWidth 64

/-- A float add: into the newest group of its address, if there is one and timing has it so, or as the first of a new group
(09 R206). Core memory does not combine. Answers the returned value and the stored one. -/
def State.floatAdd (s : State) (a : Nat) (old v : Word) : State × Word × Word :=
  let t := { s with free := s.free + 1 }
  let grouped : Option (Nat × Word × Word) := if s.isCmem a then none
    else s.addGroups.find? (fun g => g.1 == a && f32Add g.2.1 g.2.2 == old)
  let others := s.addGroups.filter (fun g => g.1 != a)
  match grouped, Config.freeBool s.free with
  | some (_, o, sum), true => ({ t with addGroups := others ++ [(a, o, f32Add sum v)] }, f32Add o sum, f32Add o (f32Add sum v))
  | _, _ => ({ t with addGroups := if s.isCmem a then others else others ++ [(a, old, v)] }, old, f32Add old v)

/-- An atomic at the memory that holds its address (09 R206, 12 R265). -/
def State.atomicHere (s : State) (kind : AccKind) (w a : Nat) (val cmp : BitVec 64) : State × Except Code (BitVec 64) :=
  match s.readLine (a / 64) with
  | (t, .done) =>
    let old : BitVec 64 := BitVec.ofNat 64 (leNat (t.rd a w))
    if kind = .addF32 then
      let (u, r, n) := t.floatAdd a (old.setWidth 32) (val.setWidth 32)
      (u.wr a (leBytes 4 n.toNat), .ok (r.setWidth 64))
    else (t.wr a (leBytes w (atomicNew kind old val cmp).toNat), .ok old)
  | (t, e) => (t, .error e)

/-- An atomic of a core of this module: it needs a credit where a store does, and the receiver's epoch (11 R248, 10 R227). -/
def State.atomicAt (s : State) (c : CoreId) (kind : AccKind) (w a : Nat) (val cmp : BitVec 64) : State × Except Code (BitVec 64) :=
  if !s.mayAtomic c a then (s, .error .noCredit)
  else match s.staleAt c a with
    | some d => (s.countStale d, .error .staleEpoch)
    | none => s.atomicHere kind w a val cmp

/-! ## Windows -/

/-- A window overlaps another enabled window of the same memory. -/
def State.overlapsOther (s : State) (r : WinRef) (w : Window) : Bool :=
  let hits (o : WinRef) : Bool :=
    let v := s.window o
    o != r && v.en && decide (w.base < v.base + winUnits o v) && decide (v.base < w.base + winUnits r w)
  match r with
  | .scratch q _ => (List.range 64).any (fun i => hits (.scratch q (Fin.ofNat 64 i)))
  | .cmem c _ => (List.range 8).any (fun i => hits (.cmem c (Fin.ofNat 8 i)))
  | .remote _ _ _ _ => false

/-- Units of 64 bytes in a window's memory: the quarter's scratch, or 6 MiB. -/
def State.winLimit (s : State) : WinRef → Nat
  | .scratch q _ => (s.quarter q).cut.scr * (bankBytes / 64)
  | _ => coreBytes / 64

/-- Which quarter logs a window, for the steward's log. -/
def winNames (s : State) : WinRef → Nat × Nat
  | .scratch q w => (q.val, w.val)
  | .cmem c w => (4 + c.val, w.val)
  | .remote _ _ _ _ => (s.dev, 0)

/-- A configuration write (R246, R248): ignored once GEN is 0xFFFF_FFFF; otherwise it takes effect, GEN rises, AVAIL is
the size, and a window left overlapping or out of its memory is disabled with CFGERR. -/
def State.configWindow (s : State) (r : WinRef) (f : Window → Window) : State :=
  let w := s.window r
  if w.gen = 0xFFFF_FFFF then s
  else
    let v := f w
    let v := { v with gen := w.gen + 1, avail := winUnits r v }
    let limit := decide (s.winLimit r < v.base + winUnits r v)
    let clash := s.overlapsOther r v
    if v.en && v.size = 0 then s.onWindow r (fun _ => { v with en := false, cfgerr := 0 })
    else if v.en && (clash || limit) then
      let code : Code := if clash then .overlap else .limit
      (s.onWindow r (fun _ => { v with en := false, cfgerr := if clash then 1 else 2 })).addLog
        (.window (winNames s r).1 (winNames s r).2 code)
    else s.onWindow r (fun _ => { v with cfgerr := 0 })

/-- Grants a credit: a stale entry of the window is taken over, a new one is added (R247). -/
def grantCredit (l : List Credit) (r : WinRef) (gen bytes : Nat) : List Credit :=
  match l.find? (fun e => e.win == r) with
  | some e => l.map (fun x => if x.win == r then { x with gen := gen, bytes := (if e.gen = gen then e.bytes else 0) + bytes } else x)
  | none => l ++ [⟨r, gen, bytes⟩]

/-- `cred.req` at a window of this module (R247); `units` of 64 bytes. -/
def State.credReqAt (s : State) (c : CoreId) (a units : Nat) : State × Code :=
  match s.windowAt a with
  | none => (s, .unmapped)
  | some r =>
    let w := s.window r
    let l := (s.core c).credits
    if w.part ≠ (s.part c).val then (s, .refused)
    else if 16 ≤ l.length ∧ l.all (fun e => e.win != r) then (s, .limit)
    else if units = 0 then
      let t := match l.find? (fun e => e.win == r) with
        | some e => if e.gen = w.gen then s.release r (e.bytes / 64) else s
        | none => s
      (t.onCore c (fun k => { k with credits := k.credits.filter (fun e => e.win != r) }), .done)
    else if w.avail < units then (s, .noCredit)
    else
      ((s.onWindow r (fun v => { v with avail := v.avail - units })).onCore c (fun k => { k with
        credits := grantCredit k.credits r w.gen (64 * units) }), .done)

/-! ## Windows of other modules -/

/-- An entry for a window of another module covers every line of `n` bytes at a local address there (R248). -/
def Credit.covers (e : Credit) (d : Nat) (fb : Bool) (a n : Nat) : Bool :=
  match e.win with
  | .remote x y base size => x == d && y == fb && decide (base ≤ a / 64 * 64) && decide ((a + n + 63) / 64 * 64 ≤ base + size)
  | _ => false

/-- The state without the credit that a write of `n` bytes to another module consumes; none where no entry covers it
(R248). -/
def State.spendRemote (s : State) (c : CoreId) (d : Nat) (fb : Bool) (a n : Nat) : Option State :=
  let cost := 64 * (linesOf a n).length
  match (s.core c).credits.find? (fun e => e.covers d fb a n && decide (cost ≤ e.bytes)) with
  | some e => some (s.onCore c (fun k => { k with
      credits := k.credits.map (fun x => if x.win = e.win then { x with bytes := x.bytes - cost } else x) }))
  | none => none

/-- What a write to another module needs, as its sender can tell (R239, R246): core memory and scratch need a credit. Where
the other module's scratch lies is read off this module's own cut (log 78); a tenant's address says nothing. -/
def State.remoteNeeds (s : State) (p : PartId) (loc : Nat) : Bool :=
  p == 0 && (match s.place loc with
    | .cmem _ _ => true
    | .scratch _ _ => true
    | _ => decide (loc < 0x6000_0000))

/-- The write to another module leaves with its credit, or not at all (NO_CREDIT, R246, R248). -/
def State.payRemote (s : State) (c : CoreId) (d : Nat) (fb : Bool) (loc n : Nat) : Option State :=
  match s.spendRemote c d fb loc n with
  | some t => some t
  | none => if s.remoteNeeds (s.part c) loc then none else some s

/-- The core's credit table has no place for an entry of another window: its 16 entries are used, or asked for (R247). -/
def State.creditsFull (s : State) (c : CoreId) : Bool :=
  decide (16 ≤ (s.core c).credits.length
    + (s.sentOps.filter (fun o => match o.credit with | some (k, _, n) => k == c && n != 0 | none => false)).length)

/-- Asks another module's window for units of 64 bytes; a count of 0 gives an entry's balance back (R247). The request says
whether the table lacks a place; its layout is not given (log 32). -/
def State.askCredit (s : State) (c : CoreId) (d : Nat) (fb : Bool) (a units : Nat) (old : Option Credit) : Except Code State :=
  s.sendMsg d fb 0 (s.part c) false s.nextOp none
    (leBytes 8 a ++ leBytes 4 units ++ leBytes 1 (b2n (old.isNone && s.creditsFull c))
      ++ (match old with | some e => leBytes 4 e.gen ++ leBytes 8 e.bytes | none => []))

/-- Frees a core's entry, returning its balance where its window still is of the entry's generation (R248). -/
def State.giveBack (s : State) (c : CoreId) (e : Credit) : State :=
  match e.win with
  | .remote d fb base _ => match s.askCredit c d fb base 0 (some e) with
    | .ok t => { t with nextOp := t.nextOp + 1 }
    | .error _ => s
  | w => if e.gen = (s.window w).gen then s.release w (e.bytes / 64) else s

/-- Frees every credit of a core before its group is turned OFF (R248). -/
def State.freeCredits (s : State) (c : CoreId) : State :=
  ((s.core c).credits.foldl (fun u e => u.giveBack c e) s).onCore c (fun k => { k with credits := [] })

/-- Where an address lies within its core memory or its quarter's scratch. -/
def State.offsetOf (s : State) (a : Nat) : Nat :=
  match s.place a with
  | .cmem _ off => off
  | .scratch _ off => off
  | _ => 0

/-- The partition that owns the window an address lies in. -/
def State.windowOwner (s : State) (a : Nat) : PartId :=
  match s.windowAt a with
  | some r => Fin.ofNat 17 (s.window r).part
  | none => 0

/-- `cred.req` of another module (R247): the table of its conditions in order, with the requester's own LIMIT where the
request says that its table is full. -/
def State.credReqFor (s : State) (p : PartId) (a units back gen : Nat) (full : Bool) : State × Code × Option Grant :=
  match s.resolveLocal p a .write with
  | .error e => (s, e, none)
  | .ok x => match s.windowAt x with
    | none => (s, .unmapped, none)
    | some r =>
      let w := s.window r
      let base := x - s.offsetOf x + 64 * w.base
      if w.part ≠ p.val then (s, .refused, none)
      else if full then (s, .limit, none)
      else if units = 0 then (if gen = w.gen then s.release r (back / 64) else s, .done, none)
      else if w.avail < units then (s, .noCredit, none)
      else (s.onWindow r (fun v => { v with avail := v.avail - units }), .done,
        some ⟨a - min a (x - base), 64 * winUnits r w, w.gen⟩)

end Sys2Proof.Machine
end

