-- ==== Sys2Proof/Machine/Alu.lean ====
section
/-! DEFINITION. The thread integer unit, moves and predicates (09 R210): add .. sel, pand .. pnot. -/

namespace Sys2Proof.Machine

/-- The second operand: a register, or a 16-bit immediate extended (log 6). -/
def srcVal (k : Gang) (t : Nat) : Src → Word
  | .reg r => k.reg t r
  | .imm i => if Config.immSigned then i.signExtend 32 else i.setWidth 32

def srcRegs : Src → List Reg
  | .reg r => [r]
  | .imm _ => []

/-- A binary operation on every executing thread. -/
def alu2 (h : Th) (vd va : Reg) (b : Src) (f : Word → Word → Word) (s : State) : Out :=
  s.issue h (va :: srcRegs b) [] (fun s => s.writeV h vd (fun k t => f (k.reg t va) (srcVal k t b)))

/-- A unary operation on every executing thread. -/
def alu1 (h : Th) (vd va : Reg) (f : Word → Word) (s : State) : Out :=
  s.issue h [va] [] (fun s => s.writeV h vd (fun k t => f (k.reg t va)))

/-- A predicate operation on every executing thread. -/
def predOp (h : Th) (pd : PReg) (ps : List PReg) (f : Gang → Nat → Bool) (s : State) : Out :=
  s.issue h [] ps (fun s => s.writeP h pd f)

/-- The high 32 bits of a product (R210: wrap modulo 2^32 names the low half). -/
def mulHigh (sgn : Bool) (a b : Word) : Word :=
  if sgn then BitVec.ofInt 32 (a.toInt * b.toInt / 2 ^ 32) else BitVec.ofNat 32 (a.toNat * b.toNat / 2 ^ 32)

def shiftCount (b : Word) : Nat := b.toNat % 32

def popcWord (a : Word) : Word := w32 (popcount32 a)

/-- Leading zeros: 32 for zero. -/
def clzWord (a : Word) : Word := w32 (if a = 0 then 32 else 31 - Nat.log2 a.toNat)

def execAdd (h : Th) (_sgn : Bool) (vd va : Reg) (b : Src) (s : State) : Out := alu2 h vd va b (· + ·) s
def execSub (h : Th) (_sgn : Bool) (vd va : Reg) (b : Src) (s : State) : Out := alu2 h vd va b (· - ·) s
def execMulLo (h : Th) (_sgn : Bool) (vd va : Reg) (b : Src) (s : State) : Out := alu2 h vd va b (· * ·) s
def execMulHi (h : Th) (sgn : Bool) (vd va : Reg) (b : Src) (s : State) : Out := alu2 h vd va b (mulHigh sgn) s
def execAnd (h : Th) (vd va vb : Reg) (s : State) : Out := alu2 h vd va (.reg vb) (· &&& ·) s
def execOr (h : Th) (vd va vb : Reg) (s : State) : Out := alu2 h vd va (.reg vb) (· ||| ·) s
def execXor (h : Th) (vd va vb : Reg) (s : State) : Out := alu2 h vd va (.reg vb) (· ^^^ ·) s
def execNot (h : Th) (vd va : Reg) (s : State) : Out := alu1 h vd va (~~~ ·) s
def execShl (h : Th) (vd va vb : Reg) (s : State) : Out := alu2 h vd va (.reg vb) (fun a b => a <<< shiftCount b) s
def execShr (h : Th) (vd va vb : Reg) (s : State) : Out := alu2 h vd va (.reg vb) (fun a b => a >>> shiftCount b) s
def execSra (h : Th) (vd va vb : Reg) (s : State) : Out := alu2 h vd va (.reg vb) (fun a b => a.sshiftRight (shiftCount b)) s
def execRotl (h : Th) (vd va vb : Reg) (s : State) : Out := alu2 h vd va (.reg vb) (fun a b => a.rotateLeft (shiftCount b)) s
def execPopc (h : Th) (vd va : Reg) (s : State) : Out := alu1 h vd va popcWord s
def execClz (h : Th) (vd va : Reg) (s : State) : Out := alu1 h vd va clzWord s

/-- Equality under an operand type; a NaN equals nothing (R210). -/
def cmpEqual : CmpTy → Word → Word → Bool
  | .i32, a, b => a == b
  | .u32, a, b => a == b
  | .f32, a, b => (f32 a).eqv (f32 b)

def cmpLess : CmpTy → Word → Word → Bool
  | .i32, a, b => a.slt b
  | .u32, a, b => a.ult b
  | .f32, a, b => (f32 a).lt (f32 b)

/-- A compare on every executing thread. -/
def compare2 (h : Th) (pd : PReg) (va vb : Reg) (f : Word → Word → Bool) (s : State) : Out :=
  s.issue h [va, vb] [] (fun s => s.writeP h pd (fun k t => f (k.reg t va) (k.reg t vb)))

def execCmpEq (h : Th) (ty : CmpTy) (pd : PReg) (va vb : Reg) (s : State) : Out := compare2 h pd va vb (cmpEqual ty) s
def execCmpNe (h : Th) (ty : CmpTy) (pd : PReg) (va vb : Reg) (s : State) : Out :=
  compare2 h pd va vb (fun a b => !cmpEqual ty a b) s
def execCmpLt (h : Th) (ty : CmpTy) (pd : PReg) (va vb : Reg) (s : State) : Out := compare2 h pd va vb (cmpLess ty) s
def execCmpLe (h : Th) (ty : CmpTy) (pd : PReg) (va vb : Reg) (s : State) : Out :=
  compare2 h pd va vb (fun a b => cmpLess ty a b || cmpEqual ty a b) s

def execMov (h : Th) (vd va : Reg) (s : State) : Out := alu1 h vd va id s

def execMovi (h : Th) (vd : Reg) (imm : Word) (s : State) : Out :=
  s.issue h [] [] (fun s => s.writeV h vd (fun _ _ => imm))

/-- `sel` picks va where ps is 1 and vb where it is 0 (R210; which of the two is read from "picks by predicate", log 19). -/
def execSel (h : Th) (vd va vb : Reg) (ps : PReg) (s : State) : Out :=
  s.issue h [va, vb] [ps] (fun s => s.writeV h vd (fun k t => if k.pred t ps then k.reg t va else k.reg t vb))

def execPand (h : Th) (pd pa pb : PReg) (s : State) : Out := predOp h pd [pa, pb] (fun k t => k.pred t pa && k.pred t pb) s
def execPor (h : Th) (pd pa pb : PReg) (s : State) : Out := predOp h pd [pa, pb] (fun k t => k.pred t pa || k.pred t pb) s
def execPxor (h : Th) (pd pa pb : PReg) (s : State) : Out := predOp h pd [pa, pb] (fun k t => k.pred t pa ^^ k.pred t pb) s
def execPnot (h : Th) (pd pa : PReg) (s : State) : Out := predOp h pd [pa] (fun k t => !k.pred t pa) s

def execNop (h : Th) (s : State) : Out := s.issue h [] [] id

end Sys2Proof.Machine
end

