-- ==== Sys2Proof/Machine/Fpu.lean ====
section
/-! DEFINITION. The thread floating-point unit (02 R61, R63; 09 R210): arithmetic that rounds once, maxima, functions
within 1 ulp, conversions with their flags, and reductions across a gang. -/

namespace Sys2Proof.Machine

/-- The random unit is free for a thread instruction: no earlier consumer waits or holds it (08 R174). -/
def State.rngFree (s : State) (c : CoreId) : Bool := (s.core c).rng.queue.isEmpty && (s.core c).rng.busy.isNone

/-- FRESH draws are refused in a deterministic partition (09 R208). -/
def State.rngVaries (s : State) (c : CoreId) : Bool := s.det c && (s.core c).rng.fresh

/-- Takes one word from lane `t` for each executing thread `t`: bits 11:0 of each (02 R43). -/
def State.takeThreadWords (s : State) (h : Th) : State × List Nat :=
  let ts := (s.gang h.core h.gang).execs h
  let ls := (s.core h.core).rng.lanes
  let bits := (List.range 32).map (fun t => (laneFilter (ls.toList.getD t {}).s).toNat % 4096)
  (s.onCore h.core (fun k => { k with rng := { k.rng with
    lanes := Vector.ofFn (fun i => if ts.contains i.val then (ls[i.val]).take.2 else ls[i.val]) } }), bits)

/-- Runs a floating-point instruction that may round stochastically: as a consumer of the random unit with RND 0b11,
refused with VARIES where R208 says so. `f` takes the random value of each thread. -/
def State.issueRnd (s : State) (h : Th) (rs : List Reg) (rnd : BitVec 2) (f : List Nat → State → State) : Out :=
  if rnd = 3 then
    if !s.rngFree h.core then .next s
    else s.issue h rs [] (fun s =>
      if s.rngVaries h.core then s.varies h.core .quiet
      else
        let (t, bits) := s.takeThreadWords h
        f bits t)
  else s.issue h rs [] (f [])

def execFadd (h : Th) (rnd : BitVec 2) (vd va vb : Reg) (s : State) : Out :=
  s.issueRnd h [va, vb] rnd (fun r s => s.writeV h vd (fun k t =>
    toF32R rnd (nth 0 r t) ((f32 (k.reg t va)).add (f32 (k.reg t vb)))))

def execFmul (h : Th) (rnd : BitVec 2) (vd va vb : Reg) (s : State) : Out :=
  s.issueRnd h [va, vb] rnd (fun r s => s.writeV h vd (fun k t =>
    toF32R rnd (nth 0 r t) ((f32 (k.reg t va)).mul (f32 (k.reg t vb)))))

def execFfma (h : Th) (rnd : BitVec 2) (vd va vb vc : Reg) (s : State) : Out :=
  s.issueRnd h [va, vb, vc] rnd (fun r s => s.writeV h vd (fun k t =>
    toF32R rnd (nth 0 r t) (((f32 (k.reg t va)).mul (f32 (k.reg t vb))).add (f32 (k.reg t vc)))))

/-- The winner of two under R63; a NaN gives the NaN of R33. -/
def fpick (isMax : Bool) (a b : Word) : Word :=
  if f32IsNan a || f32IsNan b then f32Nan else if wins isMax (f32 b) 1 (f32 a) 0 then b else a

def execFmax (h : Th) (vd va vb : Reg) (s : State) : Out := alu2 h vd va (.reg vb) (fpick true) s
def execFmin (h : Th) (vd va vb : Reg) (s : State) : Out := alu2 h vd va (.reg vb) (fpick false) s
def execFexp2 (h : Th) (vd va : Reg) (s : State) : Out := alu1 h vd va (unaryF 0) s
def execFlog2 (h : Th) (vd va : Reg) (s : State) : Out := alu1 h vd va (unaryF 1) s
def execFrcp (h : Th) (vd va : Reg) (s : State) : Out := alu1 h vd va (unaryF 2) s
def execFrsqrt (h : Th) (vd va : Reg) (s : State) : Out := alu1 h vd va (unaryF 3) s

/-- One element of `cvt`: its low bits as FMT_IN, the code zero-extended. An MX element without its block scale and a PX8E escape
without its entry have no stated value; the entry of an escape that `cvt` makes goes nowhere (log 9). -/
def cvtWord (fi fo : BitVec 4) (rnd ovf : BitVec 2) (r : Nat) (x : Word) : Conv :=
  if fmtIsMx fi || fmtIsMx fo || (fi == 0xE && x.toNat % 256 == 0x80) then { code := (Config.cvtUnstated fi fo x).toNat }
  else if fo = 0xE then (px8eEncode rnd ovf r (decodeElem fi (x.toNat % 2 ^ fmtBits fi))).1
  else convert fi fo rnd ovf r (decodeElem fi (x.toNat % 2 ^ fmtBits fi))

/-- An instruction with a reserved encoding ends its gang and latches FORMAT (09 R210). -/
def State.reservedInstr (s : State) (c : CoreId) (g : GangId) : State :=
  let k := s.gang c g
  ((s.report .format).gfault c g false (k.active.headD 0) .format k.pc).endGang c g

/-- `cvt` (02 R44-R46, R61): OVF 0b11 and a reserved FMT are reserved encodings (02 R32, R45; log 20). -/
def execCvt (h : Th) (fi fo : BitVec 4) (rnd ovf : BitVec 2) (vd va : Reg) (s : State) : Out :=
  if ovf = 3 ∨ fmtReserved fi ∨ fmtReserved fo then
    (if s.ready h [] [] then .next (s.reservedInstr h.core h.gang) else .next s)
  else
    s.issueRnd h [va] rnd (fun r s =>
      let k := s.gang h.core h.gang
      let cs := (k.execs h).map (fun t => cvtWord fi fo rnd ovf (nth 0 r t) (k.reg t va))
      (s.writeV h vd (fun k t => w32 (cvtWord fi fo rnd ovf (nth 0 r t) (k.reg t va)).code)).setTFlags h.core h.gang
        (cs.any (·.sat)) (cs.any (·.nonfin)))

/-- The sum across the executing threads in ascending order, each addition rounded by ties to even (R210; log 21). -/
def gangSum (vs : List Word) : Word :=
  match vs with
  | [] => 0
  | v :: r => r.foldl f32Add (toF32 (f32 v))

def execGredAdd (h : Th) (vd va : Reg) (s : State) : Out :=
  s.issue h [va] [] (fun s => s.writeV h vd (fun k _ => gangSum ((k.execs h).map (fun t => k.reg t va))))

/-- The winner across the executing threads with its thread number (R63). -/
def gangBest (isMax : Bool) (k : Gang) (h : Th) (va : Reg) : Word × Word :=
  match pickBest isMax ((k.execs h).map (fun t => (f32 (k.reg t va), t))) with
  | some (v, i) => (if v.isNan then f32Nan else k.reg i va, w32 i)
  | none => (toF32 (emptyExtreme isMax 0), 0xFFFF_FFFF)

def gredBest (isMax : Bool) (h : Th) (vd vi va : Reg) (s : State) : Out :=
  s.issue h [va] [] (fun s =>
    let b := gangBest isMax (s.gang h.core h.gang) h va
    (s.writeV h vd (fun _ _ => b.1)).writeV h vi (fun _ _ => b.2))

def execGredMax (h : Th) (vd vi va : Reg) (s : State) : Out := gredBest true h vd vi va s
def execGredMin (h : Th) (vd vi va : Reg) (s : State) : Out := gredBest false h vd vi va s

end Sys2Proof.Machine
end

