-- ==== Sys2Proof/Machine/Branch.lean ====
section
/-! DEFINITION. Branches, calls, the end of a gang and the failures that end one (09 R192, R194, R198, R210). -/

namespace Sys2Proof.Machine

def State.jump (s : State) (h : Th) (target : Addr) : State :=
  s.onGang h.core h.gang (fun k => { k with pc := target })

/-- `br` is unconditional (R210). -/
def execBr (h : Th) (target : Addr) (s : State) : Out := s.issue h [] [] (fun s => s.jump h target)

/-- Taken if the guard holds in any active thread (R210). -/
def execBrAny (h : Th) (target : Addr) (s : State) : Out :=
  s.issue h [] [] (fun s =>
    let k := s.gang h.core h.gang
    if k.active.any (fun t => k.pred t h.guard == h.sense) then s.jump h target else s)

/-- Taken if the guard holds in all active threads (R210). -/
def execBrAll (h : Th) (target : Addr) (s : State) : Out :=
  s.issue h [] [] (fun s =>
    let k := s.gang h.core h.gang
    if k.active.all (fun t => k.pred t h.guard == h.sense) then s.jump h target else s)

/-- `call`: 16 return addresses; the 17th call ends the gang and latches LIMIT (R210). Branches act on the gang as a
whole (R192), so `call` and `ret` are taken whatever the guard says (log 22). -/
def execCall (h : Th) (target : Addr) (s : State) : Out :=
  if s.ready h [] [] then
    let k := s.gang h.core h.gang
    if 16 ≤ k.stack.length then
      .next (((s.report .limit).gfault h.core h.gang false (k.active.headD 0) .limit k.pc).endGang h.core h.gang)
    else .next (s.onGang h.core h.gang (fun k => { k with stack := (k.pc + 8) :: k.stack, pc := target }))
  else .next s

/-- `ret`; with an empty return stack the address is free (log 23). -/
def execRet (h : Th) (s : State) : Out :=
  if s.ready h [] [] then
    match (s.gang h.core h.gang).stack with
    | a :: r => .next (s.onGang h.core h.gang (fun k => { k with stack := r, pc := a }))
    | [] => .next ({ s with free := s.free + 1 }.onGang h.core h.gang (fun k => { k with pc := Config.freeAddr s.free }))
  else .next s

/-- `exit` takes its threads out of the active mask; an empty mask makes the gang ending (R194). -/
def execExit (h : Th) (s : State) : Out :=
  s.issue h [] [] (fun s => s.onGang h.core h.gang (fun k =>
    let m := k.mask &&& ~~~(maskOf (k.execs h))
    { k with mask := m, status := if m = 0 then .ending else k.status }))

/-- A gang at an instruction: live, its core running, not waiting, not held. -/
def State.atInstr (s : State) (c : CoreId) (g : GangId) : Bool :=
  s.coreOn c && (s.gang c g).status == .live && (s.gang c g).wait.isNone && !(s.gang c g).held

/-- An instruction with a reserved encoding (R210). -/
def execReservedEncoding (c : CoreId) (g : GangId) (s : State) : Out :=
  if s.atInstr c g then .next (s.reservedInstr c g) else .next s

/-- A fetch that fails ends the gang and latches the failure with FETCH set (R198). -/
def execFetchFailure (c : CoreId) (g : GangId) (code : Code) (s : State) : Out :=
  if s.atInstr c g ∧ code ≠ .done then
    let k := s.gang c g
    .next (((s.report code).gfault c g true (k.active.headD 0) code k.pc).endGang c g)
  else .next s

end Sys2Proof.Machine
end

