-- ==== Sys2Proof/Machine/Sync.lean ====
section
/-! DEFINITION. Barriers, fences, spawns and the special instructions (09 R195-R197, R203-R207, R210). -/

namespace Sys2Proof.Machine

/-! ## Barriers (R207) -/

def State.onBarrier (s : State) (c : CoreId) (b : BarId) (f : Barrier → Barrier) : State :=
  match b with
  | .core i => s.onCore c (fun k => { k with barriers := Tab.mod {} k.barriers i.val f })
  | .device i => { s with barriers := Tab.mod {} s.barriers i.val f }

/-- A device barrier belongs to the caller's partition; core barriers are the core's own. -/
def State.barAllowed (s : State) (c : CoreId) : BarId → Bool
  | .core _ => true
  | .device i => Tab.get 0 s.barOwner i.val == (s.part c).val

/-- A barrier's scope: CORE, or DEVICE (R203, R204). -/
def barScope : BarId → BitVec 3
  | .core _ => 1
  | .device _ => 3

/-- Ends a wait: the gang goes on, which acts as `fence.acq` (R204), and a CPL register, if one is named, takes the code. -/
def State.endWait (s : State) (c : CoreId) (g : GangId) (code : Code) : State :=
  match (s.gang c g).wait with
  | none => s
  | some w => (s.report code).onGang c g (fun k =>
      let k := { k with wait := none, memops := pruneFences (k.memops ++ [.fence .acq (barScope w.bar)]) }
      match w.cpl with
      | some r => (threadsOf w.mask).foldl (fun n t => n.setReg t r (w32 (codeVal code))) k
      | none => k)

/-- The gangs that may wait at a barrier: of its core, or of every core. -/
def State.barGangs (s : State) (c : CoreId) : BarId → List (CoreId × GangId)
  | .core _ => (List.range 16).map (fun g => (c, Fin.ofNat 16 g))
  | .device _ => (List.range s.coreCount).flatMap (fun n => (List.range 16).map (fun g => (Fin.ofNat 192 n, Fin.ofNat 16 g)))

/-- Ends with a code every wait at a barrier whose phase satisfies a test. -/
def State.endWaits (s : State) (c : CoreId) (b : BarId) (ok : Nat → Bool) (code : Code) : State :=
  (s.barGangs c b).foldl (fun t p =>
    match (t.gang p.1 p.2).wait with
    | some w => if w.bar = b ∧ ok w.phase ∧ t.barAllowed p.1 b then t.endWait p.1 p.2 code else t
    | none => t) s

/-- One arrival at a barrier with a nonzero count: the count reached completes the phase and releases its waiters. -/
def State.barArrive (s : State) (c : CoreId) (b : BarId) : State :=
  let x := s.barrier c b
  if x.count = 0 then s
  else if x.arrived + 1 < x.count then s.onBarrier c b (fun x => { x with arrived := x.arrived + 1 })
  else (s.onBarrier c b (fun x => { x with arrived := 0, phase := x.phase + 1 })).endWaits c b (fun p => decide (p < x.phase + 1)) .done

/-- Reports a barrier instruction's code, in its CPL register if it names one (log 25). -/
def State.barDone (s : State) (h : Th) (cpl : Option Reg) (code : Code) : State :=
  match cpl with
  | some r => (s.await h r).finish (.thread (s.cplOf h r)) code
  | none => s.report code

/-- Streams gated by a barrier whose current phase is given up complete with INCOMPLETE (13 R286). -/
def State.stopGated (s : State) (c : CoreId) (b : BarId) (phase : Nat) : State :=
  let cores : List CoreId := match b with
    | .core _ => [c]
    | .device _ => (List.range s.coreCount).map (Fin.ofNat 192)
  cores.foldl (fun t d => t.onCore d (fun k => { k with streams := k.streams.map (fun x =>
    if x.state = .opened ∧ x.desc.gbar = some b ∧ t.gated d x ∧ x.desc.gphase + x.chunkOf x.asked = phase ∧ x.stop = none
    then { x with stop := some .incomplete } else x) })) s

/-- The expected count a `bar.init` sets: 1 to 65,535 (R207), 0 for none; free above that (log 161). -/
def State.barCount (s : State) (count : Nat) : Nat :=
  if count < 65536 then count else (Config.freeWord s.free).toNat % 65536

/-- A tenant named a device barrier of another partition: the steward and the barrier's owner have the record (18 R405). -/
def State.refuseBar (s : State) (h : Th) (b : BarId) : State :=
  match b with
  | .device i => ((s.noteRefusal (s.part h.core) h.core.val (.barrier i.val)).tellOwner (Fin.ofNat 17 (Tab.get 0 s.barOwner i.val))
      (s.part h.core) h.core.val (.barrier i.val))
  | .core _ => s

/-- `bar.init` sets the expected count; arrivals pending complete the current phase's waiters with
INCOMPLETE (R207); the phase number stays (log 26). -/
def execBarInit (h : Th) (bar : BarId) (count : Nat) (cpl : Option Reg) (s : State) : Out :=
  s.issue h [] [] (fun s =>
    if (s.cplOf h 0).mask = 0 then s
    else if !s.barAllowed h.core bar then s.barDone h cpl .refused
    else
      let x := s.barrier h.core bar
      let t := if 0 < x.arrived then
          (s.endWaits h.core bar (fun p => p == x.phase) .incomplete).stopGated h.core bar x.phase
        else s
      let u := if count < 65536 then t else { t with free := t.free + 1 }
      (u.onBarrier h.core bar (fun x => { x with count := s.barCount count, arrived := 0 })).barDone h cpl .done)

/-- `bar.arrive` counts its gang once and acts as `fence.rel` (R204, R207): it issues when the gang's earlier accesses are
performed. -/
def execBarArrive (h : Th) (bar : BarId) (cpl : Option Reg) (s : State) : Out :=
  if s.readyEngine h then
    let s := s.advance h
    .next (
      if (s.cplOf h 0).mask = 0 then s
      else if !s.barAllowed h.core bar then s.barDone h cpl .refused
      else if (s.barrier h.core bar).count = 0 then s.barDone h cpl .shape
      else (s.barArrive h.core bar).barDone h cpl .done)
  else .next s

/-- `bar.wait` (R207); limit 0 means none. A tenant's refusal waits for the latency of 18 R404. -/
def execBarWait (h : Th) (bar : BarId) (phase limitUs : Nat) (cpl : Option Reg) (s : State) : Out :=
  s.issue h [] [] (fun s =>
    let m := (s.cplOf h 0).mask
    let hold (d : Option Nat) : State := s.onGang h.core h.gang (fun k => { k with wait := some ⟨bar, phase, d, cpl, m⟩ })
    if m = 0 then s
    else if !s.barAllowed h.core bar then
      (if s.part h.core = 0 then s.barDone h cpl .refused
       else ({ hold none with parked := s.parked ++ [.wait h.core h.gang cpl s.now] } : State).refuseBar h bar)
    else if (s.barrier h.core bar).count = 0 then s.barDone h cpl .shape
    else if (s.barrier h.core bar).passed phase then
      (s.addMemop h.core h.gang (.fence .acq (barScope bar))).barDone h cpl .done
    else hold (if limitUs = 0 then none else some (s.now + 1000 * limitUs)))

/-- The limit of a wait expires first: INCOMPLETE (R207). -/
def execBarWaitLimitExpiry (c : CoreId) (g : GangId) (s : State) : Out :=
  match (s.gang c g).wait with
  | some w => match w.deadline with
    | some d => if d ≤ s.now then .next (s.endWait c g .incomplete) else .next s
    | none => .next s
  | none => .next s

/-! ## Fences (R203, R205): a marker among the gang's accesses, gone once what it waits for is done -/

def fence (k : FenceKind) (h : Th) (scope : BitVec 3) (s : State) : Out :=
  s.issue h [] [] (fun s => if (s.cplOf h 0).mask = 0 then s else s.addMemop h.core h.gang (.fence k scope))

def execFenceAcq (h : Th) (scope : BitVec 3) (s : State) : Out := fence .acq h scope s
def execFenceRel (h : Th) (scope : BitVec 3) (s : State) : Out := fence .rel h scope s
def execFenceSc (h : Th) (scope : BitVec 3) (s : State) : Out := fence .sc h scope s

/-! ## Credits (11 R247) -/

/-- `cred.req`: at a window of this module at once; at another module's window as an operation that waits for its
answer (ABORT_NOTICE carries it; log 27). -/
def execCredReq (h : Th) (addr : Addr) (bytes : Nat) (cpl : Reg) (s : State) : Out :=
  s.engine h cpl true (fun c s =>
    let units := ceilDiv bytes 64
    let o : Owner := .thread c
    match s.resolve (s.part h.core) addr .write with
    | .error e => s.finish o e
    | .ok (.here a) =>
      let (t, code) := s.credReqAt h.core a units
      (if code = .refused then t.tellOwner (s.windowOwner a) (s.part h.core) h.core.val (.command c) else t).finish o code
    | .ok (.remote d fb a) =>
      match s.askCredit h.core d fb a units ((s.core h.core).credits.find? (fun e => e.covers d fb a 1)) with
      | .error e => s.finish o e
      | .ok s =>
        { s with
          sentOps := s.sentOps ++ [⟨s.nextOp, o, s.now, d, fb, some (h.core, a, 64 * units), none⟩]
          nextOp := s.nextOp + 1 })

/-! ## Spawn (R195, R196) -/

/-- The lowest-numbered free gang of a core. -/
def State.freeGang (s : State) (c : CoreId) : Option GangId :=
  ((List.range 16).map (Fin.ofNat 16)).find? (fun g => (s.gang c g).status == .free)

/-- The registers of a new gang: v0 the argument, v1 the spawner's identity, v2 the thread index (R196). -/
def startGang (entry : Addr) (arg : Word) (ident count : Nat) (old : Gang) : Gang :=
  (List.range count).foldl (fun k t =>
    ((k.setReg t 0 arg).setReg t 1 (w32 ident)).setReg t 2 (w32 t))
    { status := .live, pc := entry, mask := maskOf (List.range count), gfault := old.gfault }

/-- Starts a spawned gang and completes the spawn. -/
def State.startSpawn (s : State) (c : CoreId) (g : GangId) (r : SpawnReq) : State :=
  (s.onGang c g (startGang r.entry r.arg r.ident r.count)).finish (.thread r.owner) .done

/-- Why a spawn is not accepted, by the table of R195 in its order; a tripped quarter answers THERMAL (17 R384). -/
def State.spawnCheck (s : State) (c : CoreId) (target : Nat) (entry : Addr) (count : Nat) : Code :=
  if entry.toNat % 8 ≠ 0 then .align
  else if count = 0 ∨ 32 < count then .shape
  else if s.coreCount ≤ target then .limit
  else
    let t : CoreId := Fin.ofNat 192 target
    if s.part t ≠ s.part c then .refused
    else if (s.core t).phys.isNone then .unreachable
    else if (s.quarter (s.quarterOf t)).tripped then .thermal
    else if (s.freeGang t).isNone ∧ 16 ≤ (s.core t).spawns.length then .limit
    else if 16 ≤ (s.core t).spawns.length then .limit
    else .done

def execSpawn (h : Th) (target : Nat) (entry : Addr) (arg : Word) (count : Nat) (cpl : Reg) (s : State) : Out :=
  s.engine h cpl true (fun c s =>
    match s.spawnCheck h.core target entry count with
    | .done =>
      let t : CoreId := Fin.ofNat 192 target
      let r : SpawnReq := ⟨c, entry, arg, count, h.core.val * 16 + h.gang.val⟩
      if s.coreOn t && (s.core t).spawns.isEmpty then
        match s.freeGang t with
        | some g => s.startSpawn t g r
        | none => s.onCore t (fun k => { k with spawns := k.spawns ++ [r] })
      else
        let u := s.onCore t (fun k => { k with spawns := k.spawns ++ [r] })
        (match s.coreDom t with
        | some d => u.wakeGroup d
        | none => u)
    | code =>
      (if code = .refused then s.tellOwner (s.part (Fin.ofNat 192 target)) (s.part h.core) h.core.val (.command c) else s).finish
        (.thread c) code)

/-- The head of the spawn queue takes the lowest-numbered free gang (R196). -/
def execSpawnQueueServe (c : CoreId) (s : State) : Out :=
  match (s.core c).spawns with
  | r :: rest =>
    if s.coreOn c then
      match s.freeGang c with
      | some g => .next ((s.onCore c (fun k => { k with spawns := rest })).startSpawn c g r)
      | none => .next s
    else .next s
  | [] => .next s

/-! ## Special -/

/-- The device number as the issuing partition sees it: virtual for a tenant (R199, R210); free if its device table
has no entry for this module (log 29). -/
def State.deviceOf (s : State) (p : PartId) : State × Word :=
  if p = 0 then (s, w32 s.dev)
  else match (s.partOf p).devices.find? (fun d => d.2 == s.dev) with
    | some d => (s, w32 d.1)
    | none => ({ s with free := s.free + 1 }, Config.freeWord s.free)

def execSpecGet (h : Th) (vd : Reg) (sel : SpecSel) (s : State) : Out :=
  s.issue h [] [] (fun s =>
    match sel with
    | .thread => s.writeV h vd (fun _ t => w32 t)
    | .gang => s.writeV h vd (fun _ _ => w32 h.gang.val)
    | .core => s.writeV h vd (fun _ _ => w32 h.core.val)
    | .device =>
      let (t, v) := s.deviceOf (s.part h.core)
      t.writeV h vd (fun _ _ => v)
    | .partition => s.writeV h vd (fun _ _ => w32 (s.part h.core).val))

/-- `snap.trig`: a SOFT module trigger from partition 0 (20 R435); from a tenant, copies of its own cores only (R436). -/
def execSnapTrig (h : Th) (s : State) : Out :=
  s.issue h [] [] (fun s =>
    if (s.cplOf h 0).mask = 0 then s
    else if s.part h.core = 0 then s.trigger 0
    else
      (((List.range s.coreCount).map (Fin.ofNat 192)).filter (fun c => s.part c == s.part h.core)).foldl
        (fun t c => t.capture (.core c) 1 false true) s)

end Sys2Proof.Machine
end

