-- ==== Sys2Proof/Machine/Streams.lean ====
section
/-! DEFINITION. Streams (13 R277-R286): opening and closing, requests in order of slack, what lands, what
consumers read and producers emit. Returned data, chunk signals and completion are in Machine/StreamEvents.lean,
since they move the stream's consumer. -/

namespace Sys2Proof.Machine

/-! ## Global addresses given to an engine -/

/-- The device number of a global address is refused at issue (01 R27, 09 R199). -/
def State.deviceBad (s : State) (p : PartId) (g : Addr) : Bool :=
  let d := bitsOf g.toNat 62 49
  if p = 0 then decide (12287 < d) else (s.partOf p).devices.all (fun e => e.1 != d)

/-- Reads a descriptor, header or tile descriptor, each line of it translated on its own (00 R466, 09 R201, 21 R453 rows
1-3). -/
def State.readDesc (s : State) (p : PartId) (g : Addr) (n align : Nat) (onlyFast : Bool) : State × Except Code (List Byte) :=
  if s.deviceBad p g then (s, .error .unmapped)
  else if g.toNat % align ≠ 0 then (s, .error .align)
  else match s.resolveEngine p g .read with
    | .error e => (s, .error e)
    | .ok _ => s.readStruct p (g.toNat % 2 ^ 49) n onlyFast

/-- The local part of a global address that an engine of this module works on; another module is UNMAPPED (01 R27-R28). -/
def State.localOf (s : State) (p : PartId) (g : Addr) : Except Code Nat :=
  let d := bitsOf g.toNat 62 49
  let phys := if p = 0 then some d else ((s.partOf p).devices.find? (fun e => e.1 == d)).map (·.2)
  if s.deviceBad p g then .error .unmapped
  else if phys = some s.dev ∧ g.getLsbD 63 = s.fabricB then .ok (g.toNat % 2 ^ 49) else .error .unmapped

/-- Whether a global range may be accessed, page by page (09 R200-R201, 01 R27-R28). -/
def State.checkRangeG (s : State) (p : PartId) (g : Addr) (n : Nat) (r : Right) : Code :=
  let a := g.toNat
  let starts := (List.range ((a + n + 0x1F_FFFF) / 0x20_0000 - a / 0x20_0000)).map (fun i =>
    max a ((a / 0x20_0000 + i) * 0x20_0000))
  let probe (x : Nat) : Option Code :=
    match s.resolve p (BitVec.ofNat 64 x) r with
    | .error c => some c
    | .ok (.here y) => match s.place y with
      | .regs _ => some .unmapped
      | _ => none
    | .ok (.remote _ _ _) => none
  match starts.findSome? (fun x => (probe x).or (probe (min (a + n - 1) (x / 0x20_0000 * 0x20_0000 + 0x1F_FFFF)))) with
  | some c => c
  | none => .done

/-! ## Opening (R278, R279) -/

def barField (v : Nat) : Option BarId :=
  if v < 64 then some (.core (Fin.ofNat 64 v)) else if v < 128 then some (.device (Fin.ofNat 64 v)) else none

def parseStrm (bs : List Byte) : StrmDesc :=
  let ctl := fieldAt bs 32 1
  { saddr := BitVec.ofNat 64 (fieldAt bs 0 8), daddr := BitVec.ofNat 64 (fieldAt bs 8 8)
    rowb := fieldAt bs 16 4, nrows := fieldAt bs 20 4, sstr := fieldAt bs 24 4, dstr := fieldAt bs 28 4
    kind := if ctl % 4 = 1 then .inp else if ctl % 4 = 2 then .out else .mem
    adaptive := bitOf ctl 2
    gbar := barField (fieldAt bs 33 1), sbar := barField (fieldAt bs 34 1)
    gphase := fieldAt bs 36 4, chunk := fieldAt bs 40 4
    iboff := fieldAt bs 44 3 % 2 ^ 18, iblen := fieldAt bs 47 3 % 2 ^ 19, slack := fieldAt bs 50 2 }

/-- The source and destination addresses of row `r`. -/
def StrmDesc.srcRow (d : StrmDesc) (r : Nat) : Addr := d.saddr + BitVec.ofNat 64 (r * d.sstr)
def StrmDesc.dstRow (d : StrmDesc) (r : Nat) : Addr := d.daddr + BitVec.ofNat 64 (r * d.dstr)

def StrmDesc.reads (d : StrmDesc) : Bool := d.kind != .out
def StrmDesc.writes (d : StrmDesc) : Bool := d.kind != .inp

/-- The first row whose source or destination may not be accessed. -/
def State.strmRows (s : State) (p : PartId) (d : StrmDesc) : Code :=
  let row (r : Nat) : Option Code :=
    let a := if d.reads then s.checkRangeG p (d.srcRow r) d.rowb .read else .done
    let b := if d.writes then s.checkRangeG p (d.dstRow r) d.rowb .write else .done
    if a ≠ .done then some a else if b ≠ .done then some b else none
  ((List.range d.nrows).findSome? row).getD .done

/-- The rings of two IN streams overlap. -/
def ringsMeet (a b : StrmDesc) : Bool :=
  decide (a.iboff < b.iboff + b.iblen) && decide (b.iboff < a.iboff + a.iblen)

/-- The acceptance table of R279, VARIES before it (21 R453). -/
def State.strmCheck (s : State) (c : CoreId) (i : StreamId) (bs : List Byte) : Code :=
  let d := parseStrm bs
  let k := s.core c
  let inp := d.kind == .inp
  let badBar (v : Nat) : Bool := decide (128 ≤ v) && v != 0xFF
  if s.det c && d.adaptive then .varies
  else if k.streams[i.val].state ≠ .idle then .limit
  else if (inp && (d.iboff % 32 != 0 || d.iblen % 32 != 0)) || d.chunk % 64 != 0 then .align
  else if fieldAt bs 32 1 % 4 = 3 ∨ d.rowb = 0 ∨ 2 ^ 24 < d.rowb ∨ d.nrows = 0 ∨ 2 ^ 24 < d.nrows
      ∨ (inp && (decide (d.iblen < 32) || decide (2 ^ 18 < d.iblen) || decide (2 ^ 18 < d.iboff + d.iblen)))
      ∨ badBar (fieldAt bs 33 1) ∨ badBar (fieldAt bs 34 1) then .shape
  else if inp && (List.range 8).any (fun j => j != i.val &&
      (let t := k.streams.toList.getD j {}
       t.state != .idle && t.desc.kind == .inp && ringsMeet d t.desc)) then .overlap
  else if (d.gbar.toList ++ d.sbar.toList).any (fun b => !s.barAllowed c b) then .refused
  else s.strmRows (s.part c) d

def State.onStrm (s : State) (c : CoreId) (i : StreamId) (f : Stream → Stream) : State :=
  s.onCore c (fun k => { k with streams := vmod k.streams i f })

def State.strm (s : State) (c : CoreId) (i : StreamId) : Stream := (s.core c).streams[i.val]

/-- An accepted open: the last open's data are lost (R281); flags and the last code stay (R294-R295). -/
def State.openStrm (s : State) (c : CoreId) (i : StreamId) (o : Owner) (d : StrmDesc) : State :=
  s.onStrm c i (fun t => { state := .opened, desc := d, owner := o, part := s.part c, code := t.code, flags := t.flags, slackNow := t.slackNow })

def execStrmOpen (h : Th) (strm : StreamId) (desc : Addr) (cpl : Reg) (s : State) : Out :=
  s.engine h cpl true (fun c s =>
    match s.readDesc (s.part h.core) desc 64 64 true with
    | (s, .error e) => s.finish (.thread c) e
    | (s, .ok bs) =>
      match s.strmCheck h.core strm bs with
      | .done => s.openStrm h.core strm (.thread c) (parseStrm bs)
      | .varies => s.varies h.core (.thread c)
      | e => s.finish (.thread c) e)

/-- `strm.close` (R282): an OPEN stream becomes CLOSING; the close completes when the stream is IDLE. -/
def execStrmClose (h : Th) (strm : StreamId) (cpl : Reg) (s : State) : Out :=
  s.engine h cpl true (fun c s =>
    match (s.strm h.core strm).state with
    | .idle => s.finish (.thread c) .done
    | .opened => s.onStrm h.core strm (fun t => { t with state := .closing, closers := t.closers ++ [c] })
    | .closing => s.onStrm h.core strm (fun t => { t with closers := t.closers ++ [c] }))

/-! ## Arbitration (R284, R285) -/

/-- Q: bytes read or emitted in the last 256 cycles. -/
def Stream.rateAt (t : Stream) (cycle : Nat) : Nat := ((t.recent.filter (fun r => decide (cycle < r.1 + 256))).map (·.2)).sum

/-- The slack of R284, capped at 65,535; 0 for a stream that has not won in 1,024 cycles. -/
def Stream.slackAt (t : Stream) (cycle : Nat) : Nat :=
  if 1024 ≤ t.lost then 0
  else match t.desc.kind with
    | .mem => t.desc.slack
    | _ => min 65535 (t.level * 256 / max (t.rateAt cycle) 1)

/-- Records bytes a consumer read or a producer emitted. -/
def Stream.note (t : Stream) (cycle n : Nat) : Stream :=
  { t with recent := (t.recent.filter (fun r => decide (cycle < r.1 + 256))) ++ [(cycle, n)] }

/-- The address the next request goes to. -/
def Stream.nextAddr (t : Stream) : Addr :=
  let r := t.asked / t.desc.rowb
  (if t.desc.kind = .out then t.desc.dstRow r else t.desc.srcRow r) + BitVec.ofNat 64 (t.asked % t.desc.rowb)

/-- Bytes there is room or data for. -/
def Stream.room (t : Stream) : Nat :=
  match t.desc.kind with
  | .inp => t.desc.iblen - (t.asked - t.readPos)
  | .out => t.fifo.length - (t.asked - t.landed)
  | .mem => 512

/-- The unit of the memory at an address (R285). Which memory of another module a tenant's page lies in only that module
knows: 512 (log 184). -/
def State.unitAt (s : State) (p : PartId) (g : Addr) (r : Right) : Nat :=
  match s.resolve p g r with
  | .ok (.here a) => if s.isDram a then 512 else if s.isCrown a then 256 else 64
  | .ok (.remote _ _ loc) => if p ≠ 0 ∨ dramBase ≤ loc then 512 else if 0x1_0000_0000 ≤ loc then 256 else 64
  | _ => 512

/-- Bytes of the next request: at most 512, within its row, chunk, memory unit and room. -/
def State.reqLen (s : State) (t : Stream) : Nat :=
  let u := s.unitAt t.part t.nextAddr (if t.desc.kind = .out then .write else .read)
  let chunk := if t.desc.chunk = 0 then t.count - t.asked else t.desc.chunk - t.asked % t.desc.chunk
  min (min (min 512 t.room) (min (t.desc.rowb - t.asked % t.desc.rowb) (t.count - t.asked))) (min chunk (u - t.nextAddr.toNat % u))

/-- Ready to request (R284): bytes left, not gated, room or data. -/
def State.strmReady (s : State) (c : CoreId) (t : Stream) : Bool :=
  t.state == .opened && t.stop.isNone && decide (t.asked < t.count) && !s.gated c t && decide (0 < t.room)

/-- The ready stream with the smallest slack, ties to the lower number. -/
def State.strmWinner (s : State) (c : CoreId) : Option StreamId :=
  let k := s.core c
  let ready := ((List.range 8).map (Fin.ofNat 8)).filter (fun i => s.strmReady c (s.strm c i))
  ready.foldl (fun best i => match best with
    | none => some i
    | some b => if (s.strm c i).slackAt k.strmCycle < (s.strm c b).slackAt k.strmCycle then some i else best) none

/-! ## Consumers and producers (R280, R281) -/

/-- What a consumer meets when it needs `n` bytes. -/
inductive Read where
  | bytes (bs : List Byte)
  | wait
  | ended
  deriving DecidableEq, Repr

/-- `n` bytes from a stream's read position, or why not: a stream that is IDLE never delivers more (R281). -/
def State.strmPeek (s : State) (c : CoreId) (i : StreamId) (skip n : Nat) : Read :=
  let t := s.strm c i
  let k := t.stage.length
  let have_ := if t.desc.kind = .inp then k + (t.landed - t.readPos) else 0
  if skip + n ≤ have_ then
    .bytes ((List.range n).map (fun j =>
      if skip + j < k then nth 0 t.stage (skip + j)
      else Tab.get 0 (s.core c).ibuf ((t.desc.iboff + (t.readPos + (skip + j - k)) % max t.desc.iblen 1) % 2 ^ 18)))
  else if t.state = .idle then .ended else .wait

/-- The words of the input buffer that `n` unread bytes of a stream came through (11 R236). -/
def State.strmWords (s : State) (c : CoreId) (i : StreamId) (skip n : Nat) : BufWord → Bool :=
  let t := s.strm c i
  inputWords t.desc.iboff t.desc.iblen (t.readPos - t.stage.length + skip) n

/-- Bytes a consumer could read now. -/
def State.strmAvail (s : State) (c : CoreId) (i : StreamId) : Nat :=
  let t := s.strm c i
  if t.desc.kind = .inp then t.stage.length + (t.landed - t.readPos) else 0

/-- Consumes `n` bytes: those read off the ring before, then bytes of the ring. -/
def State.strmTake (s : State) (c : CoreId) (i : StreamId) (n : Nat) : State :=
  if n = 0 then s
  else s.onStrm c i (fun t =>
    let m := n - t.stage.length
    let u := { t with stage := t.stage.drop n, readPos := t.readPos + m }
    if m = 0 then u else u.note (s.core c).strmCycle m)

/-- A consumer whose turn it is lacks bytes while the ring is full: it reads the ring off, so that an item longer than the
ring still arrives (log 154). -/
def State.strmStage (s : State) (c : CoreId) (i : StreamId) : State :=
  let t := s.strm c i
  let n := t.landed - t.readPos
  if t.desc.kind = .inp ∧ t.state ≠ .idle ∧ 0 < n ∧ t.desc.iblen ≤ n then
    match s.strmPeek c i t.stage.length n with
    | .bytes bs => s.onStrm c i (fun t => { t with stage := t.stage ++ bs, readPos := t.landed }.note (s.core c).strmCycle n)
    | _ => s
  else s

/-! ## Turns (R280): consumers that name one stream read it in issue order -/

/-- The streams a run reads. -/
def RunCmd.inputs (r : RunCmd) : List StreamId :=
  (if r.op.asrc then [r.op.astrm] else []) ++ (if fmtPaired r.op.fmtA then [r.op.sstrm] else [])

/-- The streams a quantiser command reads. -/
def QntCmd.inputs (k : QntCmd) : List StreamId :=
  match k.op with
  | .pass o _ _ _ => o.inS :: (if fmtPaired o.fmtIn then [o.inPair] else [])
  | _ => []

/-- The command that a pass runs still reads its streams. -/
def PassRun.reading (r : PassRun) : Bool :=
  r.ended.isNone && (match r.cmd.op with | .pass o _ _ _ => decide (r.done < o.count) | _ => false)

/-- The descriptors of the operands an irregular command reads: address, size and place of FMT. -/
def IrrOp.sources : IrrOp → List (Addr × Nat × Nat)
  | .spMm o => [(o.a, 64, 36), (o.b, 32, 20)] ++ (if o.beta then [(o.y, 32, 20)] else [])
  | .spSddmm o => [(o.s, 64, 36), (o.a, 32, 20), (o.bt, 32, 20)]
  | .spGemm o => [(o.a, 64, 36), (o.b, 64, 36)]
  | .gatRows o | .sctRows o => [(o.src, 32, 20)]
  | .sctAdd o => [(o.src, 32, 20), (o.dst, 32, 20)]
  | _ => []

/-- The paired stream of an irregular command; a matcher command has none. -/
def IrrOp.paired : IrrOp → Option StreamId
  | .spMm o => some o.sstrm
  | .spSddmm o => some o.sstrm
  | .spGemm o => some o.sstrm
  | .segSum o | .segMax o | .segMin o => some o.sstrm
  | .gatRows o | .sctRows o => some o.sstrm
  | .sctAdd o => some o.sstrm
  | .mtchLoad _ | .mtchProbe _ | .mtchIsect _ | .mtchClear => none

/-- The stream an irregular command reads: the paired one, where an operand it reads is PX8E (05 R107, 07 R162). -/
def State.irrInputs (s : State) (p : PartId) (op : IrrOp) : List StreamId :=
  let px (x : Addr × Nat × Nat) : Bool := match (s.readDesc p x.1 x.2.1 x.2.1 false).2 with
    | .ok bs => fieldAt bs x.2.2 1 % 16 == 0xE && !(x.2.1 == 64 && bitOf (fieldAt bs 37 1) 1)
    | .error _ => false
  let seg : Bool := match op with
    | .segSum o | .segMax o | .segMin o => o.fmt == 0xE
    | _ => false
  if seg || op.sources.any px then op.paired.toList else []

/-- Whether every consumer issued before `seq` that names one of these streams has read what it needs. -/
def State.strmTurn (s : State) (c : CoreId) (seq : Nat) (is : List StreamId) : Bool :=
  let k := s.core c
  k.arr.runs.all (fun r => decide (seq ≤ r.seq) || decide (r.op.rows.toNat ≤ r.entered) || r.inputs.all (fun i => !is.contains i))
    && k.qnt.queue.all (fun q => decide (seq ≤ q.seq) || q.inputs.all (fun i => !is.contains i))
    && (match k.qnt.pass with
      | some p => decide (seq ≤ p.cmd.seq) || !p.reading || p.cmd.inputs.all (fun i => !is.contains i)
      | none => true)
    && k.mtch.queue.all (fun x => decide (seq ≤ x.2.2.2) || (s.irrInputs x.2.1 x.2.2.1).all (fun i => !is.contains i))

/-- What a producer meets when it emits bytes. -/
inductive Emit where
  | ok | wait | over
  deriving DecidableEq, Repr

/-- Whether an OUT stream takes `n` more bytes: it must be OPEN with FIFO room; beyond COUNT they are excess (R280, R281). -/
def State.strmCanEmit (s : State) (c : CoreId) (i : StreamId) (n : Nat) : Emit :=
  let t := s.strm c i
  if t.state ≠ .opened ∨ t.desc.kind ≠ .out then .wait
  else if 2048 < t.fifo.length + min n (t.count - t.emitted) then .wait
  else if t.count < t.emitted + n then .over else .ok

def State.strmEmit (s : State) (c : CoreId) (i : StreamId) (bs : List Byte) : State :=
  if bs.isEmpty then s
  else s.onStrm c i (fun t =>
    { t with fifo := t.fifo ++ bs.take (t.count - t.emitted), emitted := t.emitted + min bs.length (t.count - t.emitted) }.note
      (s.core c).strmCycle bs.length)

end Sys2Proof.Machine
end

