-- ==== Sys2Proof/Machine/Array.lean ====
section
/-! DEFINITION. The matrix array's arithmetic and commands (02 R48-R57, 03 R64-R82, 04 R91-R105): geometry, tiles and
their loads, one activation row through each orientation, the checks of each command, and what a started command does.
The events of the array are in Machine/ArrayEvents.lean, after the sequencer. -/

namespace Sys2Proof.Machine

/-! ## Geometry (03 R66, 04 R97) -/

/-- What a pair of formats, an orientation and an arrangement fix. -/
structure Geo where
  /-- Width class: 4, 8 or 16. -/
  cls : Nat
  red : Nat
  outs : Nat
  interval : Nat
  latency : Nat
  /-- Elements of an activation row. -/
  rowElems : Nat
  slots : Nat
  deriving DecidableEq, Repr

def pairClass (fa fw : BitVec 4) : Nat :=
  if fmtBits fa = 16 ∨ fmtBits fw = 16 then 16 else if fmtBits fa = 4 ∧ fmtBits fw = 4 then 4 else 8

def geometry (spo : BitVec 2) (wide : Bool) (fa fw : BitVec 4) : Geo :=
  let cls := pairClass fa fw
  let two := if cls = 4 then 2 else 1
  let interval := if cls = 16 then 2 else 1
  let latency := if wide then (if cls = 16 then 88 else 56) else (if cls = 16 then 280 else 152)
  let base := (if wide then 32 else 128) * two
  match spo.toNat with
  | 0 => ⟨cls, base, if wide then 512 else 128, interval, latency, base, 0⟩
  | 1 => ⟨cls, 2 * base, if wide then 512 else 128, interval, latency, 2 * base, if wide then 4 else 2 * two⟩
  | 2 => ⟨cls, base, 256, interval, latency, base, 2 * two⟩
  | _ => ⟨cls, base, 256, interval, latency, 4 * base, 4⟩

/-- Bytes of one activation row: by the width class of the pair (R66, R72, R97). Elements of a narrower FMT_A lie packed at its
start, and the rest of the row is not used (log 176). -/
def rowBytes (g : Geo) : Nat := g.rowElems * g.cls / 8

/-- The input formats of R38. -/
def fmtArray (f : BitVec 4) : Bool := !fmtReserved f && f != 0x0 && f != 0x6

/-- R38, R39, R94: a pair the array accepts. -/
def pairOk (spo : BitVec 2) (fa fw : BitVec 4) : Bool :=
  fmtArray fa && fmtArray fw && (fmtIsInt fa == fmtIsInt fw) && !(spo != 0 && fw == 0xE)

/-- The arrangement in force for a command issued now: a waiting `arr.mode` comes first (R65). -/
def Arr.effWide (a : Arr) : Bool :=
  match a.pending with
  | some (_, w, _) => w
  | none => a.wide

/-! ## Tiles and half-blocks (03 R68, 04 R93) -/

/-- Bytes of a dense tile without a PX8E side list (R68). -/
def denseBytes (g : Geo) (fw : BitVec 4) : Nat :=
  g.red * g.outs * fmtBits fw / 8 + (if fmtIsMx fw then ceilDiv g.red 32 * g.outs else 0)

/-- The value bytes of a half-block (R93): 32 stored values in each of 128 columns. -/
def halfValues (fw : BitVec 4) : Nat := 4096 * fmtBits fw / 8
def halfScales (fw : BitVec 4) : Nat := if fmtIsMx fw then 128 else 0
def halfBytes (fw : BitVec 4) : Nat := halfValues fw + 1024 + halfScales fw

/-- A block in 64-byte units (R93). -/
def blockUnits (fw : BitVec 4) : Nat := 2 * halfBytes fw / 64

def zeroSlot : Nat := 0xFFFF_FFFF

/-- The half-blocks of a slot: both, or one in WIDE with 8-bit and 16-bit pairs (R97). -/
def slotHalves (g : Geo) (spo : BitVec 2) (wide : Bool) : Nat := if spo = 1 ∧ wide ∧ g.cls ≠ 4 then 1 else 2

/-- The resolved values of a dense PX8E tile: escapes take the side list in ascending element offset, +0 beyond it (R163). -/
def px8eTileGo : List Byte → List Nat → List Val
  | [], _ => []
  | b :: bs, es =>
    if b = 0x80 then
      match es with
      | e :: er => fp16.decode e :: px8eTileGo bs er
      | [] => .zero :: px8eTileGo bs []
    else .ofInt b.toInt :: px8eTileGo bs es

def px8eTile (bytes : List Byte) : List Val :=
  let e := fieldAt bytes 16384 2
  px8eTileGo (bytes.take 16384) (codesOf 0x2 (bytes.drop 16448) e)

/-- The escapes of a dense PX8E tile outnumber its side list (R163). -/
def px8eUnder (bytes : List Byte) : Bool :=
  decide (fieldAt bytes 16384 2 < ((bytes.take 16384).filter (· == 0x80)).length)

/-- One element code of a packed area: `i` counts elements. -/
def codeAt (bytes : Array Byte) (bits i : Nat) : Nat :=
  if bits = 4 then (bytes.getD (i / 2) 0).toNat / 16 ^ (i % 2) % 16
  else if bits = 16 then (bytes.getD (2 * i) 0).toNat + 256 * (bytes.getD (2 * i + 1) 0).toNat
  else (bytes.getD i 0).toNat

/-- The stationary value at reduction position k, column n of a dense tile with N columns (R68). -/
def denseVal (fw : BitVec 4) (red cols : Nat) (bytes : Array Byte) (k n : Nat) : Val :=
  let code := if fmtBits fw = 4 then (bytes.getD (k / 2 * cols + n) 0).toNat / 16 ^ (k % 2) % 16
    else codeAt bytes (fmtBits fw) (k * cols + n)
  let v := decodeElem fw code
  if fmtIsMx fw then applyScale (bytes.getD (red * cols * fmtBits fw / 8 + k / 32 * cols + n) 0).toNat v else v

/-- Stored value `w` (0 or 1) of local group `h` in column `n` of half-block `b` of a loaded sparse tile; the weight half
holds each half-block's values and then its scales. -/
def sparseVal (fw : BitVec 4) (bytes : Array Byte) (b h w n : Nat) : Val :=
  let base := b * (halfValues fw + halfScales fw)
  let code :=
    if fmtBits fw = 4 then (bytes.getD (base + h * 128 + n) 0).toNat / 16 ^ w % 16
    else if fmtBits fw = 16 then
      (bytes.getD (base + 2 * ((2 * h + w) * 128 + n)) 0).toNat + 256 * (bytes.getD (base + 2 * ((2 * h + w) * 128 + n) + 1) 0).toNat
    else (bytes.getD (base + (2 * h + w) * 128 + n) 0).toNat
  let v := decodeElem fw code
  if fmtIsMx fw then applyScale (bytes.getD (base + halfValues fw + n) 0).toNat v else v

/-- The nibble of local group `h` in column `n` of half-block `b`: LO and HI (R91). -/
def nibbleAt (md : Array Byte) (b h n : Nat) : Nat × Nat :=
  let x := (md.getD (b * 1024 + (h * 128 + n) / 2) 0).toNat / 16 ^ (n % 2) % 16
  (x % 4, x / 4)

/-! ## Products and sums (02 R48, R49) -/

/-- The product of an activation and a weight; with a block scale, out of the FP32 range it is rounded first (R48). -/
def product (mx : Bool) (a w : Val) : Val :=
  let p := a.mul w
  if mx then
    match p with
    | .fin n m e =>
      if m = 0 then p
      else if e + Nat.log2 m < -149 then f32 (toF32 p)
      else if fp32.maxCode < fp32.roundMag 2 0 m e ∨ (Val.lt (fp32.decode fp32.maxCode) (.fin false m e)) then f32 (toF32 (.fin n m e))
      else p
    | _ => p
  else p

/-- A running sum with the flags its additions set. -/
structure Acc where
  v : Word
  sat : Bool := false
  nonfin : Bool := false
  deriving DecidableEq, Repr

def Val.sumAll : List Val → Val
  | [] => .zero
  | [v] => v
  | v :: vs => v.add (Val.sumAll vs)

/-- One addition into a partial sum: the exact sum of the products formed in the cycle (R48, R49). -/
def accAdd (isInt : Bool) (a : Acc) (ps : List Val) : Acc :=
  match ps with
  | [] => a
  | _ =>
    if isInt then
      let c := encodeInt 32 (-2147483648) 2147483647 2 0 ((Val.ofInt a.v.toInt).add (Val.sumAll ps))
      { a with v := w32 c.code, sat := a.sat || c.sat }
    else
      let w := toF32 ((f32 a.v).add (Val.sumAll ps))
      { a with v := w, nonfin := a.nonfin || !f32IsFin w }

def present (rlen : Option Nat) (k : Nat) : Bool :=
  match rlen with
  | some l => decide (k < l)
  | none => true

/-- One output of a dense row: down the PE rows in ascending reduction position (R50). -/
def denseOut (isInt mx : Bool) (g : Geo) (rlen : Option Nat) (act : Array Val) (w : Nat → Nat → Val) (n : Nat) (start : Word) : Acc :=
  let prod (k : Nat) : List Val := if present rlen k then [product mx (act.getD k .zero) (w k n)] else []
  if g.cls = 4 then (List.range (g.red / 2)).foldl (fun a j => accAdd isInt a (prod (2 * j) ++ prod (2 * j + 1))) { v := start }
  else (List.range g.red).foldl (fun a k => accAdd isInt a (prod k)) { v := start }

/-- Where tile group `t`, column `n` of an SPK tile lies: half-block, local group, column (R97). -/
def spkPlace (g : Geo) (wide : Bool) (t n : Nat) : Nat × Nat × Nat :=
  if wide then (if g.cls = 4 then (2 * (n / 128) + t / 16, t % 16, n % 128) else (n / 128, t, n % 128))
  else (t / 16, t % 16, n)

/-- One output of an SPK row (R99): groups in ascending order, the LO product before the HI product. -/
def spkOut (isInt mx : Bool) (g : Geo) (wide : Bool) (rlen : Option Nat) (act : Array Val) (fw : BitVec 4) (bytes md : Array Byte)
    (n : Nat) (start : Word) : Acc :=
  (List.range (g.red / 4)).foldl (fun a t =>
    let (b, h, c) := spkPlace g wide t n
    let (lo, hi) := nibbleAt md b h c
    let prod (pos w : Nat) : List Val :=
      if present rlen (4 * t + pos) then [product mx (act.getD (4 * t + pos) .zero) (sparseVal fw bytes b h w c)] else []
    if g.cls = 4 then accAdd isInt a (prod lo 0 ++ prod hi 1)
    else accAdd isInt (accAdd isInt a (prod lo 0)) (prod hi 1)) { v := start }

/-- One output k of an SPN row (R100): down the PE rows in ascending n, each lane taking the products named for it. -/
def spnOut (isInt mx : Bool) (g : Geo) (rlen : Option Nat) (act : Array Val) (fw : BitVec 4) (bytes md : Array Byte) (k : Nat)
    (start : Word) : Acc :=
  let t := k / 4
  let prods (n : Nat) : List Val :=
    if present rlen n then
      let b := 4 * (n / 128) + t / 16
      let (lo, hi) := nibbleAt md b (t % 16) (n % 128)
      let p (w : Nat) : Val := product mx (act.getD n .zero) (sparseVal fw bytes b (t % 16) w (n % 128))
      (if lo = k % 4 then [p 0] else []) ++ (if hi = k % 4 then [p 1] else [])
    else []
  if g.cls = 4 then (List.range (g.red / 2)).foldl (fun a r => accAdd isInt a (prods (2 * r) ++ prods (2 * r + 1))) { v := start }
  else (List.range g.red).foldl (fun a n => accAdd isInt a (prods n)) { v := start }

/-- One output of an MSK row (R101): column n' < 64 takes the activation at LO of group h, column 64 + n' the one at HI. -/
def mskOut (isInt mx : Bool) (g : Geo) (rlen : Option Nat) (act : Array Val) (fw : BitVec 4) (bytes md : Array Byte) (nhalf : Bool)
    (h col : Nat) (start : Word) : Acc :=
  let n := col % 64
  let (lo, hi) := nibbleAt md (h / 16) (h % 16) (n + if nhalf then 64 else 0)
  let p := if col < 64 then lo else hi
  let prod (m : Nat) : List Val :=
    if present rlen m then [product mx (act.getD (p * g.red + m) .zero) (denseVal fw g.red 64 bytes m n)] else []
  if g.cls = 4 then (List.range (g.red / 2)).foldl (fun a j => accAdd isInt a (prod (2 * j) ++ prod (2 * j + 1))) { v := start }
  else (List.range g.red).foldl (fun a m => accAdd isInt a (prod m)) { v := start }

/-! ## Groups (02 R52-R60) -/

def State.group (s : State) (c : CoreId) (g : GroupId) : Group := (s.core c).arr.groups[g.val]

def State.onArr (s : State) (c : CoreId) (f : Arr → Arr) : State := s.onCore c (fun k => { k with arr := f k.arr })

def State.onAg (s : State) (c : CoreId) (g : GroupId) (f : Group → Group) : State :=
  s.onArr c (fun a => { a with groups := vmod a.groups g f })

def Group.cols (g : Group) : Nat := if g.wide then 512 else 128

/-- Group rows that output row `i` of a run goes to (R72, R100). -/
def outRows (op : RunOp) (i : Nat) : List Nat :=
  if op.spo = 2 then [op.orow.toNat + 2 * i, op.orow.toNat + 2 * i + 1] else [op.orow.toNat + i]

/-- The run's new content of the group for activation row `i`: element keys and values, and the flags (R48-R50, R99-R101). -/
def rowResult (grp : Group) (r : RunCmd) (i : Nat) (act : Array Val) : List (Nat × Word) × Acc :=
  let op := r.op
  let g := geometry op.spo r.wide op.fmtA op.fmtW
  let isInt := fmtIsInt op.fmtA
  let mx := fmtIsMx op.fmtA || fmtIsMx op.fmtW
  let bytes := r.weights.toArray
  let md := r.md.toArray
  let tile := if op.fmtW = 0xE then (px8eTile r.weights).toArray else #[]
  let w (k n : Nat) : Val := if op.fmtW = 0xE then tile.getD (k * g.outs + n) .zero else denseVal op.fmtW g.red g.outs bytes k n
  let key (n : Nat) : Nat :=
    if op.spo = 2 then (op.orow.toNat + 2 * i + n / 128) * 128 + n % 128
    else (op.orow.toNat + i) * grp.cols + n
  let cols := if op.spo = 3 then 128 else g.outs
  let one (n : Nat) : Nat × Acc :=
    let start := Tab.get 0 grp.elems (key n)
    (key n,
      match op.spo.toNat with
      | 0 => denseOut isInt mx g r.rlen act w n start
      | 1 => spkOut isInt mx g r.wide r.rlen act op.fmtW bytes md n start
      | 2 => spnOut isInt mx g r.rlen act op.fmtW bytes md n start
      | _ => mskOut isInt mx g r.rlen act op.fmtW bytes md r.nhalf (op.orow.toNat + i) n start)
  let os := (List.range cols).map one
  (os.map (fun p => (p.1, p.2.v)), { v := 0, sat := os.any (·.2.sat), nonfin := os.any (·.2.nonfin) })

/-- The preload formats of R52. -/
def preloadOk (acctInt : Bool) (f : BitVec 4) : Bool :=
  if acctInt then f == 0x6 || f == 0x8 else f == 0x0 || f == 0x1 || f == 0x2

/-- A preloaded code widened exactly (R52, R44). -/
def preloadWord (f : BitVec 4) (c : Nat) : Word :=
  if fmtIsInt f then w32 (encodeInt 32 (-2147483648) 2147483647 2 0 (decodeElem f c)).code else toF32 (decodeElem f c)

/-- Where an operand of the array may lie: the crown, or the core's own memory; a preload also in stacked DRAM (R52, R69). -/
def State.arrSource (s : State) (c : CoreId) (p : PartId) (a n : Nat) (dram : Bool) : Code :=
  match s.checkRange p a n .read with
  | .done => if s.rangeIn p a n .read (fun x => s.isCrown x || s.isCmemOf c x || (dram && s.isDram x)) then .done else .unmapped
  | e => e

/-- The next issue number of an array command (R55). -/
def State.nextSeq (s : State) (c : CoreId) : Nat × State := ((s.core c).arr.seq, s.onArr c (fun a => { a with seq := a.seq + 1 }))

/-- Why `ag.open` is refused before its preload is looked at (R52, R53). -/
def State.agOpenBad (s : State) (c : CoreId) (g : GroupId) (acctInt : Bool) (width rows : Nat) (fmt : Option (BitVec 4)) : Option Code :=
  if (s.group c g).state ≠ .closed then some .limit
  else if (width ≠ 128 ∧ width ≠ 512) ∨ rows = 0 ∨ 32768 / max width 1 < rows then some .shape
  else match fmt with
    | some f => if preloadOk acctInt f then none else some .format
    | none => none

/-- `ag.open` as a thread or a nest issues it; `pre` is the preload's local address and format (R52, R53). A nest's group without a
column of its matrix has nothing to preload: its elements are +0 (10 R224). -/
def State.agOpen (s : State) (c : CoreId) (p : PartId) (o : Owner) (g : GroupId) (acctInt : Bool) (width rows : Nat)
    (pre : Option (Nat × BitVec 4)) (stride cols prows : Nat) : State :=
  match s.agOpenBad c g acctInt width rows (pre.map (·.2)) with
  | some e => s.finish o e
  | none =>
    let opened : Group := { state := .opened, acctInt := acctInt, preload := pre.isSome, wide := width == 512, rows := rows
                            loading := pre.isSome && cols != 0 }
    match pre.filter (fun _ => cols != 0) with
    | none => (s.onAg c g (fun _ => opened)).finish o .done
    | some (a, f) =>
      match s.arrSource c p a (elemBytes f ((prows - 1) * stride + cols)) true with
      | .done =>
        (s.onAg c g (fun _ => opened)).onArr c (fun x => { x with
          xfers := x.xfers ++ [.preload o p g a f stride (rows / max prows 1) cols prows false 0 .done] })
      | e => s.finish o e

/-- Bytes of a dense tile known when its load is accepted: with PX8E, its header too (07 R163). -/
def tileBytes (g : Geo) (fw : BitVec 4) : Nat := denseBytes g fw + (if fw = 0xE then 64 else 0)

/-- The checks and acceptance of `arr.loadw`; `op.src` is a local address, `slots` a descriptor already read or formed. DADDR is
read as a local address, its bits 63:49 ignored (log 168). -/
def State.loadwIssue (s : State) (c : CoreId) (p : PartId) (o : Owner) (op : LoadwOp)
    (slots : Option (List Nat × Nat × Bool × BitVec 4)) : State :=
  let fail (e : Code) : State := s.finish o e
  let g := geometry op.spo op.wide op.fmtA op.fmtW
  if op.spo.toNat ≥ 2 ∧ ((s.core c).arr.effWide ∨ op.wide) then fail .shape
  else if !pairOk op.spo op.fmtA op.fmtW then fail .format
  else
    let srcs : List (Nat × Nat) :=
      match slots with
      | none => [(op.src.toNat, tileBytes g op.fmtW)]
      | some (sl, daddr, _, sfmt) =>
        let use_ := (sl.take g.slots).filter (· != zeroSlot)
        if op.spo = 3 then (daddr, denseBytes { g with outs := 64 } op.fmtW) :: use_.map (fun x => (x * 64, 2 * halfBytes sfmt))
        else use_.map (fun x => (x * 64, slotHalves g op.spo op.wide * halfBytes op.fmtW))
    let badS := match slots with
      | some (_, _, _, sfmt) => op.spo = 3 && (!fmtArray sfmt || sfmt == 0xE)
      | none => false
    let badD := match slots with
      | some (_, daddr, _, _) => op.spo = 3 && daddr % 64 != 0
      | none => false
    if badD then fail .align
    else if badS then fail .format
    else match srcs.findSome? (fun r => match s.arrSource c p r.1 r.2 false with | .done => none | e => some e) with
      | some e => fail e
      | none =>
        let (n, t) := s.nextSeq c
        t.onArr c (fun a => { a with
          loads := a.loads ++ [⟨o, p, n, op, slots, false, .done⟩]
          halves := vmod a.halves op.whalf (fun h => { h with
            state := .loading, key := some ⟨op.wide, op.fmtA, op.fmtW, op.spo⟩, last := none, issued := n }) })

/-- Why a run is refused at issue: R53, R98, R38-R39, R54, R71, R72, in that order (log 30). -/
def State.runCheck (s : State) (c : CoreId) (op : RunOp) (held : Bool) : Code :=
  let a := (s.core c).arr
  let grp := s.group c op.group
  let h := a.halves[op.whalf.val]
  let rows := op.rows.toNat
  let end_ := op.orow.toNat + (if op.spo = 2 then 2 * rows else rows)
  let w := a.effWide
  let same4 (k : TileKey) : Bool := decide (pairClass k.fmtA k.fmtW = 4) == decide (pairClass op.fmtA op.fmtW = 4)
  if held ∨ grp.state ≠ .opened then .shape
  else if op.spo.toNat ≥ 2 ∧ w then .shape
  else if !pairOk op.spo op.fmtA op.fmtW ∨ fmtIsInt op.fmtA ≠ grp.acctInt then .format
  else if grp.wide ≠ w ∨ rows = 0 ∨ grp.rows < end_ ∨ (op.spo = 2 ∧ 256 < end_) ∨ (op.spo = 3 ∧ 128 < end_) then .shape
  else if !grp.empty ∧ op.ktile.toNat ≤ grp.lastk then .shape
  else match h.key with
    | none => .shape
    | some k =>
      if k.wide ≠ w ∨ k.fmtW ≠ op.fmtW ∨ k.spo ≠ op.spo ∨ !same4 k then .shape
      else if h.last = some .limit then .shape
      else if h.last ≠ none ∧ h.last ≠ some .done then .poisoned
      else if op.aoff.toNat % 32 ≠ 0 then .align else .done

/-- `mma.run` accepted: LASTK and EMPTY change at once (R54). -/
def State.runIssue (s : State) (c : CoreId) (p : PartId) (o : Owner) (op : RunOp) (rlen : Option Nat) (held : Bool) : State :=
  match s.runCheck c op held with
  | .done =>
    let (n, t) := s.nextSeq c
    (t.onAg c op.group (fun g => { g with lastk := op.ktile.toNat, empty := false })).onArr c (fun a => { a with
      runs := a.runs ++ [⟨o, p, n, op, a.effWide, a.halves[op.whalf.val].issued, rlen, false, 0, 0, false, [], [], false⟩] })
  | e => s.finish o e

/-- Runs in the queue: those that have not started (R74). -/
def Arr.queued (a : Arr) : Nat := (a.runs.filter (fun r => !r.started)).length

/-! ## Closing (02 R56, 07 R153) -/

/-- The rescale entry of an element (07 R153). -/
def rescaleEntry (cmode : BitVec 2) (cbase r col : Nat) : Nat :=
  match cmode.toNat with
  | 0 => cbase + col
  | 1 => cbase + 128 * (r % 2) + col
  | 2 => cbase + col % 64
  | _ => cbase + r

/-- Columns of group row `r` that a close drains or a preload reads: in an SPN nest an output row of up to 256 spans two
group rows (`fac` 2; R100, 10 R224). -/
def rowCols (fac cols r : Nat) : Nat := if fac = 2 then (if r % 2 = 0 then min cols 128 else cols - 128) else cols

/-- The largest entry a close of `rows` group rows would use. -/
def lastEntry (cmode : BitVec 2) (cbase fac rows cols : Nat) : Nat :=
  let c (r : Nat) : Nat := rowCols fac cols r - 1
  match cmode.toNat with
  | 0 => cbase + c 0
  | 1 => cbase + (if 1 < rows ∧ 0 < rowCols fac cols 1 then 128 + c 1 else c 0)
  | 2 => cbase + min 63 (c 0)
  | _ => cbase + (rows - 1)

/-- A close whose conversion draws random values is a consumer (08 R174). -/
def State.pushConsumer (s : State) (c : CoreId) (x : Consumer) : State :=
  s.onCore c (fun k => { k with rng := { k.rng with queue := k.rng.queue ++ [x] } })

/-- `ag.close` as a thread or a nest issues it (R53, R56, 07 R153). A nest's close drains `rows` of its own rows of `cols`
columns; no rows stand for the whole group. -/
def State.agClose (s : State) (c : CoreId) (p : PartId) (o : Owner) (op : CloseOp) (cols rows : Nat) (held : Bool) : State :=
  let g := s.group c op.group
  let cols := if rows = 0 then g.cols else cols
  let rows := if rows = 0 then g.rows else rows
  let fac := g.rows / max rows 1
  if op.rnd = 3 ∧ s.det c ∧ (s.core c).rng.fresh then s.varies c o
  else if held ∨ g.state ≠ .opened then s.finish o .shape
  else if fmtReserved op.fmt ∨ op.ovf = 3 then s.finish o .format
  else if fmtPaired op.fmt ∧ op.pstrm = op.ostrm then s.finish o .shape
  else if op.table.isSome ∧ 0 < cols ∧ 4095 < lastEntry op.cmode op.cbase.toNat fac (fac * rows) cols then s.finish o .shape
  else
    let (n, t) := s.nextSeq c
    let t := (t.onAg c op.group (fun g => { g with state := .draining })).onArr c (fun a => { a with
      xfers := a.xfers ++ [.close o p n op fac cols (fac * rows) false 0 none] })
    if op.rnd = 3 then t.pushConsumer c (.close n) else t

/-! ## Activation rows -/

/-- What a row needs and finds: its values with the bytes to take from each stream; or what is absent of its data and of its
scales or side-list entries, and whether what is there lets its run start (R76); or that a stream ended short (R79). -/
inductive RowFeed where
  | ready (act : List Val) (fromAct fromSide : Nat) (under : Bool)
  | dry (act side start : Bool)
  | ended
  deriving DecidableEq, Repr

/-- Places side-list entries into the escapes of a row. -/
def fillEscapes : List Nat → List Nat → List Val
  | [], _ => []
  | c :: cs, es =>
    if c = 0x80 then
      match es with
      | e :: er => fp16.decode e :: fillEscapes cs er
      | [] => .zero :: fillEscapes cs []
    else .ofInt (BitVec.ofNat 8 c).toInt :: fillEscapes cs es

/-- The blocks of 32 elements of a row that a run-time length leaves a position of (07 R150). -/
def RunCmd.blocks (r : RunCmd) (g : Geo) : List Nat :=
  (List.range (ceilDiv g.rowElems 32)).filter (fun b => present r.rlen (32 * b % max g.red 1))

/-- Block scales onto element codes: the scales taken are those of `blocks` in order (R36, 07 R150). -/
def scaleElems (f : BitVec 4) (codes blocks scales : List Nat) : List Val :=
  codes.mapIdx (fun i c => applyScale (nth 0xFF scales (blocks.idxOf (i / 32))) (decodeElem f c))

/-- The bytes of row `i` of a run. -/
def State.actRow (s : State) (c : CoreId) (r : RunCmd) (i n : Nat) : Read :=
  if !s.strmTurn c r.seq r.inputs then .wait
  else if r.op.asrc then s.strmPeek c r.op.astrm 0 n
  else .bytes ((List.range n).map (fun j => Tab.get 0 (s.core c).ibuf ((r.op.aoff.toNat + i * n + j) % 2 ^ 18)))

/-- The entries a row's escapes take from an ended side list: those it has, +0 beyond (07 R162). -/
def State.sideLeft (s : State) (c : CoreId) (op : RunOp) (skip need : Nat) : List Byte :=
  match s.strmPeek c op.sstrm skip (2 * min need ((s.strmAvail c op.sstrm - skip) / 2)) with
  | .bytes es => es
  | _ => []

/-- The escapes of a PX8E row among the positions its run-time length leaves (07 R162; log 177). -/
def RunCmd.escapes (r : RunCmd) (g : Geo) (codes : List Nat) : Nat :=
  (codes.zipIdx.filter (fun x => x.1 == 0x80 && present r.rlen (x.2 % max g.red 1))).length

/-- Row `i` of a run as the feeder would read it now (R72, R76, R77, R79, 07 R150, R162). Scales of an MX row are looked at
whether or not the row is there. A side stream that is also the activation stream is read after the row. -/
def State.feed (s : State) (c : CoreId) (r : RunCmd) (i : Nat) : RowFeed :=
  let op := r.op
  let g := geometry op.spo r.wide op.fmtA op.fmtW
  let n := rowBytes g
  let row := s.actRow c r i n
  let took := if op.asrc then n else 0
  let skip := if op.asrc ∧ op.astrm = op.sstrm then n else 0
  let side (k : Nat) : Read := if s.strmTurn c r.seq r.inputs then s.strmPeek c op.sstrm skip k else .wait
  if row = .ended then .ended
  else if fmtIsMx op.fmtA then
    let bl := r.blocks g
    match row, side bl.length with
    | _, .ended => .ended
    | .bytes bs, .bytes sc => .ready (scaleElems op.fmtA (codesOf op.fmtA bs g.rowElems) bl (sc.map (·.toNat))) took bl.length false
    | .bytes _, _ => .dry false true (side 1 != .wait)
    | _, .bytes _ => .dry true false false
    | _, _ => .dry true true false
  else match row with
    | .bytes bs =>
      let codes := codesOf op.fmtA bs g.rowElems
      if op.fmtA = 0xE then
        let need := r.escapes g codes
        match side (2 * need) with
        | .bytes es => .ready (fillEscapes codes (codesOf 0x2 es need)) took (2 * need) false
        | .wait => .dry false true (side 2 != .wait)
        | .ended =>
          let es := s.sideLeft c op skip need
          .ready (fillEscapes codes (codesOf 0x2 es (es.length / 2))) took es.length true
      else .ready (codes.map (decodeElem op.fmtA)) took 0 false
    | _ => .dry true false false

/-- The first run that still has rows to enter. -/
def Arr.nextRun (a : Arr) : Option RunCmd := a.runs.find? (fun r => decide (r.entered < r.op.rows.toNat))

/-- The feeder reads a full ring off while its next row is longer than the ring (log 154). -/
def State.stageRow (s : State) (c : CoreId) : State :=
  match (s.core c).arr.nextRun with
  | none => s
  | some r =>
    if !s.strmTurn c r.seq r.inputs then s
    else match s.feed c r r.entered with
      | .dry act side _ =>
        let u := if act && r.op.asrc then s.strmStage c r.op.astrm else s
        if side then u.strmStage c r.op.sstrm else u
      | _ => s

/-- Elements a preload has moved once group row `x` holds its starting values. -/
def preloadNeed (fac cols rows x : Nat) : Nat :=
  if rows ≤ x / max fac 1 then cols * rows
  else cols * (x / max fac 1) + (if fac = 2 ∧ x % 2 = 0 then min cols 128 else cols)

/-- Group row `x` is not still being preloaded (R75). -/
def State.preloaded (s : State) (c : CoreId) (g : GroupId) (x : Nat) : Bool :=
  (s.core c).arr.xfers.all (fun f => match f with
    | .preload _ _ g' _ _ _ fac cols rows _ moved _ => g' != g || decide (preloadNeed fac cols rows x ≤ moved)
    | .close _ _ _ _ _ _ _ _ _ _ => true)

/-- R75: no earlier run still has the row on its way. -/
def State.pipeReady (s : State) (c : CoreId) (r : RunCmd) (i : Nat) : Bool :=
  (s.core c).arr.pipe.all (fun p => p.group != r.op.group || p.run == r.seq
    || (outRows r.op i).all (fun x => p.vals.all (fun v => v.1 / (s.group c r.op.group).cols != x)))

/-- R75: the starting values of a row are there. -/
def State.psumReady (s : State) (c : CoreId) (r : RunCmd) (i : Nat) : Bool :=
  (outRows r.op i).all (s.preloaded c r.op.group) && s.pipeReady c r i

/-- The run's tile is in the PEs or its load has started delivering (R73, R76). -/
def Arr.tileReady (a : Arr) (r : RunCmd) : Bool :=
  (match a.held with | some (h, l, _) => h == r.op.whalf && l == r.load | none => false)
    || a.halves[r.op.whalf.val].cur == r.load && (a.halves[r.op.whalf.val].key.isSome)

/-- The load of a run has failed or is failing: its weights never come (R79). -/
def Arr.tileBad (a : Arr) (r : RunCmd) : Bool := a.loads.any (fun l => l.seq == r.load && l.started && l.code != .done)

/-- A queued run could start now, but for warmth (R76). -/
def State.runReady (s : State) (c : CoreId) (r : RunCmd) : Bool :=
  let a := (s.core c).arr
  !r.started && a.tileReady r && s.psumReady c r 0
    && (match a.pending with | some (_, _, n) => decide (r.seq < n) | none => true)
    && (match s.feed c r 0 with | .ready _ _ _ _ => true | .dry _ _ start => start | .ended => false)

/-- The words of the operand buffers that row `i` of a run reads: its activations, its scales or side-list entries, its weight half
where the PEs do not hold the tile, and the partial sums it adds to (11 R236). -/
def State.rowWords (s : State) (c : CoreId) (r : RunCmd) (i fromAct fromSide : Nat) (w : BufWord) : Bool :=
  let a := (s.core c).arr
  let op := r.op
  let n := rowBytes (geometry op.spo r.wide op.fmtA op.fmtW)
  let inPe := r.moved || (match a.held with | some (h, l, _) => h == op.whalf && l == r.load | none => false)
  let cols := (s.group c op.group).cols
  (if op.asrc then s.strmWords c op.astrm 0 fromAct w else inputWords 0 (2 ^ 18) (op.aoff.toNat + i * n) n w)
    || s.strmWords c op.sstrm (if op.asrc ∧ op.astrm = op.sstrm then fromAct else 0) fromSide w
    || (!inPe && halfWords op.whalf w)
    || accWords op.group ((outRows op i).flatMap (fun x => (List.range cols).map (fun n => x * cols + n))) w

/-- Ends a run with a code; rows not yet written do not receive its contribution (R79). -/
def State.endRun (s : State) (c : CoreId) (r : RunCmd) (code : Code) : State :=
  (s.onArr c (fun a => { a with runs := a.runs.filter (fun x => x.seq != r.seq), pipe := a.pipe.filter (fun p => p.run != r.seq) })).finish
    r.owner code

/-- The run that reads next ends with INCOMPLETE if stream `i` completed before delivering what its next row needs (R79). -/
def State.endDryRuns (s : State) (c : CoreId) (i : StreamId) : State :=
  match (s.core c).arr.nextRun with
  | none => s
  | some r =>
    if (r.op.asrc ∧ r.op.astrm = i) ∨ (fmtIsMx r.op.fmtA ∧ r.op.sstrm = i) then
      match s.feed c r r.entered with
      | .ended => s.endRun c r .incomplete
      | _ => s
    else s

/-! ## The load itself (R69, R163, 04) -/

/-- A tile as a load reads it: weight bytes, metadata bytes, how many bytes were delivered, and the code met. A zero slot
delivers nothing. -/
structure TileRead where
  w : List Byte := []
  md : List Byte := []
  came : Nat := 0
  code : Code := .done
  deriving DecidableEq, Repr

/-- Weight bytes read after what a tile holds already. -/
def TileRead.addW (k : TileRead) (bs : List Byte) (e : Code) : TileRead := { k with w := k.w ++ bs, came := k.came + bs.length, code := e }

def TileRead.addMd (k : TileRead) (bs : List Byte) (e : Code) : TileRead := { k with md := k.md ++ bs, came := k.came + bs.length, code := e }

/-- Reads a sparse tile: each slot in ascending address (R93, R97); a zero slot reads as codes 0 and nibbles 0x4. -/
def State.readSlots (s : State) (p : PartId) (g : Geo) (op : LoadwOp) (sl : List Nat) (nh : Nat) : State × TileRead :=
  let v := halfValues op.fmtW
  let k := halfScales op.fmtW
  (sl.take g.slots).foldl (fun (acc : State × TileRead) x =>
    if acc.2.code ≠ .done then acc
    else if x = zeroSlot then (acc.1, { acc.2 with
      w := acc.2.w ++ List.replicate (nh * (v + k)) 0, md := acc.2.md ++ List.replicate (nh * 1024) 0x44 })
    else
      let (u, bs, e) := acc.1.readRange p (x * 64) (nh * halfBytes op.fmtW)
      let cut (i : Nat) : List Byte := bs.drop (i * halfBytes op.fmtW)
      let ws := (List.range nh).flatMap (fun i => (cut i).take v ++ ((cut i).drop (v + 1024)).take k)
      let ms := (List.range nh).flatMap (fun i => ((cut i).drop v).take 1024)
      (u, (acc.2.addW ws .done).addMd ms e)) (s, {})

/-- Reads the metadata of an MSK tile's slots, stored in format `sfmt`, after its gradient tile (R101). -/
def State.readMetas (s : State) (p : PartId) (sfmt : BitVec 4) (sl : List Nat) (k : TileRead) : State × TileRead :=
  let one (acc : State × TileRead) (a : Nat) : State × TileRead :=
    if acc.2.code ≠ .done then acc
    else
      let (u, bs, e) := acc.1.readRange p a 1024
      (u, acc.2.addMd bs e)
  (sl.take 4).foldl (fun (acc : State × TileRead) x =>
    if acc.2.code ≠ .done then acc
    else if x = zeroSlot then (acc.1, { acc.2 with md := acc.2.md ++ List.replicate 2048 0x44 })
    else one (one acc (x * 64 + halfValues sfmt)) (x * 64 + halfBytes sfmt + halfValues sfmt)) (s, k)

/-- Reads a load's tile. A PX8E side list outside the crown and the core's own memory is UNMAPPED (R69, 07 R163). -/
def State.readTile (s : State) (c : CoreId) (l : LoadCmd) : State × TileRead :=
  let op := l.op
  let g := geometry op.spo op.wide op.fmtA op.fmtW
  let a := op.src.toNat
  match l.slots with
  | none =>
    if op.fmtW = 0xE then
      let (t, hd, e) := s.readRange l.part (a + 16384) 64
      let n := 16448 + 2 * fieldAt hd 0 2
      if e ≠ .done then (t, { code := e })
      else if 8160 < fieldAt hd 0 2 then (t, { code := .limit })
      else match t.arrSource c l.part a n false with
        | .done =>
          let (u, bs, f) := t.readRange l.part a n
          (u, ({} : TileRead).addW bs f)
        | f => (t, { code := f })
    else
      let (t, bs, e) := s.readRange l.part a (denseBytes g op.fmtW)
      (t, ({} : TileRead).addW bs e)
  | some (sl, daddr, _, sfmt) =>
    if op.spo = 3 then
      let (t, bs, e) := s.readRange l.part daddr (denseBytes { g with outs := 64 } op.fmtW)
      t.readMetas l.part sfmt sl (({} : TileRead).addW bs e)
    else s.readSlots l.part g op sl (slotHalves g op.spo op.wide)

/-- A load may start: every earlier run naming its half has moved its weights out (R70). -/
def Arr.loadFree (a : Arr) (l : LoadCmd) : Bool :=
  a.runs.all (fun r => r.op.whalf != l.op.whalf || decide (l.seq ≤ r.seq) || r.moved)

/-! ## Warmth and fill (R81-R83) -/

/-- Fill rows run in empty-row and freeze cycles (R81, R83). -/
def Arr.fillOn (a : Arr) : Bool := (a.warmth == .warm && a.fillEn) || a.warmth == .downWaiting

/-- One cycle's fill, counted in FILLING and ARR_FILL (R85, R89). -/
def Arr.fillCycle (a : Arr) (on : Bool) : Arr :=
  { a with filling := on, fills := if on then (a.fills + 1) % 2 ^ 64 else a.fills, lfsr := if on then Config.fillNext a.lfsr else a.lfsr }

/-- An array's step request (17 R380-R382). -/
def State.arrayUp (s : State) (c : CoreId) : State :=
  if s.pwr.up.length < 1024 then
    (s.onPwr (fun p => { p with up := p.up ++ [⟨.array c, s.now⟩] })).onArr c (fun a => { a with warmth := .upWaiting })
  else s

def State.arrayDown (s : State) (c : CoreId) : State :=
  if s.pwr.down.length < 1024 then
    (s.onPwr (fun p => { p with down := p.down ++ [⟨.array c, s.now⟩] })).onArr c (fun a => { a with warmth := .downWaiting })
  else s

/-- The downward request is withdrawn with no grant (R82, 17 R382). -/
def State.arrayKeep (s : State) (c : CoreId) : State :=
  (s.onPwr (fun p => { p with down := p.down.filter (fun r => r.target != .array c) })).onArr c (fun a => { a with warmth := .warm })

/-- A run could enter or start: the array must be warm first (R82). -/
def State.wantWarm (s : State) (c : CoreId) : State :=
  match (s.core c).arr.warmth with
  | .cold => s.arrayUp c
  | .downWaiting => s.arrayKeep c
  | _ => s

end Sys2Proof.Machine
end

