-- ==== Sys2Proof/Machine/Seq.lean ====
section
/-! DEFINITION. The tile sequencer (10 R216-R225, R232): nests, their checks, the series of array commands each issues,
and the sparse tiles it forms from a header (04 R95-R97, R102-R103). -/

namespace Sys2Proof.Machine

def State.onSeq (s : State) (c : CoreId) (f : Seq → Seq) : State := s.onCore c (fun k => { k with seq := f k.seq })

/-- A nest waits or runs: array commands that threads issue wait until it completes (R216). -/
def State.nestBusy (s : State) (c : CoreId) : Bool := (s.core c).seq.run.isSome || !(s.core c).seq.queue.isEmpty

/-- The running nest holds a group (R221). -/
def State.nestHolds (s : State) (c : CoreId) (g : GroupId) : Bool :=
  match (s.core c).seq.run with
  | some r => r.groups.contains g.val
  | none => false

/-- A running nest completes once it issues nothing more and its commands have ended (R216, R225). -/
def State.nestSettle (s : State) (c : CoreId) : State :=
  match (s.core c).seq.run with
  | some r =>
    if r.open_ = 0 ∧ (r.ops = [] ∨ r.failed.isSome) then
      (s.onSeq c (fun q => { q with run := none })).finish r.owner (r.failed.getD .done)
    else s
  | none => s

/-- The running nest meets a failure of its own: it issues nothing more. -/
def State.nestFail (s : State) (c : CoreId) (code : Code) : State :=
  s.onSeq c (fun q => { q with run := q.run.map (fun r => { r with failed := r.failed.or (some code) }) })

/-! ## Issuing a nest (R216) -/

/-- One nest runs and four wait; a sixth stalls its gang. -/
def State.nestRoom (s : State) (c : CoreId) : Bool :=
  decide ((s.core c).seq.queue.length + b2n (s.core c).seq.run.isSome < 5)

def nestIssue (h : Th) (desc : Addr) (cpl : Reg) (spo : Option (BitVec 2)) (s : State) : Out :=
  s.engine h cpl (s.nestRoom h.core) (fun c s =>
    s.onSeq h.core (fun q => { q with queue := q.queue ++ [⟨.thread c, s.part h.core, desc, spo⟩] }))

def execSeqRun (h : Th) (desc : Addr) (cpl : Reg) (s : State) : Out := nestIssue h desc cpl none s
def execSpkRun (h : Th) (desc : Addr) (cpl : Reg) (s : State) : Out := nestIssue h desc cpl (some 1) s
def execSpnRun (h : Th) (desc : Addr) (cpl : Reg) (s : State) : Out := nestIssue h desc cpl (some 2) s

/-! ## The descriptor (R217) -/

def parseNest (bs : List Byte) (spo : Option (BitVec 2)) : NestDesc :=
  let f (o n : Nat) : Nat := fieldAt bs o n
  let bits (o hi lo : Nat) : Nat := bitsOf (f o 1) hi lo
  { wsrc := f 0 8, pre := f 8 8, wstrR := f 16 4, wstrO := f 20 4, abase := f 24 4
    fmtA := BitVec.ofNat 4 (bits 28 3 0), fmtW := BitVec.ofNat 4 (bits 28 7 4)
    spo := spo.getD (BitVec.ofNat 2 (bits 29 1 0)), wide := bitOf (f 29 1) 2, asrc := bitOf (f 29 1) 3
    start := bitOf (f 29 1) 4, bypass := bitOf (f 29 1) 5, cmode := BitVec.ofNat 2 (bits 29 7 6)
    astrm := Fin.ofNat 8 (bits 30 2 0), sstrm := Fin.ofNat 8 (bits 30 5 3)
    ostrm := Fin.ofNat 8 (bits 31 2 0), pstrm := Fin.ofNat 8 (bits 31 5 3)
    fmtOut := BitVec.ofNat 4 (bits 32 3 0), rnd := BitVec.ofNat 2 (bits 32 5 4), ovf := BitVec.ofNat 2 (bits 32 7 6)
    tab := Fin.ofNat 16 (bits 33 3 0), pfmt := BitVec.ofNat 4 (bits 33 7 4)
    cbase := f 34 2 % 4096, gbase := bits 36 2 0, ni := bits 36 6 4 + 1, nlev := bits 37 2 0, mrows := f 38 2
    levels := (List.range 6).map (fun j => (f (64 + 16 * j) 4, f (68 + 16 * j) 1, f (72 + 16 * j) 4, f (76 + 16 * j) 4)) }

def parseHdr (bs : List Byte) : SparseHdr :=
  ⟨fieldAt bs 0 8, fieldAt bs 8 8, fieldAt bs 16 2, fieldAt bs 18 2, BitVec.ofNat 4 (fieldAt bs 20 1 % 16)⟩

/-- The lengths of the levels, fixed as the nest starts (R218, R223). -/
def nestLens (q : Seq) (d : NestDesc) : List Nat :=
  (d.levels.take d.nlev).map (fun l => if l.2.1 = 0xFF then l.1 else (Tab.get 0 q.lens l.2.1).toNat)

/-- What the lengths cut a nest into. -/
structure NestCut where
  g : Geo
  lm : Nat
  lr : Nat
  lo : Nat
  mt : Nat
  kt : Nat
  nt : Nat
  /-- Columns of one output tile in its group rows, and group rows of one activation row. -/
  ocols : Nat
  fac : Nat
  deriving DecidableEq, Repr

def nestCut (d : NestDesc) (lens : List Nat) : NestCut :=
  let g := geometry d.spo d.wide d.fmtA d.fmtW
  let lm := nth 0 lens 0
  let lr := nth 0 lens 1
  let lo := nth 0 lens 2
  { g := g, lm := lm, lr := lr, lo := lo, mt := ceilDiv lm d.mrows, kt := ceilDiv lr g.red, nt := ceilDiv lo g.outs
    ocols := if d.spo = 3 then 128 else g.outs, fac := if d.spo = 2 then 2 else 1 }

/-- Activation rows of M tile `m`, and columns of output tile `n` (R224). -/
def NestCut.rows (k : NestCut) (mrows m : Nat) : Nat := min mrows (k.lm - m * mrows)
def NestCut.cols (k : NestCut) (n : Nat) : Nat := min k.ocols (k.lo - n * k.g.outs)

/-- The channel base of a close (R220). -/
def nestCbase (d : NestDesc) (n m : Nat) : Nat :=
  match d.cmode.toNat with
  | 0 => d.cbase + n * (if d.wide then 512 else 128)
  | 1 => d.cbase + n * 256
  | 2 => d.cbase + n * 64
  | _ => d.cbase + m * d.mrows

/-- The last rescale entry the nest would use (R222); a nest with an empty outer level uses none. In ROW mode a partial last
M tile of an SPN nest may end below the tile before it. -/
def nestLastEntry (d : NestDesc) (k : NestCut) (outer : List Nat) : Nat :=
  if k.mt = 0 ∨ k.nt = 0 ∨ outer.contains 0 then 0
  else
    let at_ (m : Nat) : Nat := lastEntry d.cmode (nestCbase d (k.nt - 1) m) k.fac (k.fac * k.rows d.mrows m) (k.cols (k.nt - 1))
    if d.cmode = 3 then max (at_ (k.mt - 1)) (at_ (k.mt - 2)) else at_ 0

/-- The acceptance table of R222 in its order. A reserved PFMT is refused whether or not START is 1 (02 R32); R52's preload formats
bind a nest that preloads (log 192). -/
def State.nestCheck (s : State) (c : CoreId) (d : NestDesc) (lens : List Nat) : Code :=
  let a := (s.core c).arr
  let lv := d.levels.take d.nlev
  let k := nestCut d lens
  let top := d.gbase + d.ni * ceilDiv (nth (0, 0, 0, 0) d.levels 0).1 d.mrows
  if (if d.spo = 0 then d.wsrc % 64 ≠ 0 ∨ d.wstrR % 64 ≠ 0 ∨ d.wstrO % 64 ≠ 0
      else d.wsrc % 32 ≠ 0 ∨ (lv.drop 3).any (fun l => l.2.2.1 % 32 != 0)) ∨ d.abase % 32 ≠ 0 then .align
  else if !pairOk d.spo d.fmtA d.fmtW ∨ fmtReserved d.fmtOut ∨ fmtReserved d.pfmt ∨ d.ovf = 3
      ∨ (d.start ∧ !preloadOk (fmtIsInt d.fmtA) d.pfmt) then .format
  else if d.nlev < 3 ∨ 6 < d.nlev ∨ lv.any (fun l => l.1 == 0 || (decide (15 < l.2.1) && l.2.1 != 0xFF))
      ∨ (List.zipWith (fun l n => decide (l.1 < n)) lv lens).any id then .shape
  else if d.wide ≠ a.effWide ∨ (2 ≤ d.spo.toNat ∧ d.wide) then .shape
  else if d.mrows = 0 ∨ (if 2 ≤ d.spo.toNat then 128 else if d.wide then 64 else 256) < d.mrows then .shape
  else if 8 < top ∨ (List.range 8).any (fun g => decide (d.gbase ≤ g ∧ g < top) && (a.groups.toList.getD g {}).state != .closed) then .shape
  else if !d.bypass ∧ 4095 < nestLastEntry d k (lens.drop 3) then .shape
  else if 2 ^ 20 < k.kt then .limit
  else .done

/-! ## The order of the commands (R218-R220) -/

/-- The indices of the outer levels, the outermost slowest; each list is in level order. -/
def outerIters : List Nat → List (List Nat)
  | [] => [[]]
  | l :: ls => (outerIters ls).flatMap (fun t => (List.range l).map (fun i => i :: t))

/-- One window of outer iteration `o` from output tile `nw`: opens all its groups, gbase to gbase + ni * mt - 1, then its tiles with
their runs (`ns` are those of its output tiles that exist), then closes all its groups. A group of an output tile beyond the length
has no columns to preload or to drain (R224). -/
def windowOps (d : NestDesc) (k : NestCut) (hdr : Option SparseHdr) (o src pre nw : Nat) (ns : List Nat) : List SeqOp :=
  let maxO := (nth (0, 0, 0, 0) d.levels 2).1
  let grp (n m : Nat) : GroupId := Fin.ofNat 8 (d.gbase + (n - nw) * k.mt + m)
  let pairs := (List.range d.ni).flatMap (fun i => (List.range k.mt).map (fun m => (nw + i, m)))
  let opens := pairs.map (fun p => SeqOp.opn (grp p.1 p.2) (k.rows d.mrows p.2) (k.cols p.1)
    (pre + (p.2 * d.mrows * maxO + p.1 * k.ocols) * fmtBits d.pfmt / 8))
  let tiles := (List.range k.kt).flatMap (fun kk => ns.flatMap (fun n =>
    SeqOp.tile kk n (src + kk * d.wstrR + n * d.wstrO) hdr
      :: (List.range k.mt).map (fun m => SeqOp.run kk n (grp n m) (k.rows d.mrows m)
          (if d.asrc then 0
           else (d.abase + (((o * k.kt + kk) * k.mt + m) * d.mrows) * rowBytes k.g) % 2 ^ 18)
          (if k.lr - kk * k.g.red < k.g.red then some (k.lr - kk * k.g.red) else none))))
  let closes := pairs.map (fun p => SeqOp.close (grp p.1 p.2) (k.rows d.mrows p.2) (k.cols p.1) (nestCbase d p.1 p.2))
  opens ++ tiles ++ closes

/-- All windows of one outer iteration. -/
def iterOps (d : NestDesc) (k : NestCut) (hdr : Option SparseHdr) (o src pre : Nat) : List SeqOp :=
  (List.range (ceilDiv k.nt d.ni)).flatMap (fun w =>
    windowOps d k hdr o src pre (w * d.ni) ((List.range (min d.ni (k.nt - w * d.ni))).map (· + w * d.ni)))

/-- Reads the header of every outer iteration (04 R95, 00 R466). -/
def State.readHdrs (s : State) (p : PartId) : List Nat → State × List SparseHdr × Code
  | [] => (s, [], .done)
  | a :: as =>
    match s.readStruct p a 32 true with
    | (t, .error e) => (t, [], e)
    | (t, .ok bs) =>
      let (u, hs, e) := t.readHdrs p as
      (u, parseHdr bs :: hs, e)

/-- Bytes an outer iteration adds: to WSRC and to PRE (R217). -/
def iterOffset (d : NestDesc) (ix : List Nat) (w : Bool) : Nat :=
  (List.zipWith (fun i (l : Nat × Nat × Nat × Nat) => i * (if w then l.2.2.1 else l.2.2.2)) ix (d.levels.drop 3)).sum

/-- A nest is accepted: its groups are held and its commands laid out. Tiles wholly beyond a length count as skipped (R224). -/
def State.nestAccept (s : State) (c : CoreId) (n : NestCmd) (d : NestDesc) (lens : List Nat) : State :=
  let k := nestCut d lens
  let its := outerIters (lens.drop 3)
  let (t, hs, code) := if d.spo = 0 then (s, [], .done) else s.readHdrs n.part (its.map (fun ix => d.wsrc + iterOffset d ix true))
  if code ≠ .done then t.finish n.owner code
  else
    let none_ := k.lm = 0 ∨ k.lo = 0 ∨ its = []
    let ops := if none_ then [] else
      ((List.range its.length).zip its).flatMap (fun p =>
        iterOps d k hs[p.1]? p.1 (d.wsrc + iterOffset d p.2 true) (d.pre + iterOffset d p.2 false))
    let lv (j : Nat) : Nat := (nth (0, 0, 0, 0) d.levels j).1
    let gone := if none_ then 0 else
      its.length * (ceilDiv (lv 1) k.g.red * ceilDiv (lv 2) k.g.outs - k.kt * k.nt)
    let top := d.ni * ceilDiv (lv 0) d.mrows
    (t.onSeq c (fun q => { q with
      skip := satAdd 32 q.skip gone, half := 0
      run := some ⟨n.owner, n.part, d, ops, 0, (List.range top).map (· + d.gbase), none, false⟩ })).nestSettle c

/-- The head of the queue starts: its descriptor is read and checked, in the order of 21 R453. -/
def State.nestStart (s : State) (c : CoreId) (n : NestCmd) : State :=
  match s.readDesc n.part n.desc 160 64 true with
  | (s, .error e) => s.finish n.owner e
  | (s, .ok bs) =>
    let d := parseNest bs n.spo
    let lens := nestLens (s.core c).seq d
    let hdr : State × Code :=
      if d.spo = 0 then (s, .done)
      else if d.wsrc % 32 ≠ 0 then (s, .align)
      else match s.readStruct n.part d.wsrc 32 true with
        | (t, .error e) => (t, e)
        | (t, .ok _) => (t, .done)
    let (t, e) := hdr
    if e ≠ .done then t.finish n.owner e
    else if d.rnd = 3 ∧ t.det c ∧ (t.core c).rng.fresh then t.varies c n.owner
    else match t.nestCheck c d lens with
      | .done => t.nestAccept c n d lens
      | e => t.finish n.owner e

def nestStartAt (c : CoreId) (s : State) : Out :=
  match (s.core c).seq.run, (s.core c).seq.queue with
  | none, n :: rest => if s.coreOn c then .next ((s.onSeq c (fun q => { q with queue := rest })).nestStart c n) else .next s
  | _, _ => .next s

def execNestStart (c : CoreId) (s : State) : Out := asCore c (nestStartAt c) s

/-! ## Sparse tiles (04 R95-R97, R102) -/

/-- Set bits of a map from bit `lo`, `n` of them; `bs` starts at byte `lo / 8`. -/
def mapBits (bs : List Byte) (lo n : Nat) : List Bool :=
  (List.range n).map (fun i => (nth 0 bs ((lo % 8 + i) / 8)).getLsbD ((lo % 8 + i) % 8))

/-- The slot of block (kb, nb), half `half` of it where `half` is nonzero: a zero slot outside the matrix or where the map has 0.
The header's FMT_W sizes the blocks, while the load reads its tile by the nest's; that the two differ, or that the header's is PX8E
or reserved, is refused by no rule and not here (log 179). -/
def State.slotOf (s : State) (p : PartId) (h : SparseHdr) (kb nb half : Nat) : State × Except Code Nat :=
  if h.kb ≤ kb ∨ h.nb ≤ nb then (s, .ok zeroSlot)
  else
    let b0 := kb * h.nb
    let (t, bs, e) := s.readRange p (h.map + b0 / 8) ((b0 + nb) / 8 - b0 / 8 + 1)
    if e ≠ .done then (t, .error e)
    else
      let bits := mapBits bs b0 (nb + 1)
      if nth false bits nb then
        let (u, ds, f) := t.readRange p (h.dir + 4 * kb) 4
        if f ≠ .done then (u, .error f)
        else (u, .ok (leNat ds + (bits.take nb).count true * blockUnits h.fmtW + half * (halfBytes h.fmtW / 64)))
      else (t, .ok zeroSlot)

def State.slotsOf (s : State) (p : PartId) (h : SparseHdr) : List (Nat × Nat × Nat) → State × Except Code (List Nat)
  | [] => (s, .ok [])
  | (kb, nb, half) :: r =>
    match s.slotOf p h kb nb half with
    | (t, .error e) => (t, .error e)
    | (t, .ok a) => match t.slotsOf p h r with
      | (u, .error e) => (u, .error e)
      | (u, .ok as) => (u, .ok (a :: as))

/-- The blocks of tile (k, n): indices of R102 in the slot order of R97. An MSK tile's block column is free (log 31). -/
def tileBlocks (spo : BitVec 2) (wide : Bool) (cls : Nat) (k n nbFree : Nat) : List (Nat × Nat × Nat) :=
  match spo.toNat with
  | 1 =>
    if wide then
      (if cls = 4 then (List.range 4).map (fun i => (k, 4 * n + i, 0)) else (List.range 4).map (fun i => (k / 2, 4 * n + i, k % 2)))
    else (List.range (if cls = 4 then 4 else 2)).map (fun i => ((if cls = 4 then 4 else 2) * k + i, n, 0))
  | 2 =>
    if cls = 4 then [(2 * n, 2 * k, 0), (2 * n + 1, 2 * k, 0), (2 * n, 2 * k + 1, 0), (2 * n + 1, 2 * k + 1, 0)]
    else [(2 * n, k, 0), (2 * n + 1, k, 0)]
  | _ => (List.range 4).map (fun i => (4 * n + i, nbFree, 0))

/-! ## Issuing one command -/

/-- The commands after a skipped tile: its runs go with it. -/
def dropRuns : List SeqOp → List SeqOp
  | .run _ _ _ _ _ _ :: r => dropRuns r
  | l => l

/-- One more inner command is open. -/
def State.nestOpen (s : State) (c : CoreId) (rest : List SeqOp) : State :=
  s.onSeq c (fun q => { q with run := q.run.map (fun r => { r with ops := rest, open_ := r.open_ + 1 }) })

/-- A tile whose slots are all zero is skipped with its runs (04 R102-R103, 10 R234). -/
def State.nestSkip (s : State) (c : CoreId) (rest : List SeqOp) : State :=
  s.onSeq c (fun q => { q with skip := satInc 32 q.skip, run := q.run.map (fun r => { r with ops := dropRuns rest }) })

/-- Issues the load of a tile into the next half. -/
def State.nestLoad (s : State) (c : CoreId) (r : NestRun) (rest : List SeqOp) (src : Nat)
    (slots : Option (List Nat × Nat × Bool × BitVec 4)) : State :=
  let h := (s.core c).seq.half
  let s := (s.nestOpen c rest).onSeq c (fun q => { q with half := 1 - q.half })
  s.loadwIssue c r.part (.nest c) ⟨h, BitVec.ofNat 64 src, r.d.wide, r.d.fmtA, r.d.fmtW, r.d.spo⟩ slots

/-- Issues a sparse tile from its header. In MSK the gradient tile's address, its half and its block column are free (log 31). -/
def State.nestSparse (s : State) (c : CoreId) (r : NestRun) (rest : List SeqOp) (k n : Nat) (h : SparseHdr) : State :=
  let cls := pairClass r.d.fmtA r.d.fmtW
  let msk := r.d.spo = 3
  let f := s.free
  let s := if msk then { s with free := f + 3 } else s
  let nbFree := (Config.freeAddr f).toNat % max h.nb 1
  match s.slotsOf r.part h (tileBlocks r.d.spo r.d.wide cls k n nbFree) with
  | (t, .error e) => t.nestFail c e
  | (t, .ok sl) =>
    if sl.all (· == zeroSlot) then t.nestSkip c rest
    else t.nestLoad c r rest 0 (some (sl, (Config.freeAddr (f + 1)).toNat, Config.freeBool (f + 2), h.fmtW))

/-- SEQ_ISSUE: the next command of the running nest enters the array's command order. A reopened group must be CLOSED
(R221), and a run needs a place in the run queue (03 R74). -/
def seqIssueAt (c : CoreId) (s : State) : Out :=
  match (s.core c).seq.run with
  | none => .next s
  | some r =>
    if !s.coreOn c ∨ r.failed.isSome then .next s
    else
      let d := r.d
      let o : Owner := .nest c
      let maxO := (nth (0, 0, 0, 0) d.levels 2).1
      match r.ops with
      | [] => .next s
      | .opn g rows cols pre :: rest =>
        if (s.group c g).state ≠ .closed then .next s
        else
          .next (((s.nestOpen c rest).agOpen c r.part o g (fmtIsInt d.fmtA) (if d.wide then 512 else 128)
            ((if d.spo = 2 then 2 else 1) * rows) (if d.start then some (pre, d.pfmt) else none) maxO cols rows).nestSettle c)
      | .tile k n src hdr :: rest =>
        .next ((match hdr with
          | some h => s.nestSparse c r rest k n h
          | none => s.nestLoad c r rest src none).nestSettle c)
      | .run k _ g rows aoff rlen :: rest =>
        if 16 ≤ (s.core c).arr.queued then .next s
        else
          let op : RunOp := ⟨g, BitVec.ofNat 20 k, 1 - (s.core c).seq.half, d.fmtA, d.fmtW, d.spo, d.asrc, d.astrm,
            BitVec.ofNat 18 aoff, BitVec.ofNat 9 rows, 0, d.sstrm⟩
          .next ((((s.nestOpen c rest).onSeq c (fun q => { q with pos := k })).runIssue c r.part o op rlen false).nestSettle c)
      | .close g rows cols cbase :: rest =>
        let op : CloseOp := ⟨g, d.ostrm, d.pstrm, d.fmtOut, d.rnd, d.ovf, if d.bypass then none else some d.tab,
          BitVec.ofNat 12 cbase, d.cmode⟩
        .next (((s.nestOpen c rest).agClose c r.part o op cols rows false).nestSettle c)

def execSeqIssue (c : CoreId) (s : State) : Out := asCore c (seqIssueAt c) s

/-! ## Stopping nests (R232) -/

/-- A write of ABORT: the running nest stops, and queued nests complete with the same code. -/
def State.seqAbort (s : State) (c : CoreId) (stale : Bool) : State :=
  let code : Code := if stale then .staleEpoch else .incomplete
  let q := (s.core c).seq.queue
  let s := (s.onSeq c (fun x => { x with
    queue := [], run := x.run.map (fun r => { r with failed := some code, aborted := true }) })).nestSettle c
  q.foldl (fun t n => t.finish n.owner code) s

def execSeqCtlAbort (c : CoreId) (stale : Bool) (s : State) : Out :=
  if s.regLive (c.val * 0x10_0000 + 0x2_0008) then .next (s.seqAbort c stale) else .next s

end Sys2Proof.Machine
end

