-- ==== Sys2Proof/Machine/ArrayEvents.lean ====
section
/-! DEFINITION. The commands and events of the matrix array (02 R52-R57, 03 R65-R90): each event is one step of the array
or of its crown port; freezes, fill, cold waits and ends of runs follow R76-R83. Drains are in Machine/Quantiser.lean. -/

namespace Sys2Proof.Machine

/-- An array command of a thread may issue: no nest is in its way, or it names a group the nest holds and is refused
(10 R216, R221). -/
def State.arrRoom (s : State) (h : Th) (g : Option GroupId) : Bool :=
  !s.nestBusy h.core || (match g with | some g => s.nestHolds h.core g | none => false)

/-! ## Arrangement (R65) -/

def execArrMode (h : Th) (wide : Bool) (cpl : Reg) (s : State) : Out :=
  s.engine h cpl (s.arrRoom h none && (s.core h.core).arr.pending.isNone) (fun c s =>
    if (s.core h.core).arr.wide = wide then s.finish (.thread c) .done
    else
      let (n, t) := s.nextSeq h.core
      t.onArr h.core (fun a => { a with pending := some (.thread c, wide, n) }))

/-- The switch, once every earlier run has written its last row; it takes 4 cycles and leaves no tile in the PEs. Its cycles are no
empty-row cycles: nothing fills them, and FILLING, FROZEN and the counts stay (log 178). -/
def execArrangementSwitch (c : CoreId) (s : State) : Out :=
  match (s.core c).arr.pending with
  | some (o, w, n) =>
    if s.coreOn c && (s.core c).arr.runs.all (fun r => decide (n < r.seq)) then
      .next ((s.onArr c (fun a => { a with wide := w, pending := none, held := none, cycle := a.cycle + 4 })).finish o .done)
    else .next s
  | none => .next s

/-! ## Loads (R69, R70) -/

def parseTile (bs : List Byte) : List Nat × Nat × Bool × BitVec 4 :=
  ((List.range 4).map (fun i => fieldAt bs (4 * i) 4), fieldAt bs 16 8, bitOf (fieldAt bs 24 1) 0,
    BitVec.ofNat 4 (fieldAt bs 25 1 % 16))

def execArrLoadw (h : Th) (op : LoadwOp) (cpl : Reg) (s : State) : Out :=
  s.engine h cpl (s.arrRoom h none) (fun c s =>
    let p := s.part h.core
    let o : Owner := .thread c
    if op.spo = 0 then
      if s.deviceBad p op.src then s.finish o .unmapped
      else if op.src.toNat % 64 ≠ 0 then s.finish o .align
      else match s.localOf p op.src with
        | .error e => s.finish o e
        | .ok a => s.loadwIssue h.core p o { op with src := BitVec.ofNat 64 a } none
    else match s.readDesc p op.src 32 32 true with
      | (s, .error e) => s.finish o e
      | (s, .ok bs) => s.loadwIssue h.core p o op (some (parseTile bs)))

/-- The load at the crown port starts: its tile is read and, once its first 1 KiB has come, seen in its half. -/
def loadwStartAt (c : CoreId) (s : State) : Out :=
  match (s.core c).arr.loads with
  | l :: rest =>
    if s.coreOn c && !l.started && (s.core c).arr.loadFree l then
      let (t, k) := s.readTile c l
      let came := k.code == .done || decide (1024 ≤ k.came)
      let nh := match l.slots with | some (_, _, n, _) => n | none => false
      let t := if came then t.bufWrite c (halfWords l.op.whalf) else t
      .next (t.onArr c (fun a => { a with
        loads := { l with started := true, code := k.code } :: rest
        halves := if came then vmod a.halves l.op.whalf (fun h => { h with cur := l.seq, bytes := k.w, md := k.md, nhalf := nh }) else a.halves }))
    else .next s
  | [] => .next s

/-- What a failed load gives the runs that use it (R71, R79, 07 R163). -/
def runCodeOf (e : Code) : Code := if e = .limit then .shape else .poisoned

/-- The last byte lands, or the load stops on an error: the half becomes READY or BAD, and runs of a failed load end. -/
def loadwCompleteAt (c : CoreId) (s : State) : Out :=
  match (s.core c).arr.loads with
  | l :: rest =>
    if s.coreOn c && l.started then
      let st : HalfState := if l.code = .done then .ready else if l.code = .limit then .empty else .bad
      let s := s.onArr c (fun a => { a with
        loads := rest
        halves := vmod a.halves l.op.whalf (fun h => if h.issued = l.seq then { h with state := st, last := some l.code } else h) })
      let bad := if l.code = .done then [] else (s.core c).arr.runs.filter (fun r => r.load == l.seq)
      let s := s.finish l.owner l.code
      .next ((bad.foldl (fun t r => t.endRun c r (runCodeOf l.code)) s).nestSettle c)
    else .next s
  | [] => .next s

def execLoadwComplete (c : CoreId) (s : State) : Out := asCore c (loadwCompleteAt c) s

/-! ## Runs (R72-R79) -/

def execMmaRun (h : Th) (op : RunOp) (cpl : Reg) (s : State) : Out :=
  s.engine h cpl (s.arrRoom h (some op.group) && decide ((s.core h.core).arr.queued < 16)) (fun c s =>
    s.runIssue h.core (s.part h.core) (.thread c) op none (s.nestHolds h.core op.group))

/-- The head of the run queue starts when all it needs is there and the array is warm (R76, R82); it ends here if its
stream ended before its first row (R79, 13 R281). -/
def execRunStart (c : CoreId) (s : State) : Out :=
  match (s.core c).arr.nextRun with
  | some r =>
    if s.coreOn c && !r.started && (s.feed c r 0 == .ended) then .next ((s.endRun c r .incomplete).nestSettle c)
    else if s.coreOn c && s.runReady c r then
      match (s.core c).arr.warmth with
      | .cold => .next (s.arrayUp c)
      | .upWaiting => .next s
      | .rampDown => .next s
      | _ =>
        let t := s.wantWarm c
        .next (t.onArr c (fun a => { a with runs := a.runs.map (fun x => if x.seq = r.seq then { x with started := true } else x) }))
    else .next s
  | none => .next s

/-- The causes of R77 that hold for the next row of a started run. A row that waits only for rows of earlier runs that are on
their way is no cause, since a freeze would hold those rows too (log 156). -/
def State.freezeCauses (s : State) (c : CoreId) (r : RunCmd) (late : Bool) : BitVec 5 :=
  let a := (s.core c).arr
  let loading := a.loads.any (fun l => l.seq == r.load && l.started)
  let bit (b : Bool) (i : Nat) : BitVec 5 := if b then BitVec.ofNat 5 (2 ^ i) else 0
  let (act, side) := match s.feed c r r.entered with | .dry x y _ => (x, y) | _ => (false, false)
  bit act 0 ||| bit (a.tileBad r || (late && loading)) 1 ||| bit side 2
    ||| bit (!(outRows r.op r.entered).all (s.preloaded c r.op.group)) 3

/-- The group whose write port the preload at the head of the transfer path takes in this cycle (R78): in cycles in which its memory
delivers, which is left to timing. -/
def State.portTaken (s : State) (c : CoreId) : Option GroupId :=
  match (s.core c).arr.xfers with
  | .preload _ _ g _ _ _ _ cols rows true moved .done :: _ => if moved < cols * rows ∧ Config.freeBool s.free then some g else none
  | _ => none

/-- An output row reaches the write stage in a cycle in which a preload holds its group's port (R77). -/
def State.drainBlock (s : State) (c : CoreId) : Bool :=
  (s.core c).arr.pipe.any (fun p => p.due == (s.core c).arr.cycle && s.portTaken c == some p.group)

/-- All causes of R77 that hold in this cycle. -/
def State.cycleCauses (s : State) (c : CoreId) (late : Bool) : BitVec 5 :=
  (match (s.core c).arr.nextRun.filter (·.started) with | some r => s.freezeCauses c r late | none => 0)
    ||| (if s.drainBlock c then 16 else 0)

/-- Up to `n` moves of a preload, each of at most 64 elements of one row, in ascending row order (R78). -/
def State.preloadMove (c : CoreId) : Nat → State → State
  | 0, s => s
  | n + 1, s =>
    match (s.core c).arr.xfers with
    | .preload o p g a f st fac cols rows true moved .done :: rest =>
      if cols * rows ≤ moved then s
      else
        let i := moved / cols
        let j := moved % cols
        let (t, bs, e) := s.readRange p (a + elemBytes f (i * st + j)) (elemBytes f (min 64 (cols - j)))
        let got := bs.length * 8 / fmtBits f
        let key (k : Nat) : Nat := if fac = 2 then (2 * i + k / 128) * 128 + k % 128 else i * (s.group c g).cols + k
        let t := t.bufWrite c (accWords g ((List.range got).map (fun k => key (j + k))))
        let t := t.onAg c g (fun x => { x with elems := ((codesOf f bs got).zipIdx).foldl (fun b w =>
          Tab.set 0 b (key (j + w.2)) (preloadWord f w.1)) x.elems })
        (t.onArr c (fun x => { x with xfers := .preload o p g a f st fac cols rows true (moved + got) e :: rest })).preloadMove c n
    | _ => s

/-- The weights a run's rows meet: its own once moved, those the PEs hold, or its half's (R73). -/
def runWeights (a : Arr) (r : RunCmd) : List Byte × List Byte × Bool :=
  if r.moved then (r.weights, r.md, r.nhalf)
  else match a.held with
    | some (h, l, w, m, n) =>
      if h = r.op.whalf ∧ l = r.load then (w, m, n)
      else (a.halves[r.op.whalf.val].bytes, a.halves[r.op.whalf.val].md, a.halves[r.op.whalf.val].nhalf)
    | none => (a.halves[r.op.whalf.val].bytes, a.halves[r.op.whalf.val].md, a.halves[r.op.whalf.val].nhalf)

/-- A real row enters: its result is fixed by the values its group holds now (02 R50, 03 R75). -/
def State.enterRow (s : State) (c : CoreId) (r : RunCmd) (act : List Val) (fromAct fromSide : Nat) (under : Bool) : State :=
  let a := (s.core c).arr
  let op := r.op
  let g := geometry op.spo r.wide op.fmtA op.fmtW
  let (w, m, nh) := runWeights a r
  let r' : RunCmd := { r with entered := r.entered + 1, moved := true, weights := w, md := m, nhalf := nh }
  let (vals, acc) := rowResult (s.group c op.group) r' r.entered act.toArray
  let row : RowInFlight :=
    { run := r.seq, group := op.group, row := r.entered, due := a.cycle + g.latency - 1, vals := vals
      flags := { accSat := acc.sat, nonfinite := acc.nonfin }, satK := if acc.sat then some op.ktile.toNat else none
      lastRow := r.entered + 1 == op.rows.toNat }
  let s := s.onArr c (fun a => { a with
    runs := a.runs.map (fun x => if x.seq = r.seq then r' else x)
    pipe := a.pipe ++ [row], cycle := a.cycle + g.interval, held := some (op.whalf, r.load, w, m, nh)
    frozen := false, filling := false, idleSince := s.now, fedAt := some a.cycle })
  let s := if op.asrc then s.strmTake c op.astrm fromAct else s
  let s := s.strmTake c op.sstrm fromSide
  let tileUnder := r.entered == 0 && op.fmtW == 0xE && px8eUnder w
  if under || tileUnder then s.setStrmFlags c op.sstrm { sideUnder := true } else s

/-- An empty row, or its fill, in place of a real one (R76, R81); `held` says that a ready run is held for its upward grant, a
cycle that is counted (R90). -/
def Arr.emptyRow (a : Arr) (held : Bool) : Arr :=
  { a.fillCycle a.fillOn with
    frozen := false, cycle := a.cycle + 1, coldWait := if held && a.warmth == .upWaiting then satInc 32 a.coldWait else a.coldWait }

/-- The last real row has left the feeder, whose stage is 8 cycles, since the array was last granted an upward step. -/
def Arr.feederDone (a : Arr) : Bool :=
  match a.fedAt with
  | some e => decide (e + 8 ≤ a.cycle)
  | none => false

/-- One cycle of the array without a freeze. A started run whose array has gone cold waits for an upward grant again (R82); with
fill disabled the array asks for its downward step in the cycle after its last row has left the feeder (R83). -/
def State.rowCycle (s : State) (c : CoreId) : State :=
  let a := (s.core c).arr
  match a.nextRun with
  | some r =>
    if r.started then
      if !s.pipeReady c r r.entered then s.onArr c (·.emptyRow false)
      else match s.feed c r r.entered, a.warmth with
        | .ready _ _ _ _, .cold => (s.onArr c (·.emptyRow true)).arrayUp c
        | .ready _ _ _ _, .upWaiting => s.onArr c (·.emptyRow true)
        | .ready _ _ _ _, .rampDown => s.onArr c (·.emptyRow true)
        | .ready act n k u, _ =>
          match s.bufRead c (s.rowWords c r r.entered n k) with
          | (t, true) => (t.endRun c r .uncorrectable).nestSettle c
          | (t, false) => (t.wantWarm c).enterRow c r act n k u
        | _, _ => s
    else
      let t := s.onArr c (·.emptyRow (s.runReady c r))
      if a.warmth = .warm ∧ !a.fillEn ∧ a.feederDone ∧ !s.runReady c r then t.arrayDown c else t
  | none =>
    let t := s.onArr c (·.emptyRow false)
    if a.warmth = .warm ∧ !a.fillEn ∧ a.feederDone then t.arrayDown c else t

/-- One array cycle, or row interval: a freeze, a real row or an empty row (R76, R77, R81-R83). `late` says that crown
delivery has fallen behind the swap wavefront. A row past its cycle of writing must be written first. The preload at the head of
the transfer path moves with the cycle, ahead of the array. -/
def execRowEntry (c : CoreId) (late : Bool) (s : State) : Out :=
  let a := (s.core c).arr
  if !s.coreOn c ∨ a.pipe.any (fun p => decide (p.due < a.cycle)) then .next s
  else
    match a.nextRun.filter (fun r => r.started && s.feed c r r.entered == .ended) with
    | some r => .next ((s.endRun c r .incomplete).nestSettle c)
    | none =>
      let causes := s.cycleCauses c late
      let t := if causes ≠ 0 then s.onArr c (fun a => { a.fillCycle a.fillOn with
          frozen := true, freezes := (a.freezes + 1) % 2 ^ 64, cause := a.cause ||| causes })
        else s.rowCycle c
      .next (if (s.portTaken c).isSome then { t with free := t.free + 1 }.preloadMove c 1 else t)

/-- The oldest row whose cycle of writing has passed is written into its group (R75); the last row of a run completes it. -/
def execOutputRowWrite (c : CoreId) (s : State) : Out :=
  let a := (s.core c).arr
  match a.pipe.find? (fun p => decide (p.due < a.cycle)) with
  | some p =>
    if s.coreOn c then
      let s := s.onArr c (fun a => { a with
        pipe := a.pipe.erase p
        runs := a.runs.map (fun r => if r.seq = p.run then { r with written := r.written + 1 } else r)
        groups := vmod a.groups p.group (fun g => { g with
          elems := p.vals.foldl (fun t v => Tab.set 0 t v.1 v.2) g.elems
          satK := if g.satSeen then g.satK else p.satK.getD g.satK
          satSeen := g.satSeen || p.satK.isSome }) })
      let s := (s.bufWrite c (accWords p.group (p.vals.map (·.1)))).setAgFlags c p.group p.flags
      match a.runs.find? (fun r => r.seq == p.run) with
      | some r =>
        if p.lastRow then
          .next (((s.onArr c (fun a => { a with runs := a.runs.filter (fun x => x.seq != p.run) })).finish r.owner .done).nestSettle c)
        else .next s
      | none => .next s
    else .next s
  | none => .next s

/-! ## Groups (02 R52-R53) and the transfer path (R78) -/

def execAgOpen (h : Th) (op : OpenOp) (cpl : Reg) (s : State) : Out :=
  s.engine h cpl (s.arrRoom h (some op.group)) (fun c s =>
    let p := s.part h.core
    let o : Owner := .thread c
    let go (pre : Option (Nat × BitVec 4)) : State :=
      s.agOpen h.core p o op.group op.acctInt op.width op.rows pre op.width op.width op.rows
    if s.nestHolds h.core op.group then s.finish o .shape
    else match op.pre with
      | none => go none
      | some (g, f) =>
        if s.deviceBad p g then s.finish o .unmapped
        else match s.localOf p g with
          | .ok a => go (some (a, f))
          | .error e => s.finish o ((s.agOpenBad h.core op.group op.acctInt op.width op.rows (some f)).getD e))

def preloadStartAt (c : CoreId) (s : State) : Out :=
  match (s.core c).arr.xfers with
  | .preload o p g a f st fac cols rows false m b :: rest =>
    if s.coreOn c then .next (s.onArr c (fun x => { x with xfers := .preload o p g a f st fac cols rows true m b :: rest })) else .next s
  | _ => .next s

def execPreloadStart (c : CoreId) (s : State) : Out := asCore c (preloadStartAt c) s

/-- A preload ends: what is left of it moves, and every element it did not reach is +0 (R52). -/
def preloadCompleteAt (c : CoreId) (s : State) : Out :=
  match (s.core c).arr.xfers with
  | .preload _ _ _ _ _ _ _ cols rows true _ _ :: _ =>
    if s.coreOn c then
      let t := s.preloadMove c (rows * ceilDiv cols 64 + 1)
      match (t.core c).arr.xfers with
      | .preload o _ g _ _ _ _ _ _ _ _ e :: rest =>
        let t := (t.onAg c g (fun k => { k with loading := false })).onArr c (fun x => { x with xfers := rest })
        .next ((t.finish o e).nestSettle c)
      | _ => .next t
    else .next s
  | _ => .next s

def execPreloadComplete (c : CoreId) (s : State) : Out := asCore c (preloadCompleteAt c) s

def execAgClose (h : Th) (op : CloseOp) (cpl : Reg) (s : State) : Out :=
  s.engine h cpl (s.arrRoom h (some op.group)) (fun c s =>
    s.agClose h.core (s.part h.core) (.thread c) op 0 0 (s.nestHolds h.core op.group))

/-! ## Warmth (R82) -/

/-- The idle timer reaches 4 us: a downward step is requested. -/
def execIdleTimerExpiry (c : CoreId) (s : State) : Out :=
  let a := (s.core c).arr
  if s.coreOn c && a.warmth == .warm && decide (a.idleSince + 4000 ≤ s.now) then .next (s.arrayDown c) else .next s

end Sys2Proof.Machine
end

