-- ==== Sys2Proof/Machine/Sha384.lean ====
section
/-! DEFINITION. SHA-384 (FIPS 180-4), which the measurements, weight lists, slots and quotes use (18 R392-R396, 19 R418). Its
constants are the fractional parts of square and cube roots of primes, found here by integer roots. -/

namespace Sys2Proof.Machine

/-- The largest `x < acc + 2^n` from `acc` up with `x^k <= v`. -/
def rootGo (k v : Nat) : Nat → Nat → Nat
  | 0, acc => acc
  | n + 1, acc => rootGo k v n (if (acc + 2 ^ n) ^ k ≤ v then acc + 2 ^ n else acc)

/-- The first primes below 410: 80 of them. -/
def primes80 : List Nat :=
  ((List.range 410).filter (fun n => 2 ≤ n && (List.range n).all (fun d => d < 2 || n % d != 0))).take 80

/-- 64 bits of the fractional part of a `k`-th root. -/
def rootBits (k p : Nat) : BitVec 64 := BitVec.ofNat 64 (rootGo k (p * 2 ^ (64 * k)) 72 0)

def shaK : List (BitVec 64) := primes80.map (rootBits 3)

/-- The initial hash value: square roots of the ninth to sixteenth primes. -/
def shaH : List (BitVec 64) := ((primes80.drop 8).take 8).map (rootBits 2)

/-- The big-endian value of bytes. -/
def beNat (bs : List Byte) : Nat := bs.foldl (fun n b => 256 * n + b.toNat) 0

def beBytes (n x : Nat) : List Byte := (leBytes n x).reverse

/-- The message padded to whole blocks of 128 bytes. -/
def shaPad (bs : List Byte) : List Byte :=
  let n := bs.length
  bs ++ [0x80] ++ List.replicate ((239 - n % 128) % 128) 0 ++ beBytes 16 (8 * n)

/-- The message schedule: 16 words of the block, then 64 more; held newest first. -/
def shaSchedule (block : List Byte) : List (BitVec 64) :=
  let first := (List.range 16).map (fun i => BitVec.ofNat 64 (beNat ((block.drop (8 * i)).take 8)))
  let grow (l : List (BitVec 64)) (_ : Nat) : List (BitVec 64) :=
    let x := nth 0 l 14
    let y := nth 0 l 1
    let s0 := x.rotateRight 1 ^^^ x.rotateRight 8 ^^^ (x >>> 7)
    let s1 := y.rotateRight 19 ^^^ y.rotateRight 61 ^^^ (y >>> 6)
    (nth 0 l 15 + s0 + nth 0 l 6 + s1) :: l
  ((List.range 64).foldl grow first.reverse).reverse

/-- One round on a, b, ..., h. -/
def shaRound (v : List (BitVec 64)) (kw : BitVec 64) : List (BitVec 64) :=
  match v with
  | [a, b, c, d, e, f, g, h] =>
    let t1 := h + (e.rotateRight 14 ^^^ e.rotateRight 18 ^^^ e.rotateRight 41) + ((e &&& f) ^^^ (~~~e &&& g)) + kw
    let t2 := (a.rotateRight 28 ^^^ a.rotateRight 34 ^^^ a.rotateRight 39) + ((a &&& b) ^^^ (a &&& c) ^^^ (b &&& c))
    [t1 + t2, a, b, c, d + t1, e, f, g]
  | v => v

/-- One block. -/
def shaBlock (h : List (BitVec 64)) (block : List Byte) : List (BitVec 64) :=
  let kw := List.zipWith (· + ·) shaK (shaSchedule block)
  List.zipWith (· + ·) h (kw.foldl shaRound h)

def shaGo : Nat → List Byte → List (BitVec 64) → List (BitVec 64)
  | 0, _, h => h
  | n + 1, bs, h => shaGo n (bs.drop 128) (shaBlock h (bs.take 128))

/-- The 48-byte digest. -/
def sha384 (bs : List Byte) : List Byte :=
  let p := shaPad bs
  ((shaGo (p.length / 128) p shaH).take 6).flatMap (fun w => beBytes 8 w.toNat)

end Sys2Proof.Machine
end

