-- ==== Sys2Proof/Machine/Attest.lean ====
section
/-! DEFINITION. What a module's torus neighbours know of it: whether it is silent, and whether its attestation is accepted
(14 R313, 18 R396). -/

namespace Sys2Proof.Machine

/-- The torus neighbours of a module by direction (14 R306). -/
def torusNeighbours (d : Nat) : List (Nat × Nat) := (List.range 8).map (fun k => (k, stepDir d k))

/-- Every torus neighbour of a module that is a member and does not leave with it is among those who report. -/
def State.allReport (s : State) (d : Nat) (leaving reports : List Nat) : Bool :=
  (torusNeighbours d).all (fun k => k.2 == d || !s.net.members.contains k.2 || leaving.contains k.2 || reports.contains k.2)

/-- This module's own ports towards a neighbour. -/
def portsTo (a d : Nat) : List PortId := ((torusNeighbours a).filter (fun k => k.2 == d)).flatMap (fun k => dirPorts k.1)

/-- This module reports a neighbour silent when no port that leads to it hears it (14 R313). -/
def State.findsSilent (s : State) (d : Nat) : Bool := (portsTo s.dev d).all (fun n => (s.port n).silent || !s.portLive n)

/-- A member may leave now (14 R313): its own steward has announced it, or all its torus neighbours find it silent, this module by
its own ports where it is one of them. The twin is silent when no PAIR port is up. -/
def State.mayLeave (s : State) (leaving : List Nat) (l : Leave) : Bool :=
  l.announced || (if l.dev = twinName s.dev then !sidePorts.any s.portLive
    else s.allReport l.dev leaving l.silentFor && (!l.silentFor.contains s.dev || s.findsSilent l.dev))

/-- MR2 as the measurement log builds it (18 R392, R396). -/
def replayLog (l : MeasLog) : List Byte :=
  (l.cfgDigest :: l.tables).foldl (fun m d => sha384 (m ++ d)) (List.replicate 48 0)

/-- A neighbour's quote and measurement log are accepted (18 R396). -/
def State.accepts (s : State) (e : Evidence) : Bool :=
  match s.boot.cfg, Config.chainLeaf e.chain with
  | some c, some device =>
    let body := e.cert.take (e.cert.length - 96)
    let attest := body.take (body.length - 144)
    let mr (i : Nat) : List Byte := (e.quote.drop (48 + 48 * i)).take 48
    decide (e.quote.length = 400) && nth 0xFF e.quote 288 == 0
      && Config.ecdsaVerify device (sha384 body) (e.cert.drop (e.cert.length - 96))
      && Config.ecdsaVerify attest (sha384 (e.quote.take 304)) (e.quote.drop 304)
      && c.accepted.contains (mr 0) && c.accepted.contains (mr 1)
      && replayLog e.log == mr 2
      && s.sec.owners.getLast? == some (sha384 e.log.ownerKey)
      && Config.ecdsaVerify e.log.ownerKey (sha384 (e.log.cfgDigest ++ leBytes 4 e.log.seq.toNat)) e.log.cfgSig
  | _, _ => false

/-- A module may join now (14 R313, 18 R396): each torus neighbour that is a member reports its links locked and its attestation
accepted, this module by its own ports and its own check where it is one of them; the twin by the PAIR port. -/
def State.mayJoin (s : State) (j : Join) : Bool :=
  if j.dev = twinName s.dev then sidePorts.any s.portLive
  else s.allReport j.dev [] j.acceptedBy
    && (!j.acceptedBy.contains s.dev || ((portsTo s.dev j.dev).any s.portLive && j.shown.any s.accepts))

end Sys2Proof.Machine
end

