-- ==== Sys2Proof/Machine/Quantiser.lean ====
section
/-! DEFINITION. The quantiser (07 R152-R166): rescale tables, the rotation, passes, slots and their fence, and the drains
of closes (02 R53, R56). -/

namespace Sys2Proof.Machine

def State.onQnt (s : State) (c : CoreId) (f : Qnt → Qnt) : State := s.onCore c (fun k => { k with qnt := f k.qnt })

/-- Queues a quantiser command in the issue order it shares with the closes (R154). -/
def State.qntPush (s : State) (c : CoreId) (o : Owner) (p : PartId) (op : QntOp) : Nat × State :=
  let (n, t) := s.nextSeq c
  (n, t.onQnt c (fun q => { q with queue := q.queue ++ [⟨o, p, n, op⟩] }))

def State.qntRoom (s : State) (c : CoreId) : Bool := decide ((s.core c).qnt.queue.length < 16)

/-! ## Tables (R152) -/

/-- The checks of a table command, in the order R152 gives them. -/
def State.tabCheck (s : State) (p : PartId) (op : QntTabOp) (load : Bool) : Except Code Nat :=
  if s.deviceBad p op.addr then .error .unmapped
  else if op.count = 0 ∨ 4096 < op.first + op.count then .error .shape
  else if op.addr.toNat % 64 ≠ 0 then .error .align
  else match s.localOf p op.addr with
    | .error e => .error e
    | .ok a =>
      match s.checkRange p a (8 * op.count) (if load then .read else .write) with
      | .done =>
        if load && !s.rangeIn p a (8 * op.count) .read (fun x => !s.isDram x) then .error .unmapped else .ok a
      | e => .error e

def tabIssue (h : Th) (op : QntTabOp) (cpl : Reg) (load : Bool) (s : State) : Out :=
  s.engine h cpl (s.qntRoom h.core) (fun c s =>
    match s.tabCheck (s.part h.core) op load with
    | .error e => s.finish (.thread c) e
    | .ok a =>
      let o := { op with addr := BitVec.ofNat 64 a }
      (s.qntPush h.core (.thread c) (s.part h.core) (if load then .ldtab o else .sttab o)).2)

def execQntLdtab (h : Th) (op : QntTabOp) (cpl : Reg) (s : State) : Out := tabIssue h op cpl true s
def execQntSttab (h : Th) (op : QntTabOp) (cpl : Reg) (s : State) : Out := tabIssue h op cpl false s

/-- Loads table entries: those before a word that cannot be read stay written, with POISONED for a memory error. -/
def State.runLdtab (s : State) (c : CoreId) (p : PartId) (op : QntTabOp) : State × Code :=
  let (t, bs, e) := s.readRange p op.addr.toNat (8 * op.count)
  let ws := (List.range (bs.length / 8)).map (fun i => (w32 (fieldAt bs (8 * i) 4), w32 (fieldAt bs (8 * i + 4) 4)))
  ((t.onQnt c (fun q => { q with tables := Tab.setList (0, 0) q.tables (4096 * op.table.val + op.first) ws })).bufWrite c
    (tableWords ((List.range ws.length).map (fun i => 4096 * op.table.val + op.first + i))), if e = .uncorrectable then .poisoned else e)

/-- Entries of a table up to the first whose word has a double-bit error (11 R236, 00 R465). -/
def State.goodEntries (c : CoreId) : Nat → Nat → State → State × Nat
  | 0, _, s => (s, 0)
  | n + 1, i, s =>
    match s.bufRead c (tableWords [i]) with
    | (t, true) => (t, 0)
    | (t, false) => let (u, k) := t.goodEntries c n (i + 1); (u, k + 1)

def State.runSttab (s : State) (c : CoreId) (p : PartId) (op : QntTabOp) : State × Code :=
  let (s, n) := s.goodEntries c op.count (4096 * op.table.val + op.first)
  let es := Tab.getList ((0 : Word), (0 : Word)) (s.core c).qnt.tables (4096 * op.table.val + op.first) n
  let (t, e) := s.writeRange c p op.addr.toNat (es.flatMap (fun e => leBytes 4 e.1.toNat ++ leBytes 4 e.2.toNat))
  (t, if e = .done ∧ n < op.count then .uncorrectable else e)

/-! ## Slots and the step fence (R164-R166, R171) -/

/-- FMT values that enable a slot (R171). -/
def slotEnabled (f : BitVec 4) : Bool :=
  (1 ≤ f.toNat && f.toNat ≤ 5) || (8 ≤ f.toNat && f.toNat ≤ 0xA) || f == 0xE

/-- fmax of R165. -/
def slotMax (f : BitVec 4) : Val :=
  match fpOf f with
  | some p => p.decode p.maxCode
  | none => .ofInt (match f.toNat with | 9 => 255 | 0xA => 7 | _ => 127)

/-- The largest e with m * 2^e at most fmax (R165). -/
def slotExp (f : BitVec 4) (m : Word) : Int :=
  match f32 m, slotMax f with
  | .fin _ a e, .fin _ b g =>
    let x := (g + Nat.log2 b) - (e + Nat.log2 a)
    if (Val.fin false b g).lt (.fin false a (e + x)) then x - 1 else x
  | _, _ => 0

/-- One slot at the fence (R165). -/
def Slot.advance (t : Slot) : Slot :=
  if !slotEnabled t.fmt then t
  else
    let push := 0 < t.amax.toNat || (t.seen && !t.seenNf)
    let h := if push then t.hist ++ [t.amax] else t.hist
    let h := if t.hlen + 1 < h.length then h.drop (h.length - (t.hlen + 1)) else h
    let m := maxWord h
    let e := if 0 < m.toNat ∧ !t.static_ then max (-126) (min 127 (slotExp t.fmt m - t.margin)) else t.exp
    { t with hist := h, exp := e, amax := 0, seen := false, seenNf := false }

/-- The exponent of the slot that an output scale names, as the slot stands. -/
def slotNow (slots : Tab Slot) : ScaleMode → Int
  | .slot i => (Tab.get {} slots i.val).exp
  | _ => 0

/-- A pass keeps the EXP it was accepted with, but a pass issued after a fence uses the EXP the fence leaves (R159, R166; log 76). -/
def QntCmd.afterFence (slots : Tab Slot) (k : QntCmd) : QntCmd :=
  match k.op with
  | .pass o ci co _ => { k with op := .pass o ci co (slotNow slots o.oscale) }
  | _ => k

/-- Every enabled slot of the core advances at once, and the passes that wait behind take the new exponents. -/
def State.runStep (s : State) (c : CoreId) : State :=
  s.onQnt c (fun q =>
    let slots := (List.range 64).foldl (fun t i => Tab.mod {} t i Slot.advance) q.slots
    { q with slots := slots, queue := q.queue.map (QntCmd.afterFence slots) })

def execQntStep (h : Th) (cpl : Reg) (s : State) : Out :=
  s.engine h cpl (s.qntRoom h.core) (fun c s => (s.qntPush h.core (.thread c) (s.part h.core) .step).2)

/-- Records a pass's elements into its slot (R164): values after stage 3. -/
def Slot.record (t : Slot) (vs : List Word) : Slot :=
  vs.foldl (fun t v =>
    if f32IsFin v then { t with seen := true, amax := if t.amax.toNat < v.toNat % 2 ^ 31 then w32 (v.toNat % 2 ^ 31) else t.amax }
    else { t with seen := true, seenNf := true, nf := satInc 32 t.nf }) t

/-! ## The rotation (R155, R156) -/

def rotSign (seed : BitVec 64) (i : Nat) : Bool :=
  let sl : Word := seed.setWidth 32
  let sh : Word := (seed >>> 32).setWidth 32
  ((((w32 i ^^^ sl) * 0x9e3779b1) ^^^ sh) * 0x85ebca6b).getLsbD 31

def flips (sign : Bool) (seed : BitVec 64) (x : Array Word) : Array Word :=
  if sign then x.mapIdx (fun i w => if rotSign seed i then w ^^^ 0x80000000 else w) else x

/-- The butterfly stages h = 2^k, 2^(k+1), .. of a block of 2^b, `n` of them left. -/
def butterflies : Nat → Nat → Array Word → Array Word
  | 0, _, x => x
  | n + 1, h, x =>
    butterflies n (2 * h) (x.mapIdx (fun i w =>
      if i / h % 2 = 0 then f32Add w (x.getD (i + h) 0) else f32Sub (x.getD (i - h) 0) w))

def normVal (b : Nat) : Val :=
  if b % 2 = 0 then .fin false 1 (-((b / 2 : Nat) : Int)) else (f32 0x3FB504F3).scale (-(((b + 1) / 2 : Nat) : Int))

def normed (b : Nat) (x : Array Word) : Array Word := x.map (fun w => toF32 ((f32 w).mul (normVal b)))

def hadamard (b : Nat) (sign inv : Bool) (seed : BitVec 64) (x : Array Word) : Array Word :=
  if inv then flips sign seed (normed b (butterflies b 1 x)) else normed b (butterflies b 1 (flips sign seed x))

/-! ## Passes: acceptance (R157-R159, R171) -/

/-- Why a pass is refused (VARIES apart), in the order its conditions stand in R157, R158, R171 and 02 R45. -/
def State.passCheck (s : State) (c : CoreId) (o : QntPassOp) : Code :=
  let slotBad : Bool := match o.oscale with
    | .slot i => !slotEnabled (Tab.get ({} : Slot) (s.core c).qnt.slots i.val).fmt
    | _ => false
  let rotBad : Bool := match o.rot with
    | some b => decide (b < 5 ∨ 12 < b ∨ o.width % 2 ^ b ≠ 0 ∨ o.count % 2 ^ b ≠ 0)
    | none => false
  let inSlot : Bool := match o.iscale with | .slot _ => true | _ => false
  if rotBad ∨ inSlot ∨ o.width = 0 ∨ 65536 < o.width ∨ (fmtPaired o.fmtOut ∧ o.outPair = o.outS)
      ∨ (fmtPaired o.fmtIn ∧ o.inPair = o.inS) then .shape
  else if fmtReserved o.fmtIn ∨ fmtReserved o.fmtOut ∨ o.ovf = 3 ∨ slotBad then .format
  else .done

/-- A channel vector, read once as the pass is accepted (R149): WIDTH FP32 values in core memory or the crown. -/
def State.readChan (s : State) (p : PartId) (m : ScaleMode) (width : Nat) : State × List Word × Code :=
  match m with
  | .channel g =>
    match s.localOf p g with
    | .error e => (s, [], e)
    | .ok a =>
      match s.checkRange p a (4 * width) .read with
      | .done =>
        if !s.rangeIn p a (4 * width) .read (fun x => !s.isDram x) then (s, [], .unmapped)
        else
          let (t, bs, e) := s.readRange p a (4 * width)
          (t, (List.range width).map (fun i => w32 (fieldAt bs (4 * i) 4)), e)
      | e => (s, [], e)
  | _ => (s, [], .done)

def chanDeviceBad (s : State) (p : PartId) : ScaleMode → Bool
  | .channel g => s.deviceBad p g
  | _ => false

def execQntPass (h : Th) (op : QntPassOp) (cpl : Reg) (s : State) : Out :=
  s.engine h cpl (s.qntRoom h.core) (fun c s =>
    let o : Owner := .thread c
    let p := s.part h.core
    if chanDeviceBad s p op.iscale || chanDeviceBad s p op.oscale then s.finish o .unmapped
    else if op.rnd = 3 ∧ s.det h.core ∧ (s.core h.core).rng.fresh then s.varies h.core o
    else match s.passCheck h.core op with
      | .done =>
        let (s, ci, e) := s.readChan p op.iscale op.width
        if e ≠ .done then s.finish o e
        else
          let (s, co, e) := s.readChan p op.oscale op.width
          if e ≠ .done then s.finish o e
          else
            let (n, s) := s.qntPush h.core o p (.pass op ci co (slotNow (s.core h.core).qnt.slots op.oscale))
            if op.rnd = 3 then s.pushConsumer h.core (.quantiser n) else s
      | e => s.finish o e)

/-! ## Passes: the data path (R159) -/

/-- Elements of the next segment: a rotation block, an MX block of either side, or what shares a byte. -/
def segLen (o : QntPassOp) (done : Nat) : Nat :=
  let left := min (o.count - done) (o.width - done % o.width)
  match o.rot with
  | some b => 2 ^ b
  | none =>
    if fmtIsMx o.fmtIn || fmtIsMx o.fmtOut then min left (32 - done % o.width % 32)
    else if fmtBits o.fmtIn = 4 ∨ fmtBits o.fmtOut = 4 then min left 2 else min left 1

/-- The multiplier of a scale at a row position; none when there is none. -/
def scaleVal (m : ScaleMode) (chan : List Word) (exp : Int) (pos : Nat) : Option Val :=
  match m with
  | .none => none
  | .tensor v => some (f32 v)
  | .channel _ => some (f32 (nth 0 chan pos))
  | .slot _ => some (.fin false 1 exp)

/-- What a segment reads: its values, the bytes to take, and whether its side list ran out. -/
inductive SegRead where
  | got (vs : List Val) (n pair : Nat) (under : Bool)
  | wait
  | ended
  deriving DecidableEq, Repr

/-- Stage 1 of R159. -/
def State.segRead (s : State) (c : CoreId) (o : QntPassOp) (n : Nat) : SegRead :=
  let nb := elemBytes o.fmtIn n
  match s.strmPeek c o.inS 0 nb with
  | .wait => .wait
  | .ended => .ended
  | .bytes bs =>
    let codes := codesOf o.fmtIn bs n
    if fmtIsMx o.fmtIn then
      let k := ceilDiv n 32
      match s.strmPeek c o.inPair 0 k with
      | .wait => .wait
      | .ended => .ended
      | .bytes sc => .got (scaleElems o.fmtIn codes (List.range k) (sc.map (·.toNat))) nb k false
    else if o.fmtIn = 0xE then
      let need := (codes.filter (· == 0x80)).length
      match s.strmPeek c o.inPair 0 (2 * need) with
      | .wait => .wait
      | .bytes es => .got (fillEscapes codes (codesOf 0x2 es need)) nb (2 * need) false
      | .ended =>
        let k := min need (s.strmAvail c o.inPair / 2)
        match s.strmPeek c o.inPair 0 (2 * k) with
        | .bytes es => .got (fillEscapes codes (codesOf 0x2 es k)) nb (2 * k) true
        | _ => .got (fillEscapes codes []) nb 0 true
    else .got (codes.map (decodeElem o.fmtIn)) nb 0 false

/-- A converted run of elements: pieces for the stream and its paired stream, and the flags and saturations. -/
structure Piece where
  buf : List (List Byte × List Byte)
  flags : Flags := {}
  sats : Nat := 0
  deriving DecidableEq, Repr

/-- Converts values into an output format: a block per 32 in MX, one piece per element in PX8E, else one piece.
`convs` gives the conversion of one value with its random value. -/
def outPiece (fmt : BitVec 4) (rnd ovf : BitVec 2) (conv : Val → Nat → Conv) (vs : List Val) (rs : List Nat) : Piece :=
  if fmtIsMx fmt then
    let b := mxEncode fmt rnd vs rs
    { buf := [(bytesOf fmt b.codes, [BitVec.ofNat 8 b.scale])], flags := flagsOf b.sat b.nonfin
      sats := if b.sat then ((List.zipWith (mxElem fmt rnd (mxExp fmt (maxMag vs))) vs rs).filter (·.sat)).length else 0 }
  else if fmt = 0xE then
    let cs := List.zipWith (fun v r => px8eEncode rnd ovf r v) vs rs
    { buf := cs.map (fun p => ([BitVec.ofNat 8 p.1.code], match p.2 with | some e => leBytes 2 e | none => []))
      flags := flagsOf (cs.any (·.1.sat)) (cs.any (·.1.nonfin)), sats := (cs.filter (·.1.sat)).length }
  else
    let cs := List.zipWith conv vs rs
    { buf := [(bytesOf fmt (cs.map (·.code)), [])], flags := flagsOf (cs.any (·.sat)) (cs.any (·.nonfin))
      sats := (cs.filter (·.sat)).length }

/-- Joins pieces in order. -/
def Piece.append (a b : Piece) : Piece := { buf := a.buf ++ b.buf, flags := a.flags.join b.flags, sats := a.sats + b.sats }

/-- Cuts a list into runs of 32. -/
def cut32 {α : Type} : Nat → List α → List (List α)
  | 0, _ => []
  | k + 1, l => if l.isEmpty then [] else l.take 32 :: cut32 k (l.drop 32)

/-- Draws the random values of `n` elements from element `from_` of a conversion; none are drawn unless RND is 0b11. -/
def State.draw (s : State) (c : CoreId) (rnd : BitVec 2) (from_ n : Nat) : List Nat × State :=
  if rnd = 3 then
    let (bits, ls) := drawFrom (s.core c).rng.lanes from_ n
    (bits, s.onCore c (fun k => { k with rng := { k.rng with lanes := ls } }))
  else (List.replicate n 0, s)

/-- Ends a conversion that drew: half-used words are passed over and the unit is free (02 R43, 08 R174). -/
def State.endDraw (s : State) (c : CoreId) (rnd : BitVec 2) (n : Nat) : State :=
  if rnd = 3 then s.onCore c (fun k => { k with rng := { k.rng with lanes := closeDraw k.rng.lanes n, busy := none } }) else s

/-- Stages 2 to 5 on one segment that has been read. -/
def State.passSegment (s : State) (c : CoreId) (r : PassRun) (o : QntPassOp) (ci co : List Word) (vs : List Val)
    (nb pair : Nat) (under : Bool) : State :=
  let n := vs.length
  let pos (i : Nat) : Nat := (r.done + i) % o.width
  let st2 := vs.mapIdx (fun i v =>
    match scaleVal o.iscale ci 0 (pos i) with
    | some m => fp32.encode 1 0 0 (v.mul m)
    | none => convert o.fmtIn 0x0 1 0 0 v)
  let x2 := st2.map (fun k => w32 k.code)
  let x3 := match o.rot with
    | some b => (hadamard b o.sign o.inv o.seed x2.toArray).toList
    | none => x2
  let (rs, s) := s.draw c o.rnd r.done n
  let scaled := x3.mapIdx (fun i w => match scaleVal o.oscale co r.exp (pos i) with | some m => (f32 w).mul m | none => f32 w)
  let conv : Val → Nat → Conv := fun v q =>
    if o.oscale = .none then convert 0x0 o.fmtOut o.rnd o.ovf q v else encodeElem o.fmtOut o.rnd o.ovf q v
  let k := n / 32 + 1
  let out := (List.zipWith (outPiece o.fmtOut o.rnd o.ovf conv) (cut32 k scaled) (cut32 k rs)).foldl Piece.append { buf := [] }
  let s := (s.strmTake c o.inS nb).strmTake c o.inPair pair
  let s := if under then s.setStrmFlags c o.inS { sideUnder := true } else s
  let s := s.setStrmFlags c o.outS (out.flags.join (flagsOf false
    (st2.any (·.nonfin) || (o.rot.isSome && x3.any (fun w => !f32IsFin w)))))
  s.onQnt c (fun q => { q with
    pass := some { r with done := r.done + n, buf := out.buf }
    slots := match o.oscale with
      | .slot i => Tab.mod {} q.slots i.val (fun t => let u := t.record x3; { u with sat := satAdd 32 u.sat out.sats })
      | _ => q.slots })

/-- Ends the data path of the pass with a code; what is left unemitted is not written. -/
def State.passEnd (s : State) (c : CoreId) (r : PassRun) (code : Code) : State :=
  s.onQnt c (fun q => { q with pass := some { r with buf := [], ended := some code } })

/-- One movement of the running pass: emits one piece, or reads and converts one segment; none when it must wait. -/
def State.passMove (s : State) (c : CoreId) : Option State :=
  match (s.core c).qnt.pass with
  | none => none
  | some r =>
    match r.ended, r.cmd.op with
    | none, .pass o ci co _ =>
      match r.buf with
      | (a, b) :: rest =>
        match s.strmCanEmit c o.outS a.length, (if b.isEmpty then Emit.ok else s.strmCanEmit c o.outPair b.length) with
        | .wait, _ => none
        | _, .wait => none
        | x, y =>
          let t := (s.strmEmit c o.outS a).strmEmit c o.outPair b
          if x = .ok ∧ y = .ok then some (t.onQnt c (fun q => { q with pass := some { r with buf := rest } }))
          else some (t.passEnd c r .limit)
      | [] =>
        if o.count ≤ r.done then some (s.passEnd c r .done)
        else if !s.strmTurn c r.cmd.seq r.cmd.inputs then none
        else match s.segRead c o (segLen o r.done) with
          | .wait => none
          | .ended => some (s.passEnd c r .incomplete)
          | .got vs nb k u =>
            match s.bufRead c (fun w => s.strmWords c o.inS 0 nb w || s.strmWords c o.inPair 0 k w) with
            | (t, true) => some (t.passEnd c r .uncorrectable)
            | (t, false) => some (t.passSegment c r o ci co vs nb k u)
    | _, _ => none

/-! ## Drains (02 R53, R56, 07 R153-R154, R161) -/

/-- Group row and column of drained element `k`: rows ascending, columns ascending within a row. -/
def drainPlace (fac cols : Nat) : Nat → Nat → Nat → Nat × Nat
  | 0, r, k => (r, k)
  | fuel + 1, r, k => if k < rowCols fac cols r then (r, k) else drainPlace fac cols fuel (r + 1) (k - rowCols fac cols r)

def drainCount (fac cols rows : Nat) : Nat := ((List.range rows).map (rowCols fac cols)).sum

/-- The exact value of an accumulator element under its rescale entry, or as it stands (R56). -/
def State.drainVal (s : State) (c : CoreId) (op : CloseOp) (g : Group) (r col : Nat) : Val :=
  let w := Tab.get 0 g.elems (r * g.cols + col)
  let v : Val := if g.acctInt then .ofInt w.toInt else f32 w
  match op.table with
  | some t =>
    let e := Tab.get ((0 : Word), (0 : Word)) (s.core c).qnt.tables (4096 * t.val + rescaleEntry op.cmode op.cbase.toNat r col)
    (v.mul (f32 e.1)).add (f32 e.2)
  | none => v

/-- The words of the group and of its rescale table that draining `n` elements of a row reads (11 R236). -/
def drainWords (op : CloseOp) (g : Group) (r col n : Nat) (w : BufWord) : Bool :=
  accWords op.group ((List.range n).map (fun i => r * g.cols + col + i)) w
    || (match op.table with
      | some t => tableWords ((List.range n).map (fun i => 4096 * t.val + rescaleEntry op.cmode op.cbase.toNat r (col + i))) w
      | none => false)

/-- Ends the drain at the head of the transfer path with a code. -/
def State.drainEnd (s : State) (c : CoreId) (code : Code) : State :=
  s.onArr c (fun a => { a with xfers := match a.xfers with
    | .close o p n op fac cols rows true done none :: rest => .close o p n op fac cols rows true done (some code) :: rest
    | l => l })

/-- One movement of the started drain: up to 32 elements of one row enter the stream; none when it must wait. -/
def State.drainMove (s : State) (c : CoreId) : Option State :=
  match (s.core c).arr.xfers with
  | .close o p sq op fac cols rows true done none :: rest =>
    let g := s.group c op.group
    if drainCount fac cols rows ≤ done then some (s.drainEnd c .done)
    else
      let (r, col) := drainPlace fac cols rows 0 done
      let left := rowCols fac cols r - col
      let n := if op.fmt = 0xE then 1 else min left (32 - col % 32)
      let vs := (List.range n).map (fun i => s.drainVal c op g r (col + i))
      let (rs, t) := s.draw c op.rnd done n
      let src : BitVec 4 := if g.acctInt then 0x6 else 0x0
      let conv : Val → Nat → Conv := fun v q =>
        if op.table.isNone then convert src op.fmt op.rnd op.ovf q v else encodeElem op.fmt op.rnd op.ovf q v
      let out := outPiece op.fmt op.rnd op.ovf conv vs rs
      match out.buf with
      | [] => none
      | (a, b) :: _ =>
        match s.strmCanEmit c op.ostrm a.length, (if b.isEmpty then Emit.ok else s.strmCanEmit c op.pstrm b.length) with
        | .wait, _ => none
        | _, .wait => none
        | x, y =>
          match s.bufRead c (drainWords op g r col n) with
          | (u, true) => some (u.drainEnd c .uncorrectable)
          | (_, false) =>
          let (t, _) := t.bufRead c (drainWords op g r col n)
          let t := (t.strmEmit c op.ostrm a).strmEmit c op.pstrm b
          let t := t.setAgFlags c op.group (out.flags.join (flagsOf false (vs.any (fun v => !v.isFin))))
          let t := t.onArr c (fun k => { k with xfers := .close o p sq op fac cols rows true (done + n) none :: rest })
          some (if x = .ok ∧ y = .ok then t else t.drainEnd c .limit)
  | _ => none

/-! ## Moving data, and the events -/

/-- Repeats a movement until it must wait. -/
def pumpGo (f : State → Option State) : Nat → State → State
  | 0, s => s
  | n + 1, s => match f s with
    | some t => pumpGo f n t
    | none => s

/-- A running pass reads a full ring off while its next segment is longer than the ring (log 154). -/
def State.stagePass (s : State) (c : CoreId) : State :=
  match (s.core c).qnt.pass with
  | none => s
  | some r => match r.ended, r.cmd.op, r.buf with
    | none, .pass o _ _ _, [] =>
      if !r.reading || !s.strmTurn c r.cmd.seq r.cmd.inputs then s
      else match s.segRead c o (segLen o r.done) with
        | .wait =>
          if s.strmAvail c o.inS < elemBytes o.fmtIn (segLen o r.done) then s.strmStage c o.inS else s.strmStage c o.inPair
        | _ => s
    | _, _, _ => s

/-- Moves what can move: the drain and the pass, and what a full ring withholds from a consumer. A pump moves no more than
two FIFOs and a ring hold. -/
def State.pump (s : State) (c : CoreId) : State :=
  ((pumpGo (fun t => t.passMove c) 600000 (pumpGo (fun t => t.drainMove c) 6000 s)).stagePass c).stageRow c

/-- The next quantiser command starts once every earlier command and drain has ended (R154); a table command or a step
is done whole, a pass begins to move data. A stochastic pass waits for the random unit. -/
def quantiserCommandStartAt (c : CoreId) (s : State) : Out :=
  let k := s.core c
  match k.qnt.queue, k.qnt.pass with
  | q :: rest, none =>
    let earlier := k.arr.xfers.any (fun x => match x with | .close _ _ n _ _ _ _ _ _ _ => decide (n < q.seq) | _ => false)
    if !s.coreOn c ∨ earlier then .next s
    else
      let t := s.onQnt c (fun x => { x with queue := rest })
      match q.op with
      | .ldtab o => let (u, e) := t.runLdtab c q.part o; .next (u.finish q.owner e)
      | .sttab o => let (u, e) := t.runSttab c q.part o; .next (u.finish q.owner e)
      | .step => .next ((t.runStep c).finish q.owner .done)
      | .pass o _ _ e =>
        if o.rnd = 3 ∧ k.rng.busy ≠ some (.quantiser q.seq) then .next s
        else
          .next ((t.onQnt c (fun x => { x with pass := some ⟨q, e, 0, [], none⟩ })).pump c)
  | _, _ => .next s

def execQuantiserCommandStart (c : CoreId) (s : State) : Out := asCore c (quantiserCommandStartAt c) s

/-- A pass that has ended completes (R160). -/
def execQntPassComplete (c : CoreId) (s : State) : Out :=
  match (s.core c).qnt.pass with
  | some r =>
    match r.ended with
    | some e =>
      if s.coreOn c then
        let rnd : BitVec 2 := match r.cmd.op with | .pass o _ _ _ => o.rnd | _ => 0
        .next (((s.onQnt c (fun q => { q with pass := none })).endDraw c rnd r.done).finish r.cmd.owner e)
      else .next s
    | none => .next s
  | none => .next s

/-- The close at the head of the transfer path starts to drain: its group's earlier runs have finished, and so have the
quantiser's earlier commands (R55, R154); a stochastic close waits for the random unit. -/
def execDrainStart (c : CoreId) (s : State) : Out :=
  let k := s.core c
  match k.arr.xfers with
  | .close o p n op fac cols rows false done none :: rest =>
    let runs := k.arr.runs.any (fun r => r.op.group == op.group && decide (r.seq < n))
    let qnt := k.qnt.pass.isSome || k.qnt.queue.any (fun q => decide (q.seq < n))
    let unit := op.rnd = 3 ∧ k.rng.busy ≠ some (.close n)
    if !s.coreOn c ∨ runs ∨ qnt ∨ unit then .next s
    else .next ((s.onArr c (fun a => { a with xfers := .close o p n op fac cols rows true done none :: rest })).pump c)
  | _ => .next s

/-- A drain that has ended returns its group to CLOSED and completes (R53). -/
def execDrainComplete (c : CoreId) (s : State) : Out :=
  match (s.core c).arr.xfers with
  | .close o _ _ op _ _ _ true done (some e) :: rest =>
    if s.coreOn c then
      let t := (s.onArr c (fun a => { a with xfers := rest })).onAg c op.group (fun g => { g with state := .closed })
      .next (((t.endDraw c op.rnd done).finish o e).nestSettle c)
    else .next s
  | _ => .next s

end Sys2Proof.Machine
end

