-- ==== Sys2Proof/Machine/StreamEvents.lean ====
section
/-! DEFINITION. The events of the stream engine (13 R280-R286): requests, returned data, chunk signals and completion, with
what completion ends (03 R79, 07 R160, 02 R53). -/

namespace Sys2Proof.Machine

/-- The answer to part `i` of an access; where none has come the access is INCOMPLETE. -/
def replyAt (r : RemoteReply) (i : Nat) : Code × BitVec 64 := r.answers.getD i (.incomplete, 0)

/-- What a remote module returned of `n` bytes: eight to each answer, up to the first that failed. -/
def replyRead (r : RemoteReply) (n : Nat) : List Byte × Code :=
  let as := (List.range (ceilDiv n 8)).map (replyAt r)
  (((as.takeWhile (fun a => a.1 == Code.done)).flatMap (fun a => leBytes 8 a.2.toNat)).take n,
    ((as.find? (fun a => a.1 != Code.done)).map (·.1)).getD Code.done)

/-- A memory error of a source ends a stream with POISONED (R281). -/
def sourceCode (e : Code) : Code := if e = .uncorrectable then .poisoned else e

/-- Reads bytes of a source row: those before a failing line, and the code met (R281). A row of another module is asked for
over the fabric. -/
def State.strmReadGo (s : State) (p : PartId) (ad : Bool) (reply : RemoteReply) : Nat → Addr → Nat → State × List Byte × Code
  | 0, _, _ => (s, [], .done)
  | fuel + 1, g, n =>
    if n = 0 then (s, [], .done)
    else
      let k := min n (64 - g.toNat % 64)
      match s.resolve p g .read with
      | .error e => (s, [], e)
      | .ok (.remote d fb loc) => match s.sendMsg d fb 0 p ad s.nextOp none (leBytes 8 loc ++ leBytes 4 n) with
        | .error e => (s, [], e)
        | .ok t => ({ t with nextOp := t.nextOp + 1 }, (replyRead reply n).1, sourceCode (replyRead reply n).2)
      | .ok (.here a) =>
        match s.place a with
        | .regs _ => (s, [], .unmapped)
        | _ => match s.readLine (a / 64) with
          | (t, .done) =>
            let (u, bs, e) := t.strmReadGo p ad reply fuel (g + BitVec.ofNat 64 k) (n - k)
            (u, t.rd a k ++ bs, e)
          | (t, e) => (t, [], sourceCode e)

/-- A line of a stream leaves for another module under its credit, tagged with the sender's epoch (R283). -/
def State.strmSend (s : State) (c : CoreId) (p : PartId) (ad : Bool) (d : Nat) (fb : Bool) (loc : Nat) (bs : List Byte)
    (answer : Code) : State × Code :=
  match s.payRemote c d fb loc bs.length with
  | none => (s, .noCredit)
  | some t => match t.sendMsg d fb 3 p ad t.nextOp (some (t.core c).seq.epoch.toNat) bs with
    | .error e => (s, e)
    | .ok t => ({ t with nextOp := t.nextOp + 1 }, answer)

/-- Writes bytes of a destination row line by line: how many were written, and the code met. `reply` answers, line by line,
for another module (R283). -/
def State.strmWriteGo (s : State) (c : CoreId) (p : PartId) (ad : Bool) (reply : RemoteReply) :
    Nat → Nat → Addr → List Byte → State × Nat × Code
  | 0, _, _, _ => (s, 0, .done)
  | fuel + 1, i, g, bs =>
    if bs.isEmpty then (s, 0, .done)
    else
      let k := min bs.length (64 - g.toNat % 64)
      let (t, e) : State × Code := match s.resolve p g .write with
        | .error e => (s, e)
        | .ok (.remote d fb loc) => s.strmSend c p ad d fb loc (bs.take k) (replyAt reply i).1
        | .ok (.here a) => match s.place a with
          | .regs _ => (s, .unmapped)
          | _ => s.coreWrite c a (bs.take k)
      if e ≠ .done then (t, 0, e)
      else
        let (u, n, e) := t.strmWriteGo c p ad reply fuel (i + 1) (g + BitVec.ofNat 64 k) (bs.drop k)
        (u, k + n, e)

/-! ## Requests (R284) -/

/-- One cycle of the stream engine (R284): producers fill their FIFOs, every stream's slack is taken, and the winner
requests. -/
def execStreamRequest (c : CoreId) (s : State) : Out :=
  if s.coreOn c then
    let s := s.pump c
    let win := s.strmWinner c
    .next (s.onCore c (fun k => { k with
      strmCycle := k.strmCycle + 1
      streams := Vector.ofFn (fun i =>
        let t := k.streams[i.val]
        let u := if t.state = .idle then t else { t with slackNow := t.slackAt k.strmCycle }
        if win = some i then { u with lost := 0, reqs := t.reqs ++ [(t.asked, s.reqLen t)], asked := t.asked + s.reqLen t }
        else if s.strmReady c t then { u with lost := u.lost + 1 } else u) }))
  else .next s


/-! ## Data (R280, R281) -/

/-- Puts bytes into an IN stream's ring, wrapping. -/
def ringPut (ibuf : Tab Byte) (d : StrmDesc) (at_ : Nat) (bs : List Byte) : Tab Byte :=
  (bs.foldl (fun (p : Tab Byte × Nat) b => (Tab.set 0 p.1 ((d.iboff + p.2 % max d.iblen 1) % 2 ^ 18) b, p.2 + 1)) (ibuf, at_)).1

/-- The stream has moved `n` bytes of its oldest request; a code stops it and drops its other requests (00 R465). -/
def State.strmMoved (s : State) (c : CoreId) (i : StreamId) (n : Nat) (code : Code) : State :=
  s.onStrm c i (fun t => { t with
    landed := t.landed + n, fifo := if t.desc.kind = .out then t.fifo.drop n else t.fifo
    reqs := if code = .done then t.reqs.drop 1 else []
    stop := if code = .done then t.stop else t.stop.or (some code) })

/-- The bytes of the oldest request land in the ring or at the destination, and consumers and producers move on. `reply`
is what another module answers where the row lies there. -/
def streamDataReturnAt (c : CoreId) (i : StreamId) (reply : RemoteReply) (s : State) : Out :=
  let t := s.strm c i
  match t.reqs with
  | (off, n) :: _ =>
    if !s.coreOn c ∨ t.state = .idle then .next s
    else
      let r := off / max t.desc.rowb 1
      let o : Addr := BitVec.ofNat 64 (off % max t.desc.rowb 1)
      let (s, bs, e) := if t.desc.kind = .out then (s, t.fifo.take n, .done)
        else s.strmReadGo t.part t.desc.adaptive reply 10 (t.desc.srcRow r + o) n
      let s := if t.desc.kind = .inp then
          ((s.onCore c (fun k => { k with ibuf := ringPut k.ibuf t.desc t.landed bs })).bufWrite c
            (inputWords t.desc.iboff t.desc.iblen t.landed bs.length)).strmMoved c i bs.length e
        else
          let (s, k, f) := s.strmWriteGo c t.part t.desc.adaptive reply 10 0 (t.desc.dstRow r + o) bs
          s.strmMoved c i k (if f = .done then e else f)
      .next (s.pump c)
  | [] => .next s

def execStreamDataReturn (c : CoreId) (i : StreamId) (reply : RemoteReply) (s : State) : Out := asCore c (streamDataReturnAt c i reply) s

/-! ## Chunks and completion (R281, R282, R286) -/

/-- Chunks of a stream, and those whose last byte is written. -/
def Stream.chunks (t : Stream) : Nat := if t.desc.chunk = 0 then 1 else ceilDiv t.count t.desc.chunk
def Stream.chunksDone (t : Stream) : Nat :=
  if t.count ≤ t.landed then t.chunks else if t.desc.chunk = 0 then 0 else t.landed / t.desc.chunk

/-- The arrival at SBAR for the next chunk whose last byte is written. -/
def execChunkWritten (c : CoreId) (i : StreamId) (s : State) : Out :=
  let t := s.strm c i
  match t.desc.sbar with
  | some b =>
    if s.coreOn c && t.state != .idle && decide (t.signalled < t.chunksDone) then
      .next ((s.onStrm c i (fun t => { t with signalled := t.signalled + 1 })).barArrive c b)
    else .next s
  | none => .next s

/-- The code a stream completes with now; none while it goes on, or owes SBAR an arrival for a chunk it has written. -/
def Stream.ending (t : Stream) : Option Code :=
  if t.desc.sbar.isSome ∧ t.signalled < t.chunksDone then none
  else match t.state with
    | .idle => none
    | .closing => if t.reqs.isEmpty then some (t.stop.getD .incomplete) else none
    | .opened => match t.stop with
      | some e => if t.reqs.isEmpty then some e else none
      | none => if t.count ≤ t.landed then some .done else none

/-- What the end of a stream ends: the run or pass that reads it and, unless it ended with DONE, the pass and the close
that name it. -/
def State.strmEnds (s : State) (c : CoreId) (i : StreamId) (code : Code) : State :=
  let s := (s.pump c).endDryRuns c i
  if code = .done then s
  else
    let s := match (s.core c).qnt.pass with
      | some r => match r.ended, r.cmd.op with
        | none, .pass o _ _ _ =>
          if o.inS = i ∨ o.outS = i ∨ (fmtIsMx o.fmtIn ∧ o.inPair = i) ∨ (fmtPaired o.fmtOut ∧ o.outPair = i) then s.passEnd c r .incomplete
          else s
        | _, _ => s
      | none => s
    match (s.core c).arr.xfers with
    | .close _ _ _ op _ _ _ true _ none :: _ =>
      if op.ostrm = i ∨ (fmtPaired op.fmt ∧ op.pstrm = i) then s.drainEnd c .incomplete else s
    | _ => s

def execStreamComplete (c : CoreId) (i : StreamId) (s : State) : Out :=
  let t := s.strm c i
  match t.ending with
  | some e =>
    if s.coreOn c then
      let s := s.onStrm c i (fun t => { t with state := .idle, code := e, stop := none, reqs := [], closers := [], owner := .quiet, fifo := [] })
      let s := t.closers.foldl (fun u k => u.finish (.thread k) .done) (s.finish t.owner e)
      .next ((s.strmEnds c i e).nestSettle c)
    else .next s
  | none => .next s

end Sys2Proof.Machine
end

