-- ==== Sys2Proof/Machine/Rows.lean ====
section
/-! DEFINITION. Row descriptors (05 R113) and a running address-writing command of a core: what it reads, draws and writes
element by element, and where it stops (05 R110, R127, 00 R465, 02 R62). -/

namespace Sys2Proof.Machine

/-! ## Row descriptors (R113) -/

structure RowDesc where
  base : Nat
  stride : Nat
  rows : Nat
  width : Nat
  fmt : BitVec 4
  deriving DecidableEq, Repr

/-- Fields of a row descriptor. Bits 63:49 of BASE, a local address, are ignored (log 168). -/
def parseRows (bs : List Byte) : RowDesc :=
  ⟨fieldAt bs 0 8 % 2 ^ 49, fieldAt bs 8 4, fieldAt bs 12 4, fieldAt bs 16 4, BitVec.ofNat 4 (fieldAt bs 20 1 % 16)⟩

/-- The unit a base and a stride must be a multiple of: 16 in core memory, 64 elsewhere. `w` is the access the operand is for. -/
def State.rowUnit (s : State) (p : PartId) (a : Nat) (w : Right) : Nat :=
  match s.resolveLocal p a w with
  | .ok x => if s.isCmem x then 16 else 64
  | .error _ => 64

def State.rowAlign (s : State) (p : PartId) (w : Right) (d : RowDesc) : Bool :=
  d.base % s.rowUnit p d.base w == 0 && d.stride % s.rowUnit p d.base w == 0

def RowDesc.shapeBad (d : RowDesc) : Bool := d.rows == 0 || d.width == 0 || decide (65536 < d.width)
def RowDesc.fmtBad (d : RowDesc) : Bool := fmtReserved d.fmt || fmtIsMx d.fmt

/-- The refusals of a row descriptor that hold (R113). -/
def State.rowFails (s : State) (p : PartId) (w : Right) (d : RowDesc) : List Code :=
  (if s.rowAlign p w d then [] else [.align]) ++ (if d.shapeBad then [.shape] else []) ++ (if d.fmtBad then [.format] else [])

/-- The checks of a row descriptor in the order of R113. -/
def State.rowCheck (s : State) (p : PartId) (w : Right) (d : RowDesc) : Code := (s.rowFails p w d).head?.getD .done

/-! ## A running command -/

/-- A command as it runs: the module, its core and partition, its rounding, the random values used, its code, whether
it waits for its paired stream, and whether it reports a memory error as POISONED (R127) and not as met (00 R465). Of the paired
stream: `inb` are bytes read off it before and not used yet, `took` all it has read, `gave` how many it has emitted, of which
the first `skip` went out in an earlier try (log 167); `seq` is its issue number, its turn at a stream it reads (13 R280). -/
structure Run where
  s : State
  c : CoreId
  p : PartId
  rnd : BitVec 2
  ovf : BitVec 2
  sstrm : StreamId
  j : Nat
  code : Code
  wait : Bool
  ue : Bool
  inb : List Byte
  took : List Byte
  gave : Nat
  skip : Nat
  seq : Nat
  deriving DecidableEq, Repr

def Run.start (s : State) (c : CoreId) (p : PartId) (rnd ovf : BitVec 2) (sstrm : StreamId) : Run :=
  ⟨s, c, p, rnd, ovf, sstrm, 0, .done, false, true, (s.core c).mtch.sideIn, (s.core c).mtch.sideIn, 0, (s.core c).mtch.sideOut, 0⟩

/-- A command without R127 and without a paired stream: a failing access answers with its own code (00 R465). -/
def Run.plain (s : State) (c : CoreId) (p : PartId) : Run :=
  { Run.start s c p 1 0 0 with ue := false, inb := [], took := [], skip := 0 }

/-- A command without a paired stream that reports a memory error as POISONED (13 R293, 15 R342). -/
def Run.alone (s : State) (c : CoreId) (p : PartId) : Run := { Run.plain s c p with ue := true }

/-- The command still goes on. -/
def Run.ok (r : Run) : Bool := r.code == .done && !r.wait

/-- Ends it with a code; under R127 a memory error read is POISONED. -/
def Run.stop (r : Run) (e : Code) : Run := if r.ok then { r with code := if e = .uncorrectable ∧ r.ue then .poisoned else e } else r

/-- Reads bytes at a local address. -/
def Run.read (r : Run) (a n : Nat) : Run × List Byte :=
  if r.ok then
    let (t, bs, e) := r.s.readRange r.p a n
    (({ r with s := t }).stop e, bs)
  else (r, [])

/-- Writes an element, row or block at a local address; a failing write leaves it unwritten and answers with its own code
(00 R465). -/
def Run.write (r : Run) (a : Nat) (bs : List Byte) : Run :=
  if r.ok then
    let (t, e) := r.s.writeWhole r.c r.p a bs
    { r with s := t, code := e }
  else r

/-- Reads a 32-bit word. -/
def Run.word (r : Run) (a : Nat) : Run × Nat :=
  let (t, bs) := r.read a 4
  (t, leNat bs)

/-- Random values for `n` elements, in the order the command narrows them (02 R43). -/
def Run.draw (r : Run) (n : Nat) : Run × List Nat :=
  let (rs, t) := r.s.draw r.c r.rnd r.j n
  ({ r with s := t, j := if r.rnd = 3 then r.j + n else r.j }, rs)

def Run.flag (r : Run) (f : Flags) : Run := { r with s := r.s.setCFlags r.c f }

/-- The paired stream's next `n` bytes, those read off before first; none where the stream is not the command's turn yet, or
lacks bytes and may still deliver them: the command then reads off what there is and waits. A stream that has ended gives what it has (07 R162). -/
def Run.side (r : Run) (n : Nat) : Run × Option (List Byte) :=
  let m := n - r.inb.length
  let pull (k : Nat) : List Byte := match r.s.strmPeek r.c r.sstrm 0 k with | .bytes bs => bs | _ => []
  let have_ := r.s.strmAvail r.c r.sstrm
  let (t, bad) := r.s.bufRead r.c (r.s.strmWords r.c r.sstrm 0 (min m have_))
  if 0 < m ∧ !r.s.strmTurn r.c r.seq [r.sstrm] then ({ r with wait := true }, none)
  else if bad ∧ r.ok then ({ r with s := t, code := .uncorrectable }, none)
  else
  let r := { r with s := t }
  match (if m = 0 then Read.bytes [] else r.s.strmPeek r.c r.sstrm 0 m) with
  | .bytes bs =>
    ({ r with s := r.s.strmTake r.c r.sstrm m, inb := r.inb.drop n, took := r.took ++ bs }, some (r.inb.take n ++ bs))
  | .wait => ({ r with s := r.s.strmTake r.c r.sstrm have_, took := r.took ++ pull have_, wait := true }, none)
  | .ended =>
    let k := (r.inb.length + have_) / 2 * 2 - r.inb.length
    ({ r with s := r.s.strmTake r.c r.sstrm k, inb := [], took := r.took ++ pull k }, some (r.inb ++ pull k))

/-- Element values from codes: PX8E escapes take the paired stream's next entries (07 R162). -/
def Run.values (r : Run) (fmt : BitVec 4) (codes : List Nat) : Run × List Val :=
  if fmt = 0xE then
    let need := (codes.filter (· == 0x80)).length
    match r.side (2 * need) with
    | (t, none) => (t, [])
    | (t, some bs) =>
      let u := if bs.length < 2 * need then { t with s := t.s.setStrmFlags t.c t.sstrm { sideUnder := true } } else t
      (u, fillEscapes codes (codesOf 0x2 bs (bs.length / 2)))
  else (r, codes.map (decodeElem fmt))

/-- `n` elements from position `e` of an array at a local address. -/
def Run.elems (r : Run) (fmt : BitVec 4) (a e n : Nat) : Run × List Val :=
  let b := fmtBits fmt
  let lo := e * b / 8
  let hi := ceilDiv ((e + n) * b) 8
  let (t, bs) := r.read (a + lo) (hi - lo)
  if t.ok then
    let skip := if b = 4 then e % 2 else 0
    t.values fmt ((codesOf fmt bs (skip + n)).drop skip)
  else (t, [])

/-- Values as FP32 (R110): exact but for INT32, which is narrowed under RND. -/
def Run.toF32 (r : Run) (fmt : BitVec 4) (vs : List Val) : Run × List Word :=
  if fmt = 0x6 then
    let (t, rs) := r.draw vs.length
    (t, List.zipWith (fun v q => toF32R r.rnd q v) vs rs)
  else (r, vs.map Machine.toF32)

/-- Row `i` of a dense operand, exactly and as FP32. -/
def Run.rowVals (r : Run) (d : RowDesc) (i : Nat) : Run × List Val := r.elems d.fmt (d.base + i * d.stride) 0 d.width

def Run.row (r : Run) (d : RowDesc) (i : Nat) : Run × List Word :=
  let (t, vs) := r.rowVals d i
  t.toF32 d.fmt vs

/-- Emits side-list bytes into the paired stream, those of an earlier try apart. Beyond the stream's COUNT the command ends with
LIMIT (13 R281); where the FIFO lacks room it emits what fits and waits. -/
def Run.emit (r : Run) (side : List Byte) : Run :=
  let again := min side.length (r.skip - r.gave)
  let rest := side.drop again
  if !r.ok then r
  else if rest.isEmpty then { r with gave := r.gave + side.length }
  else
    let out (k : Nat) : Run := { r with s := r.s.strmEmit r.c r.sstrm (rest.take k), gave := r.gave + again + k }
    match r.s.strmCanEmit r.c r.sstrm rest.length with
    | .ok => out rest.length
    | .over => (out rest.length).stop .limit
    | .wait =>
      let t := r.s.strm r.c r.sstrm
      let room := if t.state = .opened ∧ t.desc.kind = .out then 2048 - t.fifo.length else 0
      { out (min room rest.length) with wait := true }

/-- Writes element codes from position `e` of a packed array. A byte that a 4-bit element shares with one that is not written
keeps the other nibble (02 R31). -/
def Run.putCodes (r : Run) (fmt : BitVec 4) (a e : Nat) (cs : List Nat) : Run :=
  if fmtBits fmt = 4 then
    let n := e + cs.length
    let (r, lo) := if e % 2 = 1 ∧ r.ok then r.read (a + e / 2) 1 else (r, [])
    let (r, hi) := if n % 2 = 1 ∧ r.ok then r.read (a + n / 2) 1 else (r, [])
    let front : List Nat := if e % 2 = 1 then [leNat lo % 16] else []
    let back : List Nat := if n % 2 = 1 then [leNat hi / 16] else []
    r.write (a + e / 2) (packNibbles (front ++ cs ++ back))
  else r.write (a + e * (fmtBits fmt / 8)) (bytesOf fmt cs)

/-- Narrows values and writes them from position `e` of a packed array, with flags (R110) and any of their computation's own;
PX8E entries then go to the paired stream (log 33). -/
def Run.putFlags (r : Run) (src fmt : BitVec 4) (a e : Nat) (vs : List Val) (own : Flags) : Run :=
  if r.ok then
    let (t, rs) := r.draw vs.length
    let out : Piece := outPiece fmt r.rnd r.ovf (fun v q => convert src fmt r.rnd r.ovf q v) vs rs
    let t := t.putCodes fmt a e (codesOf fmt (out.buf.flatMap (fun x => x.1)) vs.length)
    let t := if t.ok then t.flag (out.flags.join own) else t
    t.emit (out.buf.flatMap (fun x => x.2))
  else r

/-- Values that are only converted. -/
def Run.put (r : Run) (src fmt : BitVec 4) (a e : Nat) (vs : List Val) : Run := r.putFlags src fmt a e vs {}

/-- FP32 results of sums and products: an infinite or NaN one is a non-finite value produced (02 R58). -/
def Run.putSums (r : Run) (fmt : BitVec 4) (a e : Nat) (ws : List Word) : Run :=
  r.putFlags 0x0 fmt a e (ws.map f32) { nonfinite := ws.any (fun w => !f32IsFin w) }

/-- Writes sums into row `i` of a dense operand; `summed` says whether anything was added to the starting values. -/
def Run.putRow (r : Run) (d : RowDesc) (i : Nat) (ws : List Word) (summed : Bool) : Run :=
  if summed then r.putSums d.fmt (d.base + i * d.stride) 0 ws else r.put 0x0 d.fmt (d.base + i * d.stride) 0 (ws.map f32)

/-- Runs a body over a list while the command goes on. -/
def Run.each {α : Type} (r : Run) (l : List α) (f : Run → α → Run) : Run := l.foldl (fun t x => if t.ok then f t x else t) r

end Sys2Proof.Machine
end

