-- ==== Sys2Proof/Machine/Irregular.lean ====
section
/-! DEFINITION. Irregular commands and the matcher (05 R106-R127): CSR operands with their clamps, the sparse products,
the associative memory and its spill table, segments, gathers and scatters. A command runs whole when IRREGULAR_COMPLETE
completes it; its gang is held until then (R111; log 167). -/

namespace Sys2Proof.Machine

def State.onMtch (s : State) (c : CoreId) (f : Mtch → Mtch) : State := s.onCore c (fun k => { k with mtch := f k.mtch })

/-! ## CSR operands (R106-R109) -/

structure Csr where
  ptr : Nat
  idx : Nat
  val : Nat
  nrows : Nat
  ncols : Nat
  nnz : Nat
  fmt : BitVec 4
  idx16 : Bool
  noval : Bool
  deriving DecidableEq, Repr

/-- Fields of a CSR descriptor. Bits 63:49 of PTR, IDX and VAL, local addresses, are ignored (log 168). -/
def parseCsr (bs : List Byte) : Csr :=
  ⟨fieldAt bs 0 8 % 2 ^ 49, fieldAt bs 8 8 % 2 ^ 49, fieldAt bs 16 8 % 2 ^ 49, fieldAt bs 24 4, fieldAt bs 28 4, fieldAt bs 32 4,
    BitVec.ofNat 4 (fieldAt bs 36 1 % 16), bitOf (fieldAt bs 37 1) 0, bitOf (fieldAt bs 37 1) 1⟩

/-- The refusals of R107 that hold, before NROWS = 0. -/
def Csr.fails (d : Csr) (floatOnly : Bool) : List Code :=
  (if d.ptr % 64 ≠ 0 ∨ d.idx % 64 ≠ 0 ∨ (!d.noval ∧ d.val % 64 ≠ 0) then [.align] else [])
    ++ (if 2 ^ 31 < d.nnz then [.limit] else [])
    ++ (if d.ncols = 0 ∨ (d.idx16 ∧ 65536 < d.ncols) then [.shape] else [])
    ++ (if fmtReserved d.fmt ∨ fmtIsMx d.fmt ∨ (floatOnly ∧ fmtIsInt d.fmt) then [.format] else [])

/-- The effective entries of row `i`, from the highest end so far (R108): the first entry, and one past the last. -/
def Run.bounds (r : Run) (ptr nnz i hi : Nat) : Run × Nat × Nat :=
  let first (r : Run) : Run × Nat := let (r, a) := r.word ptr; (r, min a nnz)
  let (r, hi) := if i = 0 then first r else (r, hi)
  let (r, b) := r.word (ptr + 4 * (i + 1))
  (r, hi, max (min b nnz) hi)

/-- Column indices of entries, clamped to the edge (R108). -/
def Run.cols (r : Run) (d : Csr) (lo hi : Nat) : Run × List Nat :=
  let w := if d.idx16 then 2 else 4
  let (r, bs) := r.read (d.idx + w * lo) (w * (hi - lo))
  (r, (List.range (hi - lo)).map (fun k => min (fieldAt bs (w * k) w) (d.ncols - 1)))

/-- Entry values as FP32; 1.0 with NOVAL. -/
def Run.vals (r : Run) (d : Csr) (lo hi : Nat) : Run × List Word :=
  if d.noval then (r, List.replicate (hi - lo) 0x3F800000)
  else
    let (r, vs) := r.elems d.fmt d.val lo (hi - lo)
    r.toF32 d.fmt vs

/-- Runs a body over the rows of a CSR operand with each row's effective entries. -/
def Run.rowsGo (f : Run → Nat → Nat → Nat → Run) (ptr nnz : Nat) : Nat → Nat → Nat → Run → Run
  | 0, _, _, r => r
  | n + 1, i, hi, r =>
    let (r, lo, e) := r.bounds ptr nnz i hi
    if r.ok then Run.rowsGo f ptr nnz n (i + 1) e (f r i lo e) else r

def Run.csrRows (r : Run) (d : Csr) (f : Run → Nat → Nat → Nat → Run) : Run := Run.rowsGo f d.ptr d.nnz d.nrows 0 0 r

/-! ## Structures a command names, in operand order (00 R466) -/

/-- A CSR descriptor, with whether its format must be a float one (R121); a row descriptor, with the access it is for. -/
inductive Struct where
  | csr (g : Addr) (floatOnly : Bool)
  | rows (g : Addr) (w : Right)
  deriving DecidableEq, Repr

inductive Parsed where
  | csr (d : Csr) (floatOnly : Bool)
  | rows (d : RowDesc) (w : Right)
  deriving DecidableEq, Repr

def State.readStructs (s : State) (p : PartId) : List Struct → State × Except Code (List Parsed)
  | [] => (s, .ok [])
  | x :: xs =>
    let (t, r) := match x with
      | .csr g f => let (t, e) := s.readDesc p g 64 64 false; (t, e.map (fun b => Parsed.csr (parseCsr b) f))
      | .rows g w => let (t, e) := s.readDesc p g 32 32 false; (t, e.map (fun b => Parsed.rows (parseRows b) w))
    match r with
    | .error e => (t, .error e)
    | .ok y => match t.readStructs p xs with
      | (u, .error e) => (u, .error e)
      | (u, .ok ys) => (u, .ok (y :: ys))

def Parsed.fails (s : State) (p : PartId) : Parsed → List Code
  | .csr d f => d.fails f
  | .rows d w => s.rowFails p w d

/-- The checks of all descriptors, a row of the table of R107 at a time; R113 names its codes in the same order. -/
def State.checkAll (s : State) (p : PartId) (l : List Parsed) : Code :=
  let fs := l.flatMap (·.fails s p)
  ([Code.align, .limit, .shape, .format].find? fs.contains).getD .done

/-- A CSR operand without rows: the command is DONE (R107). -/
def Parsed.noRows : Parsed → Bool
  | .csr d _ => d.nrows == 0
  | .rows _ _ => false

/-! ## Products (R114, R115) -/

/-- One product added to a running sum with one rounding (R110). -/
def fma (acc x y : Word) : Word := toF32 ((f32 acc).add ((f32 x).mul (f32 y)))

def Run.spMm (r : Run) (beta : Bool) (a : Csr) (b y : RowDesc) : Run :=
  if b.rows ≠ a.ncols ∨ y.rows ≠ a.nrows ∨ y.width ≠ b.width then r.stop .shape
  else r.csrRows a (fun r i lo hi =>
    let (r, js) := r.cols a lo hi
    let (r, as) := r.vals a lo hi
    let (r, st) := if beta then r.row y i else (r, List.replicate y.width 0)
    let (r, acc) := (as.zip js).foldl (fun (q : Run × List Word) e =>
      let (r, bs) := q.1.row b e.2
      (r, List.zipWith (fun x w => fma x e.1 w) q.2 bs)) (r, st)
    r.putRow y i acc (!js.isEmpty))

/-- R115. For each entry, row i of A is read, then row j of Bt, then the entry's value; where several of them are PX8E they take
the paired stream's entries in that order, row i of A again for each entry (log 169). -/
def Run.spSddmm (r : Run) (out : Nat) (fmtOut : BitVec 4) (m : Csr) (a bt : RowDesc) : Run :=
  if a.rows ≠ m.nrows ∨ bt.rows ≠ m.ncols ∨ a.width ≠ bt.width then r.stop .shape
  else r.csrRows m (fun r i lo hi =>
    let (r, js) := r.cols m lo hi
    r.each ((List.range (hi - lo)).zip js) (fun r e =>
      let (r, x) := r.row a i
      let (r, y) := r.row bt e.2
      let dot := (List.zipWith Prod.mk x y).foldl (fun s p => fma s p.1 p.2) 0
      let (r, sv) := r.vals m (lo + e.1) (lo + e.1 + 1)
      r.putSums fmtOut out (lo + e.1) [if m.noval then dot else f32Mul dot (nth 0 sv 0)]))

/-! ## The matcher (R116-R120) -/

/-- h of R116. -/
def keyHash (key seed : Word) : Word := (key ^^^ seed) * 0x9E3779B1

def keySlot (h : Word) (p : Nat) : Nat := (h.toNat / 2 ^ 20 + p * ((h.toNat / 256 % 4096) ||| 1)) % 4096

/-- What the eight slots of a key answer. -/
inductive Probe where
  | hit (payload : Word)
  | empty (slot : Nat)
  | full
  deriving DecidableEq, Repr

def slotAt (slots : Tab (Word × Word)) (i : Nat) : Option (Word × Word) := (slots.find? (fun e => e.1 == i)).map (·.2)

def probeGo (slots : Tab (Word × Word)) (h key : Word) : Nat → Nat → Probe
  | 0, _ => .full
  | n + 1, p =>
    match slotAt slots (keySlot h p) with
    | none => .empty (keySlot h p)
    | some (k, v) => if k = key then .hit v else probeGo slots h key n (p + 1)

/-- The positions of the table that a search for a key reads. -/
def probeSlots (slots : Tab (Word × Word)) (h key : Word) : Nat → Nat → List Nat
  | 0, _ => []
  | n + 1, p =>
    keySlot h p :: (match slotAt slots (keySlot h p) with
      | none => []
      | some (k, _) => if k = key then [] else probeSlots slots h key n (p + 1))

/-- The search of the table reads its words: a double-bit error ends the command (11 R236). -/
def Run.probed (r : Run) (key : Word) : Run :=
  let m := (r.s.core r.c).mtch
  let (t, bad) := r.s.bufRead r.c (matcherWords (probeSlots m.slots (keyHash key m.seed) key 8 0))
  if r.ok then { r with s := t, code := if bad then .uncorrectable else .done } else r

/-- The spill table: its size exponent and the local address of its bitmap, if it is configured and fits (R118). -/
def State.spill (s : State) (c : CoreId) : Option (Nat × Nat) :=
  let m := (s.core c).mtch
  if 10 ≤ m.spillLog ∧ m.spillLog ≤ 19 ∧ m.spillBase * 64 + 2 ^ m.spillLog / 8 + 8 * 2 ^ m.spillLog ≤ coreBytes then
    some (m.spillLog, c.val * coreWindow + m.spillBase * 64)
  else none

/-- The matcher's own accesses to its core's memory are physical: no page translates them. -/
def Run.ownRead (r : Run) (a n : Nat) : Run × List Byte :=
  if r.ok then
    let (t, e) := r.s.touch a n
    (({ r with s := t }).stop e, t.rd a n)
  else (r, [])

def Run.ownWrite (r : Run) (a : Nat) (bs : List Byte) : Run :=
  if r.ok then
    let (t, e) := r.s.store a bs
    { r with s := t, code := e }
  else r

/-- Walks the spill table from a position: a hit, an empty position, or full. -/
def Run.spillGo (key : Word) (lg base : Nat) : Nat → Nat → Run → Run × Probe
  | 0, _, r => (r, .full)
  | n + 1, i, r =>
    let (r, b) := r.ownRead (base + i / 8) 1
    if !r.ok then (r, .full)
    else if !bitOf (leNat b) (i % 8) then (r, .empty i)
    else
      let (r, e) := r.ownRead (base + 2 ^ lg / 8 + 8 * i) 8
      if !r.ok then (r, .full)
      else if w32 (fieldAt e 0 4) = key then (r, .hit (w32 (fieldAt e 4 4)))
      else Run.spillGo key lg base n ((i + 1) % 2 ^ lg) r

/-- Inserts a pair (R117, R118): LIMIT when it can be held nowhere; a duplicate is discarded and counted. -/
def Run.insert (r : Run) (key val : Word) : Run :=
  let r := r.probed key
  let m := (r.s.core r.c).mtch
  let h := keyHash key m.seed
  let dup (r : Run) : Run := { r with s := r.s.onMtch r.c (fun m => { m with dup := satInc 32 m.dup }) }
  if !r.ok then r
  else match probeGo m.slots h key 8 0 with
  | .hit _ => dup r
  | .empty i => { r with
      s := (r.s.onMtch r.c (fun m => { m with slots := Tab.ins m.slots i (key, val) })).bufWrite r.c (matcherWords [i]) }
  | .full =>
    match r.s.spill r.c with
    | none => r.stop .limit
    | some (lg, base) =>
      match Run.spillGo key lg base (2 ^ lg) (h.toNat / 2 ^ (32 - lg)) r with
      | (r, .hit _) => if r.ok then dup r else r
      | (r, .full) => r.stop .limit
      | (r, .empty i) =>
        let r := r.ownWrite (base + 2 ^ lg / 8 + 8 * i) (leBytes 4 key.toNat ++ leBytes 4 val.toNat)
        let (r, b) := r.ownRead (base + i / 8) 1
        let r := r.ownWrite (base + i / 8) [BitVec.ofNat 8 (leNat b ||| 2 ^ (i % 8))]
        if r.ok then { r with s := r.s.onMtch r.c (fun m => { m with spillCount := satInc 20 m.spillCount }) } else r

/-- Looks a key up (R119). -/
def Run.lookup (r : Run) (key : Word) : Run × Option Word :=
  let r := r.probed key
  let m := (r.s.core r.c).mtch
  let h := keyHash key m.seed
  if !r.ok then (r, none)
  else match probeGo m.slots h key 8 0 with
  | .hit v => (r, some v)
  | .empty _ => (r, none)
  | .full =>
    match r.s.spill r.c with
    | some (lg, base) =>
      if m.spillCount = 0 then (r, none)
      else match Run.spillGo key lg base (2 ^ lg) (h.toNat / 2 ^ (32 - lg)) r with
        | (r, .hit v) => (r, some v)
        | (r, _) => (r, none)
    | none => (r, none)

/-- Empties the matcher, its spill bitmap and its counts (R120). -/
def State.clearMtch (s : State) (c : CoreId) : State × Code :=
  let (t, e) := match s.spill c with
    | some (lg, base) => s.store base (List.replicate (2 ^ lg / 8) 0)
    | none => (s, .done)
  ((t.onMtch c (fun m => { m with slots := [], spillCount := 0, dup := 0 })).bufWrite c (matcherWords (List.range 4096)), e)

def Run.clear (r : Run) : Run :=
  let (t, e) := r.s.clearMtch r.c
  { r with s := t, code := if r.ok then e else r.code }

/-- Key `i` of an array; a 16-bit key is zero-extended. -/
def Run.key (r : Run) (a : Nat) (key16 : Bool) (i : Nat) : Run × Word :=
  let w := if key16 then 2 else 4
  let (r, bs) := r.read (a + w * i) w
  (r, w32 (leNat bs))

def Run.mtchLoad (r : Run) (keys : Nat) (payload : Option Nat) (count : Nat) (key16 : Bool) : Run :=
  r.each (List.range count) (fun r i =>
    let (r, k) := r.key keys key16 i
    let (r, v) := match payload with
      | some a => let (r, n) := r.word (a + 4 * i); (r, w32 n)
      | none => (r, w32 i)
    if r.ok then r.insert k v else r)

def Run.mtchProbe (r : Run) (keys out count : Nat) (key16 : Bool) : Run :=
  r.each (List.range count) (fun r i =>
    let (r, k) := r.key keys key16 i
    let (r, v) := if r.ok then r.lookup k else (r, none)
    r.write (out + 8 * i) (leBytes 4 (v.getD 0).toNat ++ leBytes 4 (b2n v.isSome)))

/-- Emits matched pairs; the hit count is kept beside the code (R119). -/
def Run.mtchIsect (r : Run) (keys count : Nat) (key16 : Bool) (out cap : Nat) (countOnly : Bool) : Run :=
  let (r, hits) := (List.range count).foldl (fun (q : Run × Nat) i =>
    if q.1.ok then
      let (r, k) := q.1.key keys key16 i
      let (r, v) := if r.ok then r.lookup k else (r, none)
      match v with
      | some v =>
        let r := if countOnly ∨ cap ≤ q.2 then r else r.write (out + 8 * q.2) (leBytes 4 v.toNat ++ leBytes 4 i)
        (r, if r.ok then q.2 + 1 else q.2)
      | none => (r, q.2)
    else q) (r, 0)
  let r := { r with s := r.s.onMtch r.c (fun m => { m with hits := hits }) }
  if !countOnly ∧ cap < hits then r.stop .limit else r

/-! ## sp.gemm (R121, R122) -/

/-- One row of the product being formed: columns in order of first product, values in staging order. -/
structure GemmRow where
  cols : List Nat
  vals : List Word
  deriving DecidableEq, Repr

/-- One product into the row: a new column takes the next position, a known one is added to. -/
def Run.gemmAdd (r : Run) (row : GemmRow) (limit j : Nat) (a b : Word) : Run × GemmRow :=
  match r.lookup (w32 j) with
  | (r, some p) =>
    (r, { row with vals := row.vals.set p.toNat (fma (nth 0 row.vals p.toNat) a b) })
  | (r, none) =>
    if !r.ok then (r, row)
    else if limit ≤ row.cols.length then (r.stop .limit, row)
    else (r.insert (w32 j) (w32 row.cols.length), ⟨row.cols ++ [j], row.vals ++ [f32Mul a b]⟩)

/-- The effective bounds of row `k` of B: R108 run from its first row. -/
def Run.boundsAt (r : Run) (d : Csr) : Nat → Nat → Nat → Run × Nat × Nat
  | 0, i, hi => r.bounds d.ptr d.nnz i hi
  | n + 1, i, hi =>
    let (r, _, e) := r.bounds d.ptr d.nnz i hi
    r.boundsAt d n (i + 1) e

/-- Bytes from a local address on that lie in the issuing core's own memory, page by page. -/
def State.ownRoomGo (s : State) (c : CoreId) (p : PartId) : Nat → Nat → Nat
  | 0, _ => 0
  | n + 1, a =>
    match s.resolveLocal p a .write with
    | .ok x =>
      let k := min (0x20_0000 - a % 0x20_0000) (coreBytes - x % coreWindow)
      if s.isCmemOf c x then k + (if (a + k) % 0x20_0000 = 0 then s.ownRoomGo c p n (a + k) else 0) else 0
    | .error _ => 0

def State.ownRoom (s : State) (c : CoreId) (p : PartId) (a : Nat) : Nat := s.ownRoomGo c p 4 a

/-- One row of the product: its values in staging, then the output values, indices and row pointer (R121). With NOVAL in C no
values are written (R106). `n` entries are written before it. -/
def Run.gemmOut (r : Run) (staging : Nat) (c : Csr) (i n : Nat) (row : GemmRow) : Run :=
  let r := r.write staging (row.vals.flatMap (fun v => leBytes 4 v.toNat))
  let r := if c.noval ∨ row.vals.isEmpty then r else r.putSums c.fmt c.val n row.vals
  let r := r.write (c.idx + 4 * n) (row.cols.flatMap (leBytes 4))
  r.write (c.ptr + 4 * (i + 1)) (leBytes 4 (n + row.cols.length))

/-- Forms row `i` of the product from the effective entries of row `i` of A; `limit` is what it may hold (R122). -/
def Run.gemmRow (r : Run) (a b : Csr) (limit lo hi : Nat) : Run × GemmRow :=
  let (r, js) := r.clear.cols a lo hi
  let (r, as) := r.vals a lo hi
  (js.zip as).foldl (fun (q : Run × GemmRow) e =>
    if q.1.ok then
      let (r, l2, h2) := q.1.boundsAt b e.1 0 0
      let (r, bj) := r.cols b l2 h2
      let (r, bv) := r.vals b l2 h2
      (bj.zip bv).foldl (fun (q3 : Run × GemmRow) x =>
        if q3.1.ok then q3.1.gemmAdd q3.2 limit x.1 e.2 x.2 else q3) (r, q.2)
    else q) (r, ⟨[], []⟩)

/-- The rows of the product from row `i` on, with `n` entries written. A row that meets LIMIT and the rows after it get their
pointers at the count written (R122). -/
def Run.gemmRows (staging room cap : Nat) (a b c : Csr) : Nat → Nat → Nat → Nat → Run → Run
  | 0, _, _, _, r => r
  | k + 1, i, hi, n, r =>
    let (r, lo, e) := r.bounds a.ptr a.nnz i hi
    if r.ok then
      let (r, row) := r.gemmRow a b (min room (cap - n)) lo e
      if r.ok then
        let r := r.gemmOut staging c i n row
        if r.ok then Run.gemmRows staging room cap a b c k (i + 1) e (n + row.cols.length) r else r
      else if r.code = .limit then
        ((List.range (k + 1)).foldl (fun (t : Run) x => t.write (c.ptr + 4 * (i + 1 + x)) (leBytes 4 n)) { r with code := .done }).stop .limit
      else r
    else r

/-- R121, R122. C.NROWS is not compared with A.NROWS, and C's own NNZ, NCOLS and IDX16 are held to R107 only (log 170). A staging
area outside the issuing core's own memory is UNMAPPED (log 171). Stopped by a failing read, the command keeps the matcher's pairs
(R127); ended otherwise it leaves it empty (log 172). -/
def Run.spGemm (r : Run) (cap staging : Nat) (a b c : Csr) : Run :=
  if b.nrows ≠ a.ncols then r.stop .shape
  else
    let room := r.s.ownRoom r.c r.p staging / 4
    if room = 0 then r.stop .unmapped
    else
      let r := Run.gemmRows staging room cap a b c a.nrows 0 0 0 (r.clear.write c.ptr (leBytes 4 0))
      if r.code = .poisoned then r
      else
        let t := { r with code := .done }.clear
        { t with code := if r.code = .done then t.code else r.code }

/-! ## Segments, gathers and scatters (R123-R125) -/

def Run.segSum (r : Run) (o : SegOp) (vals ptrs out : Nat) : Run :=
  Run.rowsGo (fun r i lo hi =>
    let (r, vs) := r.elems o.fmt vals lo (hi - lo)
    let (r, ws) := r.toF32 o.fmt vs
    r.putSums o.fmtOut out i [ws.foldl f32Add 0]) ptrs o.len o.nseg 0 0 r

def Run.segBest (r : Run) (isMax : Bool) (o : SegOp) (vals ptrs out outIdx : Nat) : Run :=
  Run.rowsGo (fun r i lo hi =>
    let (r, vs) := r.elems o.fmt vals lo (hi - lo)
    let (r, ws) := r.toF32 o.fmt vs
    let (v, k) := match pickBest isMax ((ws.map f32).zip ((List.range ws.length).map (· + lo))) with
      | some p => p
      | none => (emptyExtreme isMax o.fmtOut, 0xFFFF_FFFF)
    (r.put 0x0 o.fmtOut out i [v]).write (outIdx + 4 * i) (leBytes 4 k)) ptrs o.len o.nseg 0 0 r

/-- A row copied into another operand's format (R44-R46). The same format is no conversion: its codes are copied as they stand and
no random value is drawn under RND 0b11 (log 173). -/
def Run.copyRow (r : Run) (src dst : RowDesc) (i k : Nat) : Run :=
  if src.fmt = dst.fmt ∧ src.fmt ≠ 0xE then
    let (r, bs) := r.read (src.base + i * src.stride) (elemBytes src.fmt src.width)
    if r.ok then r.putCodes dst.fmt (dst.base + k * dst.stride) 0 (codesOf src.fmt bs src.width) else r
  else
    let (r, vs) := r.rowVals src i
    r.put src.fmt dst.fmt (dst.base + k * dst.stride) 0 vs

def Run.gatRows (r : Run) (idx n : Nat) (src dst : RowDesc) : Run :=
  if src.width ≠ dst.width ∨ dst.rows < n then r.stop .shape
  else r.each (List.range n) (fun r t =>
    let (r, i) := r.word (idx + 4 * t)
    if r.ok then r.copyRow src dst (min i (src.rows - 1)) t else r)

def Run.sctRows (r : Run) (idx n : Nat) (src dst : RowDesc) : Run :=
  if src.width ≠ dst.width ∨ src.rows < n then r.stop .shape
  else r.each (List.range n) (fun r t =>
    let (r, i) := r.word (idx + 4 * t)
    if r.ok then r.copyRow src dst t (min i (dst.rows - 1)) else r)

/-- The indices of a scatter, clamped, with their positions. -/
def Run.pairs (r : Run) (idx n rows : Nat) : Run × List (Nat × Nat) :=
  (List.range n).foldl (fun (q : Run × List (Nat × Nat)) t =>
    let (r, i) := q.1.word (idx + 4 * t)
    (r, q.2 ++ [(min i (rows - 1), t)])) (r, [])

/-- Inserts in order, equal keys keeping their order. -/
def sortIns (p : Nat × Nat) : List (Nat × Nat) → List (Nat × Nat)
  | [] => [p]
  | q :: qs => if p.1 < q.1 then p :: q :: qs else q :: sortIns p qs

def stableSort (l : List (Nat × Nat)) : List (Nat × Nat) := l.foldl (fun a p => sortIns p a) []

/-- PATH 0: sorted in scratch, each destination row read and written once. -/
def Run.addSorted (r : Run) (ps : List (Nat × Nat)) (src dst : RowDesc) (scratch : Nat) : Run :=
  let sorted := stableSort ps
  let r := r.write scratch (sorted.flatMap (fun p => leBytes 4 p.1 ++ leBytes 4 p.2))
  r.each (sorted.map (·.1)).eraseDups (fun r i =>
    let (r, st) := r.row dst i
    let (r, acc) := (sorted.filter (fun p => p.1 == i)).foldl (fun (q : Run × List Word) p =>
      let (r, v) := q.1.row src p.2
      (r, List.zipWith f32Add q.2 v)) (r, st)
    r.putRow dst i acc true)

/-- The addends of one source row: its elements in FP32, or in INT32 for an INT32 destination, narrowed under RND with flags. -/
def Run.addends (r : Run) (src dst : RowDesc) (t : Nat) : Run × List Word :=
  let (r, vs) := r.rowVals src t
  if dst.fmt = 0x6 then
    if fmtIsInt src.fmt then (r, vs.map (fun v => w32 (convert src.fmt 0x6 1 0 0 v).code))
    else
      let (r, rs) := r.draw vs.length
      let cs := List.zipWith (fun v q => convert src.fmt 0x6 r.rnd r.ovf q v) vs rs
      (r.flag (flagsOf (cs.any (·.sat)) (cs.any (·.nonfin))), cs.map (fun k => w32 k.code))
  else r.toF32 src.fmt vs

/-- The atomic add of one element (09 R206): at the memory for an FP32 or INT32 destination; one of another format, which no
atomic of the memory adds, is read, added in FP32 and written by the command (log 81). -/
def Run.addOne (r : Run) (dst : RowDesc) (i f : Nat) (w : Word) : Run :=
  let row := dst.base + i * dst.stride
  if dst.fmt = 0x0 ∨ dst.fmt = 0x6 then
    match r.s.resolveLocal r.p (row + 4 * f) .write with
    | .error e => r.stop e
    | .ok x => match r.s.atomicAt r.c (if dst.fmt = 0x6 then .add else .addF32) 4 x (w.setWidth 64) 0 with
      | (t, .error e) => { r with s := t }.stop e
      | (t, .ok _) =>
        let r := { r with s := t }
        if dst.fmt = 0x0 ∧ !f32IsFin (w32 (leNat (t.rd x 4))) then r.flag { nonfinite := true } else r
  else
    let (r, y) := r.elems dst.fmt row f 1
    let (r, y) := r.toF32 dst.fmt y
    r.putSums dst.fmt row f [f32Add (nth 0 y 0) w]

/-- Elements in a free order of arrival (log 81). -/
def arrival {α : Type} (free : Nat) (l : List α) : List α :=
  (stableSort (l.mapIdx (fun k _ => ((Config.freeWord (free + k)).toNat, k)))).filterMap (fun q => l[q.2]?)

/-- PATH 1: the elements of the source rows are sent in ascending t, and each is an atomic add of its own that arrives in an order
that is free for float destinations. A failing read of a source row leaves the adds of the rows before it (R127). -/
def Run.addAtomic (r : Run) (ps : List (Nat × Nat)) (src dst : RowDesc) : Run :=
  let (r, sent) := ps.foldl (fun (q : Run × List (Nat × Nat × Word)) p =>
    let (r, ws) := q.1.addends src dst p.2
    (r, if r.ok then q.2 ++ ws.mapIdx (fun f w => (p.1, f, w)) else q.2)) (r, [])
  if r.wait then r
  else
    let order := if fmtIsInt dst.fmt then sent else arrival r.s.free sent
    let t := { r with s := { r.s with free := r.s.free + sent.length }, code := .done }.each order (fun r x => r.addOne dst x.1 x.2.1 x.2.2)
    { t with code := if r.code = .done then t.code else r.code }

/-- R125. SRC.WIDTH other than DST.WIDTH, and more indices than SRC has rows, complete with SHAPE as for `sct.rows` (log 174).
Scratch outside the issuing core's own memory is UNMAPPED (log 171). -/
def Run.sctAdd (r : Run) (o : SctAddOp) (idx scratch : Nat) (src dst : RowDesc) : Run :=
  if src.width ≠ dst.width ∨ src.rows < o.n then r.stop .shape
  else if !o.atomic ∧ o.scratchBytes < 8 * o.n then r.stop .limit
  else
    let (r, ps) := r.pairs idx o.n dst.rows
    if o.atomic then r.addAtomic ps src dst
    else if r.s.ownRoom r.c r.p scratch < 8 * o.n then r.stop .unmapped
    else r.addSorted ps src dst scratch

/-! ## Issue and completion (R111) -/

/-- RND and OVF of a command, its structures and its other global addresses. -/
def IrrOp.shape : IrrOp → BitVec 2 × BitVec 2 × List Struct × List Addr
  | .spMm o => (o.rnd, o.ovf, [.csr o.a false, .rows o.b .read, .rows o.y .write], [])
  | .spSddmm o => (o.rnd, o.ovf, [.csr o.s false, .rows o.a .read, .rows o.bt .read], [o.out])
  | .spGemm o => (o.rnd, o.ovf, [.csr o.a true, .csr o.b true, .csr o.c false], [o.staging])
  | .mtchLoad o => (0, 0, [], o.keys :: o.payload.toList)
  | .mtchProbe o => (0, 0, [], [o.keys, o.out])
  | .mtchIsect o => (0, 0, [], if o.countOnly then [o.keys] else [o.keys, o.out])
  | .mtchClear => (0, 0, [], [])
  | .segSum o => (o.rnd, o.ovf, [], [o.vals, o.ptrs, o.out])
  | .segMax o => (o.rnd, o.ovf, [], [o.vals, o.ptrs, o.out, o.outIdx])
  | .segMin o => (o.rnd, o.ovf, [], [o.vals, o.ptrs, o.out, o.outIdx])
  | .gatRows o => (o.rnd, o.ovf, [.rows o.src .read, .rows o.dst .write], [o.idx])
  | .sctRows o => (o.rnd, o.ovf, [.rows o.src .read, .rows o.dst .write], [o.idx])
  | .sctAdd o => (o.rnd, o.ovf, [.rows o.src .read, .rows o.dst .write], if o.atomic then [o.idx] else [o.idx, o.scratch])

/-- The formats a command names itself. -/
def IrrOp.fmts : IrrOp → List (BitVec 4)
  | .spSddmm o => [o.fmtOut]
  | .segSum o | .segMax o | .segMin o => [o.fmt, o.fmtOut]
  | _ => []

def structAddr : Struct → Addr
  | .csr g _ => g
  | .rows g _ => g

/-- `sct.add` by PATH 1 on a float destination is refused at issue in a deterministic partition (R125, 09 R208); its
descriptors are read first (21 R453). -/
def State.addVaries (s : State) (c : CoreId) (p : PartId) (op : IrrOp) : State × Except Code Bool :=
  match op with
  | .sctAdd o =>
    if o.atomic && s.det c then
      match s.readStructs p [.rows o.src .read, .rows o.dst .write] with
      | (t, .error e) => (t, .error e)
      | (t, .ok [_, .rows y _]) => (t, .ok (!fmtIsInt y.fmt))
      | (t, .ok _) => (t, .ok false)
    else (s, .ok false)
  | _ => (s, .ok false)

/-- Issue: a bad device number or VARIES refuses at once; otherwise the command queues and its gang is held (R111, 09 R208).
A stochastic command takes its place as a consumer (08 R174). -/
def irrIssue (h : Th) (op : IrrOp) (cpl : Reg) (s : State) : Out :=
  s.engine h cpl true (fun c s =>
    let (rnd, _, ss, as) := op.shape
    let p := s.part h.core
    if ((ss.map structAddr) ++ as).any (s.deviceBad p) then s.finish (.thread c) .unmapped
    else if rnd = 3 ∧ s.det h.core ∧ (s.core h.core).rng.fresh then s.varies h.core (.thread c)
    else match s.addVaries h.core p op with
    | (s, .error e) => s.finish (.thread c) e
    | (s, .ok true) => s.varies h.core (.thread c)
    | (s, .ok false) =>
      let (n, s) := s.nextSeq h.core
      let s := (s.onMtch h.core (fun m => { m with queue := m.queue ++ [(c, p, op, n)] })).onGang h.core h.gang (fun k => { k with held := true })
      if rnd = 3 then s.pushConsumer h.core .irregular else s)

def execSpMm (h : Th) (op : SpMmOp) (cpl : Reg) (s : State) : Out := irrIssue h (.spMm op) cpl s
def execSpSddmm (h : Th) (op : SpSddmmOp) (cpl : Reg) (s : State) : Out := irrIssue h (.spSddmm op) cpl s
def execSpGemm (h : Th) (op : SpGemmOp) (cpl : Reg) (s : State) : Out := irrIssue h (.spGemm op) cpl s
def execMtchLoad (h : Th) (op : MtchLoadOp) (cpl : Reg) (s : State) : Out := irrIssue h (.mtchLoad op) cpl s
def execMtchProbe (h : Th) (op : MtchProbeOp) (cpl : Reg) (s : State) : Out := irrIssue h (.mtchProbe op) cpl s
def execMtchIsect (h : Th) (op : MtchIsectOp) (cpl : Reg) (s : State) : Out := irrIssue h (.mtchIsect op) cpl s
def execMtchClear (h : Th) (cpl : Reg) (s : State) : Out := irrIssue h .mtchClear cpl s
def execSegSum (h : Th) (op : SegOp) (cpl : Reg) (s : State) : Out := irrIssue h (.segSum op) cpl s
def execSegMax (h : Th) (op : SegOp) (cpl : Reg) (s : State) : Out := irrIssue h (.segMax op) cpl s
def execSegMin (h : Th) (op : SegOp) (cpl : Reg) (s : State) : Out := irrIssue h (.segMin op) cpl s
def execGatRows (h : Th) (op : RowsOp) (cpl : Reg) (s : State) : Out := irrIssue h (.gatRows op) cpl s
def execSctRows (h : Th) (op : RowsOp) (cpl : Reg) (s : State) : Out := irrIssue h (.sctRows op) cpl s
def execSctAdd (h : Th) (op : SctAddOp) (cpl : Reg) (s : State) : Out := irrIssue h (.sctAdd op) cpl s

/-- Local parts of a command's other addresses. -/
def State.localAll (s : State) (p : PartId) : List Addr → Except Code (List Nat)
  | [] => .ok []
  | g :: gs => match s.localOf p g, s.localAll p gs with
    | .ok a, .ok as => .ok (a :: as)
    | .error e, _ => .error e
    | _, .error e => .error e

/-- What an accepted command does. -/
def Run.irr (r : Run) (op : IrrOp) (ps : List Parsed) (as : List Nat) : Run :=
  let a (i : Nat) : Nat := nth 0 as i
  match op, ps with
  | .spMm o, [.csr x _, .rows b _, .rows y _] => r.spMm o.beta x b y
  | .spSddmm o, [.csr x _, .rows b _, .rows y _] => r.spSddmm (a 0) o.fmtOut x b y
  | .spGemm o, [.csr x _, .csr y _, .csr z _] => r.spGemm o.cap (a 0) x y z
  | .mtchLoad o, _ => r.mtchLoad (a 0) (o.payload.map (fun _ => a 1)) o.count o.key16
  | .mtchProbe o, _ => r.mtchProbe (a 0) (a 1) o.count o.key16
  | .mtchIsect o, _ => r.mtchIsect (a 0) o.count o.key16 (a 1) o.cap o.countOnly
  | .mtchClear, _ => r.clear
  | .segSum o, _ => r.segSum o (a 0) (a 1) (a 2)
  | .segMax o, _ => r.segBest true o (a 0) (a 1) (a 2) (a 3)
  | .segMin o, _ => r.segBest false o (a 0) (a 1) (a 2) (a 3)
  | .gatRows o, [.rows x _, .rows y _] => r.gatRows (a 0) o.n x y
  | .sctRows o, [.rows x _, .rows y _] => r.sctRows (a 0) o.n x y
  | .sctAdd o, [.rows x _, .rows y _] => r.sctAdd o (a 0) (a 1) x y
  | _, _ => r

/-- A command that NROWS = 0 ends: `sp.gemm` still leaves the matcher empty (R107, R121). -/
def Run.noRows (r : Run) : IrrOp → Run
  | .spGemm _ => r.clear
  | _ => r

/-- The head command of a core's matcher queue, issued as number `n`: checks, then all it does (R107, R113). A reserved or MX
format it names itself is refused with the descriptors', before NROWS = 0 is looked at (log 175). -/
def State.runIrr (s : State) (c : CoreId) (p : PartId) (op : IrrOp) (n : Nat) : Run :=
  let (rnd, ovf, ss, gs) := op.shape
  let r := { Run.start s c p rnd ovf (op.paired.getD 0) with seq := n }
  match s.readStructs p ss with
  | (t, .error e) => { r with s := t, code := e }
  | (t, .ok ps) =>
    let r := { r with s := t }
    match t.checkAll p ps with
    | .done =>
      if ovf = 3 ∨ op.fmts.any (fun f => fmtReserved f || fmtIsMx f) then r.stop .format
      else match t.localAll p gs with
        | .error e => { r with code := e }
        | .ok as => if ps.any (·.noRows) then r.noRows op else r.irr op ps as
    | e => { r with code := e }

/-- What a try that waits keeps: what it has read off its paired stream and emitted into it. All else of the command, its reads,
draws and writes, happens in the try that completes it (log 167). -/
def State.keepTry (s : State) (c : CoreId) (op : IrrOp) (r : Run) : State :=
  match op.paired with
  | none => s
  | some i => (s.onStrm c i (fun _ => r.s.strm c i)).onMtch c (fun m => { m with sideIn := r.took, sideOut := max r.gave r.skip })

/-- The command completes and its gang goes on. A command that waits for its paired stream, or for the random unit, does not
complete yet. -/
def irregularCompleteAt (c : CoreId) (s : State) : Out :=
  match (s.core c).mtch.queue with
  | (k, p, op, n) :: rest =>
    let stoch := op.shape.1 = 3
    if !s.coreOn c ∨ (stoch ∧ (s.core c).rng.busy ≠ some .irregular) then .next s
    else
      let r := s.runIrr c p op n
      if r.wait then .next (s.keepTry c op r)
      else
        let t := (r.s.onMtch c (fun m => { m with queue := rest, sideIn := [], sideOut := 0 })).onGang k.core k.gang
          (fun g => { g with held := false })
        .next ((t.endDraw c op.shape.1 r.j).finish (.thread k) r.code)
  | [] => .next s

def execIrregularComplete (c : CoreId) (s : State) : Out := asCore c (irregularCompleteAt c) s

end Sys2Proof.Machine
end

