-- ==== Sys2Proof/Machine/Random.lean ====
section
/-! DEFINITION. The random unit (08 R173-R182): its consumers in issue order, seeding, the distributions of rng.fill, the
categorical draw of rng.cat, and the stuck detector. -/

namespace Sys2Proof.Machine

def State.onRng (s : State) (c : CoreId) (f : Rng → Rng) : State := s.onCore c (fun k => { k with rng := f k.rng })

def State.onSec (s : State) (f : Sec → Sec) : State := { s with sec := f s.sec }

/-! ## Words -/

/-- Takes one word from a lane. -/
def takeFrom (ls : Vector Lane 32) (l : Nat) : Word × Vector Lane 32 :=
  let (w, x) := ls[(Fin.ofNat 32 l).val].take
  (w, ls.set (Fin.ofNat 32 l).val x)

/-- uf(w) of R180, exact: (w >> 8) + 0.5 in units of 2^-24. -/
def uf (w : Word) : Val := .fin false (2 * (w.toNat / 256) + 1) (-25)

/-- G of R182: -ln(-ln(uf(w))). -/
def gumbel (w : Word) : Word := toF32 (f32 (f32Ln (f32 (f32Ln (uf w))).neg)).neg

/-! ## Normal draws (R181) -/

/-- What is left to try: words an element may take before its value is free (log 34). -/
def zigFuel : Nat := 1048576

/-- The tail: pairs of words until 2 b > a^2. -/
def zigTail : Nat → Nat → Vector Lane 32 → Option Word × Vector Lane 32
  | 0, _, ls => (none, ls)
  | n + 1, l, ls =>
    let (w1, ls) := takeFrom ls l
    let (w2, ls) := takeFrom ls l
    let a := f32Div (toF32 (f32 (f32Ln (uf w1))).neg) zigR32
    let b := toF32 (f32 (f32Ln (uf w2))).neg
    if !(f32 (f32Mul a a)).lt (f32 (f32Mul 0x40000000 b)) then zigTail n l ls
    else (some (f32Add zigR32 a), ls)

/-- One z; none when the words allowed run out. -/
def zigDraw : Nat → Nat → Vector Lane 32 → Option Word × Vector Lane 32
  | 0, _, ls => (none, ls)
  | n + 1, l, ls =>
    let (w, ls) := takeFrom ls l
    let i := w.toNat % 256
    let neg := bitOf w.toNat 8
    let signed (x : Word) : Word := if neg then x ^^^ 0x80000000 else x
    let x := toF32 (Val.mul (.fin false (w.toNat / 512) (-23)) (f32 (nth 0 zigX i)))
    if (f32 x).lt (f32 (nth 0 zigX (i + 1))) then (some (signed x), ls)
    else if i = 0 then
      match zigTail n l ls with
      | (some x, ls) => (some (signed x), ls)
      | r => r
    else
      let (u, ls) := takeFrom ls l
      let fi := nth 0 zigFs i
      let y := f32Add fi (toF32 ((uf u).mul (f32 (f32Sub (nth 0 zigFs (i + 1)) fi))))
      let e := f32Exp (Val.mul (.fin true 1 (-1)) (f32 (f32Mul x x)))
      if (f32 y).lt (f32 e) then (some (signed x), ls) else zigDraw n l ls

/-- mu + sigma * z. -/
def normalOf (mu sigma z : Word) : Word := f32Add mu (f32Mul sigma z)

/-- A truncated draw: up to `n` attempts; none of them within the bounds takes one further word. The flag says so. -/
def truncDraw (o : RngFillOp) : Nat → Nat → Vector Lane 32 → Option Word × Bool × Vector Lane 32
  | 0, l, ls =>
    let (w, ls) := takeFrom ls l
    (some (f32Add o.lo (toF32 ((uf w).mul (f32 (f32Sub o.hi o.lo))))), true, ls)
  | n + 1, l, ls =>
    match zigDraw zigFuel l ls with
    | (none, ls) => (none, false, ls)
    | (some z, ls) =>
      let v := normalOf o.mu o.sigma z
      if !(f32 v).isNan && !(f32 v).lt (f32 o.lo) && !(f32 o.hi).lt (f32 v) then (some v, false, ls) else truncDraw o n l ls

/-- One element of a distribution from lane `l` (R180): its word, whether it fell back, and the lanes after it. -/
def fillElem (o : RngFillOp) (l : Nat) (ls : Vector Lane 32) : Option Word × Bool × Vector Lane 32 :=
  let one (f : Word → Word) : Option Word × Bool × Vector Lane 32 :=
    let (w, ls) := takeFrom ls l
    (some (f w), false, ls)
  match o.dist with
  | 0 => one id
  | 1 => one (fun w => w32 (w.toNat * o.n.toNat / 2 ^ 32))
  | 2 => one (fun w => toF32 (.fin false (w.toNat / 256) (-24)))
  | 3 => one (fun w => if w.toNat / 65536 < o.p.toNat then 1 else 0)
  | 4 =>
    match zigDraw zigFuel l ls with
    | (some z, ls) => (some (normalOf o.mu o.sigma z), false, ls)
    | (none, ls) => (none, false, ls)
  | _ => truncDraw o 32 l ls

/-- Elements `j`, `j + 1`, .. of a fill, `n` of them: their words in order. -/
def fillGo (o : RngFillOp) (c : CoreId) : Nat → Nat → State → State × List Word
  | 0, _, s => (s, [])
  | n + 1, j, s =>
    let (w, fell, ls) := fillElem o (j % 32) (s.core c).rng.lanes
    let t := s.onRng c (fun r => { r with lanes := ls, trunc := if fell then satInc 32 r.trunc else r.trunc })
    let (v, t) := match w with
      | some v => (v, t)
      | none => t.freeWord
    let (u, ws) := fillGo o c n (j + 1) t
    (u, v :: ws)

/-- Writes a fill line by line: the 16 elements of a 64-byte line are drawn, then written; the first failure answers. A
non-finite FP32 result sets NONFINITE (02 R62). -/
def fillLines (o : RngFillOp) (c : CoreId) (p : PartId) (a : Nat) : Nat → Nat → State → State × Code
  | 0, _, s => (s, .done)
  | n + 1, j, s =>
    if o.count ≤ j then (s, .done)
    else
      let (t, ws) := fillGo o c (min 16 (o.count - j)) j s
      match t.writeRange c p (a + 4 * j) (ws.flatMap (fun w => leBytes 4 w.toNat)) with
      | (u, .done) => fillLines o c p a n (j + 16) (u.setCFlags c { nonfinite := decide (4 ≤ o.dist) && ws.any (fun w => !f32IsFin w) })
      | r => r

/-! ## Issue (R177, R180, R182; 09 R208, 21 R453) -/

/-- Accepts a consumer into issue order. -/
def consume (c : CoreId) (x : Consumer) (s : State) : State := s.pushConsumer c x

def execRngSeed (h : Th) (op : RngSeedOp) (cpl : Reg) (s : State) : Out :=
  s.engine h cpl true (fun c s =>
    if s.det h.core ∧ (op.fresh ∨ (s.core h.core).rng.fresh) then s.varies h.core (.thread c)
    else consume h.core (.seed c op) s)

/-- A finite FP32 value above 0. -/
def f32Positive (w : Word) : Bool := f32IsFin w && Val.zero.lt (f32 w)

/-- The table of R180. -/
def State.fillCheck (s : State) (p : PartId) (op : RngFillOp) : Code :=
  if op.addr.toNat % 64 ≠ 0 then .align
  else if 6 ≤ op.dist then .shape
  else
    let place := match s.localOf p op.addr with
      | .ok a => s.checkRange p a (4 * op.count) .write
      | .error e => e
    if place ≠ .done then place
    else if op.dist = 1 ∧ op.n = 0 then .limit
    else if op.dist = 5 ∧ !(f32IsFin op.lo && f32IsFin op.hi && (f32 op.lo).lt (f32 op.hi) && f32Positive op.sigma) then .limit
    else .done

def execRngFill (h : Th) (op : RngFillOp) (cpl : Reg) (s : State) : Out :=
  s.engine h cpl true (fun c s =>
    let p := s.part h.core
    if s.deviceBad p op.addr then s.finish (.thread c) .unmapped
    else if s.rngVaries h.core then s.varies h.core (.thread c)
    else match s.fillCheck p op with
      | .done => consume h.core (.fill c p op) s
      | e => s.finish (.thread c) e)

/-- The table of R182. -/
def State.catCheck (s : State) (p : PartId) (op : RngCatOp) (d : RowDesc) : Code :=
  if !s.rowAlign p .read d then .align
  else if d.shapeBad then .shape
  else if d.fmt ≠ 0x0 ∧ d.fmt ≠ 0x1 ∧ d.fmt ≠ 0x2 then .format
  else if !f32Positive op.temp then .limit
  else if 1024 < op.topk then .limit
  else .done

def execRngCat (h : Th) (op : RngCatOp) (cpl : Reg) (s : State) : Out :=
  s.engine h cpl true (fun c s =>
    let p := s.part h.core
    if s.deviceBad p op.scores ∨ s.deviceBad p op.out then s.finish (.thread c) .unmapped
    else match s.readDesc p op.scores 32 32 false with
      | (t, .error e) => t.finish (.thread c) e
      | (t, .ok bs) =>
        if t.rngVaries h.core then t.varies h.core (.thread c)
        else match t.catCheck p op (parseRows bs) with
          | .done => consume h.core (.cat c p op bs) t
          | e => t.finish (.thread c) e)

/-! ## Serving consumers (R174) -/

/-- The unit is idle and a consumer waits: the first takes it. -/
def randomConsumerStartAt (c : CoreId) (s : State) : Out :=
  match (s.core c).rng.queue with
  | x :: rest =>
    if s.coreOn c ∧ (s.core c).rng.busy = none then .next (s.onRng c (fun r => { r with queue := rest, busy := some x })) else .next s
  | [] => .next s

def execRandomConsumerStart (c : CoreId) (s : State) : Out := asCore c (randomConsumerStartAt c) s

/-- Frees the unit and completes the consumer's command. -/
def State.endConsumer (s : State) (c : CoreId) (k : Cpl) (code : Code) : State :=
  (s.onRng c (fun r => { r with busy := none })).finish (.thread k) code

/-- Source JOB (R177). -/
def State.seedJob (s : State) (c : CoreId) (o : RngSeedOp) : State :=
  s.onRng c (fun r => { r with
    seed := o.seed, fresh := false
    lanes := Vector.ofFn (fun i => if o.mask.getLsbD i.val then laneAt s.dev c.val i.val o.seed o.pos.toNat else r.lanes[i.val]) })

/-- `n` blocks of 128 bits from the DRBG, in order (R184). A request that needs fresh entropy reseeds first. -/
def State.drbgTake (s : State) (n : Nat) (reseed : Bool) : State × List (BitVec 128) :=
  let (d, bits) := (if reseed then s.sec.drbg.reseed else s.sec.drbg).generate n
  (s.onSec (fun k => { k with drbg := d, drbgCount := if reseed then 1 else k.drbgCount + 1 }), bits)

/-- Source FRESH: each masked lane takes 128 bits; zero becomes the base state (R177). -/
def State.seedFresh (s : State) (c : CoreId) (o : RngSeedOp) : State :=
  let ls := (List.range 32).filter (fun l => o.mask.getLsbD l)
  let (t, bits) := s.drbgTake ls.length true
  t.onRng c (fun r => { r with
    fresh := true
    lanes := Vector.ofFn (fun i =>
      if o.mask.getLsbD i.val then
        let v := nth 0 bits (ls.idxOf i.val)
        { s := if v = 0 then baseState r.seed else v, pos := 0 }
      else r.lanes[i.val]) })

/-- The `rng.seed` with source FRESH that holds a core's unit. -/
def State.freshSeed (s : State) (c : CoreId) : Option (Cpl × RngSeedOp) :=
  match (s.core c).rng.busy with
  | some (.seed k o) => if o.fresh then some (k, o) else none
  | _ => none

/-- One row of R182: `row` its scores, `ws` its words. Answers the winning index and whether the winner's key is a NaN. -/
def catRow (op : RngCatOp) (scores : List Word) (ws : List Word) : Nat × Bool :=
  let keys := List.zipWith (fun x w => f32 (f32Add (f32Div x op.temp) (gumbel w))) scores ws
  let ranked := (scores.map f32).zipIdx
  -- How many of the other scores rank before element j.
  let rank (j : Nat) : Nat := (ranked.filter (fun q => q.2 != j && wins true q.1 q.2 (f32 (nth 0 scores j)) j)).length
  let takes (j : Nat) : Bool := op.topk == 0 || decide (scores.length ≤ op.topk) || decide (rank j < op.topk)
  match pickBest true (keys.zipIdx.filter (fun q => takes q.2)) with
  | some (v, j) => (j, v.isNan)
  | none => (0, false)

/-- The words of a row of `n` elements: element j takes one from lane j mod 32. -/
def catWords (c : CoreId) : Nat → Nat → State → State × List Word
  | 0, _, s => (s, [])
  | n + 1, j, s =>
    let (w, ls) := takeFrom (s.core c).rng.lanes (j % 32)
    let (t, ws) := catWords c n (j + 1) (s.onRng c (fun r => { r with lanes := ls }))
    (t, w :: ws)

/-- One row: its scores are read, its words drawn, and its index written (R182). -/
def Run.catOne (r : Run) (op : RngCatOp) (d : RowDesc) (out i : Nat) : Run :=
  let (r, scores) := r.row d i
  if !r.ok then r
  else
    let (s, ws) := catWords r.c d.width 0 r.s
    let (j, nan) := catRow op scores ws
    let r := { r with s := s }.write (out + 4 * i) (leBytes 4 j)
    if r.ok ∧ nan then r.flag { nonfinite := true } else r

/-- `rng.cat`: rows one after another; the first failure answers, with the rows before it written. -/
def State.runCat (s : State) (c : CoreId) (p : PartId) (op : RngCatOp) (desc : List Byte) : State × Code :=
  match s.localOf p op.out with
  | .error e => (s, e)
  | .ok a =>
    let d := parseRows desc
    let r := (Run.plain s c p).each (List.range d.rows) (fun r i => r.catOne op d a i)
    (r.s, r.code)

/-- An `rng.` consumer takes its last word and completes. A seed that needs fresh entropy waits while the source is
retested (R185). -/
def randomConsumerCompleteAt (c : CoreId) (s : State) : Out :=
  match (s.core c).rng.busy with
  | some (.seed k o) =>
    if !o.fresh then .next ((s.seedJob c o).endConsumer c k .done)
    else if s.sec.retest.isNone then .next ((s.seedFresh c o).endConsumer c k .done)
    else if s.sec.drbgWait.any (fun w => w.1 == .seedFresh c) then .next s
    else .next (s.onSec (fun x => { x with drbgWait := x.drbgWait ++ [(.seedFresh c, s.now)] }))
  | some (.fill k p o) =>
    match s.localOf p o.addr with
    | .ok a =>
      let (t, e) := fillLines o c p a (o.count / 16 + 1) 0 s
      .next (t.endConsumer c k e)
    | .error e => .next (s.endConsumer c k e)
  | some (.cat k p o bs) =>
    let (t, e) := s.runCat c p o bs
    .next (t.endConsumer c k e)
  | _ => .next s

def execRandomConsumerComplete (c : CoreId) (s : State) : Out := asCore c (randomConsumerCompleteAt c) s

/-- The stuck detector (R179): a zero state is reseeded at position 0, counted and flagged. -/
def execStuckDetector (c : CoreId) (l : ThreadId) (s : State) : Out :=
  let r := (s.core c).rng
  if s.coreOn c ∧ r.lanes[l.val].s = 0 then
    .next (s.onRng c (fun r => { r with
      lanes := r.lanes.set l.val (laneAt s.dev c.val l.val r.seed 0), stuck := true, stuckCount := satInc 32 r.stuckCount }))
  else .next s

end Sys2Proof.Machine
end

