-- ==== Sys2Proof/Machine/Masks.lean ====
section
/-! DEFINITION. Masks that change during training (06 R133-R140): the stored blocks of a sparse matrix, scores and the
selection of new nibbles. msk.score and msk.select have no event of their own and run as they are issued. -/

namespace Sys2Proof.Machine

/-! ## Blocks (04 R91-R95, 06 R133) -/

/-- A weight format a sparse orientation accepts (04 R94). -/
def fmtSparse (f : BitVec 4) : Bool := fmtArray f && f != 0xE

/-- A stored block: its block row and column and its local address. -/
structure SBlock where
  kb : Nat
  nb : Nat
  addr : Nat
  deriving DecidableEq, Repr

/-- The stored blocks of block row `kb` in ascending nb (R95). -/
def Run.rowBlocks (r : Run) (h : SparseHdr) (kb : Nat) : Run × List SBlock :=
  let b0 := kb * h.nb
  let (r, bs) := r.read (h.map + b0 / 8) ((b0 + h.nb - 1) / 8 - b0 / 8 + 1)
  let (r, dir) := r.word (h.dir + 4 * kb)
  let bits := mapBits bs b0 h.nb
  let live := (List.range h.nb).filter (fun nb => nth false bits nb)
  (r, live.mapIdx (fun i nb => ⟨kb, nb, (dir + i * blockUnits h.fmtW) * 64⟩))

/-- The stored blocks of a block range in directory order; block rows from KB on hold none (log 37). -/
def Run.blocks (r : Run) (h : SparseHdr) (kb0 nkb : Nat) : Run × List SBlock :=
  ((List.range nkb).map (· + kb0)).foldl (fun (q : Run × List SBlock) kb =>
    if kb < h.kb ∧ q.1.ok then
      let (t, bs) := q.1.rowBlocks h kb
      (t, q.2 ++ bs)
    else q) (r, [])

/-- Slot `s` of group `h` (0-31) in column `n` of a block, in value order (R133). -/
def slotIndex (h s n : Nat) : Nat := (2 * h + s) * 128 + n

/-- The code of a stored value in a block's bytes. -/
def blockCode (fw : BitVec 4) (blk : Array Byte) (h s n : Nat) : Nat :=
  let base := h / 16 * halfBytes fw
  let l := h % 16
  if fmtBits fw = 4 then (blk.getD (base + l * 128 + n) 0).toNat / 16 ^ s % 16
  else codeAt (blk.extract base (base + halfValues fw)) (fmtBits fw) ((2 * l + s) * 128 + n)

/-- The metadata nibbles of a block in its bytes, 2 KiB in group order (R140). -/
def blockMeta (fw : BitVec 4) (blk : List Byte) : List Byte :=
  (blk.drop (halfValues fw)).take 1024 ++ (blk.drop (halfBytes fw + halfValues fw)).take 1024

/-- The nibble of group `h`, column `n` in 2 KiB of metadata. -/
def metaNibble (md : Array Byte) (h n : Nat) : Nat := (md.getD ((h * 128 + n) / 2) 0).toNat / 16 ^ (n % 2) % 16

/-- The positions a nibble keeps: LO, and HI unless it equals LO (R136). -/
def keptOf (nib : Nat) : List Nat := if nib % 4 = nib / 4 then [nib % 4] else [nib % 4, nib / 4]

/-- The canonical nibble of two positions. -/
def nibbleOf (a b : Nat) : Nat := 4 * max a b + min a b

/-- Packs nibbles, even ones low. -/
def packMeta (ns : List Nat) : List Byte := packNibbles ns

/-- Values of `n` elements from codes in memory. -/
def Run.array (r : Run) (fmt : BitVec 4) (a n : Nat) : Run × Array Val :=
  let (t, bs) := r.read a (elemBytes fmt n)
  (t, ((codesOf fmt bs n).map (decodeElem fmt)).toArray)

/-- The 128 x 128 region of a dense gradient under a block, by k then n; positions outside the operand are +0 (log 38). -/
def Run.gradTile (r : Run) (d : RowDesc) (kb nb : Nat) : Run × Array Val :=
  (List.range 128).foldl (fun (q : Run × Array Val) i =>
    let k := 128 * kb + i
    let cnt := if k < d.rows then min 128 (d.width - 128 * nb) else 0
    if cnt = 0 then (q.1, q.2 ++ (List.replicate 128 Val.zero).toArray)
    else
      let (t, vs) := q.1.elems d.fmt (d.base + k * d.stride) (128 * nb) cnt
      (t, q.2 ++ (vs ++ List.replicate (128 - cnt) Val.zero).toArray)) (r, #[])

/-- A gradient operand fits a header: its sizes round up to the header's blocks (log 38). -/
def gradFits (h : SparseHdr) (d : RowDesc) : Bool := ceilDiv d.rows 128 == h.kb && ceilDiv d.width 128 == h.nb

def fmtGrad (f : BitVec 4) : Bool := f == 0x0 || f == 0x1 || f == 0x2

/-! ## Operands (R135) -/

/-- Reads a header and, if given, a row descriptor: both at their own addresses first (21 R453). -/
def State.readMskDescs (s : State) (p : PartId) (hdr : Addr) (grad : Option Addr) :
    State × Except Code (List Byte) :=
  match s.readDesc p hdr 32 64 true with
  | (t, .error e) => (t, .error e)
  | (t, .ok bs) =>
    match grad with
    | none => (t, .ok bs)
    | some g => match t.readDesc p g 32 64 false with
      | (u, .error e) => (u, .error e)
      | (u, .ok gs) => (u, .ok (bs ++ gs))

/-- The row descriptor that follows `n` bytes of headers. -/
def gradOf (n : Nat) (bs : List Byte) : Option RowDesc := if n < bs.length then some (parseRows (bs.drop n)) else none

/-- Every other address of a mask command is a multiple of 64. -/
def aligned64 (l : List Addr) : Bool := l.all (fun a => a.toNat % 64 == 0)

/-- The checks of a gradient operand (R113, R136, R146). -/
def State.gradCheck (s : State) (p : PartId) (h : SparseHdr) (g : Option RowDesc) : Code :=
  match g with
  | none => .done
  | some d =>
    let e := s.rowCheck p .read d
    if e ≠ .done then e else if !fmtGrad d.fmt then .format else if !gradFits h d then .shape else .done

/-! ## msk.score (R136) -/

/-- The scores of one block: four of each group, by group row and column. -/
def blockScores (ak ap : Word) (md : Array Byte) (master : Array Val) (grad : Option (Array Val)) : List Conv :=
  (List.range 32).flatMap (fun h => (List.range 128).flatMap (fun n =>
    let nib := metaNibble md h n
    (List.range 4).map (fun p =>
      let score (a : Word) (v : Val) : Conv := fp32.encode 1 0 0 ((f32 a).mul v.abs)
      if p = nib % 4 then score ak (master.getD (slotIndex h 0 n) .zero)
      else if p = nib / 4 then score ak (master.getD (slotIndex h 1 n) .zero)
      else match grad with
        | some g => score ap (g.getD ((4 * h + p) * 128 + n) .zero)
        | none => { code := 0 })))

def Run.scoreBlocks (r : Run) (h : SparseHdr) (g : Option RowDesc) (master score : Nat) (ak ap : Word) (bs : List SBlock) : Run :=
  r.each bs.zipIdx (fun r x =>
    let (r, blk) := r.read x.1.addr (2 * halfBytes h.fmtW)
    let (r, ms) := r.array 0x0 (master + 32768 * x.2) 8192
    let (r, gv) := match g with
      | some d => let (t, v) := r.gradTile d x.1.kb x.1.nb; (t, some v)
      | none => (r, none)
    if r.ok then
      let cs := blockScores ak ap (blockMeta h.fmtW blk).toArray ms gv
      let t := r.write (score + 65536 * x.2) (cs.flatMap (fun c => leBytes 4 c.code))
      if t.ok ∧ cs.any (fun c => !(fp32.decode c.code).isFin) then t.flag { nonfinite := true } else t
    else r)

/-- Local parts of addresses, or UNMAPPED for another module. -/
def State.locals (s : State) (p : PartId) (l : List Addr) : Except Code (List Nat) := s.localAll p l

def execMskScore (h : Th) (op : MskScoreOp) (cpl : Reg) (s : State) : Out :=
  s.engine h cpl true (fun c s =>
    let p := s.part h.core
    let as := [op.master, op.score]
    if ([op.range.hdr] ++ op.grad.toList ++ as).any (s.deviceBad p) then s.finish (.thread c) .unmapped
    else match s.readMskDescs p op.range.hdr op.grad with
      | (t, .error e) => t.finish (.thread c) e
      | (t, .ok bs) =>
        let hd := parseHdr bs
        let g := gradOf 32 bs
        if !aligned64 as then t.finish (.thread c) .align
        else if !fmtSparse hd.fmtW then t.finish (.thread c) .format
        else match t.gradCheck p hd g, t.locals p as with
          | .done, .ok ls =>
            let (r, bs) := (Run.plain t h.core p).blocks hd op.range.kb0 op.range.nkb
            let r := r.scoreBlocks hd g (nth 0 ls 0) (nth 0 ls 1) op.alphaK op.alphaP bs
            r.s.finish (.thread c) r.code
          | .done, .error e => t.finish (.thread c) e
          | e, _ => t.finish (.thread c) e)

/-! ## msk.select (R137-R140) -/

/-- What a group proposes: its old and new nibbles, its change count, its gain and whether it is a candidate. -/
structure Proposal where
  old : Nat
  new : Nat
  change : Nat
  gain : Word
  nan : Bool
  deriving DecidableEq, Repr

/-- The position of the highest value among positions, the lower one on a tie. -/
def bestPos (vs : List (Nat × Val)) : Option Nat :=
  (vs.foldl (fun (b : Option (Nat × Val)) x => match b with
    | none => some x
    | some y => if y.2.lt x.2 then some x else b) none).map (·.1)

/-- The two best positions of those listed with values; free places go to the lowest positions not chosen. -/
def topTwo (vs : List (Nat × Val)) : Nat × Nat :=
  let fill (used : List Nat) : Nat := ((List.range 4).find? (fun p => !used.contains p)).getD 0
  let a := (bestPos vs).getD (fill [])
  let b := (bestPos (vs.filter (fun x => x.1 != a))).getD (fill [a])
  (a, b)

/-- The key of a position in MODE 1: ln(s) / TEMP + G (R138). -/
def sampleKey (temp : Word) (score : Val) (w : Word) : Val := f32 (f32Add (f32Div (f32Ln score) temp) (gumbel w))

/-- A group's proposal from its nibble, its four scores, and in MODE 1 its four words. The proposed nibble is canonical, of an
unchanged group too; a NaN keeps the old one as it stands. -/
def propose (nib : Nat) (scores : List Word) (temp : Word) (ws : Option (List Word)) : Proposal :=
  let vs := scores.map f32
  if vs.any (·.isNan) then ⟨nib, nib, 0, 0, true⟩
  else
    let at_ (p : Nat) : Val := nth .zero vs p
    let cand : List (Nat × Val) := match ws with
      | none => (List.range 4).map (fun p => (p, at_ p))
      | some w => ((List.range 4).filter (fun p => Val.zero.lt (at_ p))).map (fun p => (p, sampleKey temp (at_ p) (nth 0 w p)))
    let (a, b) := topTwo cand
    let old := keptOf nib
    let change := ([a, b].filter (fun p => !old.contains p)).length
    let sum (l : List Nat) : Word := match l with
      | [x] => nth 0 scores x
      | x :: y :: _ => f32Add (nth 0 scores x) (nth 0 scores y)
      | [] => 0
    if change = 0 then ⟨nib, nibbleOf a b, 0, 0, false⟩
    else ⟨nib, nibbleOf a b, change, f32Sub (sum [min a b, max a b]) (sum old), false⟩

/-- Bits 30:23 of a positive gain, 0 otherwise. -/
def Proposal.bucket (x : Proposal) : Nat := if Val.zero.lt (f32 x.gain) then bitsOf x.gain.toNat 30 23 else 0

def Proposal.candidate (x : Proposal) : Bool := x.change != 0

/-- The highest bucket whose change counts, with those above, exceed the budget; 0 if none does. -/
def thresholdGo (ps : List Proposal) (budget : Nat) : Nat → Nat → Nat
  | 0, _ => 0
  | b + 1, acc =>
    let acc := acc + ((ps.filter (fun x => x.bucket == b)).map (·.change)).sum
    if budget < acc then b else thresholdGo ps budget b acc

/-- Pass 2: which groups are accepted, in group order (R139). -/
def acceptGo (b : Nat) : List Proposal → Nat → List Bool
  | [], _ => []
  | x :: xs, left =>
    if !x.candidate then false :: acceptGo b xs left
    else if b < x.bucket then true :: acceptGo b xs left
    else if x.bucket = b ∧ x.change ≤ left then true :: acceptGo b xs (left - x.change)
    else false :: acceptGo b xs left

/-- The groups accepted under DROP, and the threshold bucket. No bucket exceeding the budget accepts all. -/
def dropSelect (drop : BitVec 16) (ps : List Proposal) : List Bool × Nat :=
  let all := ps.map (·.candidate)
  if drop = 0xFFFF then (all, 0)
  else
    let budget := 2 * ps.length * drop.toNat / 65536
    let total := (ps.map (·.change)).sum
    if total ≤ budget then (all, 0)
    else
      let b := thresholdGo ps budget 256 0
      let above := ((ps.filter (fun x => b < x.bucket)).map (·.change)).sum
      (acceptGo b ps (budget - above), b)

/-- The summary of R140. -/
def selectSummary (ps : List Proposal) (acc : List Bool) (b : Nat) : List Byte :=
  let ok := (ps.zip acc).filter (fun x => x.2)
  let no := (ps.zip acc).filter (fun x => x.1.candidate && !x.2)
  leBytes 4 ok.length ++ leBytes 4 (ok.map (·.1.change)).sum ++ leBytes 4 (no.map (·.1.change)).sum ++ leBytes 4 b

/-- The words of MODE 1 for `n` elements from element `j`. -/
def drawWords (c : CoreId) (n j : Nat) (s : State) : State × List Word :=
  let go := (List.range n).foldl (fun (q : Vector Lane 32 × List Word) i =>
    let (w, ls) := takeFrom q.1 ((j + i) % 32)
    (ls, w :: q.2)) ((s.core c).rng.lanes, [])
  (s.onRng c (fun r => { r with lanes := go.1 }), go.2.reverse)

/-- Pass 1 over one block: its 4,096 proposals. -/
def Run.proposeBlock (r : Run) (h : SparseHdr) (op : MskSelectOp) (score : Nat) (x : SBlock) (i : Nat) : Run × List Proposal :=
  let (r, blk) := r.read x.addr (2 * halfBytes h.fmtW)
  let (r, bs) := r.read (score + 65536 * i) 65536
  if !r.ok then (r, [])
  else
    let sc := ((codesOf 0x0 bs 16384).map w32).toArray
    let md := (blockMeta h.fmtW blk).toArray
    let (r, ws) := if op.sampled then (let (s, w) := drawWords r.c 16384 (16384 * i) r.s; ({ r with s := s }, some w.toArray)) else (r, none)
    (r, (List.range 4096).map (fun g =>
      propose (metaNibble md (g / 128) (g % 128)) ((List.range 4).map (fun p => sc.getD (4 * g + p) 0)) op.temp
        (ws.map (fun w => (List.range 4).map (fun p => w.getD (4 * g + p) 0)))))

/-- The whole command: proposals, scratch records in two passes, the accepted nibbles and the summary. -/
def Run.select (r : Run) (h : SparseHdr) (op : MskSelectOp) (score scratch proposal summary : Nat) (bs : List SBlock) : Run :=
  let two := op.drop ≠ 0xFFFF
  let (r, ps) := bs.zipIdx.foldl (fun (q : Run × List (List Proposal)) x =>
    if q.1.ok then
      let (r, p) := q.1.proposeBlock h op score x.1 x.2
      let r := if p.any (·.nan) then r.flag { nonfinite := true } else r
      let r := if two then r.write (scratch + 32768 * x.2) (p.flatMap (fun y =>
          leBytes 8 (Config.mskRecord y.new y.change y.gain).toNat))
        else r.write (proposal + 2048 * x.2) (packMeta (p.map (·.new)))
      (r, q.2 ++ [p])
    else q) (r, [])
  let all := ps.flatten
  let (acc, b) := dropSelect op.drop all
  let r := if two then
      let nibs := ((all.zip acc).map (fun x => if x.1.candidate && !x.2 then x.1.old else x.1.new)).toArray
      r.each (List.range bs.length) (fun r i => r.write (proposal + 2048 * i) (packMeta (nibs.extract (4096 * i) (4096 * i + 4096)).toList))
    else r
  r.write summary (selectSummary all acc b)

/-- The scratch of two passes lies in core memory or crown scratch (R139). -/
def State.scratchOk (s : State) (p : PartId) (a : Nat) : Bool :=
  match s.resolveLocal p a .write with
  | .ok x => match s.place x with
    | .cmem _ _ => true
    | .scratch _ _ => true
    | _ => false
  | .error _ => false

/-- MODE 1 waits until no earlier consumer holds the random unit (08 R174). -/
def execMskSelect (h : Th) (op : MskSelectOp) (cpl : Reg) (s : State) : Out :=
  s.engine h cpl (!op.sampled || s.rngFree h.core) (fun c s =>
    let p := s.part h.core
    let two := op.drop ≠ 0xFFFF
    let as := [op.score, op.proposal, op.summary, op.scratch]
    if (op.range.hdr :: as).any (s.deviceBad p) then s.finish (.thread c) .unmapped
    else match s.readMskDescs p op.range.hdr none with
      | (t, .error e) => t.finish (.thread c) e
      | (t, .ok bs) =>
        let hd := parseHdr bs
        if op.sampled ∧ t.rngVaries h.core then t.varies h.core (.thread c)
        else if !aligned64 as then t.finish (.thread c) .align
        else if !fmtSparse hd.fmtW then t.finish (.thread c) .format
        else if op.sampled ∧ !f32Positive op.temp then t.finish (.thread c) .limit
        else match t.locals p (if two then as else as.take 3) with
          | .error e => t.finish (.thread c) e
          | .ok ls =>
            if two ∧ !t.scratchOk p (nth 0 ls 3) then t.finish (.thread c) .unmapped
            else
              let (r, bs) := (Run.plain t h.core p).blocks hd op.range.kb0 op.range.nkb
              let r := r.select hd op (nth 0 ls 0) (nth 0 ls 3) (nth 0 ls 1) (nth 0 ls 2) bs
              r.s.finish (.thread c) r.code)

end Sys2Proof.Machine
end

