-- ==== Sys2Proof/Machine/Update.lean ====
section
/-! DEFINITION. The update engine of a quarter (06 R141-R148, 16 R354-R360): its queue in arrival order, msk.apply,
msk.tiles, and the optimiser. -/

namespace Sys2Proof.Machine

def State.onUpd (s : State) (q : QuarterId) (f : Upd → Upd) : State := s.onQuarter q (fun k => { k with upd := f k.upd })

def State.upd (s : State) (q : QuarterId) : Upd := (s.quarter q).upd

/-- A command joins the run queue of its core's quarter (R143). -/
def State.updPush (s : State) (h : Th) (c : Cpl) (op : UpdOp) : State :=
  s.onUpd (s.quarterOf h.core) (fun u => { u with queue := u.queue ++ [⟨.thread c, some h.core, s.part h.core, op⟩] })

/-- The run of an update command: it writes for the core that issued it. -/
def State.updRun (s : State) (u : UpdCmd) : Run := Run.plain s (u.core.getD 0) u.part

/-- The engine's command ends with a code. -/
def State.updEnd (s : State) (q : QuarterId) (u : UpdCmd) (code : Code) : State :=
  (s.onUpd q (fun k => { k with run := none })).finish u.owner code

/-! ## Issue of msk.apply and msk.tiles (R135) -/

def execMskApply (h : Th) (op : MskApplyOp) (cpl : Reg) (s : State) : Out :=
  s.engine h cpl true (fun c s =>
    let p := s.part h.core
    let as := [op.proposal, op.master] ++ op.mom1.toList ++ op.mom2.toList
    if (op.range.hdr :: as).any (s.deviceBad p) then s.finish (.thread c) .unmapped
    else match s.readMskDescs p op.range.hdr none with
      | (t, .error e) => t.finish (.thread c) e
      | (t, .ok bs) =>
        if !aligned64 as then t.finish (.thread c) .align
        else if !fmtSparse (parseHdr bs).fmtW then t.finish (.thread c) .format
        else match t.locals p as with
          | .error e => t.finish (.thread c) e
          | .ok _ => t.updPush h c (.apply op bs))

def tilesAddrs (op : MskTilesOp) : List Addr :=
  [op.oldMaster, op.newMaster, op.blocks, op.summary] ++ (op.oldMom.elim [] (fun m => [m.1, m.2]))
    ++ (op.newMom.elim [] (fun m => [m.1, m.2]))

/-- Reads both headers and the gradient's row descriptor: 96 bytes. -/
def State.readTilesDescs (s : State) (p : PartId) (op : MskTilesOp) : State × Except Code (List Byte) :=
  match s.readMskDescs p op.oldHdr none with
  | (t, .error e) => (t, .error e)
  | (t, .ok bs) => match t.readMskDescs p op.newHdr (some op.grad) with
    | (u, .error e) => (u, .error e)
    | (u, .ok ds) => (u, .ok (bs ++ ds))

def execMskTiles (h : Th) (op : MskTilesOp) (cpl : Reg) (s : State) : Out :=
  s.engine h cpl true (fun c s =>
    let p := s.part h.core
    if ([op.oldHdr, op.newHdr, op.grad] ++ (tilesAddrs op)).any (s.deviceBad p) then s.finish (.thread c) .unmapped
    else match s.readTilesDescs p op with
      | (t, .error e) => t.finish (.thread c) e
      | (t, .ok bs) =>
        let row := t.rowFails p .read (parseRows (bs.drop 64))
        if !aligned64 (tilesAddrs op) ∨ row.contains .align then t.finish (.thread c) .align
        else if row.contains .shape then t.finish (.thread c) .shape
        else if !fmtSparse (parseHdr bs).fmtW ∨ !fmtGrad (parseRows (bs.drop 64)).fmt then t.finish (.thread c) .format
        else match t.locals p (tilesAddrs op) with
          | .error e => t.finish (.thread c) e
          | .ok _ => t.updPush h c (.tiles op bs))

/-! ## msk.apply (R141, R142) -/

/-- Where slot `s` of the new nibble takes its content from: an old slot, nothing (+0), or, where both slots of a changed nibble
name one position that is kept, in slot 1 a value the manual does not state (log 39). -/
inductive Move where
  | from_ (slot : Nat)
  | zero
  | open_
  deriving DecidableEq, Repr

def moveOf (old new s : Nat) : Move :=
  let pos := if s = 0 then new % 4 else new / 4
  if s = 1 ∧ old = new then .from_ 1
  else if s = 1 ∧ new % 4 = new / 4 ∧ (pos = old % 4 ∨ pos = old / 4) then .open_
  else if pos = old % 4 then .from_ 0 else if pos = old / 4 then .from_ 1 else .zero

/-- Moves one array of codes in value order. `free` is the counter of its open values. -/
def moveCodes (bits free : Nat) (old new : Array Byte) (xs : Nat → Nat → Nat → Nat) : List Nat :=
  (List.range 32).flatMap (fun h => (List.range 2).flatMap (fun s => (List.range 128).map (fun n =>
    match moveOf (metaNibble old h n) (metaNibble new h n) s with
    | .from_ k => xs h k n
    | .zero => 0
    | .open_ => (Config.freeWord (free + h * 128 + n)).toNat % 2 ^ bits)))

/-- The value areas of a block's two halves from codes in value order. -/
def valueArea (fw : BitVec 4) (codes : Array Nat) (half : Nat) : List Byte :=
  let at_ (l s n : Nat) : Nat := codes.getD (slotIndex (16 * half + l) s n) 0
  if fmtBits fw = 4 then (List.range 16).flatMap (fun l => (List.range 128).map (fun n =>
    BitVec.ofNat 8 (at_ l 0 n + 16 * at_ l 1 n)))
  else (List.range 16).flatMap (fun l => (List.range 2).flatMap (fun s => (List.range 128).flatMap (fun n =>
    leBytes (fmtBits fw / 8) (at_ l s n))))

/-- Writes the value areas of a block. -/
def Run.putValues (r : Run) (fw : BitVec 4) (addr : Nat) (codes : Array Nat) : Run :=
  (r.write addr (valueArea fw codes 0)).write (addr + halfBytes fw) (valueArea fw codes 1)

/-- Writes the metadata of a block. -/
def Run.putMeta (r : Run) (fw : BitVec 4) (addr : Nat) (md : List Byte) : Run :=
  (r.write (addr + halfValues fw) (md.take 1024)).write (addr + halfBytes fw + halfValues fw) (md.drop 1024)

/-- Positions newly kept by a block. -/
def newlyKept (old new : Array Byte) : Nat :=
  ((List.range 4096).map (fun g =>
    let o := keptOf (metaNibble old (g / 128) (g % 128))
    ((keptOf (metaNibble new (g / 128) (g % 128))).filter (fun p => !o.contains p)).length)).sum

/-- An element of 1, 2 or 4 bytes. -/
def wordAt (a : Array Byte) (w i : Nat) : Nat :=
  ((List.range w).map (fun k => (a.getD (w * i + k) 0).toNat * 256 ^ k)).sum

/-- One block of msk.apply; the positions newly kept. -/
def Run.applyBlock (r : Run) (fw : BitVec 4) (mb : Nat) (prop master : Nat) (moms : List Nat) (x : SBlock) (i : Nat) : Run × Nat :=
  let (r, pr) := r.read (prop + 2048 * i) 2048
  let (r, blk) := r.read x.addr (2 * halfBytes fw)
  let (r, ms) := r.read (master + 32768 * i) 32768
  let (r, mo) := moms.foldl (fun (q : Run × List (List Byte)) a =>
    let (t, bs) := q.1.read (a + 8192 * mb * i) (8192 * mb)
    (t, q.2 ++ [bs])) (r, [])
  if !r.ok then (r, 0)
  else
    let old := (blockMeta fw blk).toArray
    let new := pr.toArray
    if pr = blockMeta fw blk then (r, 0)
    else
      let f := r.s.free
      let move (w k : Nat) (bs : List Byte) : List Byte :=
        let a := bs.toArray
        (moveCodes (8 * w) (f + 4096 * k) old new (fun h s n => wordAt a w (slotIndex h s n))).flatMap (leBytes w)
      let codes := (moveCodes (fmtBits fw) (f + 4096 * 3) old new (blockCode fw blk.toArray)).toArray
      let r := { r with s := { r.s with free := f + 16384 } }
      let r := r.write (master + 32768 * i) (move 4 0 ms)
      let r := ((moms.zip mo).zipIdx).foldl (fun (t : Run) y => t.write (y.1.1 + 8192 * mb * i) (move mb (1 + y.2) y.1.2)) r
      let r := (r.putValues fw x.addr codes).putMeta fw x.addr pr
      (r, if r.ok then newlyKept old new else 0)

/-- Blocks in directory order, counted as they complete. -/
def applyGo (q : QuarterId) (fw : BitVec 4) (mb prop master : Nat) (moms : List Nat) : List (SBlock × Nat) → Run → Run
  | [], r => r
  | x :: xs, r =>
    let (t, n) := r.applyBlock fw mb prop master moms x.1 x.2
    if t.ok then
      applyGo q fw mb prop master moms xs { t with s := t.s.onUpd q (fun u => { u with
        mskBlocks := (u.mskBlocks + 1) % 2 ^ 24, chg := satAdd 32 u.chg n }) }
    else t

/-- A memory error read stops msk.apply with POISONED (R142). -/
def State.runApply (s : State) (q : QuarterId) (u : UpdCmd) (op : MskApplyOp) (hd : SparseHdr) : State × Code :=
  match s.locals u.part ([op.proposal, op.master] ++ op.mom1.toList ++ op.mom2.toList) with
  | .error e => (s, e)
  | .ok ls =>
    let (r, bs) := ({ s.updRun u with ue := true } : Run).blocks hd op.range.kb0 op.range.nkb
    let r := if r.ok then applyGo q hd.fmtW (if op.mbf16 then 2 else 4) (nth 0 ls 0) (nth 0 ls 1) (ls.drop 2) bs.zipIdx r else r
    (r.s, r.code)

def mskApplyCompleteAt (q : QuarterId) (s : State) : Out :=
  match (s.upd q).run with
  | some u => match u.op with
    | .apply op bs =>
      let (t, e) := s.runApply q u op (parseHdr bs)
      .next (t.updEnd q u e)
    | _ => .next s
  | none => .next s

def execMskApplyComplete (q : QuarterId) (s : State) : Out := asQuarter q (mskApplyCompleteAt q) s

/-! ## msk.tiles (R144-R146) -/

/-- A block's score and map bit. -/
structure BScore where
  bit : Nat
  live : Bool
  score : Val
  deriving DecidableEq, Repr

/-- A running FP32 sum of magnitudes. -/
def sumAbs (vs : List Val) : Word := vs.foldl (fun a v => toF32 ((f32 a).add v.abs)) 0

/-- Puts a block into a list of rising (`up`) or falling scores, equal scores in ascending map bit. -/
def rankIns (up : Bool) (x : BScore) : List BScore → List BScore
  | [] => [x]
  | y :: ys =>
    let before : Bool := if up then x.score.lt y.score else y.score.lt x.score
    if before then x :: y :: ys else y :: rankIns up x ys

def ranked (up : Bool) (l : List BScore) : List BScore := l.foldl (fun a x => rankIns up x a) []

/-- Exchanges the lowest live block left against the highest absent block left while the absent one scores higher. -/
def swapGo : Nat → List BScore → List BScore → List Nat × List Nat
  | 0, _, _ => ([], [])
  | n + 1, l :: ls, a :: as =>
    if l.score.lt a.score then
      let (x, y) := swapGo n ls as
      (l.bit :: x, a.bit :: y)
    else ([], [])
  | _, _, _ => ([], [])

/-- Map bits pruned and regrown (R144). -/
def tilesSelect (op : MskTilesOp) (bs : List BScore) : List Nat × List Nat :=
  let ok := bs.filter (fun b => !b.score.isNan)
  let live := ranked true (ok.filter (·.live))
  let gone := ranked false (ok.filter (fun b => !b.live))
  let l := (bs.filter (·.live)).length
  let cut := if op.target < l then min (l - op.target) op.tstep else 0
  let add := if l < op.target then min (op.target - l) op.tstep else 0
  let (x, y) := swapGo op.swap (live.drop cut) (gone.drop add)
  ((live.take cut).map (·.bit) ++ x, (gone.take add).map (·.bit) ++ y)

/-- Ranges that meet. -/
def rangesMeet (a b : Nat × Nat) : Bool := decide (a.1 < b.1 + b.2) && decide (b.1 < a.1 + a.2)

/-- The areas of a matrix beside its blocks: map, directory, masters and moments of `n` blocks. -/
def tileAreas (h : SparseHdr) (n mb master : Nat) (moms : List Nat) : List (Nat × Nat) :=
  [(h.map, ceilDiv (h.kb * h.nb) 8), (h.dir, 4 * h.kb), (master, 32768 * n)] ++ moms.map (fun a => (a, 8192 * mb * n))

/-- The two positions of largest magnitude of every group, as nibbles in group order (R145). -/
def regrowMeta (g : Array Val) : List Byte :=
  packMeta ((List.range 4096).map (fun i =>
    let (a, b) := topTwo ((List.range 4).map (fun p => (p, (g.getD ((4 * (i / 128) + p) * 128 + i % 128) .zero).abs)))
    nibbleOf a b))

/-- The bytes of a regrown block: values +0, its metadata, MX scales 0x7F (R145). -/
def regrown (fw : BitVec 4) (md : List Byte) : List Byte :=
  let half (i : Nat) : List Byte := List.replicate (halfValues fw) 0 ++ (md.drop (1024 * i)).take 1024
    ++ List.replicate (halfScales fw) 0x7F
  half 0 ++ half 1

/-- Local addresses of msk.tiles in the order of `tilesAddrs`. -/
structure TilesAt where
  oldMaster : Nat
  newMaster : Nat
  blocks : Nat
  summary : Nat
  oldMom : List Nat
  newMom : List Nat
  deriving DecidableEq, Repr

def tilesAt (op : MskTilesOp) (l : List Nat) : TilesAt :=
  let k := if op.oldMom.isSome then 2 else 0
  ⟨nth 0 l 0, nth 0 l 1, nth 0 l 2, nth 0 l 3, (l.drop 4).take k, l.drop (4 + k)⟩

/-- Scores of every block of the old map, in ascending map bit. `ord` is a live block's place in directory order. -/
def Run.scoreTiles (r : Run) (op : MskTilesOp) (h : SparseHdr) (g : RowDesc) (master : Nat) (bs : List SBlock) : Run × List BScore :=
  (List.range (h.kb * h.nb)).foldl (fun (q : Run × List BScore) b =>
    if !q.1.ok then q
    else match bs.findIdx? (fun x => x.kb == b / h.nb && x.nb == b % h.nb) with
      | some i =>
        let (r, vs) := q.1.array 0x0 (master + 32768 * i) 8192
        (r, q.2 ++ [⟨b, true, f32 (f32Mul op.alphaK (sumAbs vs.toList))⟩])
      | none =>
        let (r, vs) := q.1.gradTile g (b / h.nb) (b % h.nb)
        (r, q.2 ++ [⟨b, false, f32 (f32Mul op.alphaP (sumAbs vs.toList))⟩])) (r, [])

/-- Writes the new matrix: blocks, masters and moments in directory order, then the map and the directory. -/
def Run.writeTiles (r : Run) (q : QuarterId) (op : MskTilesOp) (h nw : SparseHdr) (g : RowDesc) (k : TilesAt) (bs : List SBlock)
    (live : List Nat) : Run :=
  let fw := h.fmtW
  let mb := if op.mbf16 then 2 else 4
  let copy (r : Run) (a b n : Nat) : Run := let (t, x) := r.read a n; t.write b x
  let unit := 2 * halfBytes fw
  let r := r.each live.zipIdx (fun r x =>
    let i := x.2
    let old := bs.findIdx? (fun y => y.kb == x.1 / h.nb && y.nb == x.1 % h.nb)
    let t := match old with
      | some j =>
        let r := copy r (nth (⟨0, 0, 0⟩ : SBlock) bs j).addr (k.blocks + unit * i) unit
        let r := copy r (k.oldMaster + 32768 * j) (k.newMaster + 32768 * i) 32768
        (k.oldMom.zip k.newMom).foldl (fun (t : Run) (m : Nat × Nat) => copy t (m.1 + 8192 * mb * j) (m.2 + 8192 * mb * i) (8192 * mb)) r
      | none =>
        let (r, gv) := r.gradTile g (x.1 / h.nb) (x.1 % h.nb)
        let r := r.write (k.blocks + unit * i) (regrown fw (regrowMeta gv))
        let r := r.write (k.newMaster + 32768 * i) (List.replicate 32768 0)
        k.newMom.foldl (fun t m => t.write (m + 8192 * mb * i) (List.replicate (8192 * mb) 0)) r
    if t.ok then { t with s := t.s.onUpd q (fun u => { u with mskBlocks := (u.mskBlocks + 1) % 2 ^ 24 }) } else t)
  let map := (List.range (ceilDiv (h.kb * h.nb) 8)).map (fun i =>
    BitVec.ofNat 8 ((List.range 8).map (fun b => if live.contains (8 * i + b) then 2 ^ b else 0)).sum)
  let dir := (List.range h.kb).flatMap (fun kb =>
    leBytes 4 ((k.blocks + unit * (live.filter (fun b => b / h.nb < kb)).length) / 64))
  (r.write nw.map map).write nw.dir dir

/-- The first two rows of R146 for `n` live blocks that result. -/
def tilesCheck (op : MskTilesOp) (h nw : SparseHdr) (k : TilesAt) (bs : List SBlock) (n : Nat) : Code :=
  let mb := if op.mbf16 then 2 else 4
  let unit := 2 * halfBytes h.fmtW
  let oldA := tileAreas h bs.length mb k.oldMaster k.oldMom ++ bs.map (fun b => (b.addr, unit))
  let newA := tileAreas { nw with kb := h.kb, nb := h.nb } n mb k.newMaster k.newMom ++ [(k.blocks, unit * n)]
  if newA.any (fun a => oldA.any (rangesMeet a)) then .overlap
  else if op.cap < n then .limit
  else .done

/-- The live blocks that TARGET and TSTEP alone give from `l`. -/
def tilesNominal (op : MskTilesOp) (l : Nat) : Nat :=
  if op.target < l then l - min (l - op.target) op.tstep else l + min (op.target - l) op.tstep

/-- The checks of R146, then the command. The areas are held against the live blocks that result, which the scores decide; a
gradient of another shape gives no scores, and TARGET and TSTEP alone decide. -/
def Run.tiles (r : Run) (q : QuarterId) (op : MskTilesOp) (h nw : SparseHdr) (g : RowDesc) (k : TilesAt) : Run :=
  let (r, bs) := r.blocks h 0 h.kb
  let fits := gradFits h g
  let (r, scores) := if fits then r.scoreTiles op h g k.oldMaster bs else (r, [])
  let (gone, grown) := tilesSelect op scores
  let live := (scores.filter (fun b => (b.live && !gone.contains b.bit) || grown.contains b.bit)).map (·.bit)
  let e := tilesCheck op h nw k bs (if fits then live.length else tilesNominal op bs.length)
  if !r.ok then r
  else if e ≠ .done then r.stop e
  else if h.kb * h.nb < op.target then r.stop .limit
  else if !fits then r.stop .shape
  else
    let r := r.writeTiles q op h nw g k bs live
    r.write k.summary (leBytes 4 gone.length ++ leBytes 4 grown.length
      ++ leBytes 8 (4 * b2n (scores.any (fun b => b.score.isNan))))

def mskTilesCompleteAt (q : QuarterId) (s : State) : Out :=
  match (s.upd q).run with
  | some u => match u.op with
    | .tiles op bs =>
      match s.locals u.part (tilesAddrs op) with
      | .ok ls =>
        let r := (s.updRun u).tiles q op (parseHdr bs) (parseHdr (bs.drop 32)) (parseRows (bs.drop 64)) (tilesAt op ls)
        .next (r.s.updEnd q u r.code)
      | .error e => .next (s.updEnd q u e)
    | _ => .next s
  | none => .next s

def execMskTilesComplete (q : QuarterId) (s : State) : Out := asQuarter q (mskTilesCompleteAt q) s

/-! ## upd.opt: the descriptor (16 R354) -/

structure OptDesc where
  hdr : Nat
  master : Nat
  mom1 : Nat
  mom2 : Nat
  grad : Nat
  grec : Nat
  record : Nat
  kb0 : Nat
  nkb : Nat
  rule : Nat
  gdense : Bool
  mbf16 : Bool
  gfmt : BitVec 4
  wrnd : BitVec 2
  mrnd : BitVec 2
  fence : Nat
  step : Nat
  lr : Word
  b1 : Word
  b2 : Word
  eps : Word
  wd : Word
  c1 : Word
  c2 : Word
  deriving DecidableEq, Repr

def parseOpt (b : List Byte) : OptDesc :=
  let hyp (i : Nat) : Word := w32 (fieldAt b (72 + 4 * i) 4)
  { hdr := fieldAt b 0 8, master := fieldAt b 8 8, mom1 := fieldAt b 16 8, mom2 := fieldAt b 24 8, grad := fieldAt b 32 8,
    grec := fieldAt b 40 8, record := fieldAt b 48 8, kb0 := fieldAt b 56 4, nkb := fieldAt b 60 4,
    rule := fieldAt b 64 1 % 4, gdense := bitOf (fieldAt b 64 1) 2, mbf16 := bitOf (fieldAt b 64 1) 3,
    gfmt := BitVec.ofNat 4 (fieldAt b 65 1 % 16), wrnd := BitVec.ofNat 2 (fieldAt b 66 1 % 4),
    mrnd := BitVec.ofNat 2 (fieldAt b 66 1 / 4 % 4), fence := fieldAt b 67 1, step := fieldAt b 68 2,
    lr := hyp 0, b1 := hyp 1, b2 := hyp 2, eps := hyp 3, wd := hyp 4, c1 := hyp 5, c2 := hyp 6 }

/-- The header read with a descriptor. -/
def optHdr (bs : List Byte) : SparseHdr := parseHdr (bs.drop 128)

def OptDesc.sgd (d : OptDesc) : Bool := d.rule == 1

/-- The moment arrays the rule uses. -/
def OptDesc.moms (d : OptDesc) : List Nat := if d.sgd then [d.mom1] else [d.mom1, d.mom2]

/-- Stochastic roundings of one slot (08 R175): working value, then moments kept in BF16. -/
def OptDesc.draws (d : OptDesc) : Nat :=
  (if d.wrnd = 3 then 1 else 0) + (if d.mrnd = 3 ∧ d.mbf16 then d.moms.length else 0)

/-- Reads the descriptor and its sparse weight header: 160 bytes. -/
def State.readOpt (s : State) (p : PartId) (desc : Addr) : State × Except Code (List Byte) :=
  match s.readDesc p desc 128 64 false with
  | (t, .error e) => (t, .error e)
  | (t, .ok bs) =>
    match t.readDesc p (BitVec.ofNat 64 (parseOpt bs).hdr) 32 64 true with
    | (u, .error e) => (u, .error e)
    | (u, .ok h) => (u, .ok (bs ++ h))

/-- Reserves words of every lane: their states are handed over, and the lanes pass the words (08 R175). -/
def State.reserve (s : State) (c : CoreId) (r : Nat) : State × List (BitVec 128) :=
  let n := ceilDiv r 64
  let ls := (s.core c).rng.lanes
  (s.onRng c (fun k => { k with lanes := Vector.ofFn (fun i =>
    { s := jumpBits (32 * n) ls[i.val].s, pos := (ls[i.val].pos + n) % 2 ^ 64 }) }), ls.toList.map (·.s))

/-- `upd.opt` leaves for its quarter's update engine. Where its roundings are stochastic it takes its reservation as it is
issued, so it waits for earlier consumers of the random unit. -/
def execUpdOpt (h : Th) (desc : Addr) (cpl : Reg) (s : State) : Out :=
  let p := s.part h.core
  let (peek, d) := match s.readOpt p desc with
    | (_, .ok bs) =>
      let d := parseOpt bs
      let (_, blocks) := (Run.plain s h.core p).blocks (optHdr bs) d.kb0 d.nkb
      (8192 * blocks.length * d.draws, d.draws)
    | (_, .error _) => (0, 0)
  s.engine h cpl (d == 0 || s.rngFree h.core) (fun c s =>
    if s.deviceBad p desc then s.finish (.thread c) .unmapped
    else if d ≠ 0 ∧ s.rngVaries h.core then s.varies h.core (.thread c)
    else
      let (t, ls) := if d = 0 then (s, []) else s.reserve h.core peek
      t.onUpd (t.quarterOf h.core) (fun u => { u with arrivals := u.arrivals ++ [(.thread c, h.core, p, desc, ls)] }))

/-! ## Acceptance (R355, R356) -/

/-- The table of R355; the gradient row descriptor of GDENSE obeys R113. -/
def State.optCheck (s : State) (c : CoreId) (p : PartId) (d : OptDesc) (h : SparseHdr) (g : Option RowDesc) : Code :=
  let as := [d.master, d.mom1, d.grad, d.grec, d.record] ++ (if d.sgd then [] else [d.mom2])
  if as.any (fun a => a % 64 != 0) ∨ g.any (fun x => !s.rowAlign p .read x) then .align
  else if !fmtGrad d.gfmt ∨ 2 ≤ d.rule ∨ !fmtSparse h.fmtW ∨ g.any (·.fmtBad) then .format
  else if d.nkb = 0 ∨ h.kb < d.kb0 + d.nkb ∨ g.any (fun x => x.shapeBad || !gradFits h x) then .shape
  else if d.fence ≠ 0xFF ∧ (64 ≤ d.fence ∨ !s.barAllowed c (.device (Fin.ofNat 64 d.fence))) then .refused
  else .done

/-- The rows of a dense gradient that the block range covers. -/
def denseRows (d : OptDesc) (g : RowDesc) : List Nat :=
  (List.range (min g.rows (128 * (d.kb0 + d.nkb)) - 128 * d.kb0)).map (· + 128 * d.kb0)

/-- Whether the gradient holds a non-finite element: bit 2 of GREC's record, or a scan of GRAD (R356). -/
def Run.judge (r : Run) (d : OptDesc) (h : SparseHdr) (g : Option RowDesc) : Run × Bool :=
  if d.grec ≠ 0 then
    let (t, w) := r.word d.grec
    (t, bitOf w 2)
  else match g with
    | some x => (denseRows d x).foldl (fun (q : Run × Bool) i =>
        let (t, vs) := q.1.elems d.gfmt (x.base + i * x.stride) 0 x.width
        (t, q.2 || vs.any (fun v => !v.isFin))) (r, false)
    | none =>
      let (r, bs) := r.blocks h d.kb0 d.nkb
      (List.range bs.length).foldl (fun (q : Run × Bool) i =>
        let (t, vs) := q.1.array d.gfmt (d.grad + 8192 * fmtBits d.gfmt / 8 * i) 8192
        (t, q.2 || vs.any (fun v => !v.isFin))) (r, false)

/-- UPD_NF after one accepted command (R371). -/
def Upd.record (u : Upd) (step : Nat) (nf : Bool) : Upd :=
  if u.nstep = step then { u with nf := u.nf || nf, acc := satInc 15 u.acc } else { u with nstep := step, nf := nf, acc := 1 }

/-- The gradient's row descriptor under GDENSE. -/
def State.optGrad (s : State) (p : PartId) (d : OptDesc) : State × Except Code (List Byte) :=
  if d.gdense then s.readDesc p (BitVec.ofNat 64 d.grad) 32 64 false else (s, .ok [])

/-- The descriptor with its addresses as local ones; an address of another module is UNMAPPED (01 R27-R28). -/
def State.optLocal (s : State) (p : PartId) (d : OptDesc) : Except Code OptDesc :=
  let as := [d.master, d.mom1, if d.sgd then d.mom1 else d.mom2, if d.gdense then d.mom1 else d.grad, d.record,
    if d.grec = 0 then d.record else d.grec]
  match s.localAll p (as.map (BitVec.ofNat 64)) with
  | .error e => .error e
  | .ok l => .ok { d with
      master := nth 0 l 0, mom1 := nth 0 l 1, mom2 := nth 0 l 2, grad := nth 0 l 3, record := nth 0 l 4
      grec := if d.grec = 0 then 0 else nth 0 l 5 }

/-- The command arrives, is checked and judged, and is held. -/
def updAcceptAt (q : QuarterId) (s : State) : Out :=
  match (s.upd q).arrivals with
  | (o, c, p, desc, ls) :: rest =>
    if !s.fabricOn q then .next s
    else
      let s := s.onUpd q (fun u => { u with arrivals := rest })
      .next (match s.readOpt p desc with
        | (t, .error e) => t.finish o e
        | (t, .ok bs) =>
          let d := parseOpt bs
          let h := optHdr bs
          match t.optGrad p d with
          | (t, .error e) => t.finish o e
          | (t, .ok gb) =>
            let g := gradOf 160 (bs ++ gb)
            match t.optCheck c p d h g, t.optLocal p d with
            | .done, .error e => t.finish o e
            | .done, .ok d =>
              let (r, nf) := (Run.alone t c p).judge d h g
              if r.ok then
                r.s.onUpd q (fun u => { u.record d.step nf with
                  queue := u.queue ++ [⟨o, some c, p, .opt (bs ++ gb) d.step ls 0⟩] })
              else r.s.finish o r.code
            | e, _ => t.finish o e)
  | [] => .next s

def execUpdAccept (q : QuarterId) (s : State) : Out := asQuarter q (updAcceptAt q) s

/-! ## Start (06 R143, 16 R357) -/

/-- The record of R360. -/
def optRecord (skipped nonfin : Bool) (blocks step : Nat) : List Byte :=
  leBytes 4 (b2n skipped + 4 * b2n nonfin) ++ leBytes 4 blocks ++ leBytes 2 step ++ List.replicate 6 0

/-- Arrives at FENCE. -/
def State.fenceArrive (s : State) (c : CoreId) (d : OptDesc) : State :=
  if d.fence = 0xFF then s else s.barArrive c (.device (Fin.ofNat 64 d.fence))

/-- Writes the record, arrives at FENCE and completes; a record that cannot be written answers with its code (R359). -/
def State.optDone (s : State) (q : QuarterId) (u : UpdCmd) (d : OptDesc) (skipped nonfin : Bool) (blocks : Nat) : State :=
  match s.writeRange (u.core.getD 0) u.part d.record (optRecord skipped nonfin blocks d.step) with
  | (t, .done) => (t.fenceArrive (u.core.getD 0) d).updEnd q u .done
  | (t, e) => t.updEnd q u e

/-- The bytes of a weight-store bank by their addresses. -/
def State.bankAddrs (s : State) (q : QuarterId) (b : Nat) : List Nat :=
  let cut := (s.quarter q).cut
  let base := crownBase + q.val * crownSlice
  if cut.ilvWs then
    (List.range 32768).flatMap (fun i => (List.range 1024).map (fun k => base + (i * cut.ws + b) * 1024 + k))
  else (List.range bankBytes).map (fun k => base + b * bankBytes + k)

/-- The bank of a weight-store address. -/
def State.weightBank (s : State) (q : QuarterId) (o : Nat) : Nat := (crownBank (s.quarter q).cut.ilvWs 0 (s.quarter q).cut.ws o).1

/-! ## The update (R358) -/

/-- One slot: g already times 2^-l. Answers the master and the moments. -/
def optSlot (d : OptDesc) (g : Val) (w m v : Word) : Word × Word × Word :=
  let mulg (a : Word) (x : Val) : Word := toF32 ((f32 a).mul x)
  if d.sgd then
    let g' := toF32 (g.add (f32 (f32Mul d.wd w)))
    let m' := f32Add (f32Mul d.b1 m) g'
    (f32Sub w (f32Mul d.lr m'), m', v)
  else
    let one : Word := 0x3F800000
    let m' := f32Add (f32Mul d.b1 m) (mulg (f32Sub one d.b1) g)
    let v' := f32Add (f32Mul d.b2 v) (f32Mul (f32Sub one d.b2) (toF32 (g.mul g)))
    let u := f32Div (f32Mul m' d.c1) (f32Add (f32Sqrt (f32Mul v' d.c2)) d.eps)
    (f32Sub w (f32Mul d.lr (f32Add u (f32Mul d.wd w))), m', v')

/-- The gradient of a slot: compressed order (R353), or the dense position its nibble names now. -/
def slotGrad (d : OptDesc) (md : Array Byte) (g : Array Val) (h s n : Nat) : Val :=
  let nib := metaNibble md h n
  let s' := if nib % 4 = nib / 4 then 0 else s
  if d.gdense then g.getD ((4 * h + (if s' = 0 then nib % 4 else nib / 4)) * 128 + n) .zero
  else g.getD ((n / 64 * 32 + h) * 128 + s' * 64 + n % 64) .zero

/-- Slots of a block in value order: group, slot and column. -/
def slotList : List (Nat × Nat × Nat) :=
  (List.range 32).flatMap (fun h => (List.range 2).flatMap (fun s => (List.range 128).map (fun n => (h, s, n))))

/-- The MX column blocks of one half: scale and codes of the 32 stored values of each column (02 R47). -/
def mxColumn (fw : BitVec 4) (rnd : BitVec 2) (ws : Array Word) (rs : Nat → Nat) (half n : Nat) : MxBlock :=
  let ix := (List.range 32).map (fun i => slotIndex (16 * half + i / 2) (i % 2) n)
  mxEncode fw rnd (ix.map (fun e => f32 (ws.getD e 0))) (ix.map rs)

/-- Narrows the masters into working codes, with scales per half, and whether a result is non-finite. -/
def workingCopy (d : OptDesc) (fw : BitVec 4) (ws : Array Word) (rs : Nat → Nat) : Array Nat × List (List Byte) × Bool :=
  if fmtIsMx fw then
    let cols := (List.range 2).map (fun half => ((List.range 128).map (mxColumn fw d.wrnd ws rs half)).toArray)
    let cs := (slotList.map (fun x =>
      let b := (nth #[] cols (x.1 / 16)).getD x.2.2 ⟨0, [], false, false⟩
      nth 0 b.codes (2 * (x.1 % 16) + x.2.1))).toArray
    (cs, cols.map (fun a => a.toList.map (fun b => BitVec.ofNat 8 b.scale)), cols.any (fun a => a.any (·.nonfin)))
  else
    let cs := (List.range 8192).map (fun e => convert 0x0 fw d.wrnd 0 (rs e) (f32 (ws.getD e 0)))
    ((cs.map (·.code)).toArray, [], cs.any (·.nonfin))

/-! ## Reloads (11 R252) -/

/-- The lines of a weight-store bank, by address. -/
def State.bankLines (s : State) (q : QuarterId) (b : Nat) : List Nat := (s.bankAddrs q b).filter (fun a => a % 64 == 0)

/-- Writes bytes that its owner's pages no longer let it write: whole lines lose their poison. -/
def State.rewrite (s : State) (p : PartId) (a : Nat) (bs : List Byte) : State :=
  (pieces a bs.length).foldl (fun t x => match t.resolveLocal p x.1 .read with
    | .ok y => t.lay y ((bs.drop (x.1 - a)).take x.2)
    | .error _ => t) s

/-- A block's bytes with its values, and scales, rounded anew from its masters; its metadata stay. -/
def remadeBlock (d : OptDesc) (fw : BitVec 4) (blk : List Byte) (ws : Array Word) (rnd : Nat → Nat) : List Byte :=
  let (codes, scales, _) := workingCopy d fw ws rnd
  (List.range 2).flatMap (fun i =>
    valueArea fw codes i ++ (blk.drop (i * halfBytes fw + halfValues fw)).take 1024 ++ nth [] scales i)

/-- The update engine rewrites from its masters the working copy of every block with a line in the bank; under WRND 0b11 with free
random values (R252, log 47). What of the descriptor, header or masters cannot be read leaves its blocks as they are. -/
def State.reloadMaster (s : State) (p : PartId) (q : QuarterId) (b desc : Nat) : State :=
  match s.readOpt p (BitVec.ofNat 64 desc) with
  | (t, .error _) => t
  | (t, .ok bs) =>
    let d := match t.optLocal p (parseOpt bs) with | .ok d => d | .error _ => parseOpt bs
    let fw := (optHdr bs).fmtW
    let (r, bks) := (Run.alone t 0 p).blocks (optHdr bs) d.kb0 d.nkb
    let inBank (u : State) (x : SBlock) : Bool := (pieces x.addr (2 * halfBytes fw)).any (fun y =>
      match u.resolveLocal p y.1 .read with
      | .ok a => (match u.place a with | .weight q' o => q' == q && u.weightBank q o == b | _ => false)
      | .error _ => false)
    let raw (u : State) (x : SBlock) : List Byte := (pieces x.addr (2 * halfBytes fw)).flatMap (fun y =>
      match u.resolveLocal p y.1 .read with
      | .ok a => u.rd a y.2
      | .error _ => List.replicate y.2 0)
    bks.zipIdx.foldl (fun u x =>
      if inBank u x.1 then
        let (m, ws) := (Run.alone u 0 p).array 0x0 (d.master + 32768 * x.2) 8192
        if m.ok then
          let f := m.s.free
          ({ m.s with free := f + 8192 } : State).rewrite p x.1.addr
            (remadeBlock d fw (raw u x.1) (ws.map Machine.toF32) (fun e => (Config.freeWord (f + e)).toNat))
        else m.s
      else u) r.s

/-- The bank takes the bits of an exact image in stacked DRAM, line by line; a line that cannot be read there stays as it is. -/
def State.reloadCopy (s : State) (p : PartId) (q : QuarterId) (b image : Nat) : State :=
  (s.bankLines q b).zipIdx.foldl (fun u x => match u.readRange p (image + 64 * x.2) 64 with
    | (v, bs, .done) => v.lay x.1 bs
    | (v, _, _) => v) s

/-- Reloads the bank of a poisoned line of a published region from its source (11 R252). EXACT is 1 if the bank's bits are those held
before. Those who map the region are told; the owner, and the steward's log, also of the bank and the line. -/
def State.runReload (s : State) (id line : Nat) : State :=
  match s.regions.find? (fun r => r.id == id), s.place (line * 64) with
  | some r, .weight q o =>
    let b := s.weightBank q o
    let t := match r.master, r.copy with
      | some d, _ => s.reloadMaster r.owner q b d
      | none, some a => s.reloadCopy r.owner q b (a + (b - r.bank) * bankBytes)
      | none, none => s
    let exact_ : Bool := (s.bankLines q b).all (fun a => t.rd a 64 == s.rd a 64)
    let t := r.mappers.foldl (fun u p => u.onPart p (fun k => { k with events := k.events ++ [.reloaded id exact_] })) t
    (t.onPart r.owner (fun k => { k with events := k.events ++ [.ownReloaded id b line exact_] })).addLog (.reload id b line exact_)
  | _, _ => s

/-! ## The start of a command (R143, R359) -/

/-- The engine takes its next command, by the verdict where it is an update. -/
def updateEngineCommandStartAt (q : QuarterId) (s : State) : Out :=
  let k := s.upd q
  if k.run.isSome ∨ !s.fabricOn q then .next s
  else match k.queue with
    | [] => .next s
    | u :: rest =>
      let go (op : UpdOp) (f : Upd → Upd) : State :=
        s.onUpd q (fun k => { f k with queue := rest, run := some { u with op := op } })
      match u.op with
      | .opt bs step ls _ =>
        let d := match s.optLocal u.part (parseOpt bs) with | .ok d => d | .error _ => parseOpt bs
        let ahead := (k.vStep + 65536 - step) % 65536
        if !k.vValid ∨ 32768 ≤ ahead then .next s
        else if ahead ≠ 0 then .next ((s.onUpd q (fun k => { k with queue := rest })).updEnd q u .limit)
        else if k.vSkip then .next ((s.onUpd q (fun k => { k with queue := rest, blocks := 0 })).optDone q u d true false 0)
        else .next (go (.opt bs step ls k.vLs) (fun k => { k with blocks := 0 }))
      | .apply op b => .next (go (.apply op b) (fun k => { k with tiles := false, mskBlocks := 0, chg := 0 }))
      | .tiles op b => .next (go (.tiles op b) (fun k => { k with tiles := true, mskBlocks := 0 }))
      | .reload a b => .next ((s.onUpd q (fun k => { k with queue := rest })).runReload a b)

def execUpdateEngineCommandStart (q : QuarterId) (s : State) : Out := asQuarter q (updateEngineCommandStartAt q) s

/-! ## Blocks of an update -/

/-- Reads, updates and writes one block; the lanes handed over stand at its first rounding. Answers whether a result is
non-finite. -/
def Run.optBlock (r : Run) (d : OptDesc) (h : SparseHdr) (ls : Nat) (g : Option RowDesc) (x : SBlock) (i : Nat) (rnd : Array Nat) :
    Run × Bool :=
  let fw := h.fmtW
  let mfmt : BitVec 4 := if d.mbf16 then 0x1 else 0x0
  let mb := if d.mbf16 then 2 else 4
  let (r, blk) := r.read x.addr (2 * halfBytes fw)
  let (r, gs) := match g with
    | some y => r.gradTile { y with fmt := d.gfmt } x.kb x.nb
    | none => r.array d.gfmt (d.grad + 8192 * fmtBits d.gfmt / 8 * i) 8192
  let (r, ws) := r.array 0x0 (d.master + 32768 * i) 8192
  let (r, m1) := r.array mfmt (d.mom1 + 8192 * mb * i) 8192
  let (r, m2) := if d.sgd then (r, m1) else r.array mfmt (d.mom2 + 8192 * mb * i) 8192
  if !r.ok then (r, false)
  else
    let md := (blockMeta fw blk).toArray
    let out := (slotList.zipIdx.map (fun y =>
      let (hh, s, n) := y.1
      let gv := (slotGrad d md gs hh s n).scale (-(ls : Nat))
      optSlot d gv (Machine.toF32 (ws.getD y.2 .zero)) (Machine.toF32 (m1.getD y.2 .zero)) (Machine.toF32 (m2.getD y.2 .zero)))).toArray
    let k := d.draws
    let wk := if d.wrnd = 3 then 1 else 0
    let draw (e j : Nat) : Nat := rnd.getD (e * k + j) 0
    let nws := out.map (·.1)
    let (codes, scales, nf) := workingCopy d fw nws (fun e => draw e 0)
    let moment (j : Nat) (f : Word × Word × Word → Word) : List Byte :=
      if d.mbf16 then
        out.toList.mapIdx (fun e y => (convert 0x0 0x1 d.mrnd 0 (draw e (wk + j)) (f32 (f y))).code) |>.flatMap (leBytes 2)
      else out.toList.flatMap (fun y => leBytes 4 (f y).toNat)
    let r := r.write (d.master + 32768 * i) (nws.toList.flatMap (fun w => leBytes 4 w.toNat))
    let r := r.write (d.mom1 + 8192 * mb * i) (moment 0 (·.2.1))
    let r := if d.sgd then r else r.write (d.mom2 + 8192 * mb * i) (moment 1 (·.2.2))
    let r := r.putValues fw x.addr codes
    let r := scales.zipIdx.foldl (fun (t : Run) y => t.write (x.addr + y.2 * halfBytes fw + halfValues fw + 1024) y.1) r
    (r, nf || out.any (fun y => !f32IsFin y.1 || !f32IsFin y.2.1 || (!d.sgd && !f32IsFin y.2.2)))

/-- The blocks in directory order, with the lanes handed over and the roundings passed so far. -/
def optGo (q : QuarterId) (d : OptDesc) (h : SparseHdr) (lsc : Nat) (g : Option RowDesc) :
    List (SBlock × Nat) → Vector Lane 32 → Bool → Run → Run × Bool
  | [], _, nf, r => (r, nf)
  | x :: xs, ls, nf, r =>
    let n := 8192 * d.draws
    let (bits, ls') := if n = 0 then ([], ls) else drawFrom ls (n * x.2) n
    let (t, b) := r.optBlock d h lsc g x.1 x.2 bits.toArray
    if t.ok then
      optGo q d h lsc g xs ls' (nf || b) { t with s := t.s.onUpd q (fun u => { u with blocks := u.blocks + 1 }) }
    else (t, nf)

/-- The update of the blocks in range, with the lanes handed over and 2^-lsc on the gradients; and whether a result is non-finite. -/
def State.runOpt (s : State) (q : QuarterId) (u : UpdCmd) (bs : List Byte) (ls : List (BitVec 128)) (lsc : Nat) : Run × Bool :=
  let d := match s.optLocal u.part (parseOpt bs) with | .ok d => d | .error _ => parseOpt bs
  let lanes : Vector Lane 32 := Vector.ofFn (fun i => { s := nth 0 ls i.val, pos := 0 })
  let h := optHdr bs
  let (r, bks) := (Run.alone s (u.core.getD 0) u.part).blocks h d.kb0 d.nkb
  if r.ok then optGo q d h lsc (gradOf 160 bs) bks.zipIdx lanes false r else (r, false)

/-- The update finishes, or stops early under R359 without arriving at its fence. -/
def updCompleteAt (q : QuarterId) (s : State) : Out :=
  match (s.upd q).run with
  | some u => match u.op with
    | .opt bs _ ls lsc =>
      let d := match s.optLocal u.part (parseOpt bs) with | .ok d => d | .error _ => parseOpt bs
      let (r, nf) := s.runOpt q u bs ls lsc
      .next (if r.ok then r.s.optDone q u d false nf (r.s.upd q).blocks else r.s.updEnd q u r.code)
    | _ => .next s
  | none => .next s

def execUpdComplete (q : QuarterId) (s : State) : Out := asQuarter q (updCompleteAt q) s

/-! ## Loads that meet a rewrite (04 R104) -/

/-- Memory as the command that runs on a quarter's update engine will leave it. -/
def State.rewritten (s : State) (q : QuarterId) : Option State :=
  match (s.upd q).run with
  | some u => match u.op with
    | .apply op bs => some (s.runApply q u op (parseHdr bs)).1
    | .opt bs _ ls lsc => some (s.runOpt q u bs ls lsc).1.s
    | .tiles op bs => match s.locals u.part (tilesAddrs op) with
      | .ok ls => some ((s.updRun u).tiles q op (parseHdr bs) (parseHdr (bs.drop 32)) (parseRows (bs.drop 64)) (tilesAt op ls)).s
      | .error _ => none
    | .reload _ _ => none
  | none => none

/-- Lines that differ between two memories. -/
def changedLines (s t : State) : List Nat :=
  let diff (a b : State) : List Nat := (a.mem.filter (fun x => b.rd x.1 1 != [x.2])).map (fun x => x.1 / 64)
  (diff s t ++ diff t s).eraseDups

/-- Each line that a running rewrite changes is old or new as timing has it (log 72). -/
def State.mixLines (s t : State) : State :=
  let ls := changedLines s t
  (ls.zipIdx.filter (fun x => Config.freeBool (s.free + x.2))).foldl (fun u x => u.wr (64 * x.1) (t.rd (64 * x.1) 64))
    { s with free := s.free + ls.length }

/-- Memory as a load sees it while update engines rewrite blocks. -/
def State.seenByLoad (s : State) : State :=
  (allQuarters.filterMap s.rewritten).foldl (fun u t => u.mixLines t) s

/-- The load at the crown port starts; a line that an update engine rewrites meanwhile reads whole, as it was or as it will be. -/
def execLoadwStart (c : CoreId) (s : State) : Out :=
  if allQuarters.all (fun q => (s.upd q).run.isNone) then asCore c (loadwStartAt c) s
  else match asCore c (loadwStartAt c) s.seenByLoad with
    | .next t => .next { t with mem := s.mem }
    | o => o

end Sys2Proof.Machine
end

