-- ==== Sys2Proof/Machine/Collective.lean ====
section
/-! DEFINITION. Collectives (15 R327-R344): the group table, sharding descriptors, acceptance, the schedules of reductions,
data movement, counts, chunks and their checks, late children. -/

namespace Sys2Proof.Machine

/-! ## Groups (R327, R328) -/

def State.groupOf (s : State) (g : Nat) : Option GroupSpec := s.groups.find? (fun x => x.id == g)

/-- The position of this module in a group. -/
def State.myPos (s : State) (x : GroupSpec) : Option Nat :=
  x.members.findIdx? (fun m => m.dev == s.dev && m.fabricB == s.fabricB)

def memberAt (x : GroupSpec) (i : Nat) : GroupMember := nth ⟨0, false, []⟩ x.members i

/-- The participant number of a member's first local participant (R328). -/
def rankBase (x : GroupSpec) (pos : Nat) : Nat := ((x.members.take pos).map (fun m => m.locals.length)).sum

/-- The local participants of this module. -/
def State.myLocals (s : State) (x : GroupSpec) : List Nat :=
  match s.myPos x with
  | some p => (memberAt x p).locals
  | none => []

/-! ## Sharding descriptors (R329-R331) -/

structure ShardDim where
  ext : Nat
  kind : Nat
  axis : Nat
  blk : Nat
  deriving DecidableEq, Repr

structure ShardDesc where
  ndim : Nat
  fmt : BitVec 4
  base : Nat
  dims : List ShardDim
  deriving DecidableEq, Repr

def parseShard (b : List Byte) : ShardDesc :=
  let n := fieldAt b 0 1
  { ndim := n, fmt := BitVec.ofNat 4 (fieldAt b 1 1 % 16), base := fieldAt b 8 8 % 2 ^ 49
    dims := (List.range (min n 6)).map (fun d =>
      ⟨fieldAt b (32 + 16 * d) 4, fieldAt b (36 + 16 * d) 1, fieldAt b (37 + 16 * d) 1, fieldAt b (40 + 16 * d) 4⟩) }

/-- The checks of R331. -/
def ShardDesc.check (d : ShardDesc) : Code :=
  let used := (d.dims.filter (fun x => x.kind != 0)).map (·.axis)
  if used.eraseDups.length ≠ used.length then .shape
  else if d.ndim = 0 ∨ 6 < d.ndim ∨ d.dims.any (fun x =>
      x.ext == 0 || decide (2 ^ 31 < x.ext) || decide (3 < x.kind) || (x.kind != 0 && decide (3 < x.axis))
        || (x.kind == 3 && (x.blk == 0 || decide (2 ^ 31 < x.blk)))) then .shape
  else if fmtReserved d.fmt ∨ fmtIsMx d.fmt then .format
  else .done

/-- The size of a mesh axis; an axis the mesh does not use has size 1. -/
def axisSize (x : GroupSpec) (a : Nat) : Nat := nth 1 x.axes a

/-- The mesh coordinate of a position on an axis (R327). -/
def meshCoord (x : GroupSpec) (pos a : Nat) : Nat := pos / ((x.axes.take a).foldl (· * ·) 1) % max (axisSize x a) 1

/-- Owner coordinate and local index along a dimension; none for REPL (R330). -/
def shardOwner (d : ShardDim) (p i : Nat) : Option Nat × Nat :=
  let b := ceilDiv d.ext p
  match d.kind with
  | 0 => (none, i)
  | 1 => (some (i / b), i % b)
  | 2 => (some (i % p), i / p)
  | _ => (some (i / d.blk % p), i / (d.blk * p) * d.blk + i % d.blk)

/-- The local extent of owner `q` (R330). -/
def shardExtent (d : ShardDim) (p q : Nat) : Nat :=
  match d.kind with
  | 0 => d.ext
  | 1 => min (ceilDiv d.ext p) (d.ext - q * ceilDiv d.ext p)
  | 2 => ceilDiv (d.ext - q) p
  | _ =>
    let round := d.blk * p
    d.ext / round * d.blk + min d.blk (d.ext % round - q * d.blk)

/-- The local element index of a global element at a member, if the member holds it. -/
def shardLocal (x : GroupSpec) (d : ShardDesc) (pos : Nat) (idx : List Nat) : Option Nat :=
  (d.dims.zip idx).foldr (fun (e : ShardDim × Nat) acc =>
    let p := axisSize x e.1.axis
    let q := meshCoord x pos e.1.axis
    let (own, l) := shardOwner e.1 p e.2
    match acc with
    | none => none
    | some r => if own = none ∨ own = some q then some (l + shardExtent e.1 p q * r) else none) (some 0)

/-- Elements of a member's local block. -/
def shardCount (x : GroupSpec) (d : ShardDesc) (pos : Nat) : Nat :=
  (d.dims.map (fun e => shardExtent e (axisSize x e.axis) (meshCoord x pos e.axis))).foldl (· * ·) 1

/-- A global element number as indices, dimension 0 fastest. -/
def globalIdx : List ShardDim → Nat → List Nat
  | [], _ => []
  | d :: ds, n => n % max d.ext 1 :: globalIdx ds (n / max d.ext 1)

/-- The member a reshard takes an element from: the destination itself where it holds it, else the lowest holder (log 41). -/
def shardSource (x : GroupSpec) (d : ShardDesc) (dst : Nat) (idx : List Nat) : Option Nat :=
  if (shardLocal x d dst idx).isSome then some dst
  else (List.range x.members.length).find? (fun m => (shardLocal x d m idx).isSome)

/-- Local element numbers that member `src` sends to member `dst` for a reshard, with their places at `dst`, in ascending
global index. -/
def reshard (x : GroupSpec) (a b : ShardDesc) (src dst : Nat) : List (Nat × Nat) :=
  (List.range ((b.dims.map (·.ext)).foldl (· * ·) 1)).filterMap (fun g =>
    let idx := globalIdx b.dims g
    match shardLocal x b dst idx, shardSource x a dst idx with
    | some l, some m => if m = src then (shardLocal x a m idx).map (fun k => (k, l)) else none
    | _, _ => none)

/-! ## The collective descriptor (R333, R334) -/

def parseColl (b : List Byte) : CollDesc :=
  let op := fieldAt b 73 1
  let fmt := fieldAt b 74 1
  let rn := fieldAt b 75 1
  let f (o : Nat) : Nat := fieldAt b o 8
  { src := f 0, dst := f 8, idx := f 16, cnts := f 24, cntr := f 32, stage := f 40, due := f 48, record := f 56
    count := fieldAt b 64 4, dcap := fieldAt b 68 4, group := fieldAt b 72 1
    red := op % 4, narrow := bitOf op 2, policy := op / 8 % 4, var := bitOf op 5, shard := bitOf op 6
    fmtIn := BitVec.ofNat 4 (fmt % 16), fmtOut := BitVec.ofNat 4 (fmt / 16)
    rnd := BitVec.ofNat 2 (rn % 4), ovf := BitVec.ofNat 2 (rn / 4 % 4)
    chunk := fieldAt b 76 1, depth := fieldAt b 77 1, root := fieldAt b 78 2 }

/-- The OP byte of the signature. -/
def CollDesc.opByte (d : CollDesc) : Nat :=
  d.red + 4 * b2n d.narrow + 8 * d.policy + 32 * b2n d.var + 64 * b2n d.shard

def CollDesc.fmtByte (d : CollDesc) : Nat := d.fmtIn.toNat + 16 * d.fmtOut.toNat

def CollDesc.chunkBytes (d : CollDesc) : Nat := 2 ^ (if d.chunk = 0 then 16 else d.chunk)
def CollDesc.inFlight (d : CollDesc) : Nat := if d.depth = 0 then 4 else d.depth

def CollKind.reduces (k : CollKind) : Bool := k == .allreduce || k == .rscatter

/-- Every address a collective uses. -/
def CollDesc.addrs (d : CollDesc) (k : CollKind) : List Nat :=
  (if k = .barrier then [] else [d.src, d.dst]) ++ [d.stage, d.record]
    ++ (if k.reduces ∧ d.red ≠ 0 then [d.idx] else []) ++ (if d.var then [d.cnts, d.cntr] else [])

/-- The enabled window that holds a staging address. -/
def State.stageWindow (s : State) (p : PartId) (a : Nat) : Option WinRef :=
  match s.localOf p (BitVec.ofNat 64 a) with
  | .ok x => match s.resolveLocal p x .write with
    | .ok y => s.windowAt y
    | .error _ => none
  | .error _ => none

/-- Its size in bytes; 0 for none. -/
def State.stageBytes (s : State) (p : PartId) (a : Nat) : Nat :=
  match s.stageWindow p a with
  | some r => winUnits r (s.window r) * 64
  | none => 0

/-- Inbound edges of this module (R334). -/
def inEdges (x : GroupSpec) : Nat := if x.tree then x.children.length + 1 else 1

/-- Reads the sharding descriptors of SHARD and checks them. -/
def State.shardCheck (s : State) (p : PartId) (d : CollDesc) : State × Code :=
  if d.shard then
    match s.readDesc p (BitVec.ofNat 64 d.src) 128 64 true with
    | (t, .error e) => (t, e)
    | (t, .ok a) => match t.readDesc p (BitVec.ofNat 64 d.dst) 128 64 true with
      | (u, .error e) => (u, e)
      | (u, .ok b) =>
        let x := (parseShard a).check
        let y := (parseShard b).check
        (u, if x ≠ .done then x else if y ≠ .done then y
          else if (parseShard a).dims.map (·.ext) ≠ (parseShard b).dims.map (·.ext) ∨ (parseShard a).fmt ≠ (parseShard b).fmt
            then .shape else .done)
  else (s, .done)

/-- The table of R334, then R449. -/
def State.collCheck (s : State) (c : CoreId) (p : PartId) (k : CollKind) (d : CollDesc) : Code :=
  match s.groupOf d.group with
  | none => .refused
  | some x =>
    let reds : List (BitVec 4) := [0x0, 0x1, 0x2, 0x6, 0x8, 0x9]
    let badFmt : Bool :=
      fmtReserved d.fmtIn || fmtReserved d.fmtOut || d.rnd == 3 || d.ovf == 3
        || (k.reduces && (!reds.contains d.fmtIn || fmtPaired d.fmtOut || (d.narrow && d.fmtIn != 0x1 && d.fmtIn != 0x2)))
    let mode := ((List.range 2).map (fun i => (s.pier (Fin.ofNat 2 i)).coll.pairMode)).foldl max 0
    if !(s.myLocals x).contains c.val then .refused
    else if (d.addrs k).any (fun a => a % 64 != 0) then .align
    else if badFmt then .format
    else if d.policy ≠ 0 ∧ (!k.reduces ∨ !x.tree) then .shape
    else if (d.chunk ≠ 0 ∧ (d.chunk < 12 ∨ 20 < d.chunk)) ∨ 8 < d.depth ∨ d.policy = 3 ∨ d.red = 3
        ∨ (k = .bcast ∧ x.members.length ≤ d.root) then .shape
    else if s.stageBytes p d.stage < d.inFlight * d.chunkBytes * inEdges x then .limit
    else if mode ≠ 0 ∧ x.members.any (fun m => m.fabricB != s.fabricB) then .shape
    else .done

/-- Issue: the descriptor is read and checked, and the collective waits for its group (R334, R335; 09 R208). -/
def collIssue (k : CollKind) (h : Th) (desc : Addr) (cpl : Reg) (s : State) : Out :=
  s.engine h cpl true (fun c s =>
    let p := s.part h.core
    match s.readDesc p desc 128 64 false with
    | (t, .error e) => t.finish (.thread c) e
    | (t, .ok bs) =>
      let d := parseColl bs
      if t.det h.core ∧ (d.policy ≠ 0 ∨ d.narrow) then t.varies h.core (.thread c)
      else match t.collCheck h.core p k d with
        | .done => match t.shardCheck p d with
          | (u, .done) => { u with collIssues := u.collIssues ++ [(d.group, ⟨c, p, k, d, h.core⟩)] }
          | (u, e) => u.finish (.thread c) e
        | e => t.finish (.thread c) e)

def execCollAllreduce (h : Th) (desc : Addr) (cpl : Reg) (s : State) : Out := collIssue .allreduce h desc cpl s
def execCollRscatter (h : Th) (desc : Addr) (cpl : Reg) (s : State) : Out := collIssue .rscatter h desc cpl s
def execCollAllgather (h : Th) (desc : Addr) (cpl : Reg) (s : State) : Out := collIssue .allgather h desc cpl s
def execCollAlltoall (h : Th) (desc : Addr) (cpl : Reg) (s : State) : Out := collIssue .alltoall h desc cpl s
def execCollBcast (h : Th) (desc : Addr) (cpl : Reg) (s : State) : Out := collIssue .bcast h desc cpl s
def execCollBarrier (h : Th) (desc : Addr) (cpl : Reg) (s : State) : Out := collIssue .barrier h desc cpl s

/-! ## Elements of a reduction (R336, R337) -/

abbrev Elem := Word × Nat

/-- How a collective adds: the operation, INT32 or FP32, and the format partials travel in. -/
structure RedOp where
  red : Nat
  int : Bool
  narrow : Option (BitVec 4)
  rnd : BitVec 2
  ovf : BitVec 2
  deriving DecidableEq, Repr

def redOf (d : CollDesc) : RedOp := ⟨d.red, fmtIsInt d.fmtIn, if d.narrow then some d.fmtIn else none, d.rnd, d.ovf⟩

/-- Rounds a partial to the narrow wire's format. -/
def RedOp.round (o : RedOp) (w : Word) : Word :=
  match o.narrow with
  | some f => toF32 (decodeElem f (convert 0x0 f o.rnd o.ovf 0 (f32 w)).code)
  | none => w

/-- Adds a contribution, or takes the winner under 02 R63. -/
def RedOp.comb (o : RedOp) (a b : Elem) : Elem :=
  if o.red = 0 then ((if o.int then a.1 + b.1 else o.round (f32Add a.1 b.1)), a.2)
  else
    let v (w : Word) : Val := if o.int then .ofInt w.toInt else f32 w
    if wins (o.red == 1) (v b.1) b.2 (v a.1) a.2 then b else a

def RedOp.comb2 (o : RedOp) (a b : List Elem) : List Elem := List.zipWith o.comb a b

/-- A source element as it travels: FP32 or INT32. -/
def collElem (fmt : BitVec 4) (rank : Nat) (v : Val) : Elem :=
  ((if fmtIsInt fmt then w32 (encodeInt 32 (-2147483648) 2147483647 1 0 v).code else toF32 v), rank)

/-- Bytes of elements on the wire: the narrow format's code or 4 bytes, and the participant number of max and min (log 42). -/
def RedOp.bytes (o : RedOp) (l : List Elem) : List Byte :=
  l.flatMap (fun e =>
    (match o.narrow with
      | some f => leBytes (fmtBits f / 8) (convert 0x0 f o.rnd o.ovf 0 (f32 e.1)).code
      | none => leBytes 4 e.1.toNat) ++ (if o.red = 0 then [] else leBytes 4 e.2))

def RedOp.size (o : RedOp) : Nat :=
  (match o.narrow with | some f => fmtBits f / 8 | none => 4) + (if o.red = 0 then 0 else 4)

def RedOp.parse (o : RedOp) (bs : List Byte) : List Elem :=
  let n := match o.narrow with | some f => fmtBits f / 8 | none => 4
  (List.range (bs.length / o.size)).map (fun i =>
    let c := fieldAt bs (i * o.size) n
    ((match o.narrow with | some f => toF32 (decodeElem f c) | none => w32 c),
      if o.red = 0 then 0 else fieldAt bs (i * o.size + n) 4))

/-- Element range of block `b` of `n` elements over `p` members (BLOCK of R330). -/
def blockOf (n p b : Nat) : Nat × Nat :=
  let k := ceilDiv n p
  (min (b * k) n, min ((b + 1) * k) n)

def slice {α : Type} (l : List α) (r : Nat × Nat) : List α := (l.drop r.1).take (r.2 - r.1)

/-! ## A running collective -/

def CollRun.head (r : CollRun) : CollIssue :=
  r.issues.headD ⟨⟨0, 0, 0, 0, 0⟩, 0, .barrier, parseColl [], 0⟩

def State.setColl (s : State) (g : Nat) (r : CollRun) : State :=
  { s with collRuns := s.collRuns.map (fun x => if x.1 = g then (g, r) else x) }

def State.collOf (s : State) (g : Nat) : Option CollRun := (s.collRuns.find? (fun x => x.1 == g)).map (·.2)

/-- The operation number that names a collective in abort notices (log 43). -/
def collOp (g num : Nat) : Nat := 2 ^ 32 + num * 256 + g

/-- The epoch its chunks carry: that of the first local participant's core (10 R227). -/
def State.collEpoch (s : State) (r : CollRun) : BitVec 16 := (s.core r.head.core).seq.epoch

/-- Ends a collective on this module (R342): its participants complete, and a failure of its own is told to every other
member on VC 4. Late children stay expected. -/
def State.collEnd (s : State) (g : Nat) (x : GroupSpec) (r : CollRun) (code : Code) (tell : Bool) : State :=
  let d := r.head.desc
  let o := redOf d
  let waits : List LateWait := (r.late.filter (fun c => !r.lateSeen.contains c)).map (fun c =>
    let bs := (r.got.filter (fun m => m.1 == c && !m.2.1)).flatMap (fun m => m.2.2.2.2)
    ⟨g, r.num, c, d.policy == 1, o.int, o.red, o.narrow, bs⟩)
  let t := { s with
    collRuns := s.collRuns.filter (fun y => y.1 != g)
    collNext := Tab.set 0 s.collNext g (r.num + 1)
    lateWait := s.lateWait ++ (if code = Code.done then waits else [])
    sentOps := s.sentOps.filter (fun y => (match y.coll with | some e => e.1 != g | none => true)) }
  let t := match r.staged with | some (w, n) => t.release w n | none => t
  let t := t.onPier (s.homePier g) (fun p => { p with coll := { p.coll with code := code } })
  let t := r.issues.foldl (fun u i => u.finish (.thread i.owner) code) t
  if tell ∧ code ≠ Code.done then
    (x.members.filter (fun m => m.dev != s.dev || m.fabricB != s.fabricB)).foldl
      (fun u m => u.notice m.dev (collOp g r.num) code) t
  else t

/-- Sends one chunk on VC 2 with its tag, epoch, signature and CRC-32C (R335, R341). -/
def State.sendChunk (s : State) (g : Nat) (x : GroupSpec) (r : CollRun) (dst : Nat) (back : Bool) (idx : Nat) (data : List Byte) :
    Except Code State :=
  let d := r.head.desc
  let m := memberAt x dst
  let body := Config.chunkTag g r.num (s.collEpoch r).toNat idx d.opByte d.fmtByte d.count ++ data
  match s.sendMsg m.dev m.fabricB 2 r.head.part false s.nextOp (some (s.collEpoch r).toNat) (body ++ leBytes 4 (crc32c body)) with
  | .error e => .error e
  | .ok t => .ok { t with
      sentOps := t.sentOps ++ [⟨s.nextOp, .quiet, s.now, m.dev, m.fabricB, none, some (g, dst, back)⟩], nextOp := s.nextOp + 1 }

/-- Chunks of an edge that their consumer has not yet given back (R340). -/
def State.inFlight (s : State) (g dst : Nat) (back : Bool) : Nat :=
  (s.sentOps.filter (fun o => o.coll == some (g, dst, back))).length

/-- A collective under way: the module, the run, and the code it has met. -/
structure Going where
  s : State
  r : CollRun
  code : Code
  deriving DecidableEq, Repr

def Going.ok (k : Going) : Bool := k.code == .done

/-- Data chunks start at index 2 after a count phase, else at 0 (log 42). -/
def CollDesc.dataBase (d : CollDesc) : Nat := if d.var ∨ d.shard then 2 else 0

/-- An edge's buffer, its next chunk index, and whether the buffer ends with the edge's last byte. -/
def outOf (r : CollRun) (dst : Nat) (back : Bool) : List Byte × Nat × Bool :=
  match r.outs.find? (fun o => o.1 == (dst, back)) with
  | some o => o.2
  | none => ([], r.head.desc.dataBase, false)

/-- Sends whole chunks from a buffer while fewer than DEPTH are in flight, and at the end of the edge the rest, an empty last
chunk included (R340). Answers what is left, the next index, and whether the last chunk is still to be sent. -/
def chunkGo (g : Nat) (x : GroupSpec) (dst size : Nat) (back : Bool) :
    Nat → List Byte → Nat → Bool → Going → Going × List Byte × Nat × Bool
  | 0, bs, i, final, k => (k, bs, i, final)
  | n + 1, bs, i, final, k =>
    if k.ok ∧ (size ≤ bs.length ∨ final) ∧ k.s.inFlight g dst back < k.r.head.desc.inFlight then
      let last := final && decide (bs.length ≤ size)
      match k.s.sendChunk g x k.r dst back i (bs.take size) with
      | .error e => ({ k with code := e }, bs, i, final)
      | .ok t =>
        if last then ({ k with s := t }, [], i + 1, false)
        else chunkGo g x dst size back n (bs.drop size) (i + 1) final { k with s := t }
    else (k, bs, i, final)

/-- Hands bytes to an edge (R340). -/
def Going.emit (k : Going) (g : Nat) (x : GroupSpec) (dst : Nat) (back : Bool) (bs : List Byte) (final : Bool) : Going :=
  let (old, i, f) := outOf k.r dst back
  let all := old ++ bs
  let size := k.r.head.desc.chunkBytes
  let (k, rest, j, f) := chunkGo g x dst size back (all.length / size + 2) all i (f || final) k
  { k with r := { k.r with outs := (k.r.outs.filter (fun o => o.1 != (dst, back))) ++ [((dst, back), rest, j, f)] } }

/-- Every edge goes on with what it holds. -/
def Going.flush (k : Going) (g : Nat) (x : GroupSpec) : Going :=
  k.r.outs.foldl (fun q o => q.emit g x o.1.1 o.1.2 [] false) k

/-- Bytes of an edge wait for a place in flight. -/
def CollRun.holds (r : CollRun) : Bool := r.outs.any (fun o => !o.2.1.isEmpty || o.2.2.2)

/-- Chunks of one source and direction from an index on, in index order. -/
def edgeGo (l : List (Nat × Bool × Nat × Bool × List Byte)) (src : Nat) (back : Bool) : Nat → Nat → List Byte × Bool
  | 0, _ => ([], false)
  | n + 1, i =>
    match l.find? (fun m => m.1 == src && m.2.1 == back && m.2.2.1 == i) with
    | some m =>
      if m.2.2.2.1 then (m.2.2.2.2, true)
      else
        let (bs, e) := edgeGo l src back n (i + 1)
        (m.2.2.2.2 ++ bs, e)
    | none => ([], false)

/-- What has come on an edge, and whether that is all of it. Count chunks use the indices below `base`. -/
def CollRun.edge (r : CollRun) (src : Nat) (back : Bool) (base : Nat) : List Byte × Bool :=
  edgeGo r.got src back (r.got.length + 1) base

/-! ## Reductions: RING and TREE (R336) -/

/-- RING forward: at step t this member takes block (me - 2 - t) from its predecessor, adds its own sum, and passes it on or
keeps it. -/
def ringForward (g : Nat) (x : GroupSpec) (me p : Nat) : Nat → Going → Going
  | 0, k => k
  | n + 1, k =>
    let d := k.r.head.desc
    let o := redOf d
    let t := k.r.fwd
    if !k.ok ∨ p ≤ t + 1 then k
    else
      let blk (i : Nat) : Nat := (me + 2 * p - 2 - i) % p
      let (bs, _) := k.r.edge ((me + p - 1) % p) false d.dataBase
      let before := (((List.range t).map (fun i => let r := blockOf d.count p (blk i); r.2 - r.1)).sum) * o.size
      let range := blockOf d.count p (blk t)
      let need := (range.2 - range.1) * o.size
      if bs.length < before + need then k
      else
        let part := o.comb2 (o.parse ((bs.drop before).take need)) (slice k.r.local_ range)
        let k := { k with r := { k.r with fwd := t + 1 } }
        if t + 2 = p then ringForward g x me p n { k with r := { k.r with result := k.r.result ++ [(me, part)] } }
        else ringForward g x me p n (k.emit g x ((me + 1) % p) false (o.bytes part) (t + 3 == p))

/-- RING back: results travel the other way, each member keeping and passing on what it has not yet had. -/
def ringBack (g : Nat) (x : GroupSpec) (me p : Nat) : Nat → Going → Going
  | 0, k => k
  | n + 1, k =>
    let d := k.r.head.desc
    let o := redOf d
    let t := k.r.bwd
    if !k.ok ∨ p ≤ t + 1 ∨ k.r.result.all (fun b => b.1 != me) then k
    else
      let blk (i : Nat) : Nat := (me + 1 + i) % p
      let (bs, _) := k.r.edge ((me + 1) % p) true d.dataBase
      let before := (((List.range t).map (fun i => let r := blockOf d.count p (blk i); r.2 - r.1)).sum) * o.size
      let range := blockOf d.count p (blk t)
      let need := (range.2 - range.1) * o.size
      if bs.length < before + need then k
      else
        let raw := (bs.drop before).take need
        let k := { k with r := { k.r with bwd := t + 1, result := k.r.result ++ [(blk t, o.parse raw)] } }
        ringBack g x me p n (if t + 2 < p then k.emit g x ((me + p - 1) % p) true raw (t + 3 == p) else k)

/-- A ring member's first own moves: the block it starts, and once its own block is done the result's first step back. -/
def ringStep (g : Nat) (x : GroupSpec) (me p : Nat) (kind : CollKind) (k : Going) : Going :=
  let d := k.r.head.desc
  let o := redOf d
  if p = 1 then { k with r := { k.r with result := [(0, k.r.local_)] } }
  else
    let k := if (k.r.outs.any (fun e => e.1 == ((me + 1) % p, false))) then k
      else k.emit g x ((me + 1) % p) false (o.bytes (slice k.r.local_ (blockOf d.count p ((me + p - 1) % p)))) (p == 2)
    let k := ringForward g x me p p k
    if kind = .rscatter then k
    else
      let k := match k.r.result.find? (fun b => b.1 == me) with
        | some b =>
          if k.r.outs.any (fun e => e.1 == ((me + p - 1) % p, true)) then k
          else k.emit g x ((me + p - 1) % p) true (o.bytes b.2) (p == 2)
        | none => k
      ringBack g x me p p k

/-- The children whose subtotals are complete, in the order of addition: ascending position, or arrival on the narrow wire. -/
def readyChildren (x : GroupSpec) (r : CollRun) : List Nat :=
  let d := r.head.desc
  let ready := x.children.filter (fun c => (r.edge c false d.dataBase).2)
  if d.narrow then ((r.got.filter (fun m => !m.2.1 && m.2.2.2.1)).map (·.1)).filter (fun c => ready.contains c) else ready

/-- TREE upward: once every child not late has its subtotal here, the node's subtotal goes to its parent, or is the result. -/
def treeUp (g : Nat) (x : GroupSpec) (k : Going) : Going :=
  let d := k.r.head.desc
  let o := redOf d
  let ready := readyChildren x k.r
  if k.r.fwd ≠ 0 ∨ !(x.children.all (fun c => ready.contains c || k.r.late.contains c)) then k
  else
    let kids := (ready.filter (fun c => !k.r.late.contains c)).map (fun c => o.parse (k.r.edge c false d.dataBase).1)
    let held := (x.children.filterMap (fun c => k.s.deferred.find? (fun e => e.1 == (g, c)))).map (·.2)
    let sum := (held ++ kids).foldl o.comb2 k.r.local_
    let k := { k with
      s := { k.s with deferred := k.s.deferred.filter (fun e => e.1.1 != g) }
      r := { k.r with fwd := 1, lateSelf := d.policy ≠ 0 ∧ d.due ≠ 0 ∧ d.due ≤ k.s.now ∧ x.parent.isSome } }
    match x.parent with
    | some p => k.emit g x p false (o.bytes sum) true
    | none => { k with r := { k.r with result := [(0, sum)] } }

/-- TREE downward: the result comes from the parent and goes on to every child. -/
def treeDown (g : Nat) (x : GroupSpec) (k : Going) : Going :=
  let d := k.r.head.desc
  let o := redOf d
  let k := match x.parent with
    | some p =>
      let (bs, all) := k.r.edge p true d.dataBase
      if all ∧ k.r.result.isEmpty then { k with r := { k.r with result := [(0, o.parse bs)] } } else k
    | none => k
  match k.r.result with
  | b :: _ =>
    if k.r.bwd ≠ 0 then k
    else x.children.foldl (fun q c => if q.ok then q.emit g x c true (o.bytes b.2) true else q)
      { k with r := { k.r with bwd := 1 } }
  | [] => k

/-- The whole result once it is known: of a reduce-scatter, this member's block. -/
def reduced (x : GroupSpec) (me p : Nat) (kind : CollKind) (r : CollRun) : Option (List Elem) :=
  let d := r.head.desc
  if x.tree ∨ p = 1 then
    match r.result with
    | b :: _ => some (if kind = .rscatter then slice b.2 (blockOf d.count p me) else b.2)
    | [] => none
  else if kind = .rscatter then (r.result.find? (fun b => b.1 == me)).map (·.2)
  else
    let bs := (List.range p).map (fun i => r.result.find? (fun b => b.1 == i))
    if bs.all (·.isSome) then some (bs.flatMap (fun b => match b with | some b => b.2 | none => [])) else none

/-! ## Writing results -/

/-- The bytes at SRC and DST of an issue: BASE of the sharding descriptors under SHARD. -/
def State.collAddr (s : State) (i : CollIssue) (a : Nat) : State × Except Code Nat :=
  match s.localOf i.part (BitVec.ofNat 64 a) with
  | .error e => (s, .error e)
  | .ok x =>
    if i.desc.shard ∧ (a = i.desc.src ∨ a = i.desc.dst) then
      match s.readStruct i.part x 128 true with
      | (t, .error e) => (t, .error e)
      | (t, .ok b) => (t, .ok (parseShard b).base)
    else (s, .ok x)

/-- Writes bytes for one participant. -/
def Going.put (k : Going) (i : CollIssue) (a : Nat) (bs : List Byte) : Going :=
  if k.ok then
    let (t, x) := k.s.collAddr i a
    match x with
    | .error e => { k with s := t, code := e }
    | .ok y =>
      let (u, e) := t.writeRange i.core i.part y bs
      { k with s := u, code := e }
  else k

/-- Bytes 15:0 of RECORD (R338). -/
def collRecord (f : Flags) (late num : Nat) : List Byte :=
  leBytes 4 (f.bits % 8 - b2n f.accSat) ++ leBytes 4 late ++ leBytes 8 num

/-- Writes every participant's RECORD and ends the collective. -/
def Going.done (k : Going) (g : Nat) (x : GroupSpec) (f : Flags) : State :=
  let late := k.r.late.length + b2n k.r.lateSelf
  let k := k.r.issues.foldl (fun q i => q.put i i.desc.record (collRecord f late k.r.num)) k
  k.s.collEnd g x k.r k.code true

/-- A reduction's result narrowed once and written (R336 step 3, R338). -/
def Going.finishRed (k : Going) (g : Nat) (x : GroupSpec) (es : List Elem) : State :=
  let d := k.r.head.desc
  let o := redOf d
  let src : BitVec 4 := if o.int then 0x6 else 0x0
  let vs := es.map (fun e => if o.int then Val.ofInt e.1.toInt else f32 e.1)
  let cs := vs.map (convert src d.fmtOut d.rnd d.ovf 0)
  let f := flagsOf (cs.any (·.sat)) (cs.any (·.nonfin) || vs.any (fun v => !v.isFin))
  let k := k.r.issues.foldl (fun q i => q.put i i.desc.dst (bytesOf d.fmtOut (cs.map (·.code)))) k
  let k := if d.red = 0 then k else k.r.issues.foldl (fun q i => q.put i i.desc.idx (es.flatMap (fun e => leBytes 4 e.2))) k
  k.done g x f

/-! ## Moves (R335): each block goes straight from its origin to its destination (log 44) -/

/-- The position, and the bytes this member has from every source, its own included; none while one is missing. -/
def arrived (me p : Nat) (r : CollRun) : Option (List (List Byte)) :=
  let d := r.head.desc
  let all := (List.range p).map (fun m =>
    if m = me then some (nth [] r.blocks me)
    else if r.head.kind = .bcast ∧ m ≠ d.root then some []
    else match r.edge m false d.dataBase with
      | (bs, true) => some bs
      | _ => none)
  if all.all (·.isSome) then some (all.map (·.getD [])) else none

/-- Sends this member's blocks. -/
def moveStep (g : Nat) (x : GroupSpec) (me p : Nat) (k : Going) : Going :=
  let d := k.r.head.desc
  if k.r.fwd ≠ 0 then k
  else
    let dests := (List.range p).filter (fun m => m != me && (k.r.head.kind != .bcast || me == d.root))
    dests.foldl (fun q m => if q.ok then q.emit g x m false (nth [] q.r.blocks m) true else q) { k with r := { k.r with fwd := 1 } }

/-- The sharding descriptor at an address of an issue. -/
def State.shardAt (s : State) (i : CollIssue) (a : Nat) : State × Except Code ShardDesc :=
  match s.localOf i.part (BitVec.ofNat 64 a) with
  | .error e => (s, .error e)
  | .ok y => match s.readStruct i.part y 128 true with
    | (t, .ok b) => (t, .ok (parseShard b))
    | (t, .error e) => (t, .error e)

/-- Elements that member `m` sends to this member. -/
def fromCount (x : GroupSpec) (r : CollRun) (m : Nat) : Nat :=
  let d := r.head.desc
  match r.head.kind with
  | .bcast => if m = d.root then d.count else 0
  | .barrier => 0
  | _ => if d.var ∨ d.shard then nth 0 r.counts m else (memberAt x m).locals.length * d.count

/-- A collective that does not reduce moved a non-finite element, read as FMT_IN (R338). -/
def movedBad (f : BitVec 4) (codes : List Nat) : Bool := codes.any (fun c => !(decodeElem f c).isFin)

/-- Writes what has come: in participant order, or by the pair of sharding descriptors. -/
def Going.finishMove (k : Going) (g : Nat) (x : GroupSpec) (me : Nat) (got : List (List Byte)) : State :=
  let d := k.r.head.desc
  let i := k.r.head
  let sent := k.r.blocks.flatMap (fun b => codesOf d.fmtIn b (b.length * 8 / max (fmtBits d.fmtIn) 1))
  if i.kind = .barrier then k.done g x {}
  else if i.kind = .alltoall ∧ d.shard then
    match (k.s.shardAt i d.src).2, (k.s.shardAt i d.dst).2 with
    | .ok a, .ok b =>
      let codes := got.zipIdx.map (fun e => codesOf b.fmt e.1 (fromCount x k.r e.2))
      let placed := (List.range x.members.length).flatMap (fun m =>
        (reshard x a b m me).mapIdx (fun j e => (e.2, nth 0 (nth [] codes m) j)))
      let cells := (List.range (shardCount x b me)).map (fun l => ((placed.find? (fun e => e.1 == l)).map (·.2)).getD 0)
      (k.put i d.dst (bytesOf b.fmt cells)).done g x { nonfinite := movedBad d.fmtIn (codes.flatten ++ sent) }
    | .error e, _ => { k with code := e }.done g x {}
    | _, .error e => { k with code := e }.done g x {}
  else
    let codes := got.zipIdx.flatMap (fun e => codesOf d.fmtIn e.1 (fromCount x k.r e.2))
    (k.r.issues.foldl (fun q i => q.put i i.desc.dst (bytesOf d.fmtIn codes)) k).done g x { nonfinite := movedBad d.fmtIn (codes ++ sent) }

/-! ## Counts (R339) -/

/-- Every member's count vector, then its bit; then data. -/
def countStep (g : Nat) (x : GroupSpec) (me p : Nat) (k : Going) : Going :=
  let d := k.r.head.desc
  let single (m i : Nat) : Option (List Byte) :=
    (k.r.got.find? (fun e => e.1 == m && !e.2.1 && e.2.2.1 == i)).map (fun e => e.2.2.2.2)
  let others := (List.range p).filter (fun m => m != me)
  let tell (k : Going) (i : Nat) (bs : List Byte) : Going :=
    others.foldl (fun q m =>
      if q.ok then
        match q.s.sendChunk g x q.r m false i bs with
        | .error e => { q with code := e }
        | .ok t => { q with s := t }
      else q) k
  let k := if k.r.phase = 0 ∧ others.all (fun m => (single m 0).isSome) then
      let mine := k.r.counts
      let recv := (List.range p).map (fun m =>
        if d.shard then nth 0 mine m
        else if m = me then nth 0 mine me else fieldAt ((single m 0).getD []) (4 * me) 4)
      let fits := decide (recv.sum ≤ d.dcap)
      let k := if d.var then k.put k.r.head d.cntr (recv.flatMap (leBytes 4)) else k
      let k := tell k 1 [BitVec.ofNat 8 (b2n fits)]
      { k with r := { k.r with phase := 1, counts := recv, bwd := b2n fits } }
    else k
  if k.ok ∧ k.r.phase = 1 ∧ others.all (fun m => (single m 1).isSome) then
    if k.r.bwd = 1 ∧ others.all (fun m => fieldAt ((single m 1).getD []) 0 1 == 1) then
      { k with r := { k.r with phase := 2, bwd := 0 } }
    else { k with code := .limit }
  else k

/-! ## Going on -/

/-- All a collective can do with what it has. -/
def State.collAdvance (s : State) (g : Nat) (x : GroupSpec) (r : CollRun) : State :=
  let me := (s.myPos x).getD 0
  let p := x.members.length
  let kind := r.head.kind
  let k := Going.flush ⟨s, r, Code.done⟩ g x
  let k := if k.ok ∧ k.r.phase < 2 then countStep g x me p k else k
  let k := if k.ok ∧ k.r.phase = 2 then
      (if kind.reduces then (if x.tree then treeDown g x (treeUp g x k) else ringStep g x me p kind k) else moveStep g x me p k)
    else k
  if !k.ok then k.s.collEnd g x k.r k.code (k.code != .limit)
  else if k.r.phase < 2 then k.s.setColl g k.r
  else if kind.reduces then
    match reduced x me p kind k.r with
    | some es =>
      -- Under a schedule that carries the result on, this member ends when it has passed it on.
      if k.r.holds ∨ x.tree ∧ k.r.bwd = 0 ∨ (!x.tree ∧ kind = .allreduce ∧ k.r.bwd + 1 < p) then k.s.setColl g k.r
      else k.finishRed g x es
    | none => k.s.setColl g k.r
  else match arrived me p k.r with
    | some got => if k.r.holds then k.s.setColl g k.r else k.finishMove g x me got
    | none => k.s.setColl g k.r

/-! ## Starting (R335, R336) -/

/-- The contribution of one participant. -/
def Run.contrib (r : Run) (i : CollIssue) (rank : Nat) : Run × List Elem :=
  let (t, a) := r.s.collAddr i i.desc.src
  match a with
  | .error e => (({ r with s := t }).stop e, [])
  | .ok a =>
    let (r, vs) := ({ r with s := t, p := i.part } : Run).elems i.desc.fmtIn a 0 i.desc.count
    (r, vs.map (collElem i.desc.fmtIn rank))

/-- The local stage: ascending core number, or order of arrival on the narrow wire (R336, R337). -/
def localStage (r : Run) (o : RedOp) : List (CollIssue × Nat) → Option (List Elem) → Run × List Elem
  | [], acc => (r, acc.getD [])
  | i :: is, acc =>
    let (r, es) := r.contrib i.1 i.2
    if r.ok then localStage r o is (some (match acc with | some a => o.comb2 a es | none => es)) else (r, [])

/-- Element codes of an issue's source, `n` of them from element `lo` on: 4-bit elements lie two to a byte. -/
def Run.rawAt (r : Run) (i : CollIssue) (f : BitVec 4) (lo n : Nat) : Run × List Nat :=
  let (t, a) := r.s.collAddr i i.desc.src
  match a with
  | .error e => (({ r with s := t }).stop e, [])
  | .ok a =>
    let skip := if fmtBits f = 4 then lo % 2 else 0
    let (r, bs) := ({ r with s := t, p := i.part } : Run).read (a + lo * fmtBits f / 8) (elemBytes f (skip + n))
    (r, (codesOf f bs (skip + n)).drop skip)

/-- Joins the elements of several reads. -/
def Run.raws (r : Run) (f : BitVec 4) (l : List (CollIssue × Nat × Nat)) : Run × List Nat :=
  l.foldl (fun (q : Run × List Nat) e =>
    let (t, cs) := q.1.rawAt e.1 f e.2.1 e.2.2
    (t, q.2 ++ cs)) (r, [])

/-- A sharding descriptor, read by a command. -/
def Run.shard (r : Run) (i : CollIssue) (a : Nat) : Run × ShardDesc :=
  match r.s.shardAt i a with
  | (t, .ok d) => ({ r with s := t }, d)
  | (t, .error e) => (({ r with s := t }).stop e, parseShard [])

/-- The counts this member sends, by destination: CNTS, or those of the reshard; and those it is to receive by the reshard. -/
def Run.counts (r : Run) (x : GroupSpec) (me : Nat) (i : CollIssue) : Run × List Nat × List Nat :=
  let d := i.desc
  let p := x.members.length
  if d.shard then
    let (r, a) := r.shard i d.src
    let (r, b) := r.shard i d.dst
    (r, (List.range p).map (fun m => (reshard x a b me m).length), (List.range p).map (fun m => (reshard x a b m me).length))
  else if d.var then
    match r.s.localOf i.part (BitVec.ofNat 64 d.cnts) with
    | .error e => (r.stop e, [], [])
    | .ok a =>
      let (t, bs) := ({ r with p := i.part } : Run).read a (4 * p)
      let cs := codesOf 0x0 bs p
      (t, cs, cs)
  else (r, List.replicate p d.count, List.replicate p d.count)

/-- The blocks this member moves to each destination position. -/
def Run.moveBlocks (r : Run) (x : GroupSpec) (me : Nat) (is : List CollIssue) (sends : List Nat) : Run × List (List Byte) :=
  let i := is.headD ⟨⟨0, 0, 0, 0, 0⟩, 0, .barrier, parseColl [], 0⟩
  let d := i.desc
  let p := x.members.length
  let each (r : Run) (f : BitVec 4) (l : Nat → List (CollIssue × Nat × Nat)) : Run × List (List Byte) :=
    (List.range p).foldl (fun (q : Run × List (List Byte)) m =>
      let (t, cs) := q.1.raws f (l m)
      (t, q.2 ++ [bytesOf f cs])) (r, [])
  match i.kind with
  | .allgather =>
    if d.var then each r d.fmtIn (fun m => [(i, 0, nth 0 sends m)]) else each r d.fmtIn (fun _ => is.map (fun j => (j, 0, d.count)))
  | .bcast => each r d.fmtIn (fun _ => if me = d.root then [(i, 0, d.count)] else [])
  | .alltoall =>
    if d.shard then
      let (r, a) := r.shard i d.src
      let (r, b) := r.shard i d.dst
      each r a.fmt (fun m => (reshard x a b me m).map (fun e => (i, e.1, 1)))
    else if d.var then each r d.fmtIn (fun m => [(i, (sends.take m).sum, nth 0 sends m)])
    else each r d.fmtIn (fun m => is.map (fun j => (j, m * d.count, d.count)))
  | _ => (r, List.replicate p [])

/-- The signature local issues must share. -/
def sameIssue (a b : CollIssue) : Bool :=
  a.kind == b.kind && a.desc.opByte == b.desc.opByte && a.desc.fmtByte == b.desc.fmtByte && a.desc.count == b.desc.count

/-- The oldest waiting issue of each local participant, ascending; none while one is missing. -/
def State.nextIssues (s : State) (g : Nat) (ls : List Nat) : Option (List CollIssue) :=
  let l := ls.map (fun c => (s.collIssues.find? (fun e => e.1 == g && e.2.core.val == c)).map (·.2))
  if l.all (·.isSome) then some (l.filterMap id) else none

/-- Takes issues out of the waiting list, and gives them in order of arrival. -/
def State.takeIssues (s : State) (g : Nat) (is : List CollIssue) : State × List CollIssue :=
  let first := s.collIssues.filter (fun e => e.1 == g && is.contains e.2)
  (is.foldl (fun t i => { t with collIssues := t.collIssues.erase (g, i) }) s, (first.map (·.2)).eraseDups)

/-- The source chunks that came early. -/
def State.early (s : State) (g num : Nat) : List Chunk := s.collEarly.filter (fun c => c.group == g && c.num == num)

/-! ## Chunks (R341, R342, R344) -/

/-- The position of a chunk's sender. -/
def chunkFrom (c : Chunk) : Nat := c.src

/-- Whether a chunk's CRC-32C agrees with its tag, signature and data. -/
def chunkOk (c : Chunk) : Bool :=
  crc32c (Config.chunkTag c.group c.num c.epoch.toNat c.index c.sigOp.toNat c.sigFmt.toNat c.sigCount.toNat ++ c.data) == c.crc.toNat

/-- A chunk has been consumed: its credit goes back to its sender (R340). -/
def State.consumed (s : State) (x : GroupSpec) (c : Chunk) : State :=
  let m := memberAt x c.src
  s.trySend m.dev m.fabricB 1 c.op []

/-- A chunk for the collective that runs. -/
def State.takeChunk (s : State) (g : Nat) (x : GroupSpec) (r : CollRun) (c : Chunk) : State :=
  let d := r.head.desc
  if !chunkOk c then
    (s.onPier (s.homePier g) (fun p => { p with coll := { p.coll with chunkCheck := satInc 32 p.coll.chunkCheck } })).collEnd g x r
      .chunkCheck true
  else if c.sigOp.toNat ≠ d.opByte ∨ c.sigFmt.toNat ≠ d.fmtByte ∨ c.sigCount.toNat ≠ d.count then s.collEnd g x r .shape true
  else (s.consumed x c).collAdvance g x { r with got := r.got ++ [(c.src, c.back, c.index, c.last, c.data)] }

/-- A late child's whole subtotal: discarded and counted, or held for the next collective (R344). -/
def State.lateDone (s : State) (w : LateWait) : State :=
  let t := { s with lateWait := s.lateWait.erase w }
  let count (f : Coll → Coll) : State := t.onPier (s.homePier w.group) (fun p => { p with coll := f p.coll })
  if w.defers then
    let o : RedOp := ⟨w.red, w.int, w.narrow, 1, 0⟩
    let es := o.parse w.got
    let u := count (fun k => { k with defer_ := satInc 32 k.defer_ })
    match u.deferred.find? (fun e => e.1 == (w.group, w.child)) with
    | some _ => { u with deferred := u.deferred.map (fun e =>
        if e.1 = (w.group, w.child) then (e.1, { o with narrow := none }.comb2 e.2 es) else e) }
    | none => { u with deferred := u.deferred ++ [((w.group, w.child), es)] }
  else count (fun k => { k with late := satInc 32 k.late })

/-- A chunk of a late child of a collective that has ended here. -/
def State.takeLate (s : State) (x : GroupSpec) (w : LateWait) (c : Chunk) : State :=
  let v := { w with got := w.got ++ c.data }
  let t := { s with lateWait := s.lateWait.map (fun y => if y = w then v else y) }
  if !chunkOk c then
    let t := ({ s with lateWait := s.lateWait.erase w }).onPier (s.homePier w.group) (fun p => { p with
      coll := { p.coll with chunkCheck := satInc 32 p.coll.chunkCheck } })
    (x.members.filter (fun m => m.dev != s.dev || m.fabricB != s.fabricB)).foldl
      (fun u m => u.notice m.dev (collOp w.group w.num) .chunkCheck) t
  else if c.last then (t.consumed x c).lateDone v else t.consumed x c

/-- A late child's subtotal that is complete while its collective still runs here. -/
def State.lateInRun (s : State) (g : Nat) (child : Nat) : State :=
  match s.collOf g with
  | none => s
  | some r =>
    let d := r.head.desc
    if r.late.contains child ∧ !r.lateSeen.contains child ∧ (r.edge child false d.dataBase).2 then
      let o := redOf d
      let t := s.setColl g { r with
        lateSeen := r.lateSeen ++ [child], got := r.got.filter (fun m => m.1 != child || m.2.1) }
      t.lateDone ⟨g, r.num, child, d.policy == 1, o.int, o.red, o.narrow, (r.edge child false d.dataBase).1⟩
    else s

/-- The epoch in force at a group's lead participant here (10 R227). -/
def State.groupEpoch (s : State) (x : GroupSpec) : BitVec 16 := (s.core (Fin.ofNat 192 ((s.myLocals x).headD 0))).seq.epoch

/-- A chunk of another epoch is discarded and counted; its sender is told, and a collective it belongs to ends (R342, 10 R227). -/
def State.staleChunk (s : State) (x : GroupSpec) (c : Chunk) : State :=
  let t := (s.countStale (Fin.ofNat 192 ((s.myLocals x).headD 0))).notice (memberAt x c.src).dev c.op .staleEpoch
  match s.collOf c.group with
  | some r => if c.num = r.num then t.collEnd c.group x r .staleEpoch true else t
  | none => t

/-- A chunk arrives at its group's engine, is checked, and is added or kept. -/
def collectiveChunkAt (c : Chunk) (x : GroupSpec) (s : State) : Out :=
  if c.epoch ≠ s.groupEpoch x then .next (s.staleChunk x c)
  else
    let late := s.lateWait.find? (fun w => w.group == c.group && w.num == c.num && w.child == c.src)
    match s.collOf c.group, late with
    | some r, _ =>
      if c.num = r.num then .next ((s.takeChunk c.group x r c).lateInRun c.group c.src)
      else match late with
        | some w => .next (s.takeLate x w c)
        | none => if r.num < c.num then .next { s with collEarly := s.collEarly ++ [c] } else .next s
    | none, some w => .next (s.takeLate x w c)
    | none, none => if Tab.get 0 s.collNext c.group ≤ c.num then .next { s with collEarly := s.collEarly ++ [c] } else .next s

def execCollectiveChunk (c : Chunk) (s : State) : Out :=
  match s.groupOf c.group with
  | none => .next s
  | some x => if s.pierOn (s.homePier c.group) then asPier (s.homePier c.group) (collectiveChunkAt c x) s else .next s

/-- A chunk that this module sent has been consumed: its edge goes on (R340). -/
def State.chunkBack (s : State) (g : Nat) : State :=
  match s.groupOf g, s.collOf g with
  | some x, some r => if r.holds then s.collAdvance g x r else s
  | _, _ => s

/-- The collectives an engine runs: at most 64 (R335). -/
def State.collLoad (s : State) (p : PierId) : Nat := (s.collRuns.filter (fun r => s.homePier r.1 == p)).length

/-- What the sending engines of the inbound edges take of the staging window: credits for DEPTH chunks each, as far as AVAIL
goes (R340; log 185). -/
def State.stageUnits (s : State) (x : GroupSpec) (i : CollIssue) : Option (WinRef × Nat) :=
  (s.stageWindow i.part i.desc.stage).map (fun w =>
    (w, min (s.window w).avail (i.desc.inFlight * i.desc.chunkBytes * inEdges x / 64)))

/-- The collective of a group whose local participants have all issued it starts: its signature is checked, its local stage and its
counts are made, and chunks that came early are taken (R335-R342). -/
def State.collLaunch (s : State) (g : Nat) (x : GroupSpec) (i : CollIssue) (is : List CollIssue) : State :=
  let me := (s.myPos x).getD 0
  let num := Tab.get 0 s.collNext g
  let (s, order) := s.takeIssues g (i :: is)
  let d := i.desc
  let staged := s.stageUnits x i
  let s := match staged with | some (w, n) => s.onWindow w (fun v => { v with avail := v.avail - n }) | none => s
  let blank : CollRun := ⟨num, i :: is, [], [], [], [], 0, 0, [], [], [], false, if d.var ∨ d.shard then 0 else 2, [], staged⟩
  let early := s.early g num
  let s := { s with collRuns := s.collRuns ++ [(g, blank)]
                    collEarly := s.collEarly.filter (fun c => c.group != g || num < c.num) }
  if !is.all (sameIssue i) then s.collEnd g x blank .shape true
  else
    let r := Run.alone s i.core i.part
    let ranks := (i :: is).zip ((List.range (is.length + 1)).map (· + rankBase x me))
    let ordered := if d.narrow then order.filterMap (fun j => ranks.find? (fun y => y.1 == j)) else ranks
    let (r, sums) := if i.kind.reduces then localStage r (redOf d) ordered none else (r, [])
    let (r, sends, recvs) := r.counts x me i
    let (r, blocks) := if i.kind.reduces then (r, []) else r.moveBlocks x me (i :: is) sends
    if !r.ok then r.s.collEnd g x blank r.code true
    else
      let run := { blank with local_ := sums, blocks := blocks, counts := if d.shard then recvs else sends }
      let k : Going := ⟨r.s, run, Code.done⟩
      let k := if run.phase = 0 then
          ((List.range x.members.length).filter (fun m => m != me)).foldl (fun q m =>
            if q.ok then
              match q.s.sendChunk g x q.r m false 0 (if d.var then sends.flatMap (leBytes 4) else []) with
              | .error e => { q with code := e }
              | .ok t => { q with s := t }
            else q) k
        else k
      if !k.ok then k.s.collEnd g x k.r k.code true
      else
        let t := k.s.collAdvance g x k.r
        early.foldl (fun u c => match u.collOf g with
          | some r => if c.epoch = u.groupEpoch x then u.takeChunk g x r c else u.staleChunk x c
          | none => u) t

/-- The home engine starts the next collective of a group once every local participant has issued it. -/
def execCollectiveStart (g : Nat) (s : State) : Out :=
  match s.groupOf g with
  | none => .next s
  | some x =>
    let home := s.homePier g
    if !s.pierOn home ∨ (s.collOf g).isSome ∨ 64 ≤ s.collLoad home then .next s
    else match s.nextIssues g (s.myLocals x) with
      | none => .next s
      | some [] => .next s
      | some (i :: is) => asPier home (fun s => .next (s.collLaunch g x i is)) s

/-- At DUE a TREE node goes on without the children whose subtotals are not complete (R344). -/
def execDueExpiry (g : Nat) (s : State) : Out :=
  match s.groupOf g, s.collOf g with
  | some x, some r =>
    let d := r.head.desc
    if x.tree ∧ d.policy ≠ 0 ∧ d.due ≠ 0 ∧ d.due ≤ s.now ∧ r.fwd = 0 ∧ r.phase = 2 then
      let ready := readyChildren x r
      asPier (s.homePier g) (fun s => .next (s.collAdvance g x { r with late := x.children.filter (fun c => !ready.contains c) })) s
    else .next s
  | _, _ => .next s

end Sys2Proof.Machine
end

