-- ==== Sys2Proof/WellFormed.lean ====
section
/-! DEFINITION. What an operand list must satisfy to be the spelling of a command at all: lengths the
device's own formats fix. Field widths are in the types of the operands. -/

namespace Sys2Proof

/-- A flit's payload field holds at most 244 used bytes (14 R302). -/
def Flit.wf (f : Flit) : Bool := f.payload.length == 244 && f.len.toNat ≤ 244

/-- The type a flit row names must be the type its flit carries; a flit of a type the protocol does not have belongs to no row,
and may come as any (14 R302). -/
def Flit.wfAs (f : Flit) (t : Nat) : Bool := f.wf && (f.ftype.toNat == t || decide (5 < f.ftype.toNat))

/-- Header fields of a slot image that have fixed lengths (19 R418). -/
def SlotImage.wf (i : SlotImage) : Bool :=
  i.digests.length == 3 && i.digests.all (·.length == 48) && i.fwSig.length == 96 && i.cfgSig.length == 96
    && i.ownerPub.length == 48

/-- The fixed lengths of a command's operand lists. -/
def Instr.wellFormed : Instr → Bool
  | .dataFlit _ f => f.wfAs 0
  | .ackFlit _ f => f.wfAs 1
  | .nakFlit _ f => f.wfAs 2
  | .creditFlit _ f => f.wfAs 3
  | .controlFlit _ f => f.wfAs 4
  | .idleFlit _ f => f.wfAs 5
  | .forwardedWrite _ d => d.length == 64
  | .pairCompare _ _ d => d.length == 64
  | .quote _ _ n => n.length == 48
  | .debugSignature _ sig => sig.length == 96
  | .image i => i.wf
  | .fieldUpdate _ i => i.wf
  | .thermalSample t => t.quarters.length == 4 && t.piers.length == 2 && t.hbms.length == 12
  | .publish _ _ _ _ _ _ _ d => d.length == 48
  | _ => true

end Sys2Proof
end

