-- ==== Sys2Proof/Machine/Fabric.lean ====
section
/-! DEFINITION. Lanes, the link protocol, flows, messages and their timers, membership and routes, and ingest (14). -/

namespace Sys2Proof.Machine

/-! ## Lanes (R299-R301) -/

/-- Bits from one marker of a lane to the next (R299). -/
def markerPeriod : Nat := 11_141_240

/-- One position compared by a receiver that hunts (R300). -/
def huntLane (x : LaneRx) (bit : Nat) (ok : Bool) (number : Nat) : LaneRx :=
  let live := x.cands.filter (fun c => decide (bit ≤ c.1 + markerPeriod))
  match live.find? (fun c => c.1 + markerPeriod == bit) with
  | some c =>
    if !ok then { x with cands := live.filter (· != c) }
    else if 4 ≤ c.2 + 1 then { x with locked := true, cands := [], due := bit + markerPeriod, misses := 0, number }
    else { x with cands := live.map (fun y => if y = c then (bit, c.2 + 1) else y) }
  | none => if ok then { x with cands := (if 4 ≤ live.length then live.drop 1 else live) ++ [(bit, 1)] } else { x with cands := live }

/-- One position compared by a locked lane (R301): only where a marker is due. -/
def trackLane (x : LaneRx) (bit : Nat) (ok : Bool) : LaneRx :=
  if bit ≠ x.due then x
  else if ok then { x with due := bit + markerPeriod, misses := 0 }
  else if 3 ≤ x.misses + 1 then { x with locked := false, lost := true, misses := 0, due := 0, cands := [] }
  else { x with due := bit + markerPeriod, misses := x.misses + 1 }

/-- The four lanes of a half: lanes 0-3 or 4-7. -/
def Port.lanesOf (p : Port) (lo : Nat) : List LaneRx := (List.range 4).map (fun i => p.lanes.toList.getD (lo + i) {})

def Port.half (p : Port) (lo : Nat) : Bool := (p.lanesOf lo).all (·.locked)

/-- Bits between the due markers of two lanes, either way round the period. -/
def laneSkew (x y : LaneRx) : Nat :=
  let d := (x.due + markerPeriod - y.due % markerPeriod) % markerPeriod
  min d (markerPeriod - d)

/-- Lanes that deskew: their numbers differ, and no two lie more than 4,096 bits apart (R301). -/
def deskewed (l : List LaneRx) : Bool :=
  decide ((l.map (·.number)).eraseDups.length = l.length) && l.all (fun x => l.all (fun y => decide (laneSkew x y ≤ 4096)))

/-- A port retrains (R305). -/
def State.retrain (s : State) (n : PortId) : State :=
  s.onPort n (fun p => if p.retraining then p else { p with retraining := true, retrains := satInc 16 p.retrains, burst := [] })

/-- An ETH port's links are its lane halves (R307); WIDTH shows the halves that carry frames. -/
def ethLinks (p : Port) : Port :=
  let up (lo : Nat) : Bool := p.half lo && deskewed (p.lanesOf lo)
  { p with links := (up 0, up 4), width := b2n (up 0) + 2 * b2n (up 4) }

/-- The width the locked lanes of a Slakor port give: all 8, and once it has narrowed lanes 0-3 or else lanes 4-7 (R301, R305). -/
def lockedWidth (p : Port) : Nat :=
  if p.narrowed then (if p.half 0 && deskewed (p.lanesOf 0) then 1 else if p.half 4 && deskewed (p.lanesOf 4) then 2 else 0)
  else if p.half 0 && p.half 4 && deskewed p.lanes.toList then 3 else 0

/-! ## Flows that change port (R305, R309) -/

def TxFlit.flow (f : TxFlit) : Nat × Nat × Nat := (f.src, f.dst, f.vc.val)

/-- A flow is held: its flits that have not left wait in the switch, and with `down` those not acknowledged too. -/
def State.holdFlow (s : State) (down : Bool) (key : Nat × Nat × Nat) (n : PortId) : State :=
  let p := s.port n
  let mine (f : TxFlit) : Bool := !f.adaptive && f.flow == key
  let fs := ((if down then p.replay.map (·.2) else []) ++ p.txq).filter mine
  let t := s.onPort n (fun p => { p with
    txq := p.txq.filter (fun f => !mine f)
    replay := if down then p.replay.filter (fun r => !mine r.2) else p.replay })
  if t.heldFlows.any (fun h => h.1 == key) then
    { t with heldFlows := t.heldFlows.map (fun h => if h.1 = key then (h.1, h.2 ++ fs) else h) }
  else { t with heldFlows := t.heldFlows ++ [(key, fs)] }

/-- Puts a flit that belongs to no flow on another port. -/
def State.rehome (s : State) (side : Bool) (f : TxFlit) : State :=
  match s.dispatch f.dst (if side then !s.fabricB else s.fabricB) f.vc f.adaptive [f] with
  | .ok t => t
  | .error _ => s

/-- The live ports of a direction have changed: every flow whose place among them is another one now is held (R309). -/
def State.reflow (s : State) : State :=
  let moved := s.flows.filter (fun f => s.heldFlows.all (fun h => h.1 != f.1) && (s.flowPort f.1.1 f.1.2.1).toOption != some f.2)
  moved.foldl (fun t f => t.holdFlow false f.1 f.2) s

/-- A port has narrowed or gone down: its flows are held. What a port that is down had not been acknowledged is sent again on
other ports. -/
def State.holdFlows (s : State) (n : PortId) (down : Bool) : State :=
  let t := (s.flows.filter (fun f => f.2 == n)).foldl (fun t f => t.holdFlow down f.1 n) s
  if down then
    let p := t.port n
    ((p.replay.map (·.2) ++ p.txq).foldl (fun u f => u.rehome (decide (24 ≤ n.val % 26)) f)
      (t.onPort n (fun p => { p with txq := [], replay := [], resend := [] }))).reflow
  else t.reflow

def alignmentMarkerAt (n : PortId) (l : Fin 8) (bit errs : Nat) (number : Fin 8) (s : State) : Out :=
  let p := s.port n
  if !p.en ∨ !s.pierOn (pierOf n) then .next s
  else
    let x := p.lanes[l.val]
    let ok : Bool := decide (errs ≤ 3)
    let y := if x.locked then trackLane x bit ok else huntLane x bit ok number.val
    let s := s.onPort n (fun p => { p with lanes := vmod p.lanes l (fun _ => y) })
    if s.isEth n then .next (s.onPort n ethLinks)
    else if x.locked ∧ !y.locked then .next (s.retrain n)
    else
      let w := lockedWidth (s.port n)
      if p.width = 0 ∧ !p.retraining ∧ w ≠ 0 then .next (s.onPort n (fun p => { p with width := w, beatIn := s.now })).reflow
      else .next s

/-- A marker position of a lane is compared, and a port whose lanes are all locked and deskewed carries flits (R300, R301). -/
def execAlignmentMarker (n : PortId) (l : Fin 8) (bit errs : Nat) (number : Fin 8) (s : State) : Out :=
  alignmentMarkerAt n l bit errs number s

/-- A lane after a training: locked with the place of its next marker and its number, or failed. -/
def trainedLane (x : LaneRx) (ok : Bool) (mark : Nat × Fin 8) : LaneRx :=
  { x with locked := ok, failed := !ok, misses := 0, cands := [], due := if ok then mark.1 else 0, number := mark.2.val }

/-- Retraining ends: the lanes that locked give the width, and a port that has narrowed stays narrow (R305). -/
def execRetrainComplete (n : PortId) (x : Training) (s : State) : Out :=
  let p := s.port n
  if !p.retraining ∨ !s.pierOn (pierOf n) then .next s
  else
    let q : Port := { p with
      retraining := false, lastAck := s.now, beatIn := s.now, nakked := false
      resend := p.replay.map (·.1)
      lanes := Vector.ofFn (fun i => trainedLane p.lanes[i.val] (x.locks.getLsbD i.val) (nth (0, 0) x.marks i.val)) }
    if s.isEth n then .next (s.onPort n (fun _ => ethLinks q))
    else
      let q := { q with narrowed := q.narrowed || !(q.half 0 && q.half 4) }
      let w := lockedWidth q
      let s := s.onPort n (fun _ => { q with width := w })
      .next (if w = 3 ∨ w = p.width then s.reflow else s.holdFlows n (w == 0))

/-- Completes with a code every operation sent to a module (R308, R314). -/
def State.failOps (s : State) (dst : Nat) (fb : Bool) (code : Code) : State :=
  (s.sentOps.filter (fun o => o.dst == dst && o.fabricB == fb)).foldl (fun t o =>
    let t := { t with sentOps := t.sentOps.filter (fun x => x.id != o.id) }
    match o.coll with
    | none => t.finish o.owner code
    | some g => match t.groupOf g.1, t.collOf g.1 with
      | some x, some r => t.collEnd g.1 x r code true
      | _, _ => t) s

/-- A held flow whose flits are all acknowledged takes the port it has now; with no way its operations end (R309, R308). -/
def execFlowRecompute (src dst : Nat) (vc : Fin 8) (s : State) : Out :=
  let key := (src, dst, vc.val)
  match s.heldFlows.find? (fun h => h.1 == key) with
  | none => .next s
  | some h =>
    let waits := match s.flows.find? (fun f => f.1 == key) with
      | some f => (s.port f.2).replay.any (fun r => r.2.flow == key)
      | none => false
    if waits then .next s
    else
      let t := { s with heldFlows := s.heldFlows.filter (fun h => h.1 != key), flows := s.flows.filter (fun f => f.1 != key) }
      match s.flowPort src dst with
      | .error e => .next (if src = s.dev then t.failOps dst s.fabricB e else t)
      | .ok n => .next { t.onPort n (fun p => { p with txq := p.txq ++ h.2 }) with flows := t.flows ++ [(key, n)] }

/-- A ROUTE 1 flit that has waited 2 us and has no way now goes on by VC 7 in dimension order; `n` is the port it takes
(R310). -/
def execAdaptiveEscape (n : PortId) (s : State) : Out :=
  let stuck (f : TxFlit) : Bool :=
    decide (f.since + 2000 ≤ s.now) && (s.bestPort f).isNone && (s.flowPort f.src f.dst).toOption == some n
  match s.adaptQ.find? stuck with
  | none => .next s
  | some f => .next { s.onPort n (fun p => { p with txq := p.txq ++ [{ f with vc := 7, adaptive := false }] }) with
      adaptQ := s.adaptQ.erase f }

/-! ## The link protocol: sending (R302-R304) -/

/-- The partition that owns a flit slot (18 R399): shares in ascending partition number, the rest partition 0. -/
def State.slotOwner (s : State) (k : Nat) : PartId :=
  let shares := (List.range 16).map (fun i =>
    let p : PartId := Fin.ofNat 17 (i + 1)
    (p, if (s.partOf p).live then (match (s.partOf p).spec with | some x => x.links | none => 0) else 0))
  ((shares.flatMap (fun e => List.replicate e.2 e.1))[k]?).getD 0

def State.lends (s : State) (p : PartId) : Bool :=
  match (s.partOf p).spec with
  | some x => (s.partOf p).live && x.lend
  | none => false

/-- What a port may send: its queue, then the ROUTE 1 flits whose best port it is now (R310). -/
def State.offers (s : State) (n : PortId) : List TxFlit :=
  (s.port n).txq ++ s.adaptQ.filter (fun f => s.bestPort f == some n)

/-- The first flit offered on a VC that has a credit. -/
def Port.first (p : Port) (l : List TxFlit) (v : Fin 8) : Option TxFlit :=
  if p.credit[v.val] = 0 then none else l.find? (fun f => f.vc == v)

/-- The data channels of one partition: VC 1, then the round robin over 0, 2, 3, 5 and 7 (R304). Answers the flit and the
next place of the round robin. -/
def Port.pick (p : Port) (l : List TxFlit) (part : PartId) : Option (TxFlit × Nat) :=
  let mine := l.filter (fun f => f.part == part)
  match p.first mine 1 with
  | some f => some (f, p.rr)
  | none =>
    let ring : List (Fin 8) := [0, 2, 3, 5, 7]
    (List.range 5).findSome? (fun i =>
      let k := (p.rr + i) % 5
      (p.first mine (nth 0 ring k)).map (fun f => (f, (k + 1) % 5)))

/-- The flit a port sends now, and its round robin after it; `slot` says whether a data slot was used. -/
def State.chooseFlit (s : State) (n : PortId) : Option (TxFlit × Nat) × Bool :=
  let p := s.port n
  let l := s.offers n
  match p.first l 4, p.first l 6 with
  | some f, _ => (some (f, p.rr), false)
  | none, some f => (some (f, p.rr), false)
  | none, none =>
    if s.portDom n = .gated then (none, false) -- low power: VC 4 and VC 6 only (17 R377)
    else
    let own := s.slotOwner p.slot
    match p.pick l own with
    | some r => (some r, true)
    | none =>
      if s.lends own then (((List.range 17).map (Fin.ofNat 17)).findSome? (fun q => p.pick l q), true) else (none, true)

/-- Bytes 251:0 of a flit (R302). -/
def flitBody (f : Flit) : List Byte :=
  leBytes 2 (f.seq.toNat + 4096 * f.ftype.toNat) ++ leBytes 2 (f.ack.toNat + 4096 * f.vc.toNat + 32768 * b2n f.first)
    ++ leBytes 2 f.cred.toNat ++ leBytes 2 f.len.toNat ++ f.payload

/-- The VC whose credits the next flit returns. -/
def Port.returns (p : Port) : Fin 8 := Config.returnVc p.owed.toList

/-- A flit as it leaves (R302): its type and number, the next number expected from the partner, a return of credits, and the
payload of a data or control flit. -/
def Port.flit (p : Port) (type seq : Nat) (x : Option TxFlit) : Flit :=
  let bytes := match x with | some f => f.payload | none => []
  let f : Flit := {
    seq := BitVec.ofNat 12 seq, ftype := BitVec.ofNat 4 type, ack := BitVec.ofNat 12 p.rxSeq
    vc := BitVec.ofNat 3 p.returns.val, first := match x with | some f => f.first | none => false
    cred := BitVec.ofNat 16 (min 65535 p.owed[p.returns.val]), len := BitVec.ofNat 16 bytes.length
    payload := bytes ++ (List.range (244 - bytes.length)).map (Config.flitPad bytes), crc := 0 }
  { f with crc := BitVec.ofNat 32 (crc32 (flitBody f)) }

/-- The port with a flit sent: the ack and the credits it carries are owed no more. -/
def Port.sends (p : Port) (type seq : Nat) (x : Option TxFlit) : Port :=
  { p with
    sent := some (p.flit type seq x), ackOwed := false
    owed := vmod p.owed p.returns (fun k => k - min 65535 k) }

/-- The type of a flit without payload: an ack or a credit return where one is owed, else idle (R302). -/
def Port.quietType (p : Port) : Nat := if p.ackOwed then 1 else if p.owed.toList.any (· != 0) then 3 else 5

/-- The number that the next flit without payload bears: that of the next flit with one (log 32). -/
def Port.nextSeq (p : Port) : Nat := p.resend.headD p.txSeq

/-- The type of a flit with payload (R302). -/
def TxFlit.type (f : TxFlit) : Nat := if f.vc = 4 then 4 else 0

/-- A flit handed on by a port goes on through the switch: one for another module by the rules of its route, each hop anew
(R308-R311); one for this module is its message's (MESSAGE). -/
def State.relay (s : State) (bytes : List Byte) (first : Bool) : State :=
  let h := Config.flitHead bytes
  let f : TxFlit := ⟨h.vc, first, bytes, h.src, h.dst, h.adaptive && h.vc != 7, s.now, h.part⟩
  if h.dst = s.dev ∨ h.dst ∉ s.net.members then s
  else if f.adaptive then { s with adaptQ := s.adaptQ ++ [f] }
  else match s.enqueue h.src h.dst h.vc [f] with
    | .ok t => t
    | .error _ => s

/-- The switch takes what a port has handed on, and its buffer space goes back to the partner as credits (R304). -/
def State.drainRx (s : State) (n : PortId) : State :=
  let l := (s.port n).rxq
  let t := s.onPort n (fun p => { p with rxq := [], owed := l.foldl (fun v x => vmod v x.2.2 (· + 1)) p.owed })
  l.foldl (fun u x => u.relay x.2.1 x.1) t

/-- The next flit of a port: a nak that is owed, a replay, a new flit by priority and credit, or a flit without payload
(R303, R304). -/
def flitSendAt (n : PortId) (s : State) : Out :=
  if !s.portLive n ∨ (s.port n).retraining then .next s
  else
    let s := s.drainRx n
    let p := s.port n
    if p.nakOwed then .next (s.onPort n (fun p => { p with nakOwed := false, nakked := true }.sends 2 p.nextSeq none))
    else match p.resend with
      | k :: rest =>
        let f := (p.replay.find? (fun r => r.1 == k)).map (·.2)
        .next (s.onPort n (fun p => { p with resend := rest }.sends (match f with | some x => x.type | none => 5) k f))
      | [] =>
        if 1024 ≤ p.replay.length then .next (s.onPort n (fun p => p.sends p.quietType p.nextSeq none))
        else
          let (f, slot) := s.chooseFlit n
          let s := s.onPort n (fun p => if slot then { p with slot := (p.slot + 1) % 64 } else p)
          match f with
          | none => .next (s.onPort n (fun p => p.sends p.quietType p.nextSeq none))
          | some (f, rr) =>
            let own := p.txq.contains f
            .next { s.onPort n (fun p => { p with
                txq := p.txq.erase f, rr, credit := vmod p.credit f.vc (· - 1)
                lastAck := if p.replay.isEmpty then s.now else p.lastAck
                replay := p.replay ++ [(p.txSeq, f)], txSeq := (p.txSeq + 1) % 4096 }.sends f.type p.txSeq (some f)) with
              adaptQ := if own then s.adaptQ else s.adaptQ.erase f }

def execFlitSend (n : PortId) (s : State) : Out := asPier (pierOf n) (flitSendAt n) s

/-! ## The link protocol: receiving (R302-R305) -/

def flitCrcOk (f : Flit) : Bool := crc32 (flitBody f) == f.crc.toNat

/-- What every good flit carries besides: an ack and a credit return (R302-R304). -/
def takeAck (now : Nat) (f : Flit) (p : Port) : Port :=
  let kept : List (Nat × TxFlit) :=
    if p.txSeq = f.ack.toNat then []
    else if p.replay.any (fun r => r.1 == f.ack.toNat) then p.replay.dropWhile (fun r => r.1 != f.ack.toNat) else p.replay
  { p with
    replay := kept, resend := p.resend.filter (fun k => kept.any (fun r => r.1 == k))
    lastAck := if kept.length < p.replay.length ∨ kept.isEmpty then now else p.lastAck
    credit := vmod p.credit (Fin.ofNat 8 f.vc.toNat) (· + f.cred.toNat) }

/-- A flit is discarded, and every later one until the number expected comes; the partner is told once (R303). -/
def refuseFlit (p : Port) : Port := { p with nakOwed := !p.nakked }

/-- Receives a flit. The FEC counts what it met (R324). A flit with a bad CRC or out of sequence is discarded and owes a nak;
one of a type the protocol does not have is discarded (R302, R303). -/
def State.receive (s : State) (n : PortId) (f : Flit) (type : Nat) (take : Port → Port) : Out :=
  if !f.wfAs type then .fault .illFormed
  else if !s.portLive n ∨ (s.port n).retraining then .next s
  else
    let bad := !flitCrcOk f
    .next (s.onPort n (fun p =>
      let p := { p with
        fecCorr := satAdd 16 p.fecCorr (Config.fecCorrected f s.now)
        fecUncorr := satAdd 16 p.fecUncorr (if bad then Config.fecLost f s.now else 0) }
      if bad then refuseFlit p
      else if 5 < f.ftype.toNat then p
      else if f.seq.toNat ≠ p.rxSeq then refuseFlit p
      else take { p with nakked := false, nakOwed := false }))

/-- The VC of a data or control flit. -/
def flitVc (f : Flit) : Fin 8 := if f.ftype = 4 then 4 else (Config.flitHead (f.payload.take f.len.toNat)).vc

/-- Data and control flits pass on in sequence order (R303). -/
def inSequence (now : Nat) (f : Flit) (p : Port) : Port :=
  let bs := f.payload.take f.len.toNat
  let p := takeAck now f p
  let p := { p with rxSeq := (p.rxSeq + 1) % 4096, rxq := p.rxq ++ [(f.first, bs, flitVc f)], ackOwed := true }
  if Config.isHeartbeat bs then { p with beatIn := now, silent := false } else p

/-- In S2 a flit of another VC than 4 and 6 makes the steward raise the module (17 R377). -/
def State.rouses (s : State) (n : PortId) (f : Flit) : Bool :=
  s.portLive n && !(s.port n).retraining && flitCrcOk f && f.ftype == 0 && f.seq.toNat == (s.port n).rxSeq
    && flitVc f != 4 && flitVc f != 6

def execDataFlit (n : PortId) (f : Flit) (s : State) : Out :=
  match s.receive n f 0 (inSequence s.now f) with
  | .next t => .next (if s.rouses n f then t.rouse else t)
  | o => o
def execControlFlit (n : PortId) (f : Flit) (s : State) : Out := s.receive n f 4 (inSequence s.now f)
def execAckFlit (n : PortId) (f : Flit) (s : State) : Out := s.receive n f 1 (takeAck s.now f)
def execCreditFlit (n : PortId) (f : Flit) (s : State) : Out := s.receive n f 3 (takeAck s.now f)
def execIdleFlit (n : PortId) (f : Flit) (s : State) : Out := s.receive n f 5 (takeAck s.now f)

/-- A nak is taken: everything from the number it names goes again, and the replay counts (R303). -/
def takeNak (now : Nat) (f : Flit) (p : Port) : Port :=
  let p := takeAck now f p
  { p with
    resend := p.replay.map (·.1), replays := satInc 16 p.replays
    burst := p.burst.filter (fun t => decide (now < t + 1_000_000)) ++ [now] }

/-- A nak; more than 16 replays in 1 ms retrain the port (R303, R305). -/
def execNakFlit (n : PortId) (f : Flit) (s : State) : Out :=
  match s.receive n f 2 (takeNak s.now f) with
  | .next t => if 16 < (t.port n).burst.length then .next (t.retrain n) else .next t
  | o => o

/-- No ack for 100 us while flits wait (R305). -/
def execAckTimeout (n : PortId) (s : State) : Out :=
  let p := s.port n
  if s.portLive n ∧ !p.retraining ∧ !p.replay.isEmpty ∧ p.lastAck + 100_000 ≤ s.now then .next (s.retrain n) else .next s

/-! ## Messages (R319-R321, 18 R402-R403) -/

/-- Returns to their windows the credits of the lines a message covers (R319, 11 R248). -/
def State.returnCredits (s : State) (part : PartId) (a n : Nat) : State :=
  (linesOf a n).foldl (fun t l =>
    match t.resolveLocal part (l * 64) .write with
    | .ok x => match t.windowAt x with
      | some r => t.release r 1
      | none => t
    | .error _ => t) s

/-- Counters already accepted of a flow: the highest, and those within 64 of it. -/
def Pier.mark (p : Pier) (key : Nat × Nat × Nat) : Option (Nat × List Nat) := (p.marks.find? (fun m => m.1 == key)).map (·.2)

/-- Whether a counter is acceptable (18 R403). -/
def counterOk (m : Option (Nat × List Nat)) (adaptive : Bool) (c : Nat) : Bool :=
  match m with
  | none => true
  | some (hi, seen) => decide (hi < c) || (adaptive && decide (hi ≤ c + 64) && !seen.contains c)

def Pier.setMark (p : Pier) (key : Nat × Nat × Nat) (c : Nat) : Pier :=
  let hi := match p.mark key with | some m => max m.1 c | none => c
  let seen := match p.mark key with | some m => m.2 | none => []
  { p with marks := p.marks.filter (fun m => m.1 != key) ++ [(key, hi, (c :: seen).filter (fun x => decide (hi ≤ x + 64)))] }

/-- A write of another machine may land at an address: in core memory and scratch it must lie in an enabled window (11 R239,
R246). -/
def State.takesRemote (s : State) (x : Nat) : Bool :=
  match s.place x with
  | .cmem _ _ => (s.windowAt x).isSome
  | .scratch _ _ => (s.windowAt x).isSome
  | _ => true

/-- Lands the bytes of a message or datagram of another machine line by line. -/
def State.landGo (s : State) (part : PartId) : Nat → Nat → List Byte → State × Code
  | 0, _, _ => (s, .done)
  | fuel + 1, a, bs =>
    if bs.isEmpty then (s, .done)
    else
      let k := min bs.length (64 - a % 64)
      match s.resolveLocal part a .write with
      | .error e => (s, e)
      | .ok x =>
        if !s.takesRemote x then (s, .noCredit)
        else match s.store x (bs.take k) with
          | (t, .done) => t.landGo part fuel (a + k) (bs.drop k)
          | r => r

def State.land (s : State) (part : PartId) (a : Nat) (bs : List Byte) : State × Code := s.landGo part (bs.length / 64 + 2) a bs

/-- The core whose placement epoch a message meets: the owner of the core memory it writes, else the core it names. -/
def State.msgCore (s : State) (m : Msg) : CoreId :=
  match s.resolveLocal m.part m.addr.toNat .write with
  | .ok x => match s.place x with
    | .cmem c _ => c
    | _ => m.core
  | .error _ => m.core

/-- The bytes of a message spent credits of its sender (11 R248). -/
def spends : MsgKind → Bool
  | .write | .stream | .chunk => true
  | _ => false

/-- A message carries data, tagged with its sender's epoch (10 R227). -/
def tagged : MsgKind → Bool
  | .write | .stream | .chunk | .atomic _ _ => true
  | _ => false

/-- A message is discarded whole: its credits return and its sender is told (R319). -/
def State.dropMsg (s : State) (pier : PierId) (m : Msg) (code : Code) : State :=
  let t := s.onPier pier (fun p => { p with msgs := p.msgs.filter (fun e => e.src != m.src || e.op != m.op) })
  (if spends m.kind then t.returnCredits m.part (m.addr.toNat % 2 ^ 49) m.len else t).notice m.src m.op code

/-- The answer to a message on VC 1: DONE with its data, or a notice of the code (R304). -/
def State.answerTo (s : State) (m : Msg) (data : List Byte) : Code → State
  | .done => match s.sendMsg m.src m.fabricB 1 m.part false m.op none data with
    | .ok t => t
    | .error _ => s
  | e => s.notice m.src m.op e

/-- A load or an atomic of another module at its target (09 R198-R199, R206). -/
def State.serveAccess (s : State) (m : Msg) (kind : AccKind) (w : Nat) (plain : List Byte) : State :=
  match s.resolveLocal m.part (m.addr.toNat % 2 ^ 49) (if kind = .load then .read else .write) with
  | .error e => s.answerTo m [] e
  | .ok x =>
    if kind = .load then
      match s.readLine (x / 64) with
      | (t, .done) => t.answerTo m (t.rd x w) .done
      | (t, e) => t.answerTo m [] e
    else if !s.takesRemote x then s.answerTo m [] .noCredit
    else match s.atomicHere kind w x (BitVec.ofNat 64 (fieldAt plain 0 8)) (BitVec.ofNat 64 (fieldAt plain 8 8)) with
      | (t, .ok v) => t.answerTo m (leBytes w v.toNat) .done
      | (t, .error e) => t.answerTo m [] e

/-- What a whole message of good origin does. What a collective chunk carries is the collective engine's (COLLECTIVE_CHUNK),
and the layouts of requests and answers are not given (log 32). -/
def State.serveMsg (s : State) (m : Msg) (plain : List Byte) : State :=
  let a := m.addr.toNat % 2 ^ 49
  match m.kind with
  | .chunk => s
  | .load w => s.serveAccess m .load w plain
  | .atomic k w => s.serveAccess m k w plain
  | .credReq units back gen full =>
    let (t, e, g) := s.credReqFor m.part a units back gen full
    t.answerTo m (match g with | some g => leBytes 8 g.base ++ leBytes 8 g.size ++ leBytes 4 g.gen | none => []) e
  | _ =>
    let (t, e) := s.land m.part a plain
    t.answerTo m [] e

/-- A message at its destination pier. The epoch of data comes first (R227), then R321, then with the last flit the tag and
counter of 18 R403, then what it does. -/
def messageAt (m : Msg) (s : State) : Out :=
  let p := s.pier m.pier
  let isOpen := p.msgs.any (fun e => e.src == m.src && e.op == m.op)
  let key := (m.src + 16384 * b2n m.fabricB, m.dst, m.vc.val)
  let c := s.msgCore m
  if tagged m.kind ∧ m.epoch ≠ (s.core c).seq.epoch then .next ((s.countStale c).dropMsg m.pier m .staleEpoch)
  else if !m.first ∧ !isOpen then .next (s.onPier m.pier (fun p => { p with late := satInc 32 p.late }))
  else if !m.last then .next (s.onPier m.pier (fun p => { p with
    msgs := p.msgs.filter (fun e => e.src != m.src || e.op != m.op) ++ [⟨m.src, m.op, m.part, m.addr, m.len, s.now⟩] }))
  else match Config.gcmOpen (s.fabricKey m.part) (gcmNonce m.src m.fabricB m.part m.counter.toNat) m.aad m.data m.tag,
      counterOk (p.mark key) m.adaptive m.counter.toNat with
    | some plain, true =>
      .next ((s.onPier m.pier (fun p =>
        { p with msgs := p.msgs.filter (fun e => e.src != m.src || e.op != m.op) }.setMark key m.counter.toNat)).serveMsg m plain)
    | _, _ =>
      let t := s.onPier m.pier (fun p => { p with abort := satInc 32 p.abort })
      .next ({ t with sec := { t.sec with tagfail := satInc 32 t.sec.tagfail } }.dropMsg m.pier m .incomplete)

def execMessage (m : Msg) (s : State) : Out :=
  if !s.pierOn m.pier ∨ m.dst ≠ s.dev then .next s else asPier m.pier (messageAt m) s

/-- The stall timeout of a pier in ns (R319, R325). -/
def Pier.stallNs (p : Pier) : Nat := p.stallMs * 1_000_000

/-- An ingest session's name among the sources of stalled messages. -/
def sessionName (sid : Nat) : Nat := 2 ^ 32 + sid

/-- The stall timer of a partial message expires (R319); `src` is a device number, or names an ingest session. -/
def execStallTimeout (src op : Nat) (s : State) : Out :=
  let hit : Option (PierId × OpenMsg) := ([0, 1] : List PierId).findSome? (fun i =>
    ((s.pier i).msgs.find? (fun e => e.src == src && e.op == op && decide (e.at_ + (s.pier i).stallNs ≤ s.now))).map (fun e => (i, e)))
  match hit with
  | some (i, e) =>
    let t := s.onPier i (fun p => { p with msgs := p.msgs.erase e, abort := satInc 32 p.abort })
    .next ((t.returnCredits e.part (e.addr.toNat % 2 ^ 49) e.len).notice src op .incomplete)
  | none =>
    let ing : Option (PierId × Session) := ([0, 1] : List PierId).findSome? (fun i =>
      ((s.pier i).sessions.find? (fun x => sessionName x.sid == src &&
        x.msgs.any (fun m => m.1 == op && decide (m.2.2.2 + (s.pier i).stallNs ≤ s.now)))).map (fun x => (i, x)))
    match ing with
    | none => .next s
    | some (i, x) =>
      let len := match x.msgs.find? (fun m => m.1 == op) with | some m => m.2.1 | none => 0
      let t := s.onPier i (fun p => { p with
        abort := satInc 32 p.abort
        sessions := p.sessions.map (fun y => if y.sid = x.sid then { y with msgs := y.msgs.filter (fun m => m.1 != op) } else y) })
      let u := t.returnCredits 0 (Config.ingestAddr x.sid op) len
      .next { u with notices := u.notices ++ [(src, op, .incomplete)] }

/-- The pier whose stall timeout an operation of this module runs under: that of its flow's port. -/
def State.opPier (s : State) (o : SentOp) : PierId :=
  match s.flows.find? (fun f => f.1.1 == s.dev && f.1.2.1 == o.dst) with
  | some f => pierOf f.2
  | none => 0

/-- Ends an operation of this module; a collective chunk ends its collective (15 R342). -/
def State.endOp (s : State) (o : SentOp) (code : Code) : State :=
  let t := { s with sentOps := s.sentOps.filter (fun x => x.id != o.id) }
  match o.coll with
  | none => t.finish o.owner code
  | some g => match t.groupOf g.1, t.collOf g.1 with
    | some x, some r => t.collEnd g.1 x r code true
    | _, _ => t

/-- A core's entries without that of the window of another module that holds an address. -/
def State.dropCredit (s : State) (c : CoreId) (d : Nat) (fb : Bool) (a : Nat) : State :=
  s.onCore c (fun k => { k with credits := k.credits.filter (fun e => !e.covers d fb a 1) })

/-- A sender whose operation is neither acknowledged nor aborted within twice the stall timeout ends it (R320). -/
def execSenderTimeout (op : Nat) (s : State) : Out :=
  match s.sentOps.find? (fun o => o.id == op) with
  | some o =>
    if o.at_ + 2 * (s.pier (s.opPier o)).stallNs ≤ s.now then
      let t := match o.credit with
        | some (c, a, _) => s.dropCredit c o.dst o.fabricB a
        | none => s
      .next (t.endOp o .incomplete)
    else .next s
  | none => .next s

/-- A remote cred.req is granted: its entry is made, or taken over for a new generation (11 R247). -/
def State.takeGrant (s : State) (c : CoreId) (o : SentOp) (a n : Nat) (g : Grant) : State :=
  let w : WinRef := .remote o.dst o.fabricB g.base g.size
  let old := (s.core c).credits.find? (fun e => e.covers o.dst o.fabricB a 1)
  let keep := match old with | some e => if e.gen = g.gen then e.bytes else 0 | none => 0
  (s.dropCredit c o.dst o.fabricB a).onCore c (fun k => { k with credits := k.credits ++ [⟨w, g.gen, keep + n⟩] })

/-- A notice from the other end: DONE is an acknowledgement and, for a cred.req, the grant (log 27); a collective is named
by its number (log 43). -/
def execAbortNotice (op : Nat) (x : Notice) (s : State) : Out :=
  if 2 ^ 32 ≤ op then
    let g := op % 256
    match s.groupOf g, s.collOf g with
    | some y, some r => if collOp g r.num = op ∧ x.code ≠ .done then .next (s.collEnd g y r x.code false) else .next s
    | _, _ => .next s
  else match s.sentOps.find? (fun o => o.id == op) with
    | none => .next s
    | some o =>
      if x.code = .done then
        let t := { s with sentOps := s.sentOps.filter (fun y => y.id != op) }
        match o.credit, o.coll with
        | some (c, a, n), _ =>
          if n = 0 then .next ((t.dropCredit c o.dst o.fabricB a).finish o.owner .done)
          else match x.grant with
            | some g => .next ((t.takeGrant c o a n g).finish o.owner .done)
            | none => .next (t.finish o.owner .incomplete)
        | none, some g => .next (t.chunkBack g.1)
        | none, none => .next (t.finish o.owner .done)
      else .next (s.endOp o x.code)

/-! ## Membership and routes (R308, R313-R315) -/

/-- The direction of dimension order: the first dimension that differs, the shorter way, a tie to + (R308). -/
def dimOrder (a b : Nat) : Option Nat := (shortening a b).head?

/-- The modules between two others in dimension order. -/
def between : Nat → Nat → Nat → List Nat
  | 0, _, _ => []
  | n + 1, a, b => match dimOrder a b with
    | none => []
    | some d => if stepDir a d = b then [] else stepDir a d :: between n (stepDir a d) b

/-- A route table entry (R308): a direction, LOCAL (8), or none. -/
def routeTo (members : List Nat) (a b : Nat) : Option Nat :=
  if a = b then some 8
  else match dimOrder a b with
    | none => none
    | some d =>
      if (between 40 a b).all members.contains then some d
      else ((List.range 4).filter (fun i => i != d / 2)).findSome? (fun i =>
        if members.contains (stepDir a (2 * i)) then some (2 * i) else none)

/-- A module of this fabric left: what waits for it is discarded and ends with UNREACHABLE, and its windows' credits are freed
(R314, 11 R248, 15 R342). The ports of the other fabric keep what goes to a module of its number there. -/
def State.departed (s : State) (d : Nat) : State :=
  let clearPier (p : Pier) : Pier := { p with ports := Vector.ofFn (fun (i : Fin 26) =>
    let q := p.ports[i.val]
    if i.val < 24 then { q with txq := q.txq.filter (fun f => f.dst != d) } else q) }
  let keep (e : Credit) : Bool := match e.win with
    | .remote x fb _ _ => x != d || fb != s.fabricB
    | _ => true
  let t : State := { s with
    piers := s.piers.map clearPier
    adaptQ := s.adaptQ.filter (fun f => f.dst != d)
    heldFlows := s.heldFlows.filter (fun h => h.1.2.1 != d)
    flows := s.flows.filter (fun f => f.1.2.1 != d)
    cores := s.cores.map (fun k => { k with credits := k.credits.filter keep }) }
  let t := t.collRuns.foldl (fun u r =>
    match u.groupOf r.1, u.collOf r.1 with
    | some x, some run => if x.members.any (fun m => m.dev == d && m.fabricB == s.fabricB) then u.collEnd r.1 x run .unreachable false else u
    | _, _ => u) t
  t.failOps d s.fabricB .unreachable

/-- The twin left: credits on its windows are freed, and what was sent to it ends (R314, 15 R342). -/
def State.twinGone (s : State) : State :=
  let keep (e : Credit) : Bool := match e.win with
    | .remote _ fb _ _ => fb == s.fabricB
    | _ => true
  let t : State := { s with cores := s.cores.map (fun k => { k with credits := k.credits.filter keep }) }
  let t := t.collRuns.foldl (fun u r =>
    match u.groupOf r.1, u.collOf r.1 with
    | some x, some run => if x.members.any (fun m => m.dev == s.dev && m.fabricB != s.fabricB) then u.collEnd r.1 x run .unreachable false else u
    | _, _ => u) t
  t.failOps s.dev (!s.fabricB) .unreachable

/-- The steward rewrites the route table of each pier (R308). -/
def State.onRoutes (s : State) (f : Tab (Option Nat) → Tab (Option Nat)) : State :=
  { s with piers := s.piers.map (fun p => { p with routes := f p.routes }) }

/-- Tables change all at once: a flow routed another way takes its new port with its next flit (R314). -/
def State.reroute (s : State) (f : State → State) : State :=
  let t := f s
  { t with flows := t.flows.filter (fun x => t.route x.1.2.1 == s.route x.1.2.1) }

/-- A new membership takes effect with its route tables (R308, R314). -/
def State.setMembers (s : State) (version : Nat) (names : List Nat) (coordinator standby : Option Nat) : State :=
  let members := names.filter (fun n => decide (n < 12288))
  let twin := names.contains (twinName s.dev)
  let gone := s.net.members.filter (fun d => !members.contains d && d != s.dev)
  let t : State := { s with net := { version, members, coordinator, standby, twin } }
  let t := t.reroute (fun u => u.onRoutes (fun _ => members.foldl (fun r d => Tab.set none r d (routeTo members s.dev d)) []))
  let t := gone.foldl State.departed t
  if s.net.twin && !twin then t.twinGone else t

/-- Who holds the roles after a change, by R315. -/
def nextRoles (n : Membership) (members : List Nat) : Option Nat × Option Nat :=
  let low (f : Nat → Bool) : Option Nat := members.filter f |>.min?
  let holds (r : Option Nat) : Bool := match r with | some d => members.contains d | none => false
  if holds n.coordinator then
    (n.coordinator, if holds n.standby then n.standby else low (fun d => some d != n.coordinator))
  else if holds n.standby then (n.standby, low (fun d => some d != n.standby))
  else
    let c := low (fun _ => true)
    (c, low (fun d => some d != c))

/-- The coordinator, or who takes over from it, applies the changes that may be made and sends the membership to every steward
(R313-R315). -/
def execMembershipChange (leaves : List Leave) (joins : List Join) (s : State) : Out :=
  let names := s.net.members ++ (if s.net.twin then [twinName s.dev] else [])
  let gone := (leaves.filter (s.mayLeave (leaves.map (·.dev)))).map (·.dev)
  let come := (joins.filter s.mayJoin).map (·.dev)
  let kept := names.filter (fun d => !gone.contains d)
  let next := (kept ++ come.filter (fun d => !kept.contains d && (decide (d < 12288) || d == twinName s.dev))).mergeSort (· ≤ ·)
  let old := kept.filter (fun d => decide (d < 12288))
  let roles := nextRoles s.net old
  if roles.1 ≠ some s.dev ∨ s.boot.mode ≠ .running ∨ next = names then .next s
  else
    let t := s.setMembers ((s.net.version + 1) % 2 ^ 32) next roles.1 roles.2
    .next ((t.net.members.filter (· != s.dev)).foldl (fun u d =>
      { u.trySend d u.fabricB 6 u.nextOp (Config.membershipData t.net.version next t.net.coordinator t.net.standby) with
        nextOp := u.nextOp + 1 }) t)

/-- A steward receives a membership newer than its own. -/
def execMembership (version : Nat) (members : List Nat) (coordinator standby : Option Nat) (s : State) : Out :=
  if s.net.version < version ∧ version < 2 ^ 32 ∧ s.boot.mode = .running then
    .next (s.setMembers version members coordinator standby)
  else .next s

def isTorus (n : PortId) : Bool := decide (n.val % 26 < 24)

/-- A heartbeat leaves on VC 6 of each live torus port every 1 ms (R313). -/
def execHeartbeat (n : PortId) (s : State) : Out :=
  let p := s.port n
  if s.portLive n ∧ isTorus n ∧ p.beatOut + 1_000_000 ≤ s.now then
    let fs := flitsOf s.now s.dev s.dev 6 0 false (s.sealMsg 0 (Config.msgHeader s.nextOp none))
    let s := s.onPart 0 (fun p => { p with counter := p.counter + 1 })
    .next { s.onPort n (fun p => { p with txq := p.txq ++ fs, beatOut := s.now }) with nextOp := s.nextOp + 1 }
  else .next s

def execHeartbeatSilence (n : PortId) (s : State) : Out :=
  let p := s.port n
  if s.pierOn (pierOf n) ∧ p.en ∧ isTorus n ∧ p.beatIn + 10_000_000 ≤ s.now then
    .next (s.onPort n (fun p => { p with silent := true }))
  else .next s

/-! ## Ingest (R316-R318, R321) -/

def ingestPort (c : CfgImage) : BitVec 16 := if c.udpPort = 0 then 4710 else c.udpPort

/-- Whether a datagram's number is new (R318). -/
def seqOk (x : Session) (n : Nat) : Bool := decide (x.highest ≤ n + 4096) && !x.seen.contains n

/-- Bytes 23:0 of a datagram. -/
def ingestAad (sid : BitVec 32) (seq : BitVec 64) (msg off total : BitVec 32) : List Byte :=
  leBytes 4 sid.toNat ++ leBytes 8 seq.toNat ++ leBytes 4 msg.toNat ++ leBytes 4 off.toNat ++ leBytes 4 total.toNat

def State.onSession (s : State) (i : PierId) (sid : Nat) (f : Session → Session) : State :=
  s.onPier i (fun p => { p with sessions := p.sessions.map (fun x => if x.sid = sid then f x else x) })

def State.closeSession (s : State) (sid : Nat) : State :=
  { s with piers := s.piers.map (fun p => { p with sessions := p.sessions.filter (fun x => x.sid != sid) }) }

/-- A verified datagram: its message is open, new, or late (R321); its data land where the message's window is (log 45). -/
def State.takeDatagram (s : State) (i : PierId) (x : Session) (seq msg off total : Nat) (data : List Byte) : State :=
  let s := s.onSession i x.sid (fun y =>
    let hi := max y.highest seq
    { y with highest := hi, seen := (seq :: y.seen).filter (fun n => decide (hi ≤ n + 4096)) })
  let isNew : Bool := match x.newest with | some m => decide (m < msg) | none => true
  let old := x.msgs.find? (fun m => m.1 == msg)
  let s := if old.isNone ∧ !isNew then s.onPier i (fun p => { p with late := satInc 32 p.late })
    else
      let had := match old with | some m => m.2.2.1 | none => 0
      let (t, code) := s.land 0 (Config.ingestAddr x.sid msg + off) data
      let done := had + (if code = .done then data.length else 0)
      t.onSession i x.sid (fun y => { y with
        newest := if isNew then some msg else y.newest
        msgs := y.msgs.filter (fun m => m.1 != msg) ++ (if total ≤ done then [] else [(msg, total, done, s.now)]) })
  if seq = 2 ^ 64 - 1 then s.closeSession x.sid else s

/-- An Ethernet frame at a link that is up (R316, R318). -/
def execEthernetFrame (n : PortId) (link : Fin 2) (f : EthFrame) (s : State) : Out :=
  let up := if link = 0 then (s.port n).links.1 else (s.port n).links.2
  let i := pierOf n
  let drop : Out := .next (s.onPier i (fun p => { p with drop := satInc 32 p.drop }))
  match s.boot.cfg with
  | none => .next s
  | some c =>
    if !s.isEth n ∨ !(s.port n).en ∨ !s.pierOn i ∨ !up ∨ 9216 < f.bytes then .next s
    else match f.body with
      | .arp a => .next (if c.ingestV4.contains a then s.onPier i (fun p => { p with answered := p.answered + 1 }) else s)
      | .ndp a => .next (if c.ingestV6.contains a then s.onPier i (fun p => { p with answered := p.answered + 1 }) else s)
      | .other => .next s
      | .ingest addrOk port sid seq msg off total cipher tag =>
        if !addrOk ∨ port ≠ ingestPort c then .next s
        else match (s.pier i).sessions.find? (fun x => x.sid == sid.toNat) with
          | none => drop
          | some x =>
            match Config.gcmOpen x.keyIn (x.saltIn ++ leBytes 8 seq.toNat) (ingestAad sid seq msg off total) cipher tag with
            | none => drop
            | some data =>
              if seqOk x seq.toNat then .next (s.takeDatagram i x seq.toNat msg.toNat off.toNat total.toNat data).rouse else drop

/-- A session ID that no session has, from a free one upward (R317). -/
def State.newSid (s : State) : Nat :=
  let used := ([0, 1] : List PierId).flatMap (fun i => (s.pier i).sessions.map (·.sid))
  let at_ (i : Nat) : Nat := ((Config.freeWord s.free).toNat + i) % 2 ^ 32
  ((List.range 4097).map at_).find? (fun n => !used.contains n) |>.getD (at_ 0)

/-- The active steward conducts a handshake (R317): the client's certificate must stand in its job's trust list (18 R396), and a
4,097th session is refused with a TLS alert. The handshake draws from the DRBG (08 R184); while that can give nothing no
session opens (08 R185). -/
def execTlsHandshake (n : PortId) (job : Nat) (cert : List Byte) (s : State) : Out :=
  let count := (s.pier 0).sessions.length + (s.pier 1).sessions.length
  let trusted := s.jobs.any (fun j => j.spec.id == job && j.spec.trust.contains cert)
  if !s.isEth n ∨ !s.pierOn (pierOf n) ∨ s.boot.mode ≠ .running ∨ s.sec.locked then .next s
  else if 4096 ≤ count ∨ !trusted then .next (s.onPier (pierOf n) (fun p => { p with alerts := p.alerts + 1 }))
  else
    let due := decide (1_048_576 ≤ s.sec.drbgCount)
    if due ∧ s.sec.retest.isSome then .next s
    else
      let (s, _) := s.drbgTake 1 due
      let k := Config.tlsExport s.free
      let sid := s.newSid
      let t := { s with free := s.free + 1 }
      .next (t.onPier (pierOf n) (fun p => { p with
        sessions := p.sessions ++ [⟨sid, job, n, k.take 32, (k.drop 32).take 4, (k.drop 36).take 32, k.drop 68, 0, [], [], none⟩] }))

/-- The steward closes a session; its key goes with it (R318). -/
def execSessionClose (sid : BitVec 32) (s : State) : Out := .next (s.closeSession sid.toNat)

end Sys2Proof.Machine
end

