-- ==== Sys2Proof/Machine/Pair.lean ====
section
/-! DEFINITION. The redundant pair (15 R345-R347): forwarding in standby, the comparator in mirror. -/

namespace Sys2Proof.Machine

/-- A region of the image: first byte and length. -/
def inRegion (r : Nat × Nat) (a : Nat) : Bool := decide (r.1 ≤ a ∧ a < r.1 + r.2)

def State.inCkpt (s : State) (a : Nat) : Bool := match s.boot.cfg with | some c => inRegion c.ckptRegion a | none => false
def State.inState (s : State) (a : Nat) : Bool := match s.boot.cfg with | some c => inRegion c.stateRegion a | none => false

/-- The pier of the lowest-numbered PAIR port that is up: where the comparator is. -/
def State.pairPier (s : State) : Option PierId := (sidePorts.find? s.portLive).map pierOf

/-- The pair mode in force: the images write both piers alike. -/
def State.pairMode (s : State) : Nat := (s.pier 0).coll.pairMode

def State.onColl (s : State) (p : PierId) (f : Coll → Coll) : State := s.onPier p (fun k => { k with coll := f k.coll })

/-- In standby a line written into the state or checkpoint region of a fabric A module is forwarded over the PAIR port; at
its fabric B twin the forwarded line is written at the same local address (R345). -/
def execForwardedWrite (addr : Nat) (data : List Byte) (s : State) : Out :=
  if data.length ≠ 64 then .fault .illFormed
  else if s.pairMode ≠ 1 ∨ !(s.inCkpt addr || s.inState addr) ∨ !s.net.twin then .next s
  else if s.fabricB then .next (s.store addr data).1.rouse
  else match s.sendMsg s.dev true 0 0 false s.nextOp none (leBytes 8 addr ++ data) with
    | .error _ => .next s
    | .ok t => .next { t with nextOp := t.nextOp + 1 }

/-- The line commits on both twins; a datagram of egress is only sent on (R346). -/
def State.commitPair (s : State) (addr : Nat) (data : List Byte) : State :=
  if s.inCkpt addr then
    let t := (s.store addr data).1
    match t.sendMsg t.dev (!t.fabricB) 0 0 false t.nextOp none (leBytes 8 addr ++ data) with
    | .error _ => t
    | .ok u => { u with nextOp := u.nextOp + 1 }
  else s

/-- DIVERGE (R346): counted, SUSPECT set and logged with the checkpoint number, reported on both modules, and fabric A's
bits, if they have come, commit. -/
def State.diverge (s : State) (p : PierId) (addr : Nat) (a : Option (List Byte)) : State :=
  let t := s.onColl p (fun c => { c with diverge := satInc 32 c.diverge, suspect := true })
  let t := (t.report .diverge).addLog (.suspect (s.pier p).coll.ckptNo)
  let t := { t.trySend t.dev (!t.fabricB) 4 addr (leBytes 2 (codeVal .diverge)) with
    notices := t.notices ++ [(twinName t.dev, addr, .diverge)] }
  match a with
  | some bs => t.commitPair addr bs
  | none => t

/-- A write of one side meets the comparator of the fabric A module; none: the holding is full and it cannot go on (R346). -/
def State.pairMeet (s : State) (p : PierId) (side : PairSide) (addr : Nat) (data : List Byte) : Option State :=
  let c := (s.pier p).coll
  if c.missed.contains (side, addr) then
    -- Its partner's wait has ended and DIVERGE is raised: of the two, fabric A's bits are the ones written.
    let t := s.onColl p (fun c => { c with missed := c.missed.erase (side, addr) })
    some (if side = .a then t.commitPair addr data else t)
  else match c.held.find? (fun l => l.addr == addr && l.side != side) with
    | some l =>
      let t := s.onColl p (fun c => { c with held := c.held.erase l })
      some (if l.data = data then t.commitPair addr data
        else t.diverge p addr (some (if side = .a then data else l.data)))
    | none =>
      if 4096 ≤ c.held.length then none
      else some (s.onColl p (fun c => { c with held := c.held ++ [⟨side, addr, data, s.now⟩] }))

/-- The stalled writes try again, each side's in order: one that stays stalled keeps its side's later ones back. -/
def State.pairPass (s : State) (p : PierId) : State :=
  (s.pier p).coll.stalled.foldl (fun u w =>
    if (u.pier p).coll.stalled.any (fun x => x.side == w.side) then u.onColl p (fun c => { c with stalled := c.stalled ++ [w] })
    else (u.pairMeet p w.side w.addr w.data).getD (u.onColl p (fun c => { c with stalled := c.stalled ++ [w] })))
    (s.onColl p (fun c => { c with stalled := [] }))

/-- The stalled writes go on as far as the holding has room. -/
def State.pairRetry (s : State) (p : PierId) : State := (s.pier p).coll.stalled.foldl (fun u _ => u.pairPass p) s

/-- A write of one side arrives: it meets the comparator, or stalls behind the writes of its side. -/
def State.pairTake (s : State) (p : PierId) (side : PairSide) (addr : Nat) (data : List Byte) : State :=
  let wait : State := s.onColl p (fun c => { c with stalled := c.stalled ++ [⟨side, addr, data, s.now⟩] })
  if (s.pier p).coll.stalled.any (fun x => x.side == side) then wait
  else match s.pairMeet p side addr data with
    | some t => t.pairRetry p
    | none => wait

/-- A write leaving the pair reaches the comparator. Without a twin in the membership the survivor's writes pass and SOLO
is set; a fabric B write passes when the fabric A module has left (R347). -/
def execPairCompare (side : PairSide) (addr : Nat) (data : List Byte) (s : State) : Out :=
  if data.length ≠ 64 then .fault .illFormed
  else if s.fabricB ∨ s.pairMode ≠ 2 then .next s
  else
    let gone := !s.net.members.contains s.dev
    let p := s.pairPier.getD 0
    if !s.net.twin ∨ gone then
      let t := s.onColl p (fun c => { c with solo := true })
      .next (if (side = .a ∧ !gone) ∨ (side = .b ∧ gone) then t.commitPair addr data else t)
    else match s.pairPier with
      | none => .next s
      | some p => .next ((s.onColl p (fun c => { c with solo := false })).pairTake p side addr data)

/-- A held write's partner has not come within PAIR_WAIT (R346). -/
def execPairWaitExpiry (addr : Nat) (s : State) : Out :=
  let hit : Option (PierId × PairLine) := ([0, 1] : List PierId).findSome? (fun p =>
    let c := (s.pier p).coll
    (c.held.find? (fun l => l.addr == addr && decide (l.since + 1000 * c.pairWait ≤ s.now))).map (fun l => (p, l)))
  match hit with
  | none => .next s
  | some (p, l) =>
    let other : PairSide := if l.side = .a then .b else .a
    let t := s.onColl p (fun c => { c with held := c.held.erase l, missed := c.missed ++ [(other, addr)] })
    .next ((t.diverge p addr (if l.side = .a then some l.data else none)).pairRetry p)

end Sys2Proof.Machine
end

