-- ==== Sys2Proof/Machine/Stops.lean ====
section
/-! DEFINITION. Ending commands and clearing parts of the module: what a trip, a shutdown, an alarm, a destroyed partition or
a failed core has in common (01 R24, 11 R245, 17 R384-R385, 18 R408-R409; 00 R10). -/

namespace Sys2Proof.Machine

/-! ## Ending commands -/

def loadOwner (l : LoadCmd) : Owner := l.owner

def xferOwner : Xfer → Owner
  | .preload o _ _ _ _ _ _ _ _ _ _ _ => o
  | .close o _ _ _ _ _ _ _ _ _ => o

def consumerOwner : Consumer → Option Cpl
  | .seed c _ => some c
  | .fill c _ _ => some c
  | .cat c _ _ _ => some c
  | _ => none

/-- The owners of every command a core's engines hold. The inner commands of a nest end with their nest. -/
def coreOwners (k : Core) : List Owner :=
  let a := k.arr
  (a.loads.map (·.owner) ++ a.runs.map (·.owner) ++ a.xfers.map xferOwner ++ (a.pending.toList.map (·.1))
    ++ k.seq.queue.map (·.owner) ++ k.seq.run.toList.map (·.owner) ++ k.mtch.queue.map (fun x => Owner.thread x.1)
    ++ (k.rng.queue ++ k.rng.busy.toList).filterMap (fun c => (consumerOwner c).map Owner.thread)
    ++ k.qnt.queue.map (·.owner) ++ k.qnt.pass.toList.map (·.cmd.owner)
    ++ (k.streams.toList.filter (fun t => t.state != .idle)).flatMap (fun t => t.owner :: t.closers.map Owner.thread)
    ++ k.lay.queue.map (fun x => Owner.thread x.owner) ++ k.lay.run.toList.map (fun x => Owner.thread x.1.owner)
    ++ k.spawns.map (fun r => Owner.thread r.owner)).filter (fun o => match o with | .nest _ => false | _ => true)

/-- A core's engines with no command left; streams that were open show the code. -/
def idleEngines (k : Core) (code : Code) : Core :=
  { k with
    arr := { k.arr with loads := [], runs := [], xfers := [], pipe := [], pending := none }
    seq := { k.seq with queue := [], run := none }
    mtch := { k.mtch with queue := [], sideIn := [], sideOut := 0 }
    rng := { k.rng with queue := [], busy := none }
    qnt := { k.qnt with queue := [], pass := none }
    lay := { k.lay with queue := [], run := none, code := if k.lay.busy then code else k.lay.code }
    spawns := []
    streams := k.streams.map (fun t => if t.state = .idle then t
      else { t with state := .idle, code, owner := .quiet, closers := [], reqs := [], fifo := [], stop := none }) }

/-- Completes with a code every command on a core's engines, its gangs' waits, its collectives and its operations on the
fabric. Commands it gave to an update engine go on there. -/
def State.endCore (s : State) (c : CoreId) (code : Code) : State :=
  let owners := coreOwners (s.core c)
  let t := s.onCore c (fun k => idleEngines k code)
  let t := owners.foldl (fun u o => u.finish o code) t
  let t := (List.range 16).foldl (fun u g => u.endWait c (Fin.ofNat 16 g) code) t
  let mine := t.collIssues.filter (fun e => e.2.core == c)
  let t := mine.foldl (fun u e => u.finish (.thread e.2.owner) code)
    { t with collIssues := t.collIssues.filter (fun e => e.2.core != c) }
  let t := t.collRuns.foldl (fun u r =>
    if r.2.issues.any (fun i => i.core == c) then
      match u.groupOf r.1, u.collOf r.1 with
      | some x, some run => u.collEnd r.1 x run code true
      | _, _ => u
    else u) t
  let ofCore (o : Owner) : Bool := match o with
    | .thread k => k.core == c
    | _ => false
  (t.sentOps.filter (fun o => ofCore o.owner)).foldl (fun u o => u.endOp o code) t

/-- Completes with a code every command on a quarter's update engine. -/
def State.endUpdates (s : State) (q : QuarterId) (code : Code) : State :=
  let u := (s.quarter q).upd
  let owners := u.run.toList.map (·.owner) ++ u.queue.map (·.owner) ++ u.arrivals.map (·.1)
  owners.foldl (fun t o => t.finish o code)
    (s.onQuarter q (fun k => { k with upd := { k.upd with run := none, queue := [], arrivals := [] } }))

/-- Stops every gang of a core; what its commands elsewhere still report has no one to report to. -/
def State.freeGangs (s : State) (c : CoreId) : State :=
  let hush (o : Owner) : Owner := match o with
    | .thread k => if k.core = c then .quiet else o
    | o => o
  let keep (p : Parked) : Bool := match p with
    | .cpl k => k.core != c
    | .access d _ => d != c
    | .wait d _ _ _ => d != c
    | .reply _ _ => true
  { s.onCore c (fun k => { k with gangs := k.gangs.map (fun g => { gfault := g.gfault }) }) with
    parked := s.parked.filter keep
    sentOps := s.sentOps.map (fun o => { o with owner := hush o.owner })
    quarters := s.quarters.map (fun q => { q with upd := { q.upd with
      run := q.upd.run.map (fun u => { u with owner := hush u.owner })
      queue := q.upd.queue.map (fun u => { u with owner := hush u.owner })
      arrivals := q.upd.arrivals.map (fun a => (hush a.1, a.2)) } }) }

/-! ## Clearing -/

/-- Memory in a range reads as zero, with no error left. -/
def State.wipe (s : State) (lo n : Nat) : State :=
  let out (a : Nat) : Bool := !decide (lo ≤ a ∧ a < lo + n)
  { s with
    mem := s.mem.filter (fun p => out p.1), poison := s.poison.filter (fun l => out (l * 64))
    upsets := s.upsets.filter (fun u => out (u.1 * 64)) }

/-- A core as it comes up (00 R10, 11 R248, 03 R81, 08 R178): registers at reset, windows disabled with a new generation,
random lanes at position 0. The steward restores CORE_PART and SEQ_EPOCH (21 R452), the restore path ARR_FILL_CTL (00 R7). Spawns that
wait for the core's wake keep their places (09 R196). -/
def freshCore (dev : Nat) (c : CoreId) (old : Core) : Core :=
  { phys := old.phys, part := old.part, det := old.det, spawns := old.spawns
    seq := { epoch := old.seq.epoch }
    arr := { fillEn := old.arr.fillEn, lfsr := Config.fillSeed c.val }
    rng := { lanes := freshLanes dev c.val 0 }
    wins := old.wins.map (fun w => { gen := min (w.gen + 1) 0xFFFF_FFFF }) }

/-- A core's memory and operand buffers are lost and its registers come up anew. -/
def State.freshenCore (s : State) (c : CoreId) : State :=
  ((s.wipe (c.val * coreWindow) coreBytes).onCore c (freshCore s.dev c)).dropLatches (inCoreBlock c)

/-- The bound logical cores of a core group. -/
def State.groupCores (s : State) (q j : Nat) : List CoreId :=
  ((List.range s.coreCount).map (Fin.ofNat 192)).filter (fun c =>
    (s.quarterOf c).val == q && (match (s.core c).phys with | some p => p / 4 == j | none => false))

def State.quarterCores (s : State) (q : QuarterId) : List CoreId :=
  ((List.range s.coreCount).map (Fin.ofNat 192)).filter (fun c => s.quarterOf c == q)

def State.allCores (s : State) : List CoreId := (List.range s.coreCount).map (Fin.ofNat 192)

/-- Completes every command of the module (17 R385, 18 R409). -/
def State.endAll (s : State) (code : Code) : State :=
  let t := s.allCores.foldl (fun u c => u.endCore c code) s
  let t := ([0, 1, 2, 3] : List QuarterId).foldl (fun u q => u.endUpdates q code) t
  t.sentOps.foldl (fun u o => u.endOp o code) t

/-- The order of a shutdown (17 R385): the pier domains from 79 down, then from Q3 down each quarter's zones and core groups
and last its fabric. -/
def shutOrder : List DomainId :=
  ((List.range 8).map (fun i => 79 - i) ++ (List.range 4).flatMap (fun k =>
    (List.range 17).map (fun i => 18 * (3 - k) + 16 - i) ++ [18 * (3 - k) + 17])).map (Fin.ofNat 80)

/-- A module shutdown begins (R385): every command ends, and the domains that are not OFF wait for their turn. Its pacing
takes the governor's place. -/
def State.shutdown (s : State) (cause : ShutCause) : State :=
  if s.pwr.shut.isSome then s
  else
    let t := s.endAll (if cause = .thermal then .thermal else .incomplete)
    { t.onPwr (fun p => { p with
        up := [], down := [], want := [], ramps := [], wakes := [], s1Since := none, shutAt := s.now
        shut := some (cause, shutOrder.filter (fun d => s.dom d != .off)) }) with sbInt := true }

end Sys2Proof.Machine
end

