-- ==== Sys2Proof/Machine/Failures.lean ====
section
/-! DEFINITION. Failing parts and memory events (01 R17, R21, R24; 09 R201; 11 R249, R252; 12 R266-R269). -/

namespace Sys2Proof.Machine

/-! ## Failing cores, piers and spans (01) -/

/-- Ends what involves a failing core: its own commands are lost with it, what others gave it is not delivered. -/
def State.loseCore (s : State) (c : CoreId) : State :=
  let others := (s.core c).spawns.filter (fun r => r.owner.core != c)
  let t := (s.onCore c (fun k => { k with spawns := [] })).endCore c .incomplete
  others.foldl (fun u r => u.finish (.thread r.owner) .unreachable) (t.freeGangs c)

/-- A job that waits for a core left unbound completes with UNREACHABLE (01 R24). -/
def State.dropUnplaced (s : State) (c : CoreId) : State :=
  let lost (j : Job) : Bool := j.state == .waiting && j.spec.cores.contains c
  if (s.core c).phys.isNone && s.jobs.any lost then
    { s.report .unreachable with reply := some (.unreachable, []), jobs := s.jobs.filter (fun j => !lost j) }
  else s

/-- A failing core: its number is bound to the lowest spare of its quarter, which holds what a freshly woken core holds, or
stays unbound (R24). Where the failed core was up, or a job waits for it, the spare's group is woken. -/
def execCoreFailure (c : CoreId) (s : State) : Out :=
  if (s.core c).phys.isNone ∨ s.coreCount ≤ c.val then .next s
  else
    let q := s.quarterOf c
    let t := s.loseCore c
    let spare := (t.quarter q).spares.head?
    let t := (t.onQuarter q (fun k => { k with spares := k.spares.drop 1 })).onCore c (fun k => { k with phys := spare })
    let t := (t.freeCredits c).freshenCore c
    let was := match s.coreDom c with | some d => !s.sinking d | none => false
    let wanted := was || s.jobs.any (fun j => j.state == .waiting && j.spec.cores.contains c)
    let t := match t.coreDom c with
      | some d => if wanted then t.wakeGroup d else t
      | none => t.dropUnplaced c
    .next (t.addLog (.rebind c.val spare))

/-- A pier fails: its ports, engines and sessions are gone and the other steward is active (R21). Collectives that ran on its
engine end. When no pier is left the module cannot stay up (20 R444). -/
def execPierFailure (p : PierId) (s : State) : Out :=
  if !(s.pier p).alive then .next s
  else
    let other : PierId := Fin.ofNat 2 (p.val + 1)
    let lost := s.collRuns.filter (fun r => s.homePier r.1 == p)
    let t := lost.foldl (fun u r => match u.groupOf r.1, u.collOf r.1 with
      | some x, some run => u.collEnd r.1 x run .incomplete true
      | _, _ => u) s
    let dead : Port → Port := fun q => { en := q.en, eth := q.eth, retrains := q.retrains, replays := q.replays }
    let t := t.onPier p (fun k => { k with
      alive := false, ports := k.ports.map dead, msgs := [], sessions := [], marks := []
      coll := { k.coll with held := [], stalled := [], missed := [] } })
    let gone := [domPorts p.val 0, domPorts p.val 1, domSwitch p.val, domSteward p.val]
    let t := gone.foldl (fun u d => u.setDom d .off) t
    let t := { t with
      flows := t.flows.filter (fun f => pierOf f.2 != p)
      boot := { t.boot with steward := if t.boot.steward = p then other else t.boot.steward } }
    .next (if (t.pier other).alive then t else t.shutdown .pier)

def State.killSpan (s : State) (q : QuarterId) (d : Die) : State :=
  s.onQuarter q (fun k => if k.deadSpans.contains d then k else { k with deadSpans := k.deadSpans ++ [d] })

/-- One of the twelve spans fails; accesses take the paths of R17 that remain. -/
def execSpanFailure (a b : Die) (s : State) : Out :=
  match a, b with
  | .quarter x, .quarter y => if ringPair x y then .next ((s.killSpan x b).killSpan y a) else .next s
  | .quarter x, .pier _ => .next (s.killSpan x b)
  | .pier _, .quarter y => .next (s.killSpan y a)
  | .pier _, .pier _ => .next s

/-! ## Patrol, channels, refresh (11 R249-R250, 12 R266-R269) -/

/-- What a patrol read of a line finds: a corrected error, or a line that is then poisoned; no access completes. -/
def State.patrolLine (s : State) (line : Nat) (found : Option Upset) : State :=
  match found.or ((s.upsets.find? (fun u => u.1 == line)).map (·.2)) with
  | none => s
  | some .single => ({ s with upsets := s.upsets.filter (fun u => u.1 != line) }).countErr line false
  | some .double =>
    if s.poison.contains line then s
    else ({ s with upsets := s.upsets.filter (fun u => u.1 != line), poison := addLine s.poison line }).countErr line true

/-- The address of line `i` of a crown bank that holds weight store or scratch. -/
def State.crownLine (s : State) (q : QuarterId) (b i : Nat) : Option Nat :=
  let cut := (s.quarter q).cut
  let base := crownBase + q.val * crownSlice
  let off (ilv : Bool) (nb k : Nat) : Nat := if ilv then (i / 16 * nb + k) * 1024 + i % 16 * 64 else k * bankBytes + i * 64
  if b < cut.ws then some (base + off cut.ilvWs cut.ws b)
  else if b < cut.ws + cut.scr then some (base + cut.ws * bankBytes + off cut.ilvScr cut.scr (b - cut.ws))
  else none

def linesPerBank : Nat := 524_288

/-- A stacked-DRAM line of a quarter's own stacks, by its address. -/
def State.cachedLine (s : State) (q : QuarterId) (a : Nat) : Option Nat :=
  match s.place a with
  | .dram o => if s.dramQuarter o = q then some (a / 64) else none
  | _ => none

/-- A patrol read of line `i` of a shared-cache bank: an error is counted and latched like any of the crown's; what it cannot correct
poisons the stacked-DRAM line held there, if one is (R249-R250, 12 R266, log 188). -/
def State.patrolCache (s : State) (q : QuarterId) (b i : Nat) (found : Option Upset) : State :=
  match found with
  | none => s
  | some e =>
    let ue : Bool := e == .double
    let t := (s.noteRow (.crown q.val ((s.quarter q).physBank b) (i / 128)) (b * 524_288 + i) ue).countCrown q (b * bankBytes + 64 * i) ue
    if ue then
      let u := { t with free := t.free + 1 }
      match s.cachedLine q (Config.freeAddr s.free).toNat with
      | some l => { u with poison := addLine u.poison l, upsets := u.upsets.filter (fun x => x.1 != l) }
      | none => u
    else t

/-- The patrol scrubber reads the next line of a bank of the cut whose zone is ON (R249). -/
def execCrownPatrol (q : QuarterId) (bank : Fin 64) (found : Option Upset) (s : State) : Out :=
  let i := Tab.get 0 (s.quarter q).patrol bank.val
  let cut := (s.quarter q).cut
  let next (t : State) : State := t.onQuarter q (fun k => { k with
    patrol := Tab.set 0 k.patrol bank.val ((i + 1) % linesPerBank) })
  if s.dom (domZone q.val (zoneOfBank ((s.quarter q).physBank bank.val))) ≠ .on then .next s
  else match s.crownLine q bank.val i with
    | some a => .next (next (s.patrolLine (a / 64) found))
    | none => .next (if bank.val < cut.ws + cut.scr + cut.sc then next (s.patrolCache q bank.val i found) else s)

/-- Where byte `b` of a live channel lies in the stacked-DRAM window: the inverse of `dramChannel` (12 R262). -/
def State.channelAddr (s : State) (stack chan b : Nat) : Option Nat :=
  let all := s.liveChannels
  let ilv := (s.quarter 0).ilv
  let sets : List (List (Nat × Nat)) :=
    if ilv = 1 then (List.range 4).map (fun q => all.filter (fun p => p.1 / 3 == q))
    else if ilv = 2 then (List.range 12).map (fun k => all.filter (fun p => p.1 == k)) else [all]
  let rec go : List (List (Nat × Nat)) → Nat → Option Nat
    | [], _ => none
    | l :: ls, start => match l.findIdx? (· == (stack, chan)) with
      | some i => some (dramBase + start + (b / 512 * l.length + i) * 512 + b % 512)
      | none => go ls (start + l.length * 0x8000_0000)
  go sets 0

def linesPerChannel : Nat := 33_554_432

def State.stackQuarter (k : StackId) : QuarterId := Fin.ofNat 4 (k.val / 3)

/-- The patrol reads the next line of a live channel (R266). -/
def execHbmPatrol (k : StackId) (chan : Fin 32) (found : Option Upset) (s : State) : Out :=
  let q := State.stackQuarter k
  let key := 32 * (k.val % 3) + chan.val
  let i := Tab.get 0 (s.quarter q).hbmPatrol key
  if !s.fabricOn q ∨ (s.quarter q).dead.contains (k.val % 3, chan.val) then .next s
  else match s.channelAddr k.val chan.val (64 * i) with
    | none => .next s
    | some a =>
      .next ((s.patrolLine (a / 64) found).onQuarter q (fun u => { u with
        hbmPatrol := Tab.set 0 u.hbmPatrol key ((i + 1) % linesPerChannel) }))

/-- A channel gives no response within 100 us to the access of a line (R267): from now on every access to it ends with
UNCORRECTABLE. The access that met it is counted and latched now, and ends so when its own command performs it (log 190). The
channel is logged, and mapped out at the next start (R268). -/
def execChannelTimeout (k : StackId) (chan : Fin 32) (line : Nat) (s : State) : Out :=
  let q := State.stackQuarter k
  let live := (nth 0 (s.quarter q).chmap (k.val % 3)).getLsbD chan.val
  let met := ((s.channelAddr k.val chan.val (64 * (line % linesPerChannel))).map (· / 64)).toList
  if !live ∨ (s.quarter q).dead.contains (k.val % 3, chan.val) then .next s
  else
    let t := s.onQuarter q (fun u => { u with
      dead := u.dead ++ [(k.val % 3, chan.val)], timedOut := u.timedOut ++ met, hbmUe := satInc 32 u.hbmUe
      hbmLatch := u.hbmLatch.take { valid := true, ue := true, dead := true, stack := k.val % 3, chan := chan.val, line := line % linesPerChannel } })
    let t := { t with badChannels := if t.badChannels.contains (k.val, chan.val) then t.badChannels else t.badChannels ++ [(k.val, chan.val)] }
    .next (t.addLog (.channel k.val chan.val))

/-- Refresh changes timing only, never a result bit (R269). -/
def execRefresh (_ : StackId) (_ : Nat) (s : State) : Out := .next s

/-- The steward queues the reload of the bank of a poisoned published line on its quarter's update engine; a region without
a source stays as it is (11 R252). `line` is the line's address divided by 64. -/
def execSharedReload (region line : Nat) (s : State) : Out :=
  match s.regions.find? (fun r => r.id == region), s.place (line * 64) with
  | some r, .weight q o =>
    let b := s.weightBank q o
    if r.quarter = q ∧ r.bank ≤ b ∧ b < r.bank + r.banks ∧ s.poison.contains line ∧ (r.master.isSome ∨ r.copy.isSome) ∧ s.fabricOn q then
      .next (s.onQuarter q (fun k => { k with upd := { k.upd with
        queue := k.upd.queue ++ [⟨.quiet, none, 0, .reload region line⟩] } }))
    else .next s
  | _, _ => .next s

/-- A 2 MiB frame holds bytes of a published region (18 R406). -/
def State.frameIn (s : State) (r : Region) (f : Nat) : Bool :=
  (List.range 2048).any (fun i => match s.place (f * 0x20_0000 + 1024 * i) with
    | .weight q o => q == r.quarter && decide (r.bank ≤ s.weightBank q o ∧ s.weightBank q o < r.bank + r.banks)
    | _ => false)

/-- The SH bit of a page-table entry (09 R200). -/
def pageShared : BitVec 64 := BitVec.ofNat 64 (2 ^ 59)

/-- The frame of a page-table entry. -/
def pageFrame (e : BitVec 64) : Nat := e.toNat % 2 ^ 28

/-- The steward changes a page-table entry (09 R200-R201). A page of a published region is SH for whoever maps it (18 R406). Accesses are translated as they are performed, so those translated
before have completed and later ones use the new entry. -/
def execPageEntryChange (part : PartId) (page : Nat) (entry : BitVec 64) (s : State) : Out :=
  if part = 0 ∨ !(s.partOf part).live ∨ 2 ^ 28 ≤ page then .next s
  else
    let e := if s.regions.any (fun r => s.frameIn r (pageFrame entry)) then entry ||| pageShared else entry
    .next (s.onPart part (fun p => { p with pages := Tab.set 0 p.pages page e }))

end Sys2Proof.Machine
end

