-- ==== Sys2Proof/Machine/Entropy.lean ====
section
/-! DEFINITION. The steward's entropy source and DRBG (08 R184-R185). -/

namespace Sys2Proof.Machine

/-- Generate requests between reseeds (R184). -/
def reseedInterval : Nat := 1_048_576

/-- A request of `n` blocks that does not itself need fresh entropy: served from the current state until the interval runs
out; then only while the source works (R184-R185). None is HEALTH, or a wait. -/
def State.drbgGen (s : State) (n : Nat) : Option (State × List (BitVec 128)) :=
  let due := decide (reseedInterval ≤ s.sec.drbgCount)
  if due ∧ s.sec.retest.isSome then none else some (s.drbgTake n due)

def State.drbgCode (s : State) (c : Code) : State := s.onSec (fun k => { k with drbgLast := c })

/-- Serves a request with fresh entropy. -/
def State.drbgServe (s : State) : DrbgUse → State
  | .seedFresh c => match s.freshSeed c with
    | some (k, o) => ((s.seedFresh c o).endConsumer c k .done).drbgCode .done
    | none => s
  | _ => (s.drbgTake 1 true).1.drbgCode .done

/-- Ends a request with HEALTH: nothing changes but its code. -/
def State.drbgFail (s : State) : DrbgUse → State
  | .seedFresh c => match s.freshSeed c with
    | some (k, _) => (s.endConsumer c k .health).drbgCode .health
    | none => s
  | _ => (s.report .health).drbgCode .health

/-- A health test fails: the period's output never reaches the DRBG, the source is retested, and the steward logs it. -/
def execHealthTestFailure (s : State) : Out :=
  .next ((s.onSec (fun k => { k with retest := k.retest.or (some s.now) })).addLog (.entropy s.now))

/-- A request has waited 10 ms (R185). -/
def State.waited (s : State) (at_ : Nat) : Bool := decide (at_ + 10_000_000 ≤ s.now)

/-- The retest passes and the waiting requests are served; or it does not, and those that have waited 10 ms end with HEALTH. -/
def State.endRetest (s : State) (pass : Bool) : State :=
  if pass then
    (s.sec.drbgWait.foldl (fun u w => u.drbgServe w.1) (s.onSec (fun k => { k with retest := none, drbgWait := [] })))
  else
    (s.sec.drbgWait.filter (fun w => s.waited w.2)).foldl (fun u w => u.drbgFail w.1)
      (s.onSec (fun k => { k with drbgWait := k.drbgWait.filter (fun w => !s.waited w.2) }))

/-- A consumer asks for output; `resist` demands prediction resistance, which reseeds at once and cannot wait. `rng.seed` with
source FRESH needs fresh entropy. -/
def execDrbgRequest (use : DrbgUse) (resist : Bool) (s : State) : Out :=
  let fresh : Bool := resist || (match use with | .seedFresh _ => true | _ => false)
  let known : Bool := match use with
    | .seedFresh c => (s.freshSeed c).isSome
    | _ => true
  if !known then .next s
  else if fresh then
    (if s.sec.retest.isNone then .next (s.drbgServe use)
     else if resist then .next (s.drbgFail use)
     else if s.sec.drbgWait.any (fun w => w.1 == use) then .next s
     else .next (s.onSec (fun k => { k with drbgWait := k.drbgWait ++ [(use, s.now)] })))
  else match s.drbgGen 1 with
    | some (t, _) => .next (t.drbgCode .done)
    | none => .next (s.onSec (fun k => { k with drbgWait := k.drbgWait ++ [(use, s.now)] }))

end Sys2Proof.Machine
end

