-- ==== Sys2Proof/Machine/Launch.lean ====
section
/-! DEFINITION. Starting a job once its cores run, and placing it anew (08 R178; 09, launch and spawn; 10 R227-R229; 15 R327; 21 R452). -/

namespace Sys2Proof.Machine

def State.onJob (s : State) (id : Nat) (f : Job → Job) : State :=
  { s with jobs := s.jobs.map (fun x => if x.spec.id = id then f x else x) }

/-- Deferred subtotals of some groups are discarded and counted in COLL_LATE of the groups' engines (15 R344). -/
def State.dropDeferred (s : State) (gs : List Nat) : State :=
  let lost := s.deferred.filter (fun e => gs.contains e.1.1)
  let t := lost.foldl (fun (u : State) e => u.onColl (u.homePier e.1.1) (fun k => { k with late := satInc 32 k.late })) s
  { t with deferred := t.deferred.filter (fun e => !gs.contains e.1.1) }

/-- The group table takes a job's groups at job start; the collectives of a group written count from 0 (R327, R335). -/
def State.writeGroups (s : State) (gs : List GroupSpec) : State :=
  let ids := gs.map (·.id)
  let t := s.dropDeferred ids
  { t with
    groups := t.groups.filter (fun g => !ids.contains g.id) ++ gs
    collNext := t.collNext.filter (fun e => !ids.contains e.1) }

/-- L, CLEAN and FLOOR of a job in QNT_LSCALE of its cores (07 R167). -/
def State.writeScale (s : State) (j : Job) : State :=
  j.spec.cores.foldl (fun u c => u.onQnt c (fun q => { q with l := j.l, clean := j.clean, floor := j.floor })) s

/-- A gang named by the job: its argument in v0, its thread index in v2; it has no spawner. -/
def State.startJobGang (s : State) (g : GangSpec) : State := s.onGang g.core g.gang (startGang g.entry g.arg 0 g.threads)

/-- Every gang of a waiting job may start: its cores run, no placement of it is under way and the gangs it names are free. -/
def State.canLaunch (s : State) (j : Job) : Bool :=
  j.state == .waiting && !j.placing && j.spec.cores.all s.coreOn && j.spec.gangs.all (fun g => (s.gang g.core g.gang).status == .free)

/-- Starts a job: epochs, loss scale and random lanes first, then all its gangs at once. -/
def State.launch (s : State) (j : Job) : State :=
  let o : RngSeedOp := { mask := 0xFFFF_FFFF, fresh := false, seed := j.spec.seed, pos := 0 }
  let t := j.spec.cores.foldl (fun u c =>
    (u.onCore c (fun k => { k with seq := { k.seq with epoch := j.epoch } })).seedJob c o) s
  let t := j.spec.gangs.foldl State.startJobGang (t.writeScale j)
  { t with jobs := t.jobs.map (fun (x : Job) => if x.spec.id = j.spec.id then { x with state := JobState.running } else x) }

/-- Starts, in order of submission, every waiting job that can start. -/
def State.launchReady (s : State) : State :=
  s.jobs.foldl (fun u j => if u.canLaunch j then u.launch j else u) s

/-! ## Placement epochs (10 R227-R229) -/

/-- The steward's `rng.seed` with the job's seed on a core a stage is placed on (08 R178). -/
def State.placeStage (j : Job) (s : State) (c : CoreId) : State :=
  if j.spec.cores.contains c then
    s.seedJob c { mask := 0xFFFF_FFFF, fresh := false, seed := j.spec.seed, pos := 0 }
  else s

/-- Steps 1 to 3 of a placement change: epoch E + 1 stops the nests of the job's cores, is written to them and holds the job's work
until the fabric barrier. An epoch that was the job's less than 10 s ago is not given. -/
def State.newEpoch (s : State) (j : Job) (epoch : BitVec 16) (moved : List CoreId) : State :=
  let t := j.spec.cores.foldl (fun u c => if u.coreOn c then u.seqAbort c true else u) s
  let t := j.spec.cores.foldl (fun u c => u.onCore c (fun k => { k with seq := { k.seq with epoch } })) t
  let t := moved.foldl (State.placeStage j) t
  t.onJob j.spec.id (fun x => { x with
    epoch, placing := true, past := (j.epoch, s.now) :: x.past.filter (fun p => decide (s.now < p.2 + 10_000_000_000)) })

/-- PLACEMENT_CHANGE. When every module has confirmed, the stages go on from the last committed boundary: what they reported beyond
it is done again (R228, R229; log 193). -/
def execPlacementChange (job : Nat) (change : Placement) (s : State) : Out :=
  match s.jobs.find? (fun j => j.spec.id == job), change with
  | some j, .epoch e moved =>
    let recent := j.past.any (fun p => p.1 == e && decide (s.now < p.2 + 10_000_000_000))
    if e = j.epoch + 1 ∧ s.boot.mode = .running ∧ !recent then .next (s.newEpoch j e moved) else .next s
  | some j, .confirmed =>
    if s.boot.mode = .running ∧ j.placing then
      .next ((s.onJob job (fun x => { x with
        placing := false, reports := x.reports.filter (fun r => decide (r.2 ≤ x.committed)) })).launchReady)
    else .next s
  | none, _ => .next s

/-- An ending gang is free once every command it issued has completed (09 R194); its memory instructions in flight are
performed first (log 24). A job that waited for it starts. -/
def execGangFree (c : CoreId) (g : GangId) (s : State) : Out :=
  let k := s.gang c g
  if k.status = .ending ∧ k.outstanding = 0 ∧ k.memops = [] then
    .next (s.onGang c g (fun k => { gfault := k.gfault })).launchReady
  else .next s

end Sys2Proof.Machine
end

