-- ==== Sys2Proof/Machine/PowerEvents.lean ====
section
/-! DEFINITION. The ramp governor, module states, clocks, heat, shutdown, reset and the sideband's commands on them (17, 22). -/

namespace Sys2Proof.Machine

/-! ## Grants (17 R380-R382) -/

/-- The step of a request in units of 0.125 A (R380). -/
def stepUnits : StepTarget → Nat
  | .array _ => 1
  | .stack _ => 4
  | .clock _ => 4
  | .domain d _ => match DomKind.of d with
    | .group _ _ => 2
    | .zone _ _ => 2
    | .fabric _ => 8
    | .ports _ _ => 32
    | .switch _ => 8
    | .steward _ => 2

/-- The budget of one direction in a 10 us window: 16 A. -/
def stepBudget : Nat := 128

def fits (now : Nat) (used : List (Nat × Nat)) (t : StepTarget) : Bool := decide (grantsUsed now used + stepUnits t ≤ stepBudget)

/-- The grants that still count, and a new one. -/
def addGrant (now : Nat) (used : List (Nat × Nat)) (t : StepTarget) : List (Nat × Nat) :=
  used.filter (fun g => decide (now < g.1 + 10000)) ++ [(now, stepUnits t)]

def State.setFreq (s : State) (q : QuarterId) (f : Nat → Nat) : State := s.onQuarter q (fun k => { k with freq := f k.freq })

/-- What an upward grant does (R380): a domain or stack wakes, an array is warm, a clock steps. -/
def State.grantUp (s : State) (t : StepTarget) : State :=
  let s := s.onPwr (fun p => { p with up := p.up.drop 1, upUsed := addGrant s.now p.upUsed t })
  match t with
  | .domain d _ =>
    if s.domDown d then
      (s.setDom d .waking).onPwr (fun p => { p with wakes := p.wakes ++ [(t, s.dom d == .off)] })
    else s
  | .stack k =>
    (s.onQuarter (State.stackQuarter k) (fun u => { u with waking := u.waking ||| BitVec.ofNat 3 (2 ^ (k.val % 3)) })).onPwr
      (fun p => { p with wakes := p.wakes ++ [(t, false)] })
  | .clock q => s.setFreq q (fun f => min (f + 1) (2 * (s.quarter q).clkMax))
  | .array c => s.onArr c (fun a => if a.warmth = .upWaiting then { a with warmth := .warm, idleSince := s.now, fedAt := none } else a)

/-- The other domains of a quarter are OFF. -/
def State.restOff (s : State) (q : Nat) : Bool := (List.range 17).all (fun i => s.dom (Fin.ofNat 80 (18 * q + i)) == .off)

/-- A downward head may be granted now: a waking domain waits (R382), and a fabric is the last of its quarter to go OFF
(R376). -/
def State.mayGoDown (s : State) : StepTarget → Bool
  | .domain d gate => s.dom d != .waking && (gate || (match DomKind.of d with | .fabric q => s.restOff q | _ => true))
  | .stack k => !(s.quarter (State.stackQuarter k)).waking.getLsbD (k.val % 3)
  | _ => true

/-- What a downward grant does: the ramp runs; a clock steps at once. Before a core group goes OFF its credits are freed
(11 R248). -/
def State.grantDown (s : State) (t : StepTarget) : State :=
  let s := s.onPwr (fun p => { p with down := p.down.drop 1, downUsed := addGrant s.now p.downUsed t })
  let ramp (u : State) : State := u.onPwr (fun p => { p with ramps := p.ramps ++ [(t, u.now)] })
  match t with
  | .clock q => s.setFreq q (fun f => max (f - 1) 20)
  | .array c => ramp (s.onArr c (fun a => { a with warmth := .rampDown, rampAt := s.now }))
  | .domain d false => match DomKind.of d with
    | .group q j => ramp ((s.groupCores q j).foldl State.freeCredits s)
    | _ => ramp s
  | _ => ramp s

/-- The governor grants the head of a direction if it fits the budget (R380, R381); a domain whose ramp-down still runs reaches its
new state first (log 162). A shutdown's pacing takes its place. -/
def execStepGrant (up : Bool) (s : State) : Out :=
  if s.pwr.shut.isSome then .next s
  else if up then
    match s.pwr.up with
    | r :: _ => if fits s.now s.pwr.upUsed r.target ∧ !s.ramping r.target then .next (s.grantUp r.target) else .next s
    | [] => .next s
  else
    match s.pwr.down with
    | r :: _ => if fits s.now s.pwr.downUsed r.target ∧ s.mayGoDown r.target then .next (s.grantDown r.target) else .next s
    | [] => .next s

/-! ## The end of ramps and wakes -/

/-- The zone of a crown address (11 R245). -/
def State.zoneAt (s : State) (a : Nat) : Option (Nat × Nat) := (s.crownPlace a).map (fun x => (x.1.val, zoneOfBank ((s.quarter x.1).physBank x.2.1)))

/-- The contents of a zone are lost. -/
def State.wipeZone (s : State) (q z : Nat) : State :=
  let out (a : Nat) : Bool := s.zoneAt a != some (q, z)
  { s with
    mem := s.mem.filter (fun p => out p.1), poison := s.poison.filter (fun l => out (l * 64))
    upsets := s.upsets.filter (fun u => out (u.1 * 64)) }

/-- A quarter as its fabric comes up from OFF (00 R7, R10): RWL fields, the start-up map and window generations stay. -/
def freshQuarter (k : Quarter) : Quarter :=
  { cut := k.cut, ilv := k.ilv, clkMax := k.clkMax, chmap := k.chmap, remap := k.remap
    dead := k.dead, timedOut := k.timedOut, deadSpans := k.deadSpans, spares := k.spares, tripped := k.tripped
    wins := k.wins.filterMap (fun w => if w.2.gen = 0 then none else some (w.1, { gen := w.2.gen })) }

/-- The snapshot copies held in a quarter fabric (20 R433) go with it, and the HI halves of its registers. -/
def State.dropCopies (s : State) (q : Nat) : State :=
  (s.dropLatches (fun o => s.regDomain o == some (some (domFabric q)))).onSnapg (fun g => { g with copies := g.copies.filter (fun x => match x.1 with
    | .core c => (s.quarterOf c).val != q
    | .quarter k _ => k.val != q
    | _ => true) })

/-- A domain goes OFF and loses its contents (R376, 11 R245). -/
def State.turnOff (s : State) (d : DomainId) : State :=
  let t := s.setDom d .off
  match DomKind.of d with
  | .group q j => (s.groupCores q j).foldl (fun u c => (u.freeGangs c).wipe (c.val * coreWindow) coreBytes) t
  | .zone q z => t.wipeZone q z
  | .fabric q => t.dropCopies q
  | _ => t

/-- The entry into S1 is complete once every core group is GATED or OFF and PWR_STATE reads S1 (R378). -/
def State.noteS1 (s : State) : State :=
  if s.pwrState = 1 ∧ s.pwr.s1Since.isNone ∧ (List.range 80).all (fun i => match DomKind.of (Fin.ofNat 80 i) with
      | .group _ _ => s.domDown (Fin.ofNat 80 i)
      | _ => true) then s.onPwr (fun p => { p with s1Since := some s.now })
  else s

/-- 1 us after its downward grant a domain is OFF or GATED, a stack in self-refresh, an array cold (R380). -/
def execRampTimeEnd (t : StepTarget) (s : State) : Out :=
  match s.pwr.ramps.find? (fun r => r.1 == t && decide (r.2 + 1000 ≤ s.now)) with
  | none => .next s
  | some r =>
    let s := s.onPwr (fun p => { p with ramps := p.ramps.erase r })
    match t with
    | .domain d gate =>
      let u := if gate then s.setDom d .gated else s.turnOff d
      let u := match DomKind.of d with
        | .fabric q => u.onQuarter (Fin.ofNat 4 q) (fun k => { k with selfref := if gate then 7 else k.selfref })
        | _ => u
      .next u.noteS1
    | .stack k =>
      .next (s.onQuarter (State.stackQuarter k) (fun u => { u with selfref := u.selfref ||| BitVec.ofNat 3 (2 ^ (k.val % 3)) }))
    | .array c => .next (s.onArr c (fun a => if a.warmth = .rampDown then { a with warmth := .cold } else a))
    | .clock _ => .next s

/-- The core groups that waited for a fabric are requested, in ascending number (R378, R381). -/
def State.requestWanted (s : State) (q : Nat) : State :=
  let mine := s.pwr.want.filter (fun d => d.val / 18 == q)
  let t := s.onPwr (fun p => { p with want := p.want.filter (fun d => d.val / 18 != q) })
  (mine.mergeSort (· ≤ ·)).foldl (fun u d => u.wakeGroup d) t

/-- A waking domain, zone or stack is ON (R378); a domain that was OFF comes up as 00 R10 says. A job that waited for its
cores starts. -/
def execWakeComplete (t : StepTarget) (s : State) : Out :=
  match s.pwr.wakes.find? (fun w => w.1 == t) with
  | none => .next s
  | some w =>
    let s := s.onPwr (fun p => { p with wakes := p.wakes.erase w })
    match t with
    | .domain d _ =>
      let u := s.setDom d .on
      match DomKind.of d with
      | .group q j =>
        let u := u.onPwr (fun p => { p with s1Since := none })
        .next (if w.2 then (s.groupCores q j).foldl State.freshenCore u else u).launchReady
      | .fabric q => .next ((if w.2 then u.onQuarter (Fin.ofNat 4 q) freshQuarter else u).requestWanted q)
      | _ => .next u
    | .stack k =>
      let bit : BitVec 3 := ~~~ BitVec.ofNat 3 (2 ^ (k.val % 3))
      .next (s.onQuarter (State.stackQuarter k) (fun u => { u with selfref := u.selfref &&& bit, waking := u.waking &&& bit }))
    | _ => .next s

/-! ## Module states (R377-R378) -/

/-- With no live or ending gang, and no queued spawn that would make one (log 162), the steward gates the core groups. -/
def execS1Entry (s : State) : Out :=
  let busy := s.allCores.any (fun c => !(s.core c).spawns.isEmpty || (s.core c).gangs.toList.any (fun g => g.status != .free))
  if !s.stewardUp ∨ busy ∨ s.pwr.shut.isSome then .next s
  else
    .next (((List.range 80).map (Fin.ofNat 80)).foldl (fun u d => match DomKind.of d with
      | .group _ _ => if u.dom d = .on then u.requestDown (.domain d true) else u
      | _ => u) s)

/-- After PWR_IDLE.MS in S1 with no job queued the steward enters S2: core groups OFF, zones and stacks in retention, fabrics
gated, ports in low power. -/
def execIdleTimeout (s : State) : Out :=
  match s.pwr.s1Since with
  | some t =>
    if s.stewardUp ∧ t + s.pwr.idleMs * 1_000_000 ≤ s.now ∧ s.jobs.all (fun j => j.state != .waiting) ∧ s.pwrState = 1
        ∧ s.allCores.all (fun c => (s.core c).spawns.isEmpty)
        ∧ s.pwr.shut.isNone then
      let u := ((List.range 80).map (Fin.ofNat 80)).foldl (fun (u : State) d => match DomKind.of d with
        | .group _ _ => if u.dom d = .gated then u.requestDown (.domain d false) else u
        | .switch _ => u
        | .steward _ => u
        | _ => if u.dom d = .on then u.requestDown (.domain d true) else u) s
      let u := ((List.range 12).map (Fin.ofNat 12)).foldl (fun (u : State) k =>
        if (u.quarter (State.stackQuarter k)).selfref.getLsbD (k.val % 3) then u else u.requestDown (.stack k)) u
      .next (u.onPwr (fun p => { p with s1Since := none }))
    else .next s
  | none => .next s

/-! ## Clocks and heat (R383-R384) -/

/-- Every 100 us (R383): above the cap, above QPWR_CLK.MAX, or in a quarter too hot (R384), a step down; after 1 ms below the cap less 100 W, a
step up where there is room. -/
def execPowerCapAverage (watts : Nat) (s : State) : Out :=
  if !s.stewardUp ∨ s.pwr.shut.isSome then .next s
  else
    let above := decide (s.pwr.cap < watts)
    let low := if watts + 100 < s.pwr.cap then s.pwr.lowAvg + 1 else 0
    let s := s.onPwr (fun p => { p with lowAvg := low })
    .next (allQuarters.foldl (fun u q =>
      let k := u.quarter q
      if !u.fabricOn q then u
      else if above ∨ k.hot ∨ 2 * k.clkMax < k.freq then (if 20 < k.freq then u.requestDown (.clock q) else u)
      else if 10 ≤ low ∧ k.freq < 2 * k.clkMax then u.requestUp (.clock q)
      else u) s)

/-- A quarter trips (R384): its commands end with THERMAL, no wake of it waits any more, and its domains go OFF through the
governor. -/
def State.trip (s : State) (q : QuarterId) : State :=
  let cores := s.quarterCores q
  let t := (cores.foldl (fun u c => u.endCore c .thermal) s).endUpdates q .thermal
  let t := cores.foldl (fun u c => u.freeGangs c) t
  let t := t.onQuarter q (fun k => { k with tripped := true })
  let mine (x : StepTarget) : Bool := match x with
    | .domain d _ => decide (d.val < 72) && d.val / 18 == q.val
    | _ => false
  let t := { t.onPwr (fun p => { p with
    trip := p.trip ||| BitVec.ofNat 4 (2 ^ q.val), want := p.want.filter (fun d => d.val / 18 != q.val)
    up := p.up.filter (fun r => !mine r.target) }) with sbInt := true }
  ((List.range 18).map (fun i => Fin.ofNat 80 (18 * q.val + i))).foldl (fun u d =>
    if u.dom d = .off then u else u.requestDown (.domain d false)) t

/-- One quarter's temperature: tripped at 105 until below 85, when its fabric and zones are woken again (log 163), throttled at 95
until below 92. -/
def State.heatQuarter (s : State) (q : QuarterId) (t : Int) : State :=
  let k := s.quarter q
  let s := s.onQuarter q (fun k => { k with
    hot := decide (95 ≤ t) || (k.hot && decide (92 ≤ t)), tripped := k.tripped && decide (85 ≤ t) })
  let s := if 95 ≤ t then s.onPwr (fun p => { p with throttle := p.throttle ||| BitVec.ofNat 4 (2 ^ q.val) }) else s
  if 105 ≤ t ∧ !k.tripped then s.trip q
  else if k.tripped ∧ t < 85 then
    ((List.range 18).map (fun i => Fin.ofNat 80 (18 * q.val + i))).foldl (fun u d => if u.heldUp d then u.wantUp d else u) s
  else s

/-- One stack's temperature: refresh doubles at 85, accesses are thinned from 95 until below 90. -/
def State.heatStack (s : State) (k : StackId) (t : Int) : State :=
  let bit : BitVec 3 := BitVec.ofNat 3 (2 ^ (k.val % 3))
  s.onQuarter (State.stackQuarter k) (fun u => { u with
    ref2x := if 85 ≤ t then u.ref2x ||| bit else u.ref2x &&& ~~~bit
    slowed := if 95 ≤ t then u.slowed ||| bit else if t < 90 then u.slowed &&& ~~~bit else u.slowed })

/-- The temperatures of one sample, read every 10 us. -/
def execThermalSample (t : Temps) (s : State) : Out :=
  if t.quarters.length ≠ 4 ∨ t.piers.length ≠ 2 ∨ t.hbms.length ≠ 12 then .fault .illFormed
  else if s.boot.mode ≠ .running ∨ s.pwrState = 3 then .next s
  else
    let all := t.quarters ++ t.piers ++ t.hbms
    let u := s.onPwr (fun p => { p with hot := all.foldl max (nth 0 all 0) })
    let u := (allQuarters.zip t.quarters).foldl (fun (v : State) x => v.heatQuarter x.1 x.2) u
    let u := (((List.range 12).map (Fin.ofNat 12)).zip t.hbms).foldl (fun (v : State) x => v.heatStack x.1 x.2) u
    let two := decide (2 ≤ (allQuarters.filter (fun q => (u.quarter q).tripped)).length)
    .next (if two ∨ t.piers.any (fun x => decide (105 ≤ x)) then u.shutdown .thermal else u)

/-! ## Repairs at the next start (11 R251) -/

/-- The rows that a run's errors show bad: those with an uncorrectable error, and those where three distinct lines needed
correction. -/
def badRows (ue : List RepairRow) (ce : List (RepairRow × Nat)) : List RepairRow :=
  (ue ++ (ce.map (·.1)).filter (fun r => decide (3 ≤ (ce.map (·.1)).count r))).eraseDups

/-- Rows of one crown bank, or of one bank of a physical core. -/
def sameBank : RepairRow → RepairRow → Bool
  | .crown q b _, .crown q' b' _ => q == q' && b == b'
  | .core q p b _, .core q' p' b' _ => q == q' && p == p' && b == b'
  | _, _ => false

/-- What the run's errors take out of the next start, and of every later one (log 189): with the rows already on spares, crown banks
with a second uncorrectable error since start or more than 32 bad rows, and physical cores with more than 8 bad rows in a
core-memory bank. The other bad rows are on spares from then on. -/
def State.retire (s : State) : State :=
  let rows := (s.spareRows ++ badRows s.repairUe s.repairCe).eraseDups
  let beyond (r : RepairRow) : Bool := match r with
    | .crown _ _ _ => decide (2 ≤ (s.repairUe.filter (sameBank r)).length) || decide (32 < (rows.filter (sameBank r)).length)
    | .core _ _ _ _ => decide (8 < (rows.filter (sameBank r)).length)
  let out := rows.filter beyond
  { s with
    badBanks := (s.badBanks ++ out.filterMap (fun r => match r with | .crown q b _ => some (q, b) | _ => none)).eraseDups
    badCores := (s.badCores ++ out.filterMap (fun r => match r with | .core q p _ _ => some (q, p) | _ => none)).eraseDups
    spareRows := rows.filter (fun r => !beyond r), repairUe := [], repairCe := [] }

/-! ## Reset and S3 (00 R10, 17 R385, 22 R457-R459) -/

/-- What outlasts a reset: fuses, flash, the parts' own defects, the commands waiting, and the model's counters. -/
def State.coldReset (s : State) : State :=
  let r := s.retire
  { State.reset with
    pending := r.pending, grade4810 := r.grade4810, free := r.free, sbInt := r.sbInt
    spareRows := r.spareRows, badBanks := r.badBanks, badCores := r.badCores, badChannels := r.badChannels
    quarters := r.quarters.map (fun q => { deadSpans := q.deadSpans })
    piers := r.piers.map (fun p => { alive := p.alive })
    boot := { flash := r.boot.flash, svn := r.boot.svn, chain := r.boot.chain }
    sec := { Sec.start r.sec.drbg.inputs with tcount := r.sec.tcount, owners := r.sec.owners, sleepAlarm := r.sec.sleepAlarm }
    pwr := { alwaysOn := r.pwr.alwaysOn } }

/-- The module ends a shutdown in S3: only the always-on domain keeps what it holds, and the module has left the
membership. -/
def State.enterS3 (s : State) : State :=
  let r := s.retire
  { State.reset with
    pending := r.pending, grade4810 := r.grade4810, free := r.free, sbInt := r.sbInt, now := r.now, dev := r.dev
    fabricB := r.fabricB, spareRows := r.spareRows, badBanks := r.badBanks, badCores := r.badCores, badChannels := r.badChannels
    quarters := r.quarters.map (fun q => { deadSpans := q.deadSpans })
    piers := r.piers.map (fun p => { alive := p.alive })
    boot := r.boot, sec := { r.sec with drbgWait := [], keyWait := [] }, phases := r.phases, latches := r.latches
    snapg := { r.snapg with copies := [] }, log := r.log, sbReply := r.sbReply
    pwr := { r.pwr with
      dom := Vector.replicate 80 .off, up := [], down := [], ramps := [], wakes := [], want := [], shut := none, s1Since := none } }

def execModuleShutdown (cause : ShutCause) (s : State) : Out :=
  if s.pwrState = 3 ∨ !s.pwr.alwaysOn then .next s else .next (s.shutdown cause)

/-- The next domain is turned OFF once the one before has finished; the last no earlier than 2 ms after the start (R385).
Then the module is in S3, or goes on into the reset that asked for it (22 R459). -/
def execShutdownStep (s : State) : Out :=
  match s.pwr.shut with
  | none => .next s
  | some (cause, l) =>
    if l.length ≤ 1 then
      if s.pwr.shutAt + 2_000_000 ≤ s.now then
        let t := (l.foldl State.turnOff s).enterS3
        .next (if cause = .reset ∨ s.boot.resetPending then t.coldReset else t)
      else .next s
    else
      .next ((match l with | d :: _ => s.turnOff d | [] => s).onPwr (fun p => { p with shut := some (cause, l.drop 1) }))

/-- The input outside 40 V to 58 V for 100 us (22 R457). -/
def execInputUndervoltage (mv us : Nat) (s : State) : Out :=
  if (mv < 40_000 ∨ 58_000 < mv) ∧ 100 ≤ us ∧ s.pwrState ≠ 3 ∧ s.pwr.alwaysOn then .next (s.shutdown .undervoltage) else .next s

/-- The always-on domain starts once the input has stayed above 42 V for 10 ms. -/
def execInputTurnOn (mv ms : Nat) (s : State) : Out :=
  if 42_000 < mv ∧ 10 ≤ ms ∧ !s.pwr.alwaysOn then
    .next (s.coldReset.onPwr (fun p => { p with alwaysOn := true }))
  else .next s

/-- The always-on supply falls before a paced shutdown has ended: the module ends in reset (R385). -/
def execAlwaysOnSupplyFall (s : State) : Out :=
  .next ({ s.coldReset with sbInt := false }.onPwr (fun p => { p with alwaysOn := false }))

/-- RESET_N (22 R459): low for fewer than 3 samples is ignored. -/
def execResetN (samples : Nat) (s : State) : Out :=
  if samples < 3 ∨ !s.pwr.alwaysOn then .next s
  else if s.pwr.shut.isSome then .next { s with boot := { s.boot with resetPending := true } }
  else if s.sec.locked ∨ s.pwrState = 3 ∨ s.boot.mode = .recovery ∨ s.boot.mode = .idFault ∨ s.boot.mode = .startFault then
    .next s.coldReset
  else .next (s.shutdown .reset)

/-- SNAP_IN must be high for 80 ns to be seen (20 R435, 22 R459). -/
def execSnapIn (highNs : Nat) (s : State) : Out := if 80 ≤ highNs ∧ s.pwr.alwaysOn then .next (s.trigger 2) else .next s

/-! ## Sideband (22 R461) -/

def State.sideband (s : State) (words : List Word) (code : Code) : State := { s with sbReply := some (words, code) }

/-- STATUS returns four registers and the two coolant temperatures, which no rule gives a value, and releases SB_INT_N. -/
def execStatus (s : State) : Out :=
  if !s.pwr.alwaysOn then .next s
  else
    let regs := [w32 (readBoot s 0), w32 (readSec s 0), w32 (readPwr s 0), w32 (readPwr s 0x44), Config.freeWord s.free,
      Config.freeWord (s.free + 1)]
    .next { s.sideband regs .done with sbInt := false, free := s.free + 2 }

/-- WAKE starts the module from S3: the reset it leaves S3 through, then START_UP. -/
def execWake (s : State) : Out :=
  if !s.pwr.alwaysOn then .next s
  else if s.sec.locked ∨ s.boot.mode = .recovery then .next (s.sideband [] .refused)
  else if s.boot.mode = .running ∧ s.pwrState = 3 then .next (s.coldReset.sideband [] .done)
  else .next (s.sideband [] .done)

def execShutdown (s : State) : Out :=
  if !s.pwr.alwaysOn then .next s
  else if s.sec.locked ∨ s.boot.mode = .recovery ∨ s.pwrState = 3 then .next (s.sideband [] .done)
  else .next ((s.shutdown .sideband).sideband [] .done)

end Sys2Proof.Machine
end

