-- ==== Sys2Proof/Machine/Partitions.lean ====
section
/-! DEFINITION. Partitions and published regions (18 R392, R397-R408; 12 R271-R272; 21 R448). -/

namespace Sys2Proof.Machine

/-- What the steward's job interface answers. -/
def State.answer (s : State) (code : Code) (bytes : List Byte) : State := { s.report code with reply := some (code, bytes) }

/-- A request of a partition is refused: a tenant learns it after the fixed latency of R404, and the owner of what it asked for has
the record (R405). The record names no core. -/
def State.refuse (s : State) (p owner : PartId) : State :=
  if p = 0 then s.answer .refused []
  else (({ s.report .refused with parked := s.parked ++ [.reply p s.now] } : State).noteRefusal p 192 .request).tellOwner owner p 192 .request

/-- The steward takes requests: it runs and no shutdown is under way. -/
def State.serves (s : State) : Bool := s.stewardUp && s.pwr.shut.isNone

/-! ## Measurement (R392) -/

/-- MRi = SHA-384(MRi, d). -/
def State.extendMr (s : State) (i : Nat) (d : List Byte) : State :=
  s.onSec (fun k => { k with mr := k.mr.set i (sha384 (nth [] k.mr i ++ d)) })

def State.liveSpecs (s : State) : List PartSpec := s.parts.toList.filterMap (fun p => if p.live then p.spec else none)

/-- After a change of partition layout MR2 takes in the partition table and the log its digest (R392, R396). -/
def State.noteLayout (s : State) : State :=
  let d := sha384 (Config.tableBytes s.liveSpecs)
  (s.extendMr 2 d).onSec (fun k => { k with mlog := k.mlog ++ [d] })

/-! ## What a partition holds (R397) -/

/-- The logical cores of quads. -/
def quadCores (l : List Nat) : List CoreId := l.flatMap (fun k => (List.range 4).map (fun i => Fin.ofNat 192 (4 * k + i)))

/-- No list element of one is in the other. -/
def apart {α : Type} [BEq α] (a b : List α) : Bool := a.all (fun x => !b.contains x)

def waysApart (a b : List (Nat × Nat)) : Bool := a.all (fun x => b.all (fun y => x.1 != y.1 || x.2 &&& y.2 == 0))

/-- Two partitions hold nothing in common. -/
def specsApart (a b : PartSpec) : Bool :=
  apart a.quads b.quads && apart a.wsBanks b.wsBanks && apart a.dramUnits b.dramUnits && waysApart a.ways b.ways
    && apart (a.barriers.map (·.val)) (b.barriers.map (·.val)) && apart a.scrWindows b.scrWindows

/-- The request names resources the module has, no fewer than the least, and none that another partition holds. -/
def State.canCreate (s : State) (x : PartSpec) : Bool :=
  x.id != 0 && !(s.partOf x.id).live
    && !x.quads.isEmpty && x.quads.all (fun k => decide (4 * k + 3 < s.coreCount))
    && !x.wsBanks.isEmpty && x.wsBanks.all (fun b => decide (b.1 < 4 ∧
        b.2 < (s.quarter (Fin.ofNat 4 b.1)).cut.ws + (s.quarter (Fin.ofNat 4 b.1)).cut.scr))
    && !x.dramUnits.isEmpty && x.dramUnits.all (fun u => decide (u < s.liveCount))
    && x.ways.all (fun w => decide (w.1 < 4 ∧ w.2 < 65536))
    && x.scrWindows.all (fun w => decide (w.1 < 4 ∧ w.2 < 64))
    && decide (1 ≤ x.links) && decide ((x :: s.liveSpecs).foldl (fun n y => n + y.links) 0 ≤ 64)
    && s.liveSpecs.all (specsApart x)
    && decide (x.devices.length ≤ 12288) && x.pages.all (fun e => decide (e.1 < 2 ^ 28))

/-! ## Clearing and handing over (R408, 12 R272) -/

/-- The bank of a crown address: quarter and bank. -/
def State.bankAt (s : State) (a : Nat) : Option (Nat × Nat) := (s.crownPlace a).map (fun x => (x.1.val, x.2.1))

/-- Writes banks with zeros. -/
def State.wipeBanks (s : State) (bs : List (Nat × Nat)) : State :=
  let out (a : Nat) : Bool := match s.bankAt a with
    | some b => !bs.contains b
    | none => true
  { s with
    mem := s.mem.filter (fun p => out p.1), poison := s.poison.filter (fun l => out (l * 64))
    upsets := s.upsets.filter (fun u => out (u.1 * 64)) }

def frameBytes : Nat := 0x20_0000
def unitBytes : Nat := 0x8000_0000

/-- Every page that maps a frame of a range goes (12 R272). -/
def State.unmapFrames (s : State) (lo n : Nat) : State :=
  { s with parts := s.parts.map (fun p => { p with
      pages := p.pages.filter (fun e => !decide (lo ≤ pageFrame e.2 ∧ pageFrame e.2 < lo + n)) }) }

/-- The frames of a 2 GiB unit change owner (12 R272): their pages go first, then the owner is written, and they hold zeros. -/
def State.giveUnit (s : State) (p : PartId) (u : Nat) : State :=
  let lo := (dramBase + u * unitBytes) / frameBytes
  let mine := if p = 0 then [] else (List.range 1024).map (fun i => (lo + i, p.val))
  let t := s.unmapFrames lo 1024
  let t : State := { t with frames := t.frames.filter (fun f => decide (f.1 < lo)) ++ mine ++ t.frames.filter (fun f => decide (lo + 1024 ≤ f.1)) }
  t.wipe (dramBase + u * unitBytes) unitBytes

/-- The XTS pair of a stacked-DRAM line: of the partition that owns its frame, whichever issues the access (12 R271). -/
def State.lineKey (s : State) (a : Nat) : List Byte := ((s.partOf (s.ownerAt a)).keys.getD []).take 64

/-- What a stack holds of a line (12 R271): `mem` is what its controller decrypts (log 191). -/
def State.atRest (s : State) (a : Nat) : List Byte := Config.xtsLine (s.lineKey a) (a / 64) (s.rd (a / 64 * 64) 64)

/-- A core is stopped, scrubbed and written with its partition. ARR_FILL_CTL stays under the boot lock (00 R7). -/
def State.giveCore (s : State) (p : PartId) (det : Bool) (c : CoreId) : State :=
  let t := ((s.endCore c .incomplete).freeCredits c).freeGangs c
  (t.freshenCore c).onCore c (fun k => { k with part := p, det, seq := { k.seq with epoch := 0 } })

/-- Commands of a partition on the update engines end. -/
def State.dropUpdates (s : State) (p : PartId) : State :=
  allQuarters.foldl (fun t q =>
    let u := (t.quarter q).upd
    let owners := ((u.run.toList ++ u.queue).filter (fun x => x.part == p)).map (·.owner)
      ++ (u.arrivals.filter (fun a => a.2.2.1 == p)).map (·.1)
    let t := t.onQuarter q (fun k => { k with upd := { k.upd with
      run := k.upd.run.filter (fun x => x.part != p), queue := k.upd.queue.filter (fun x => x.part != p)
      arrivals := k.upd.arrivals.filter (fun a => a.2.2.1 != p) } })
    owners.foldl (fun v o => v.finish o .incomplete) t) s

/-- A device barrier is cleared and belongs to a partition. -/
def State.giveBarrier (s : State) (p : PartId) (b : Fin 64) : State :=
  let t := s.endWaits 0 (.device b) (fun _ => true) .incomplete
  { t with barriers := Tab.set {} t.barriers b.val {}, barOwner := Tab.set 0 t.barOwner b.val p.val }

/-- A scratch window is configured anew: disabled, with its owner, and a new generation (11 R248). -/
def State.giveWindow (s : State) (p : PartId) (w : Nat × Nat) : State :=
  s.configWindow (.scratch (Fin.ofNat 4 w.1) (Fin.ofNat 64 w.2)) (fun _ => { part := p.val })

/-- Everything a partition's specification names is cleared and handed to a partition. -/
def State.handOver (s : State) (p : PartId) (det : Bool) (x : PartSpec) : State :=
  let t := (quadCores x.quads).foldl (fun u c => u.giveCore p det c) s
  let t := t.wipeBanks x.wsBanks
  let t := x.dramUnits.foldl (fun u n => u.giveUnit p n) t
  let t := x.barriers.foldl (fun u b => u.giveBarrier p b) t
  x.scrWindows.foldl (fun u w => u.giveWindow p w) t

/-- Creates a partition (R397): REFUSED after four tamper events (R410), LIMIT if it cannot be met, HEALTH without a key. Under
mirror it is deterministic whatever the request names (R448). -/
def State.createPart (s : State) (x : PartSpec) : State × Code :=
  if 4 ≤ s.sec.tcount then (s, .refused)
  else if !s.canCreate x then (s, .limit)
  else match s.drbgGen 6 with
    | none => (s, .health)
    | some (t, bits) =>
      let det : Bool := x.det || s.pairMode == 2
      let t := t.handOver x.id det x
      let pages := x.pages.foldl (fun (u : Tab (BitVec 64)) e => Tab.set 0 u e.1 e.2) []
      let t := t.onPart x.id (fun _ => {
        live := true, pages, devices := x.devices, spec := some { x with det }, keys := some (drbgBytes bits) })
      (t.noteLayout, .done)

/-- A key that cannot be drawn while the source is retested waits up to 10 ms (08 R185). -/
def State.awaitKey (s : State) (u : KeyUse) : State := s.onSec (fun k => { k with keyWait := k.keyWait ++ [(u, s.now)] })

/-- The owner asks for a partition; where its keys must wait for entropy, the answer waits with them. -/
def execPartitionCreate (owner : List Byte) (x : PartSpec) (s : State) : Out :=
  if !s.serves then .next s
  else if s.boot.cfg.map (·.ownerKey) ≠ some owner then .next (s.answer .refused [])
  else match s.createPart x with
    | (_, .health) => .next (s.awaitKey (.part x))
    | (t, code) => .next (t.answer code [])

/-- Partition 0's own XTS pair, one of the 17 (12 R271); it is drawn at the start. -/
def State.drawOwnKey (s : State) : State :=
  match s.drbgGen 4 with
  | some (t, bits) => t.onPart 0 (fun k => { k with keys := some (drbgBytes bits) })
  | none => s.awaitKey .own

/-- What the certificate of an attestation key states: its public half and MR0 to MR2 at that moment (18 R393). -/
def State.certBody (s : State) (key : List Byte) : List Byte := Config.publicHalf key ++ (s.sec.mr.take 3).flatten

/-- The attestation key, its draw, and its certificate, signed with the device identity key (18 R391, R393); without entropy the
key waits, and until then there is none. -/
def State.drawKey (s : State) : State :=
  match s.drbgGen 3 with
  | some (t, bits) =>
    let key := drbgBytes bits
    let body := t.certBody key
    t.onSec (fun k => { k with akey := some key, acert := body ++ Config.ecdsaSign Config.deviceKey (sha384 body) })
  | none => s.awaitKey .attest

/-- A key whose wait is over is drawn. -/
def State.serveKey (s : State) : KeyUse → State
  | .part x => let (t, code) := s.createPart x; t.answer code []
  | .own => s.drawOwnKey
  | .attest => s.drawKey

/-- A key not drawn within 10 ms: HEALTH. -/
def State.failKey (s : State) : KeyUse → State
  | .part _ => s.answer .health []
  | .own => s.report .health
  | .attest => s.report .health

/-- The retest of the entropy source ends: requests and keys that wait are served, or have waited 10 ms and end (08 R185). -/
def execRetestExpiry (pass : Bool) (s : State) : Out :=
  if s.sec.retest.isNone then .next s
  else
    let t := s.endRetest pass
    if pass then .next (s.sec.keyWait.foldl (fun u w => u.serveKey w.1) (t.onSec (fun k => { k with keyWait := [] })))
    else .next ((s.sec.keyWait.filter (fun w => s.waited w.2)).foldl (fun u w => u.failKey w.1)
      (t.onSec (fun k => { k with keyWait := k.keyWait.filter (fun w => !s.waited w.2) })))

/-! ## Published regions (R406-R407) -/

/-- Changes the pages of a partition that lie in a region; an entry of 0 is an absent page. -/
def State.onRegionPages (s : State) (p : PartId) (r : Region) (f : BitVec 64 → BitVec 64) : State :=
  s.onPart p (fun k => { k with pages := (k.pages.map (fun e =>
    if s.frameIn r (pageFrame e.2) then (e.1, f e.2) else e)).filter (fun e => e.2 != 0) })

/-- A withdrawal (R407): mappers lose their pages and are told; the owner may write again. Weight lists stay. -/
def State.withdrawRegion (s : State) (r : Region) : State :=
  let t := r.mappers.foldl (fun u p => u.onRegionPages p r (fun _ => 0)) s
  let t := t.onRegionPages r.owner r (fun e => e &&& ~~~pageShared)
  let t := r.mappers.foldl (fun u p => u.onPart p (fun k => { k with events := k.events ++ [.withdrawn r.id] })) t
  { t with regions := t.regions.filter (fun x => x.id != r.id) }

/-- Destroys a tenant partition: its tables and keys go first, then its resources are cleared and are partition 0's (R408). -/
def State.destroyPart (s : State) (p : PartId) : State :=
  let x := (s.partOf p).spec
  let t := s.onPart p (fun k => { k with keys := none, pages := [], devices := [] })
  let t := (t.regions.filter (fun r => r.owner == p)).foldl (fun u r => u.withdrawRegion r) t
  let t := { t with regions := t.regions.map (fun (r : Region) => { r with mappers := r.mappers.filter (· != p) }) }
  let t := (t.jobs.filter (fun (j : Job) => j.spec.part == p)).foldl (fun (u : State) j =>
    (((u.pier 0).sessions ++ (u.pier 1).sessions).filter (fun y => y.job == j.spec.id)).foldl (fun v y => v.closeSession y.sid) u) t
  let t := t.dropDeferred ((t.jobs.filter (fun (j : Job) => j.spec.part == p)).flatMap (fun j => j.spec.groups.map (·.id)))
  let t := { t with jobs := t.jobs.filter (fun (j : Job) => j.spec.part != p) }
  let t := t.dropUpdates p
  let t := match x with
    | some x => t.handOver 0 false x
    | none => t
  (t.onPart p (fun _ => {})).noteLayout

def execPartitionDestroy (p : PartId) (s : State) : Out :=
  if !s.serves then .next s
  else if p = 0 ∨ !(s.partOf p).live then .next (s.answer .limit [])
  else .next ((s.destroyPart p).answer .done [])

/-- Whole weight-store banks of a quarter that a partition holds. -/
def State.holdsBanks (s : State) (p : PartId) (q : QuarterId) (bank banks : Nat) : Bool :=
  let own := match (s.partOf p).spec with
    | some x => x.wsBanks
    | none => []
  decide (0 < banks ∧ bank + banks ≤ (s.quarter q).cut.ws) &&
    (List.range banks).all (fun i => if p = 0 then s.liveSpecs.all (fun x => !x.wsBanks.contains (q.val, bank + i))
      else own.contains (q.val, bank + i))

/-- The entry of a weight list (R395). -/
def weightEntry (addr len : Nat) (digest : List Byte) : List Byte :=
  leBytes 8 addr ++ leBytes 8 len ++ digest ++ List.replicate 16 0

/-- The local address of a bank of the weight store. -/
def bankAddr (q : QuarterId) (b : Nat) : Nat := crownBase + q.val * crownSlice + b * bankBytes

/-- An owner publishes whole banks of its own (R406): its pages, and those of whoever maps them, are SH, and the region's entry
joins the weight list of each mapper. -/
def execPublish (p : PartId) (q : QuarterId) (bank banks : Nat) (master copy : Option Nat) (mappers : List PartId)
    (digest : List Byte) (s : State) : Out :=
  if digest.length ≠ 48 then .fault .illFormed
  else if !s.serves ∨ !(p = 0 ∨ (s.partOf p).live) then .next s
  else if !s.holdsBanks p q bank banks ∨ s.regions.any (fun r => r.quarter == q && decide (r.bank < bank + banks ∧ bank < r.bank + r.banks))
      ∨ mappers.any (fun m => m == p || !(s.partOf m).live) then
    .next (s.refuse p (s.ownerAt (bankAddr q bank)))
  else
    let id := s.regions.foldl (fun n r => max n (r.id + 1)) 0
    let r : Region := ⟨id, p, q, bank, banks, master, copy, mappers, digest⟩
    let t := { s with regions := s.regions ++ [r] }
    let t := (p :: mappers).foldl (fun u m => u.onRegionPages m r (fun e => e ||| pageShared)) t
    let entry := weightEntry (bankAddr q bank) (banks * bankBytes) digest
    let t := mappers.foldl (fun u m => u.onPart m (fun k => { k with weights := k.weights ++ [entry] })) t
    .next (t.answer .done (leBytes 8 id))

/-- A reload of a region waits or runs on its quarter's update engine. -/
def State.reloading (s : State) (r : Region) : Bool :=
  let u := (s.quarter r.quarter).upd
  (u.run.toList ++ u.queue).any (fun c => match c.op with
    | .reload id _ => id == r.id
    | _ => false)

/-- The owner withdraws a region; a reload in progress completes first. -/
def execWithdraw (p : PartId) (region : Nat) (s : State) : Out :=
  if !s.serves ∨ !(p = 0 ∨ (s.partOf p).live) then .next s
  else match s.regions.find? (fun r => r.id == region) with
    | none => .next (s.refuse p 0)
    | some r =>
      if r.owner ≠ p then .next (s.refuse p r.owner)
      else if s.reloading r then .next s
      else .next ((s.withdrawRegion r).answer .done [])

end Sys2Proof.Machine
end

