-- ==== Sys2Proof/Machine/Trust.lean ====
section
/-! DEFINITION. Quotes, the gauntlet and the debug port (18 R394, R409-R411). -/

namespace Sys2Proof.Machine

/-- Bytes 303:0 of a quote (R394). -/
def State.quoteBody (s : State) (p : PartId) (nonce : List Byte) : List Byte :=
  let lists := if p = 0 then (s.parts.toList.drop 1).flatMap (fun x => x.weights.flatten) else (s.partOf p).weights.flatten
  let tamper := s.sec.tcount + 8 * b2n s.sec.sleepEv + 16 * b2n s.sec.debug
  nonce ++ s.sec.mr.flatten ++ sha384 lists ++ [BitVec.ofNat 8 p.val] ++ leBytes 2 (s.dev + 32768 * b2n s.fabricB)
    ++ [BitVec.ofNat 8 tamper] ++ List.replicate 12 0

/-- A quote is answered with 400 bytes; a tenant may ask for its own partition only. `requester` 0 stands for the steward, a
remote verifier or a neighbour. -/
def execQuote (requester p : PartId) (nonce : List Byte) (s : State) : Out :=
  if nonce.length ≠ 48 then .fault .illFormed
  else match s.sec.akey with
    | none => .next s
    | some key =>
      if !s.serves ∨ !(requester = 0 ∨ (s.partOf requester).live) then .next s
      else if requester ≠ 0 ∧ requester ≠ p then .next (s.refuse requester p)
      else
        let body := s.quoteBody p nonce
        .next (s.answer .done (body ++ Config.ecdsaSign key (sha384 body)))

/-- The measurement log of the running module (R396). -/
def State.measLog (s : State) : Option MeasLog :=
  (s.boot.flash[if s.boot.slot then (1 : Fin 2) else 0]).img.map (fun x =>
    ⟨sha384 x.cfgBytes, x.seq, x.cfgSig, x.config.ownerKey, s.sec.mlog⟩)

/-- What a neighbouring steward obtains together with a quote for partition 0 (R391, R393, R396). -/
def State.evidence (s : State) (quote : List Byte) : Option Evidence := s.measLog.map (fun l => ⟨quote, s.sec.acert, s.boot.chain, l⟩)

/-! ## The gauntlet (R409-R410) -/

/-- The bit of SEC_STAT.CAUSE (R412). -/
def alarmBit : AlarmCause → BitVec 8
  | .mesh => 1 | .light => 2 | .rail => 4 | .reference => 8 | .cold => 16

/-- The volatile keys are gone: partition and session keys, and the attestation key. -/
def State.zeroise (s : State) : State :=
  { s with
    parts := s.parts.map (fun p => { p with keys := none })
    piers := s.piers.map (fun p => { p with sessions := [] })
    sec := { s.sec with akey := none, acert := [], drbgWait := [], keyWait := [] } }

/-- The module is LOCKED and reports over the sideband. -/
def State.lockUp (s : State) : State := { s.onSec (fun k => { k with locked := true }) with sbInt := true }

/-- An event that begins while the module runs: every command ends with REFUSED, every partition ends, and the module leaves
the membership. -/
def State.alarmRunning (s : State) : State :=
  let t := s.endAll .refused
  let t := t.allCores.foldl (fun u c => u.freeGangs c) t
  { t with parts := Vector.replicate 17 {}, regions := [], jobs := [], net := {}, flows := [], heldFlows := [] }

/-- A sensor fires. Alarms within 1 ms of the first are one event; each event raises the fused count. In S3 the event is
kept for the next start; otherwise the module locks. -/
def execGauntletAlarm (cause : AlarmCause) (s : State) : Out :=
  if !s.pwr.alwaysOn then .next s
  else
    let s := s.onSec (fun k => { k with cause := k.cause ||| alarmBit cause })
    let same : Bool := match s.sec.eventAt with
      | some t => decide (s.now ≤ t + 1_000_000)
      | none => false
    if same then .next s
    else
      let s := s.onSec (fun k => { k with eventAt := some s.now, tcount := min 4 (k.tcount + 1) })
      if s.boot.mode ≠ .running ∨ s.sec.locked then .next s.zeroise.lockUp
      else if s.pwrState = 3 then .next (s.zeroise.onSec (fun k => { k with sleepAlarm := true }))
      else .next s.alarmRunning.zeroise.lockUp

/-! ## The debug port (R411) -/

/-- A new challenge from the DRBG; none can be drawn while the source has failed and the interval has run out. -/
def State.newChallenge (s : State) : State :=
  match s.drbgGen 3 with
  | some (t, bits) => t.onSec (fun k => { k with challenge := challengeOf bits (s.dev + 32768 * b2n s.fabricB) })
  | none => s

/-- A debugger returns a signature. A valid one by a listed key destroys every tenant partition and unlocks the port. -/
def execDebugSignature (key sig : List Byte) (s : State) : Out :=
  if !s.serves then .next s
  else if Config.debugKeys.contains key && Config.ecdsaVerify key (sha384 s.sec.challenge) sig then
    let t := ((List.range 16).map (fun i => (Fin.ofNat 17 (i + 1) : PartId))).foldl (fun (u : State) p =>
      if (u.partOf p).live then u.destroyPart p else u) s
    .next (t.onSec (fun k => { k with debug := true }))
  else .next s.newChallenge

end Sys2Proof.Machine
end

