-- ==== Sys2Proof/Machine/Jobs.lean ====
section
/-! DEFINITION. Jobs, stage reports, the step verdict and the step boundary (16 R361-R369, R371; 07 R166-R167; 10 R227-R228;
15 R327; 21 R449). -/

namespace Sys2Proof.Machine

/-! ## Submission -/

/-- A group entry is well formed (R327): at most 256 groups, 1 to 192 local participants in ascending order, at most 4 axes
whose product is the member count. -/
def groupOk (g : GroupSpec) : Bool :=
  decide (g.id < 256) && !g.members.isEmpty && decide (g.axes.length ≤ 4) && decide (g.axes.foldl (· * ·) 1 = g.members.length)
    && g.members.all (fun m => !m.locals.isEmpty && decide (m.locals.length ≤ 192) && m.locals.all (fun c => decide (c < 192))
      && (m.locals.zip (m.locals.drop 1)).all (fun p => decide (p.1 < p.2)))

/-- Crown banks that hold weight store or scratch (11 R251). -/
def State.crownBanks (s : State) : Nat := (allQuarters.map (fun q => (s.quarter q).cut.ws + (s.quarter q).cut.scr)).sum

/-- Why a job is refused, the rules in this order: a fabric B module in standby, the sequence length, the partition and its
cores, what the placement needs, and the gangs by the table of a spawn (09 R195). -/
def State.jobCheck (s : State) (j : JobSpec) : Code :=
  if s.pairMode = 1 ∧ s.fabricB then .limit
  else if 4_194_304 < j.seqLen then .limit
  else if !(j.part == 0 || (s.partOf j.part).live) then .refused
  else if j.cores.any (fun c => decide (s.coreCount ≤ c.val)) then .limit
  else if j.cores.any (fun c => s.part c != j.part) then .refused
  else if s.liveCount * unitBytes < j.dramBytes then .limit
  else if s.crownBanks < j.crownBanks then .limit
  else if s.jobs.any (fun x => x.spec.id == j.id) then
    (if j.part = 0 ∨ s.jobs.any (fun x => x.spec.id == j.id && x.spec.part == j.part) then .limit else .refused)
  else if j.gangs.any (fun g => g.entry.toNat % 8 != 0) then .align
  else if j.gangs.any (fun g => g.threads == 0 || decide (32 < g.threads) || !j.cores.contains g.core) then .shape
  else if !j.groups.all groupOk ∨ j.updPerQuarter.length ≠ 4 then .shape
  else if j.cores.any (fun c => (s.core c).phys.isNone) then .unreachable
  else if j.cores.any (fun c => (s.quarter (s.quarterOf c)).tripped) then .thermal
  else if j.gangs.any (fun g => s.coreOn g.core && (s.gang g.core g.gang).status != .free) then .limit
  else .done

/-- Who owns what a job was refused: its first core of another partition, else the job that has its number. -/
def State.jobOwner (s : State) (j : JobSpec) : PartId :=
  match j.cores.find? (fun c => s.part c != j.part) with
  | some c => s.part c
  | none => ((s.jobs.find? (fun x => x.spec.id == j.id)).map (·.spec.part)).getD 0

/-- A job as the steward holds it: L is 16 at job start, and the clean-step limit 2,000 unless it is set in range (R167). -/
def newJob (j : JobSpec) : Job :=
  { spec := { j with cleanLimit := if 1 ≤ j.cleanLimit ∧ j.cleanLimit ≤ 65535 then j.cleanLimit else 2000 }
    state := .waiting, epoch := j.epoch, l := 16, clean := 0, floor := 0, reports := [], avg := none, losses := 0, spikes := 0
    committed := 0, log := [], placing := false, past := [] }

/-- A job is submitted: refused, or queued, its cores requested and, once they are all ON, started (R369). -/
def execJobSubmit (j : JobSpec) (s : State) : Out :=
  if !s.serves then .next s
  else match s.jobCheck j with
    | .done =>
      let t := { s.writeGroups j.groups with jobs := s.jobs ++ [newJob j] }
      let doms := j.cores.filterMap s.coreDom
      let t := (t.raise (fun d => doms.contains d)).onPwr (fun p => { p with s1Since := none })
      .next (t.launchReady.answer .done [])
    | .refused => .next (s.refuse j.part (s.jobOwner j))
    | c => .next (s.answer c [])

/-! ## Reports and the verdict (R361) -/

/-- Every stage has reported a step. -/
def Job.reported (j : Job) (step : Nat) : Bool := j.spec.stages.all (fun g => j.reports.contains (g, step))

/-- A stage reports that its backward pass of a step is complete; the boundary that every stage has reported is committed
(10 R228). -/
def execStageReport (job stage : Nat) (step : BitVec 16) (s : State) : Out :=
  match s.jobs.find? (fun j => j.spec.id == job) with
  | some j =>
    if !s.serves ∨ j.state ≠ .running ∨ !j.spec.stages.contains stage ∨ j.reports.contains (stage, step.toNat) then .next s
    else .next (s.onJob job (fun j =>
      let k := { j with reports := j.reports ++ [(stage, step.toNat)] }
      { k with committed := if k.reported step.toNat then max k.committed step.toNat else k.committed }))
  | none => .next s

/-- The step whose verdict can be formed: every stage has reported it, and each quarter has accepted the commands the job
assigns to it (R361). A quarter with none assigned has nothing to wait for. -/
def State.stepReady (s : State) (j : Job) : Option Nat :=
  (j.reports.map (·.2)).find? (fun st => j.reported st && allQuarters.all (fun q =>
    let n := nth 0 j.spec.updPerQuarter q.val
    n == 0 || ((s.upd q).nstep == st && (s.upd q).acc == n)))

/-- The module's own indicator: a quarter of the job found a non-finite gradient. -/
def State.stepNf (s : State) (j : Job) : Bool :=
  allQuarters.any (fun q => nth 0 j.spec.updPerQuarter q.val != 0 && (s.upd q).nf)

/-- The loss monitor (R366): the job after the loss, whether it is a spike, and whether that demands a skip. -/
def Job.watch (j : Job) (loss : Word) : Job × Bool :=
  let spike : Job := { j with spikes := j.spikes + 1 }
  let mix (a : Word) : Word := f32Add (f32Mul j.spec.alpha a) (f32Mul (f32Sub 0x3F800000 j.spec.alpha) loss)
  if !f32IsFin loss then (spike, false)
  else
    let seen (k : Job) : Job := { k with losses := j.losses + 1 }
    match j.avg with
    | none => (seen { j with avg := some loss }, false)
    | some a =>
      if j.losses < j.spec.warmup then (seen { j with avg := some (mix a) }, false)
      else if (f32 (f32Mul a j.spec.threshold)).lt (f32 loss) then (seen spike, j.spec.spikeAct)
      else (seen { j with avg := some (mix a) }, false)

/-- The loss scale after a step (07 R167). -/
def Job.rescale (j : Job) (nf skip : Bool) : Job :=
  if nf then { j with l := j.l - 1, clean := 0, floor := if j.l = 0 then satInc 8 j.floor else j.floor }
  else if skip then j
  else if j.clean + 1 = j.spec.cleanLimit then { j with l := min (j.l + 1) 24, clean := 0 }
  else { j with clean := j.clean + 1 }

/-- The steward writes UPD_VERDICT of a quarter (R371). -/
def State.writeVerdict (s : State) (q : QuarterId) (skip : Bool) (ls step : Nat) : State :=
  s.onUpd q (fun u => { u with vValid := true, vSkip := skip, vLs := ls, vStep := step })

/-- The phase record of a step (R367): the phase counters, then NF and SAT of every slot of the job's cores. -/
def State.phaseRecord (s : State) (j : Job) : List Nat :=
  s.phases.toList ++ j.spec.cores.flatMap (fun c => (List.range 64).flatMap (fun i =>
    let t := Tab.get {} (s.core c).qnt.slots i
    [t.nf, t.sat]))

/-- The loss word of this module, where it holds a loss stage (R365); one that cannot be read is free (log 194). -/
def State.lossWord (s : State) (j : Job) : State × List Word :=
  match j.spec.lossAddr with
  | none => (s, [])
  | some a =>
    match s.readRange j.spec.part a 4 with
    | (t, bs, .done) => (t, [w32 (leNat bs)])
    | (t, _, _) => ({ t with free := t.free + 1 }, [Config.freeWord t.free])

/-- An FP32 sum in the order of its words. -/
def sumInOrder : List Word → Word
  | [] => 0
  | w :: ws => ws.foldl f32Add w

/-- The verdict of a step and its boundary. `othersNf` is the indicator of the job's other modules, `loss` has the loss
words that the all-reduce adds before and after this module's own, in its fixed order (07 R167, R365). -/
def execStepBoundary (job : Nat) (othersNf : Bool) (loss : LossWords) (s : State) : Out :=
  match s.jobs.find? (fun j => j.spec.id == job) with
  | none => .next s
  | some j =>
    if !s.serves ∨ j.state ≠ .running then .next s
    else match s.stepReady j with
      | none => .next s
      | some st =>
        if !j.spec.cores.all (fun c => s.qntRoom c) then .next s
        else
          let nf : Bool := othersNf || s.stepNf j
          let (s, own) := s.lossWord j
          let (k, spike) := j.watch (sumInOrder (loss.before ++ own ++ loss.after))
          let skip := nf || spike
          let t := allQuarters.foldl (fun u q => u.writeVerdict q skip j.l st) s
          let t := j.spec.cores.foldl (fun u c => (u.qntPush c .quiet (u.part c) .step).2) t
          let k := k.rescale nf skip
          let k := { k with
            reports := k.reports.filter (fun r => r.2 != st), log := k.log ++ [(st, s.now, t.phaseRecord j)] }
          let t := t.onJob job (fun _ => k)
          .next (if k.l = j.l ∧ k.clean = j.clean ∧ k.floor = j.floor then t else t.writeScale k)

/-- A write of UPD_VERDICT, by the steward only (R357, R371). -/
def execUpdVerdict (q : QuarterId) (v : Word) (s : State) : Out :=
  if s.dom (domFabric q.val) ≠ .on ∧ s.dom (domFabric q.val) ≠ .gated then .next s
  else .next (s.onUpd q (fun u => { u with
    vValid := v.getLsbD 31, vSkip := v.getLsbD 30, vLs := bitsOf v.toNat 20 16, vStep := bitsOf v.toNat 15 0 }))

end Sys2Proof.Machine
end

