-- ==== Sys2Proof/Machine/Boot.lean ====
section
/-! DEFINITION. Flash slots, start-up, recovery, field update and live activation (19; 01 R23; 11 R251; 12 R268; 22 R460-R461). -/

namespace Sys2Proof.Machine

/-! ## Slots (R418-R420) -/

/-- Bytes 207:0 of a header, the SEQ and the configuration digest taken as given (R418). -/
def headerBytes (x : SlotImage) (seq : Nat) (cfgDigest : List Byte) : List Byte :=
  let len (n : Nat) : List Byte := leBytes 16 n
  leBytes 4 x.magic.toNat ++ leBytes 4 seq ++ [BitVec.ofNat 8 x.svn] ++ List.replicate 7 0
    ++ len x.steward.length ++ len x.controllers.flatten.length ++ len x.cfgBytes.length
    ++ nth [] x.digests 0 ++ nth [] x.digests 1 ++ cfgDigest

/-- FWSIG verifies under the Wobusal firmware key, with SEQ and the configuration digest taken as zero. -/
def fwSigOk (x : SlotImage) : Bool :=
  Config.ecdsaVerify Config.firmwareKey (sha384 (headerBytes x 0 (List.replicate 48 0))) x.fwSig

/-- CFGSIG verifies over the configuration digest and SEQ under the owner key that the image carries, whose SHA-384 is
OWNERPUB and, once fused, the current fused owner (R419). -/
def State.cfgSigOk (s : State) (x : SlotImage) : Bool :=
  sha384 x.config.ownerKey == x.ownerPub
    && (match s.sec.owners.getLast? with | some o => o == x.ownerPub | none => true)
    && Config.ecdsaVerify x.config.ownerKey (sha384 (nth [] x.digests 2 ++ leBytes 4 x.seq.toNat)) x.cfgSig

/-- The coordinate table's line for the straps (R423, 14 R306). -/
def coordOf (c : CfgImage) (tray slot : Nat) : Option CoordRow :=
  c.coords.find? (fun r => r.tray == tray && r.slot == slot && decide (r.x < 8 ∧ r.y < 8 ∧ r.z < 12 ∧ r.w < 16))

/-- Partitions of a table hold nothing in common. -/
def tableApart : List PartSpec → Bool
  | [] => true
  | x :: r => r.all (fun y => specsApart x y && x.id != y.id) && tableApart r

/-- The checks of R423. -/
def cfgOk (c : CfgImage) (tray slot : Nat) : Bool :=
  (coordOf c tray slot).isSome
    && decide (c.cuts.length = 4) && c.cuts.all (fun k => decide (k.ws ≤ 56 ∧ k.ws + k.scr + k.sc ≤ 64))
    && decide (c.hbmIlv < 3)
    && (List.range 4).all (fun q => decide ((c.excluded.filter (fun e => e.1 == q)).length ≤ 4))
    && c.sideEth.all (fun e => (sidePorts.map (·.val)).contains e.1)
    && decide (c.members.length ≤ 12288)
    && c.parts.all (fun x => x.id != 0) && tableApart c.parts

/-- What the checks of the firmware find, before the straps are read. -/
def State.slotFirm (s : State) (f : FlashSlot) : Bool :=
  match f.img with
  | none => false
  | some x => !f.intent && !f.complete && x.magic == 0x4B52_5A31 && x.blocksOk && decide (s.boot.svn ≤ x.svn)
      && x.digests == [sha384 x.steward, sha384 x.controllers.flatten, sha384 x.cfgBytes] && fwSigOk x

/-- A valid slot (R420). -/
def State.slotValid (s : State) (f : FlashSlot) (tray slot : Nat) : Bool :=
  s.slotFirm f && (match f.img with | some x => s.cfgSigOk x && cfgOk x.config tray slot | none => false)

/-- STATE_A or STATE_B of BOOT_STAT (R430). -/
def State.slotBits (s : State) (f : FlashSlot) (tray slot : Nat) : Nat :=
  if f.intent ∧ f.complete then 3 else if f.intent then 2 else if s.slotValid f tray slot then 0 else 1

def State.onBoot (s : State) (f : Boot → Boot) : State := { s with boot := f s.boot }

/-- Reports both slots. -/
def State.noteSlots (s : State) (tray slot : Nat) : State :=
  s.onBoot (fun b => { b with
    stateA := s.slotBits b.flash[0] tray slot, stateB := s.slotBits b.flash[1] tray slot })

/-- The slot to boot among those that pass: the higher SEQ, and A when they are equal. -/
def chooseSlot (a b : Option SlotImage) : Option (Bool × SlotImage) :=
  match a, b with
  | some x, some y => if x.seq.toNat < y.seq.toNat then some (true, y) else some (false, x)
  | some x, none => some (false, x)
  | none, some y => some (true, y)
  | none, none => none

/-! ## The crown cut in force (11 R251) -/

def cutTotal (c : CutCfg) : Nat := c.ws + c.scr + c.sc

/-- The region that gives up its highest bank. -/
def shrinkCut (c : CutCfg) : CutCfg :=
  if 0 < c.sc then { c with sc := c.sc - 1 } else if 0 < c.scr then { c with scr := c.scr - 1 } else { c with ws := c.ws - 1 }

/-- Maps one bank out: the highest unused good bank takes its place, or the highest bank of a region is made unused first. -/
def mapOutBank (bad : List Nat) (b : Nat) : Nat → CutCfg × List (Nat × Nat) → CutCfg × List (Nat × Nat)
  | 0, x => x
  | n + 1, (c, l) =>
    let l := l.filter (fun e => decide (e.1 < cutTotal c))
    if cutTotal c ≤ b then (c, l)
    else match ((List.range 64).reverse).find? (fun k => decide (cutTotal c ≤ k) && !bad.contains k && l.all (fun e => e.2 != k)) with
      | some k => (c, l ++ [(b, k)])
      | none => mapOutBank bad b n (shrinkCut c, l)

/-- The cut and the replacements of a quarter. -/
def cutInForce (c : CutCfg) (bad : List Nat) : CutCfg × List (Nat × Nat) :=
  (bad.mergeSort (· ≤ ·)).foldl (fun x b => mapOutBank bad b 65 x) (c, [])

/-- A zone holds a bank in use. -/
def zoneUsed (x : CutCfg × List (Nat × Nat)) (z : Nat) : Bool :=
  decide (16 * z < cutTotal x.1) || x.2.any (fun e => zoneOfBank e.2 == z)

/-! ## The core map (01 R23) -/

/-- Healthy physical cores of a quarter, ascending. -/
def State.healthyCores (s : State) (c : CfgImage) (q : Nat) : List Nat :=
  (List.range 52).filter (fun p => !s.badCores.contains (q, p) && !c.excluded.contains (q, p))

/-- The physical core that a logical core is bound to at start. -/
def State.bindOf (s : State) (maps : List (List Nat)) (n : Nat) : Option Nat :=
  if n < s.coreCount then (nth [] maps (n / s.perQuarter))[n % s.perQuarter]? else none

/-! ## Stacked-DRAM channels (12 R268) -/

/-- The start-up channel map of stack `k`. -/
def State.channelMap (s : State) (k : Nat) : BitVec 32 :=
  maskOf ((List.range 32).filter (fun c => !s.badChannels.contains (k, c) && !Config.failsTraining s.now k c))

/-! ## Start-up (R421-R422) -/

def clampTo (lo hi n : Nat) : Nat := max lo (min hi n)

/-- The module enters RECOVERY with no valid slot; the measurement registers are zero. -/
def State.enterRecovery (s : State) : State :=
  { (s.onBoot (fun b => { b with mode := .recovery })).onSec (fun k => { k with mr := List.replicate 4 (List.replicate 48 0) }) with
    sbInt := true }

/-- A fault that start-up does not leave, reported over the sideband (01 R23, 12 R268). -/
def State.stuckAtStart (s : State) (f : StartFault) : State :=
  { (s.onBoot (fun b => { b with mode := .startFault })).addLog .startFault with sbFault := some f }

/-- The quarters, from the image and what was mapped out (steps 6 and 7). -/
def State.startQuarter (s : State) (c : CfgImage) (q : Nat) (spares : List Nat) (old : Quarter) : Quarter :=
  let bad := (s.badBanks.filter (fun b => b.1 == q)).map (·.2)
  let x := cutInForce (nth ⟨0, 0, 0, false, false⟩ c.cuts q) bad
  let mx := clampTo 10 20 c.clkMax
  { old with
    cut := x.1, remap := x.2, ilv := c.hbmIlv, clkMax := mx, freq := 2 * mx, spares
    chmap := (List.range 3).map (fun j => s.channelMap (3 * q + j)) }

/-- A port at a start: enabled and training; an ETH port has no link protocol and its lanes hunt (14 R307). -/
def startPort (eth : Bool) (old : Port) : Port := { old with en := true, eth, retraining := !eth, narrowed := false }

/-- The piers: ports enabled and training, side modes, stall timeout and pair mode (steps 7 and 8). -/
def startPier (c : CfgImage) (i : Nat) (old : Pier) : Pier :=
  let eth (n : Nat) : Bool := c.sideEth.any (fun e => e.1 == n && e.2)
  { old with
    ports := if old.alive then Vector.ofFn (fun k => startPort (eth (26 * i + k.val)) old.ports[k.val])
      else old.ports
    stallMs := clampTo 1 10000 c.stallMs
    coll := { old.coll with pairWait := clampTo 1 1000 c.pairWait, pairMode := if c.pairMode < 3 then c.pairMode else 0 } }

/-- The domains after step 8: everything of a live pier and of the quarters is ON but the core groups and unused zones. -/
def State.startDom (s : State) (cuts : List (CutCfg × List (Nat × Nat))) (d : DomainId) : DomState :=
  match DomKind.of d with
  | .group _ _ => .off
  | .zone q z => if zoneUsed (nth (⟨0, 0, 0, false, false⟩, []) cuts q) z then .on else .off
  | .fabric _ => .on
  | .ports p _ => if (s.pier (Fin.ofNat 2 p)).alive then .on else .off
  | .switch p => if (s.pier (Fin.ofNat 2 p)).alive then .on else .off
  | .steward p => if (s.pier (Fin.ofNat 2 p)).alive then .on else .off

/-- MR0 to MR2 as the boot ROM and the steward extend them (18 R392). -/
def State.measureBoot (s : State) (x : SlotImage) : State :=
  let t := s.onSec (fun k => { k with mr := List.replicate 4 (List.replicate 48 0) })
  let t := t.extendMr 0 (sha384 x.steward)
  (x.controllers.foldl (fun u i => u.extendMr 1 (sha384 i)) t).extendMr 2 (sha384 x.cfgBytes)

/-- The owner fuses after a start: the booted slot's owner if they were blank, then a successor that its image names while a
set is left (R419). -/
def State.fuseOwners (s : State) (x : SlotImage) : List (List Byte) :=
  let l := if s.sec.owners.isEmpty then [x.ownerPub] else s.sec.owners
  match x.config.successor with
  | some key => if l.length < 4 ∧ !l.contains (sha384 key) then l ++ [sha384 key] else l
  | none => l

/-- An erase that was cut off is finished once the module has started (R425). -/
def finishErase (f : FlashSlot) : FlashSlot := if f.intent ∧ !f.complete then { f with img := none, complete := true } else f

/-- Steps 3 to 8 with the chosen slot. -/
def State.bootSlot (s : State) (b : Bool) (x : SlotImage) (row : CoordRow) : State :=
  let c := x.config
  let maps := (List.range 4).map (s.healthyCores c)
  let quarters := Vector.ofFn (fun (q : Fin 4) =>
    s.startQuarter c q.val (((nth [] maps q.val).drop s.perQuarter).take 4) s.quarters[q.val])
  let cuts := quarters.toList.map (fun k => (k.cut, k.remap))
  let dev := row.x + 8 * row.y + 64 * row.z + 768 * row.w
  let names := c.members
  let low := (names.filter (fun n => decide (n < 12288))).mergeSort (· ≤ ·)
  let t := { s.measureBoot x with
    dev, fabricB := row.fabricB
    cores := Vector.ofFn (fun (n : Fin 192) => { s.cores[n.val] with
      phys := s.bindOf maps n.val, arr := { s.cores[n.val].arr with fillEn := c.fill } })
    quarters, piers := Vector.ofFn (fun (i : Fin 2) => startPier c i.val s.piers[i.val])
    badChannels := [] }
  let t := t.onPwr (fun p => { p with
    dom := Vector.ofFn (fun d => s.startDom cuts d), idleMs := c.idleMs % 65536, cap := min c.pwrCap 3600, s1Since := some s.now })
  let t := t.onBoot (fun k => { k with
    mode := .running, slot := b, seq := x.seq.toNat % 65536, lock := true, cfg := some c
    steward := if (s.pier 0).alive then 0 else 1, flash := k.flash.map finishErase })
  let t := t.onSec (fun k => { k with
    pad := max 1000 (min c.partPad (2 ^ 24 - 1)), owners := s.fuseOwners x, sleepEv := k.sleepAlarm, sleepAlarm := false
    challenge := k.challenge.take 48 ++ leBytes 2 (dev + 32768 * b2n row.fabricB) ++ List.replicate 14 0 })
  let t := t.drawOwnKey.drawKey.setMembers 0 names low[0]? low[1]?
  let t := t.onRoutes (fun r => c.routes.foldl (fun (r : Tab (Option Nat)) e => Tab.set none r e.1 (some e.2)) r)
  c.parts.foldl (fun u p => (u.createPart p).1) t

/-- Start-up from reset with the straps as read: no slot that passes is RECOVERY, even parity an ID fault, too few cores in a
quarter or no live channel a fault it does not leave. -/
def execStartUp (trayId slotId : Nat) (parity : Bool) (s : State) : Out :=
  if s.boot.mode ≠ .reset ∨ s.sec.locked ∨ !s.pwr.alwaysOn then .next s
  else
    let fa := s.boot.flash[0]
    let fb := s.boot.flash[1]
    let s := s.onBoot (fun b => { b with straps := (trayId, slotId) })
    let s := s.noteSlots trayId slotId
    if !s.slotFirm fa ∧ !s.slotFirm fb then .next s.enterRecovery
    else if !parity then .next { s.onBoot (fun b => { b with mode := .idFault }) with sbInt := true, sbFault := some .straps }
    else
      let pass (f : FlashSlot) : Option SlotImage := if s.slotValid f trayId slotId then f.img else none
      match chooseSlot (pass fa) (pass fb) with
      | none => .next s.enterRecovery
      | some (b, x) =>
        match coordOf x.config trayId slotId with
        | none => .next s.enterRecovery
        | some row =>
          let few := ([0, 1, 2, 3] : List QuarterId).find? (fun q => decide ((s.healthyCores x.config q.val).length < s.perQuarter))
          match few with
          | some q => .next (s.stuckAtStart (.cores q))
          | none =>
            if (List.range 12).all (fun k => s.channelMap k == 0) then .next (s.stuckAtStart .channels)
            else if !(s.pier 0).alive ∧ !(s.pier 1).alive then .next (s.stuckAtStart .piers)
            else .next (s.bootSlot b x row)

/-- P0 gives no signal within 500 ms of reset: it is treated as failed and P1 starts the module (R421). -/
def execStewardSignalTimeout (s : State) : Out :=
  if s.boot.mode = .reset ∧ s.boot.resetAt + 500_000_000 ≤ s.now ∧ !s.sec.locked ∧ (s.pier 0).alive ∧ s.pwr.alwaysOn then
    .next ((s.onPier 0 (fun p => { p with alive := false })).onBoot (fun b => { b with steward := 1 }))
  else .next s

/-! ## Update (R422, R424-R429, 22 R461) -/

/-- Writing a slot (R427): erased, programmed block by block, and the header last. A body that cannot be programmed leaves the
slot half-written, with the marks of its erase in the old header (R424). -/
def State.writeSlot (s : State) (i : Fin 2) (x : SlotImage) : State × Code :=
  let put (f : FlashSlot) : State := s.onBoot (fun b => { b with flash := b.flash.set i.val f })
  if x.blocksOk then (put { img := some x }, .done) else (put { intent := true, complete := true }, .uncorrectable)

/-- The image command of the sideband: taken in RECOVERY only, into slot A; then the module restarts. -/
def execImage (x : SlotImage) (s : State) : Out :=
  if !s.pwr.alwaysOn then .next s
  else if s.boot.mode ≠ .recovery ∨ s.sec.locked then .next (s.sideband [] .refused)
  else
    let (t, code) := s.writeSlot 0 x
    if code = .done then .next (t.coldReset.sideband [] .done)
    else .next (({ t.noteSlots t.boot.straps.1 t.boot.straps.2 with sbInt := t.sbInt }).sideband [] code)

/-- The inactive slot. -/
def State.spareSlot (s : State) : Fin 2 := if s.boot.slot then 0 else 1

/-- The end of an update, in BOOT_UPD.CODE and for its submitter. -/
def State.endUpdate (s : State) (code : Code) : State := (s.onBoot (fun b => { b with updCode := code })).answer code []

/-- An update by the owner of partition 0: checked before anything is erased, written to the inactive slot, and the slot read
back and checked. -/
def execFieldUpdate (owner : List Byte) (x : SlotImage) (s : State) : Out :=
  if !s.serves then .next s
  else if s.boot.cfg.map (·.ownerKey) ≠ some owner then .next (s.answer .refused [])
  else
    let active := match (s.boot.flash[if s.boot.slot then (1 : Fin 2) else 0]).img with
      | some y => y.seq.toNat
      | none => 0
    if s.boot.updBusy ∨ x.seq.toNat ≤ active ∨ !fwSigOk x ∨ !s.cfgSigOk x then .next (s.endUpdate .limit)
    else
      let (t, code) := s.writeSlot s.spareSlot x
      let (tray, slot) := t.boot.straps
      let t := t.noteSlots tray slot
      .next (t.endUpdate (if code = .done ∧ !t.slotValid { img := some x } tray slot then .limit else code))

/-- Live activation (R428): the stewards swap, the new one with the new slot's firmware, which MR3 takes in; SVN is fused up.
`ok` false is a standby whose pier fails on the way (R429). -/
def execLiveActivation (ok : Bool) (s : State) : Out :=
  let other : PierId := Fin.ofNat 2 (s.boot.steward.val + 1)
  let f := s.boot.flash[s.spareSlot]
  if !s.serves then .next s
  else match f.img with
    | none => .next (s.endUpdate .limit)
    | some x =>
      if !s.slotValid f s.boot.straps.1 s.boot.straps.2 ∨ x.seq.toNat % 65536 = s.boot.seq then .next (s.endUpdate .limit)
      else if !ok ∨ !(s.pier other).alive ∨ s.dom (domSteward other.val) ≠ .on then .next (s.endUpdate .unreachable)
      else
        let t := (s.onBoot (fun b => { b with steward := other, activated := true, svn := max b.svn x.svn })).extendMr 3 (sha384 x.steward)
        .next (t.endUpdate .done)

/-- BOOT_LOCK.LOCK is set: every RWL field, this one included, is read-only until reset (R431). -/
def execBootLock (s : State) : Out := if s.pwr.alwaysOn then .next (s.onBoot (fun b => { b with lock := true })) else .next s

end Sys2Proof.Machine
end

