-- ==== Sys2Proof/Machine/Layout.lean ====
section
/-! DEFINITION. The layout engine (13 R287-R293): its queue, the checks of a layout descriptor, the element map, and the
in-place transpose. -/

namespace Sys2Proof.Machine

def State.onLay (s : State) (c : CoreId) (f : Lay → Lay) : State := s.onCore c (fun k => { k with lay := f k.lay })

/-! ## The descriptor (R288) -/

/-- One dimension entry; strides of dimension 0 are the element size. -/
structure LayDim where
  ext : Nat
  sbnd : Nat
  org : Int
  rot : Nat
  sstr : Nat
  dstr : Nat
  deriving DecidableEq, Repr

structure LayDesc where
  src : Nat
  dst : Nat
  srcDev : Nat
  dstDev : Nat
  esz : Nat
  xpose : Bool
  rev : Nat
  dims : List LayDim
  deriving DecidableEq, Repr

/-- Bytes of an element. -/
def LayDesc.size (d : LayDesc) : Nat := 2 ^ d.esz

def parseLay (b : List Byte) : LayDesc :=
  let ctl := fieldAt b 16 1
  let size := 2 ^ (ctl % 4)
  let dim (i : Nat) : LayDim :=
    let f (o : Nat) : Nat := fieldAt b (32 + 24 * i + o) 4
    ⟨f 0, f 4, (BitVec.ofNat 32 (f 8)).toInt, f 12, if i = 0 then size else f 16, if i = 0 then size else f 20⟩
  { src := fieldAt b 0 8 % 2 ^ 49, dst := fieldAt b 8 8 % 2 ^ 49
    srcDev := fieldAt b 0 8 / 2 ^ 49, dstDev := fieldAt b 8 8 / 2 ^ 49, esz := ctl % 4, xpose := bitOf ctl 2, rev := ctl / 16
    dims := [dim 0, dim 1, dim 2, dim 3] }

def LayDesc.dim (d : LayDesc) (i : Nat) : LayDim := nth ⟨1, 1, 0, 0, 0, 0⟩ d.dims i

/-- pi of R289. -/
def LayDesc.perm (d : LayDesc) (i : Nat) : Nat := if d.xpose ∧ i < 2 then 1 - i else i

/-- Bytes of the source and destination boxes (R290). -/
def LayDesc.srcBox (d : LayDesc) : Nat := (d.dims.map (fun x => (x.sbnd - 1) * x.sstr)).sum + d.size
def LayDesc.dstBox (d : LayDesc) : Nat := (d.dims.map (fun x => (x.ext - 1) * x.dstr)).sum + d.size

/-- Source coordinate `j[d]` of destination element `i` (R289). -/
def LayDesc.coord (d : LayDesc) (i : List Nat) (k : Nat) : Nat :=
  let x := d.dim k
  let e := (d.dim (d.perm k)).ext
  let u := nth 0 i (d.perm k)
  let v := if bitOf d.rev k then e - 1 - u else u
  let w := (v + x.rot % e) % e
  (min (max (x.org + w) 0) (x.sbnd - 1)).toNat

/-- The source address of destination element `i`. -/
def LayDesc.srcAt (d : LayDesc) (i : List Nat) : Nat :=
  d.src + ((List.range 4).map (fun k => d.coord i k * (d.dim k).sstr)).sum

def LayDesc.dstAt (d : LayDesc) (i : List Nat) : Nat :=
  d.dst + ((List.range 4).map (fun k => nth 0 i k * (d.dim k).dstr)).sum

/-- Elements of a 64-byte row: B of R291. -/
def LayDesc.side (d : LayDesc) : Nat := 64 / d.size

/-- The in-place transpose of R291. -/
def State.inPlace (s : State) (c : CoreId) (p : PartId) (d : LayDesc) : Bool :=
  let x := d.dim 0
  let y := d.dim 1
  let n := x.ext
  let own := s.rangeIn p d.src d.dstBox .write (s.isCmemOf c)
  d.xpose && d.src == d.dst && own && x.sbnd == n && y.ext == n && y.sbnd == n && decide (n ≤ 4096) && n % d.side == 0
    && [d.dim 2, d.dim 3].all (fun z => z.ext == 1 && z.sbnd == 1) && y.sstr == y.dstr
    && d.dims.all (fun z => z.org == 0 && z.rot == 0) && d.rev == 0

/-- Local address of the first element of each destination row (fixed i1, i2, i3). -/
def LayDesc.rows (d : LayDesc) : List Nat :=
  (List.range (d.dim 3).ext).flatMap (fun i3 => (List.range (d.dim 2).ext).flatMap (fun i2 =>
    (List.range (d.dim 1).ext).map (fun i1 => d.dstAt [0, i1, i2, i3])))

/-- Destination lines, each once, by physical address. -/
def State.layLines (s : State) (p : PartId) (d : LayDesc) : List Nat :=
  (d.rows.flatMap (fun a => linesOf a ((d.dim 0).ext * d.size))).eraseDups.filterMap (fun l =>
    match s.resolveLocal p (l * 64) .write with
    | .ok x => some x
    | .error _ => none)

/-- Every destination line that needs a credit is covered (R290, 11 R239). -/
def State.layCredit (s : State) (c : CoreId) (p : PartId) (d : LayDesc) : Bool :=
  let ns := (s.layLines p d).map (s.need c)
  let rs := ns.filterMap (fun x => match x with | .credit r => some r | _ => none)
  !ns.any (· == .none_) && rs.all (fun r => decide (64 * rs.count r ≤ s.balance c r))

/-- SRC or DST names another module (R287): with bits 63:49 zero it is the local address of R288, else those bits must
name this module (log 182). -/
def State.layElsewhere (s : State) (p : PartId) (dev a : Nat) : Bool :=
  dev != 0 && (match s.localOf p (BitVec.ofNat 64 (dev * 2 ^ 49 + a)) with | .ok _ => false | .error _ => true)

/-- The table of R290 after the descriptor's own address. -/
def State.layCheck (s : State) (c : CoreId) (p : PartId) (d : LayDesc) : Code :=
  let us := s.rowUnit p d.src .read
  let ud := s.rowUnit p d.dst .write
  let strided := (d.dims.drop 1)
  let range := if s.checkRange p d.src d.srcBox .read ≠ .done then s.checkRange p d.src d.srcBox .read
    else s.checkRange p d.dst d.dstBox .write
  let bad (n : Nat) : Bool := n == 0 || decide (2 ^ 24 < n)
  if d.src % us ≠ 0 ∨ d.dst % ud ≠ 0 ∨ strided.any (fun x => x.sstr % us != 0 || x.dstr % ud != 0) then .align
  else if d.esz = 3 then .format
  else if d.dims.any (fun x => bad x.ext || bad x.sbnd) then .shape
  else if s.layElsewhere p d.srcDev d.src ∨ s.layElsewhere p d.dstDev d.dst then .unmapped
  else if range ≠ .done then range
  else if d.src < d.dst + d.dstBox ∧ d.dst < d.src + d.srcBox ∧ !s.inPlace c p d then .overlap
  else if !s.layCredit c p d then .noCredit
  else .done

/-! ## Moving data (R289, R291, R293) -/

/-- The source bytes of `cols` destination elements from `i0` of one row. -/
def Run.layRow (r : Run) (d : LayDesc) (i0 i1 i2 i3 cols : Nat) : Run × List Byte :=
  (List.range cols).foldl (fun (q : Run × List Byte) x =>
    let (t, e) := q.1.read (d.srcAt [i0 + x, i1, i2, i3]) d.size
    (t, q.2 ++ e)) (r, [])

/-- One block of the destination: `rows` x `cols` elements from (i0, i1). A transpose reads it whole into the register
tile, then writes it row by row; without XPOSE each row is read and written on its own (R292). -/
def Run.layBlock (r : Run) (d : LayDesc) (i0 i1 i2 i3 cols rows : Nat) : Run :=
  if d.xpose then
    let (r, data) := (List.range rows).foldl (fun (q : Run × List (List Byte)) y =>
      let (t, bs) := q.1.layRow d i0 (i1 + y) i2 i3 cols
      (t, q.2 ++ [bs])) (r, [])
    r.each data.zipIdx (fun r x => r.write (d.dstAt [i0, i1 + x.2, i2, i3]) x.1)
  else
    r.each (List.range rows) (fun r y =>
      let (r, bs) := r.layRow d i0 (i1 + y) i2 i3 cols
      r.write (d.dstAt [i0, i1 + y, i2, i3]) bs)

/-- All blocks in ascending destination order. -/
def Run.layCopy (r : Run) (d : LayDesc) : Run :=
  let b := d.side
  let n0 := (d.dim 0).ext
  let n1 := (d.dim 1).ext
  r.each (List.range (d.dim 3).ext) (fun r i3 => r.each (List.range (d.dim 2).ext) (fun r i2 =>
    r.each (List.range (ceilDiv n1 b)) (fun r y => r.each (List.range (ceilDiv n0 b)) (fun r x =>
      r.layBlock d (x * b) (y * b) i2 i3 (min b (n0 - x * b)) (min b (n1 - y * b))))))

/-- Reads block (a, b) of the square: B rows of 64 bytes. -/
def Run.tileRead (r : Run) (d : LayDesc) (a b : Nat) : Run × List (List Byte) :=
  (List.range d.side).foldl (fun (q : Run × List (List Byte)) y =>
    let (t, bs) := q.1.read (d.dst + (a * d.side + y) * (d.dim 1).dstr + b * 64) 64
    (t, q.2 ++ [bs])) (r, [])

/-- Writes the transpose of a tile at block (a, b). -/
def Run.tileWrite (r : Run) (d : LayDesc) (a b : Nat) (tile : List (List Byte)) : Run :=
  r.each (List.range d.side) (fun r y =>
    r.write (d.dst + (a * d.side + y) * (d.dim 1).dstr + b * 64) (tile.flatMap (fun row => (row.drop (y * d.size)).take d.size)))

/-- Exchanges each pair of blocks (a, b) and (b, a), and transposes diagonal blocks (R291). -/
def Run.layInPlace (r : Run) (d : LayDesc) : Run :=
  let k := (d.dim 0).ext / d.side
  r.each (List.range k) (fun r a => r.each ((List.range (k - a)).map (· + a)) (fun r b =>
    let (r, x) := r.tileRead d a b
    let (r, y) := if a = b then (r, x) else r.tileRead d b a
    if a = b then r.tileWrite d a a x else (r.tileWrite d b a x).tileWrite d a b y))

/-! ## Commands -/

def execLayCopy (h : Th) (desc : Addr) (cpl : Reg) (s : State) : Out :=
  s.engine h cpl (s.core h.core).lay.room (fun c s =>
    if s.deviceBad (s.part h.core) desc then
      (s.onLay h.core (fun l => { l with code := Code.unmapped })).finish (.thread c) .unmapped
    else s.onLay h.core (fun l => { l with queue := l.queue ++ [⟨c, s.part h.core, desc⟩] }))

/-- Completes a layout command, leaving its code in LAY_STAT. -/
def State.layEnd (s : State) (c : CoreId) (k : LayCmd) (code : Code) : State :=
  (s.onLay c (fun l => { l with run := none, code := code })).finish (.thread k.owner) code

/-- The next command starts: its descriptor is read and checked. -/
def layCopyStartAt (c : CoreId) (s : State) : Out :=
  let l := (s.core c).lay
  match l.queue with
  | k :: rest =>
    if !s.coreOn c ∨ l.run.isSome then .next s
    else
      let s := s.onLay c (fun l => { l with queue := rest })
      .next (match s.readDesc k.part k.desc 128 64 false with
        | (t, .error e) => t.layEnd c k e
        | (t, .ok bs) =>
          let d := parseLay bs
          match t.layCheck c k.part d with
          | .done => t.onLay c (fun l => { l with run := some (k, bs), inplace := t.inPlace c k.part d })
          | e => t.layEnd c k e)
  | [] => .next s

def execLayCopyStart (c : CoreId) (s : State) : Out := asCore c (layCopyStartAt c) s

/-- The running command moves its data and completes, or stops on a read error (R293). -/
def layCopyCompleteAt (c : CoreId) (s : State) : Out :=
  let l := (s.core c).lay
  match l.run with
  | some (k, bs) =>
    if !s.coreOn c then .next s
    else
      let d := parseLay bs
      let r := Run.alone s c k.part
      let r := if l.inplace then r.layInPlace d else r.layCopy d
      .next (r.s.layEnd c k r.code)
  | none => .next s

def execLayCopyComplete (c : CoreId) (s : State) : Out := asCore c (layCopyCompleteAt c) s

end Sys2Proof.Machine
end

