-- ==== Sys2Proof/Machine/SnapEvents.lean ====
section
/-! DEFINITION. Snapshot triggers from the fabric and from software, and releases (20 R434-R438). -/

namespace Sys2Proof.Machine

/-- A received fabric trigger (R437), when the FABRIC source is enabled: discarded while an earlier one waits or more than 1 s
early, taken at once when its target has passed, and otherwise kept. -/
def execFabricTrigger (target : BitVec 64) (s : State) : Out :=
  let t := target.toNat
  let miss : State := s.onSnapg (fun g => { g with missed := satInc 32 g.missed })
  if s.boot.mode ≠ .running ∨ s.sec.locked ∨ s.pwrState = 3 ∨ !s.snapg.srcen.getLsbD 3 then .next s
  else if s.snapg.waiting.isSome ∨ s.now + 1_000_000_000 < t then .next miss
  else if t ≤ s.now then .next (s.moduleTrigger 8 true)
  else .next (s.onSnapg (fun g => { g with waiting := some t }))

/-- Device time reaches the target of the fabric trigger that waits. -/
def execTargetTime (s : State) : Out :=
  match s.snapg.waiting with
  | some t =>
    if t ≤ s.now ∧ s.pwr.alwaysOn then .next ((s.onSnapg (fun g => { g with waiting := none })).trigger 3) else .next s
  | none => .next s

/-- SNAPG_CTL.TRIG (R438). -/
def execTrig (s : State) : Out := if s.pwr.alwaysOn then .next (s.trigger 0) else .next s

/-- SNAPG_CTL.SEND (R437): the sender captures nothing. -/
def execSend (s : State) : Out :=
  if s.pwr.alwaysOn then .next (s.sendTrigger s.snapg.target s.snapg.both) else .next s

/-- Every copy of the module is released. -/
def State.releaseAll (s : State) : State :=
  s.onSnapg (fun g => { g with
    pwr := { g.pwr with valid := false }, copies := g.copies.map (fun c => (c.1, { c.2 with valid := false })) })

/-- SNAPG_CTL.RELEASE (R438). -/
def execRelease (s : State) : Out := if s.pwr.alwaysOn then .next s.releaseAll else .next s

/-- Where a copy's header lies in the register window (R433). -/
def snapHeader : SnapBlock → Nat
  | .core c => c.val * 0x10_0000 + 0x8_0000
  | .quarter q i => 0x1_0000_0000 + q.val * 0x100_0000 + i.val * 0x40_0000 + 0x3F_0000
  | .pier p i => 0x2_0000_0000 + p.val * 0x100_0000 + i.val * 0x40_0000 + 0x3F_0000
  | .pwr => 0x3_0030_0008

/-- One copy is released. -/
def State.releaseCopy (s : State) (b : SnapBlock) : State :=
  if (s.copyOf b).valid then s.setCopy b { s.copyOf b with valid := false } else s

/-- Writing 1 to a copy's VALID (R434, R440). -/
def execSnapStatValidClear (b : SnapBlock) (s : State) : Out :=
  if s.regLive (snapHeader b) then .next (s.releaseCopy b) else .next s

end Sys2Proof.Machine
end

