-- ==== Sys2Proof/Machine/RegWrite.lean ====
section
/-! DEFINITION. Register writes by access code (00 R6-R9): one function per sub-block, used by the commands that write a
register and by stores to the register window. -/

namespace Sys2Proof.Machine

/-! ## Core blocks -/

/-- CORE sub-block (02 R61-R62, 09 R213-R214, 16 R372). -/
def State.writeCore (s : State) (c : CoreId) (o : Nat) (v : Word) : State :=
  let n := v.toNat
  if o = 0x020 then s.onCore c (fun k => { k with varies := w1cCount k.varies n })
  else if o = 0x030 then s.onCore c (fun k => { k with phase := if n % 8 = 7 then 5 else BitVec.ofNat 3 n })
  else if o = 0x040 then s.onCore c (fun k => { k with
    tNonfinite := k.tNonfinite &&& ~~~(BitVec.ofNat 16 (n / 65536)), tNarrowSat := k.tNarrowSat &&& ~~~(BitVec.ofNat 16 n) })
  else if o = 0x044 then s.onCore c (fun k => { k with cflags := k.cflags.w1c (n % 8) })
  else if 0x080 ≤ o ∧ o < 0x180 ∧ o % 16 = 0 ∧ v.getLsbD 31 then
    s.onGang c (Fin.ofNat 16 ((o - 0x080) / 16)) (fun k => { k with gfault := { k.gfault with valid := false } })
  else s

/-- A count that any write clears (03 R86, R89, R90). -/
def State.clearFreezes (s : State) (c : CoreId) : State := s.onArr c (fun a => { a with freezes := 0 })
def State.clearFills (s : State) (c : CoreId) : State := s.onArr c (fun a => { a with fills := 0 })
def State.clearColdWait (s : State) (c : CoreId) : State := s.onArr c (fun a => { a with coldWait := 0 })

/-- ARR sub-block (02 R59, 03 R86-R90). -/
def State.writeArr (s : State) (c : CoreId) (o : Nat) (v : Word) : State :=
  if o = 0x010 then s.clearFreezes c
  else if o = 0x018 then s.onArr c (fun a => { a with cause := a.cause &&& ~~~(BitVec.ofNat 5 v.toNat) })
  else if o = 0x020 then (if s.boot.lock then s else s.onArr c (fun a => { a with fillEn := v.getLsbD 0 }))
  else if o = 0x028 then s.clearFills c
  else if o = 0x030 then s.clearColdWait c
  else if 0x400 ≤ o ∧ o < 0x480 ∧ o % 16 = 0 then
    s.onArr c (fun a => { a with groups := vmod a.groups (Fin.ofNat 8 ((o - 0x400) / 16)) (fun g =>
      { g with flags := g.flags.w1c (v.toNat % 8) }) })
  else s

/-- SEQ sub-block (10 R232-R234). SEQ_EPOCH is written by the steward only. -/
def State.writeSeq (s : State) (p : PartId) (c : CoreId) (o : Nat) (v : Word) : State :=
  if o = 0x008 then (if v.getLsbD 0 then s.seqAbort c (v.getLsbD 1) else s)
  else if o = 0x00C then (if p = 0 then s.onSeq c (fun q => { q with epoch := v.setWidth 16 }) else s)
  else if o = 0x010 then s.onSeq c (fun q => { q with stale := w1cCount q.stale v.toNat })
  else if o = 0x014 then s.onSeq c (fun q => { q with skip := w1cCount q.skip v.toNat })
  else if 0x100 ≤ o ∧ o < 0x140 ∧ o % 4 = 0 then s.onSeq c (fun q => { q with lens := Tab.set 0 q.lens ((o - 0x100) / 4) v })
  else s

/-- A write of MTCH_SEED or MTCH_SPILL acts as mtch.clear under the configuration it leaves, so the bitmap of the table that
is in force from now on is zero (05 R120, R131-R132). -/
def State.writeSeed (s : State) (c : CoreId) (v : Word) : State :=
  ((s.onMtch c (fun m => { m with seed := v })).clearMtch c).1

def State.writeSpill (s : State) (c : CoreId) (v : Word) : State :=
  ((s.onMtch c (fun m => { m with spillBase := bitsOf v.toNat 24 8, spillLog := bitsOf v.toNat 4 0 })).clearMtch c).1

/-- MTCH sub-block (05 R131-R132). -/
def State.writeMtch (s : State) (c : CoreId) (o : Nat) (v : Word) : State :=
  if o = 0x00C then s.writeSeed c v else if o = 0x010 then s.writeSpill c v else s

/-- RNG sub-block (08 R186, R189). -/
def State.writeRng (s : State) (c : CoreId) (o : Nat) (v : Word) : State :=
  if o = 0x000 then s.onRng c (fun r => { r with stuck := r.stuck && !v.getLsbD 1 })
  else if o = 0x010 then s.onRng c (fun r => { r with stuckCount := w1cCount r.stuckCount v.toNat })
  else if o = 0x014 then s.onRng c (fun r => { r with trunc := w1cCount r.trunc v.toNat })
  else s

def State.onSlot (s : State) (c : CoreId) (i : Nat) (f : Slot → Slot) : State :=
  s.onQnt c (fun q => { q with slots := Tab.mod {} q.slots i f })

/-- A write of QNT_SLOTs_CFG clears the slot's history, AMAX, NF and SAT (07 R171); EXP stays. -/
def State.writeSlotCfg (s : State) (c : CoreId) (i : Nat) (v : Word) : State :=
  s.onSlot c i (fun t => {
    static_ := v.getLsbD 31, hlen := bitsOf v.toNat 13 8, margin := bitsOf v.toNat 5 4, fmt := v.setWidth 4, exp := t.exp })

/-- QNT sub-block (07 R171-R172). -/
def State.writeQnt (s : State) (c : CoreId) (o : Nat) (v : Word) : State :=
  if 0x1000 ≤ o ∧ o < 0x1800 then
    let i := (o - 0x1000) / 0x20
    match o % 0x20 with
    | 0x00 => s.writeSlotCfg c i v
    | 0x04 => s.onSlot c i (fun t => { t with exp := max (-126) (min 127 (v.setWidth 8).toInt) })
    | 0x10 => s.onSlot c i (fun t => { t with nf := w1cCount t.nf v.toNat })
    | 0x14 => s.onSlot c i (fun t => { t with sat := w1cCount t.sat v.toNat })
    | _ => s
  else s

/-- STRM sub-block: STRMs_FLAGS (13 R295). -/
def State.writeStrm (s : State) (c : CoreId) (o : Nat) (v : Word) : State :=
  if o < 0x200 ∧ o % 0x40 = 4 then
    s.onCore c (fun k => { k with streams := vmod k.streams (Fin.ofNat 8 (o / 0x40)) (fun t =>
      { t with flags := t.flags.w1c (v.toNat % 16) }) })
  else s

/-- A configuration write of a core-memory window (11 R248, R257): partition 0 only. -/
def State.writeCmemWin (s : State) (p : PartId) (c : CoreId) (w : Fin 8) (v : Word) : State :=
  let n := v.toNat
  if p ≠ 0 then s
  else s.configWindow (.cmem c w) (fun x => { x with
    en := v.getLsbD 31, part := bitsOf n 30 26, size := bitsOf n 21 17, base := bitsOf n 16 0 })

/-- Units returned to a core-memory window (11 R248). -/
def State.freeCmemWin (s : State) (c : CoreId) (w : Fin 8) (v : Word) : State := s.release (.cmem c w) (bitsOf v.toNat 16 0)

/-- CMEM sub-block (11 R257-R258). -/
def State.writeCmem (s : State) (p : PartId) (c : CoreId) (o : Nat) (v : Word) : State :=
  if o = 0x000 then s.onCore c (fun k => { k with eccUe := k.eccUe && !v.getLsbD 31 })
  else if 0x100 ≤ o ∧ o < 0x180 then
    let w : Fin 8 := Fin.ofNat 8 ((o - 0x100) / 16)
    match o % 16 with
    | 0 => s.writeCmemWin p c w v
    | 8 => s.freeCmemWin c w v
    | _ => s
  else s

/-- A register of one of a core's sub-blocks; 8 is its snapshot copy. -/
def State.writeSub (s : State) (p : PartId) (c : CoreId) (sub o : Nat) (v : Word) : State :=
  match sub with
  | 0 => s.writeCore c o v
  | 1 => s.writeArr c o v
  | 2 => s.writeSeq p c o v
  | 3 => s.writeMtch c o v
  | 4 => s.writeRng c o v
  | 5 => s.writeQnt c o v
  | 6 => s.writeStrm c o v
  | 8 => if o = 0x000 ∧ v.getLsbD 31 then s.releaseCopy (.core c) else s
  | 9 => s.writeCmem p c o v
  | _ => s

/-! ## Quarter blocks -/

/-- Configuration writes of a scratch window, and units returned to it (11 R248, R256). -/
def State.writeWinCfg (s : State) (q : QuarterId) (w : Fin 64) (v : Word) : State :=
  s.configWindow (.scratch q w) (fun x => { x with
    en := v.getLsbD 31, open_ := v.getLsbD 30, part := bitsOf v.toNat 29 25 })

def State.writeWinBase (s : State) (q : QuarterId) (w : Fin 64) (v : Word) : State :=
  s.configWindow (.scratch q w) (fun x => { x with base := bitsOf v.toNat 24 0 })

def State.writeWinSize (s : State) (q : QuarterId) (w : Fin 64) (v : Word) : State :=
  s.configWindow (.scratch q w) (fun x => { x with size := bitsOf v.toNat 25 0 })

def State.freeWin (s : State) (q : QuarterId) (w : Fin 64) (v : Word) : State := s.release (.scratch q w) (bitsOf v.toNat 25 0)

/-- A latched ECC address is released (00 R6). -/
def EccLatch.w1c (e : EccLatch) (v : Word) : EccLatch := { e with valid := e.valid && !v.getLsbD 31 }

/-- CRWN sub-block (11 R253-R256). -/
def State.writeCrwn (s : State) (q : QuarterId) (o : Nat) (v : Word) : State :=
  let n := v.toNat
  if o = 0x000 then
    (if s.boot.lock then s else s.onQuarter q (fun k => { k with
      cut := ⟨bitsOf n 6 0, bitsOf n 14 8, bitsOf n 22 16, v.getLsbD 24, v.getLsbD 25⟩ }))
  else if o = 0x010 then s.onQuarter q (fun k => { k with crownCe := w1cCount k.crownCe n })
  else if o = 0x014 then s.onQuarter q (fun k => { k with crownUe := w1cCount k.crownUe n })
  else if o = 0x018 then s.onQuarter q (fun k => { k with crownLatch := k.crownLatch.w1c v })
  else if 0x1000 ≤ o ∧ o < 0x1800 then
    let w : Fin 64 := Fin.ofNat 64 ((o - 0x1000) / 0x20)
    match o % 0x20 with
    | 0x00 => s.writeWinCfg q w v
    | 0x04 => s.writeWinBase q w v
    | 0x08 => s.writeWinSize q w v
    | 0x10 => s.freeWin q w v
    | _ => s
  else s

/-- HBM sub-block (12 R273-R276). -/
def State.writeHbm (s : State) (q : QuarterId) (o : Nat) (v : Word) : State :=
  if o = 0x000 then (if s.boot.lock then s else s.onQuarter q (fun k => { k with ilv := bitsOf v.toNat 1 0 }))
  else if o = 0x020 then s.onQuarter q (fun k => { k with hbmCe := w1cCount k.hbmCe v.toNat })
  else if o = 0x024 then s.onQuarter q (fun k => { k with hbmUe := w1cCount k.hbmUe v.toNat })
  else if o = 0x028 then s.onQuarter q (fun k => { k with hbmLatch := k.hbmLatch.w1c v })
  else s

/-- UPD_VERDICT (16 R371). -/
def State.writeVerdictReg (s : State) (q : QuarterId) (v : Word) : State :=
  s.onUpd q (fun u => { u with
    vValid := v.getLsbD 31, vSkip := v.getLsbD 30, vLs := bitsOf v.toNat 20 16, vStep := bitsOf v.toNat 15 0 })

/-- A register of a quarter sub-block: 0 CRWN, 1 HBM, 2 UPD, 3 QPWR; the header of its copy at 0x3F_0000. -/
def State.writeQuarterSub (s : State) (q : QuarterId) (sub o : Nat) (v : Word) : State :=
  if o = 0x3F_0000 then (if v.getLsbD 31 then s.releaseCopy (.quarter q (Fin.ofNat 4 sub)) else s)
  else match sub with
    | 0 => s.writeCrwn q o v
    | 1 => s.writeHbm q o v
    | 2 => if o = 0x004 then s.writeVerdictReg q v else s
    | _ => if o = 0x000 ∧ !s.boot.lock then s.onQuarter q (fun k => { k with clkMax := clampTo 10 20 (bitsOf v.toNat 12 8) }) else s

/-! ## Pier blocks -/

/-- PORT registers (14 R322-R324); SIDEMODE exists on side ports only. -/
def State.writePort (s : State) (p : PierId) (o : Nat) (v : Word) : State :=
  let i := o / 0x100
  let n := v.toNat
  let hi := n / 65536
  let lo := n % 65536
  if o < 0x1A00 then
    let on (f : Port → Port) : State := s.onPier p (fun k => { k with ports := vmod k.ports (Fin.ofNat 26 i) f })
    match o % 0x100 with
    | 0x00 => if s.boot.lock then s else on (fun t => { t with en := v.getLsbD 0, eth := v.getLsbD 1 && decide (24 ≤ i) })
    | 0x04 => on (fun t => { t with lanes := Vector.ofFn (fun l =>
        { t.lanes[l.val] with lost := t.lanes[l.val].lost && !bitOf n (8 + l.val) }) })
    | 0x08 => on (fun t => { t with retrains := w1cCount t.retrains hi, replays := w1cCount t.replays lo })
    | 0x0C => on (fun t => { t with fecUncorr := w1cCount t.fecUncorr hi, fecCorr := w1cCount t.fecCorr lo })
    | _ => s
  else s

/-- SWT registers (14 R325). -/
def State.writeSwt (s : State) (p : PierId) (o : Nat) (v : Word) : State :=
  match o with
  | 0x000 => s.onPier p (fun k => { k with stallMs := clampTo 1 10000 (bitsOf v.toNat 13 0) })
  | 0x004 => s.onPier p (fun k => { k with late := w1cCount k.late v.toNat })
  | 0x008 => s.onPier p (fun k => { k with abort := w1cCount k.abort v.toNat })
  | _ => s

/-- COLL registers (15 R349-R351). -/
def State.writeColl (s : State) (p : PierId) (o : Nat) (v : Word) : State :=
  let n := v.toNat
  match o with
  | 0x004 => s.onColl p (fun k => { k with chunkCheck := w1cCount k.chunkCheck n })
  | 0x008 => s.onColl p (fun k => { k with late := w1cCount k.late n })
  | 0x00C => s.onColl p (fun k => { k with defer_ := w1cCount k.defer_ n })
  | 0x010 => if s.boot.lock then s else s.onColl p (fun k => { k with
      pairWait := clampTo 1 1000 (bitsOf n 25 16), pairMode := if bitsOf n 1 0 = 3 then 0 else bitsOf n 1 0 })
  | 0x014 => s.onColl p (fun k => { k with suspect := k.suspect && !v.getLsbD 31 })
  | 0x018 => s.onColl p (fun k => { k with diverge := w1cCount k.diverge n })
  | 0x01C => s.onColl p (fun k => { k with ckptNo := v })
  | _ => s

/-- A register of a pier sub-block: 0 PORT, 1 SWT, 2 COLL, 3 ING. -/
def State.writePierSub (s : State) (p : PierId) (sub o : Nat) (v : Word) : State :=
  if o = 0x3F_0000 then (if v.getLsbD 31 then s.releaseCopy (.pier p (Fin.ofNat 4 sub)) else s)
  else match sub with
    | 0 => s.writePort p o v
    | 1 => s.writeSwt p o v
    | 2 => s.writeColl p o v
    | _ => if o = 0x004 then s.onPier p (fun k => { k with drop := w1cCount k.drop v.toNat }) else s

/-! ## Module blocks -/

/-- PWR registers (17 R386-R389). -/
def State.writePwr (s : State) (o : Nat) (v : Word) : State :=
  let n := v.toNat
  if o = 0x000 then (if s.boot.lock then s else s.onPwr (fun p => { p with idleMs := n % 65536 }))
  else if o = 0x034 then s.onPwr (fun p => { p with wait := w1cCount p.wait n })
  else if o = 0x040 then (if s.boot.lock then s else s.onPwr (fun p => { p with cap := min 3600 (n % 4096) }))
  else if o = 0x044 then s.onPwr (fun p => { p with
    trip := p.trip &&& ~~~(BitVec.ofNat 4 (n / 16)), throttle := p.throttle &&& ~~~(BitVec.ofNat 4 n) })
  else s

/-- SEC registers (18 R412-R413). -/
def State.writeSec (s : State) (o : Nat) (v : Word) : State :=
  if o = 0x000 then s.onSec (fun k => { k with cause := k.cause &&& ~~~(v.setWidth 8) })
  else if o = 0x004 then s.onSec (fun k => { k with tagfail := w1cCount k.tagfail v.toNat })
  else s

/-- SNAPG_CTL (20 R438): the fields, then a release, then the triggers: a capture and a release that meet leave VALID set
(R434). -/
def State.writeSnapCtl (s : State) (v : Word) : State :=
  let t := s.onSnapg (fun g => { g with
    both := v.getLsbD 29, srcen := BitVec.ofNat 4 (bitsOf v.toNat 19 16), fwdUs := bitsOf v.toNat 15 0 })
  let t := if v.getLsbD 28 then t.releaseAll else t
  let t := if v.getLsbD 31 then t.trigger 0 else t
  if v.getLsbD 30 then t.sendTrigger t.snapg.target t.snapg.both else t

/-- SNAPG registers (20 R438-R441). HI of SNAPG_TGT reads back what is written. -/
def State.writeSnapg (s : State) (o : Nat) (v : Word) : State :=
  let n := v.toNat
  if o = 0x000 then s.writeSnapCtl v
  else if o = 0x004 then s.onSnapg (fun g => { g with mFlags := BitVec.ofNat 4 (bitsOf n 19 16), mCode := bitsOf n 15 0 })
  else if o = 0x008 then (if v.getLsbD 31 then s.releaseCopy .pwr else s)
  else if o = 0x00C then s.onSnapg (fun g => { g with missed := w1cCount g.missed n })
  else if o = 0x018 then s.onSnapg (fun g => { g with target := g.target / 2 ^ 32 * 2 ^ 32 + n })
  else if o = 0x01C then
    { s.onSnapg (fun g => { g with target := n * 2 ^ 32 + g.target % 2 ^ 32 }) with
      latches := Tab.set 0 s.latches 0x3_0030_0018 v }
  else s

/-- A phase counter is cleared (16 R373). -/
def State.clearPhase (s : State) (i : Fin 7) : State := { s with phases := s.phases.set i.val 0 }

/-- PWR, SEC, BOOT, SNAPG, TIME and PART. -/
def State.writeModule (s : State) (blk o : Nat) (v : Word) : State :=
  match blk with
  | 0 => s.writePwr o v
  | 1 => s.writeSec o v
  | 2 => if o = 0x004 ∧ v.getLsbD 0 then s.onBoot (fun b => { b with lock := true }) else s
  | 3 => s.writeSnapg o v
  | 4 => if 0x100 ≤ o ∧ o < 0x138 ∧ o % 8 = 0 then s.clearPhase (Fin.ofNat 7 ((o - 0x100) / 8)) else s
  | 5 => if o = 0x000 ∧ !s.boot.lock then s.onSec (fun k => { k with pad := max 1000 (v.toNat % 2 ^ 24) }) else s
  | _ => s

/-- A write of a 32-bit register, past the checks of who may make it. -/
def State.regWrite (s : State) (p : PartId) (off : Nat) (v : Word) : State :=
  if off < 0x1_0000_0000 then
    if h : off / 0x10_0000 < 192 then
      if off / 0x10_0000 < s.coreCount then s.writeSub p ⟨off / 0x10_0000, h⟩ (off % 0x10_0000 / 0x1_0000) (off % 0x1_0000) v
      else s
    else s
  else if off < 0x1_0400_0000 then
    s.writeQuarterSub (Fin.ofNat 4 ((off - 0x1_0000_0000) / 0x100_0000)) (off % 0x100_0000 / 0x40_0000) (off % 0x40_0000) v
  else if 0x2_0000_0000 ≤ off ∧ off < 0x2_0200_0000 then
    s.writePierSub (Fin.ofNat 2 ((off - 0x2_0000_0000) / 0x100_0000)) (off % 0x100_0000 / 0x40_0000) (off % 0x40_0000) v
  else if 0x3_0000_0000 ≤ off ∧ off < 0x3_0060_0000 then
    s.writeModule ((off - 0x3_0000_0000) / 0x10_0000) (off % 0x10_0000) v
  else s

/-- A tenant reaches, of its own cores only, the sub-blocks CORE to LAY and CMEM, without SEQ_EPOCH (18 R400). -/
def State.regAllowed (s : State) (p : PartId) (off : Nat) : Bool :=
  p == 0 || (if h : off / 0x10_0000 < 192 then
    decide (off / 0x10_0000 < s.coreCount) && s.part ⟨off / 0x10_0000, h⟩ == p
      && decide (off % 0x10_0000 / 0x1_0000 < 10) && off % 0x10_0000 / 0x1_0000 != 8 && off % 0x10_0000 != 0x2_000C
    else false)

/-- A register write by software of a partition: ignored where the partition may not reach the register, and lost where its
domain is not powered. -/
def State.writeReg (s : State) (p : PartId) (off : Nat) (v : Word) : State :=
  if s.regAllowed p off && s.regLive off then s.regWrite p off v else s

/-! ## The commands -/

/-- A write of one register by the steward, at its offset. -/
def State.atReg (s : State) (off : Nat) (f : State → State) : Out := if s.regLive off then .next (f s) else .next s

def coreReg (c : CoreId) (o : Nat) : Nat := c.val * 0x10_0000 + o
def quarterReg (q : QuarterId) (o : Nat) : Nat := 0x1_0000_0000 + q.val * 0x100_0000 + o

def execRegisterWrite (p : PartId) (off : Nat) (v : Word) (s : State) : Out := .next (s.writeReg p off v)

def execMtchSeed (c : CoreId) (v : Word) (s : State) : Out := s.atReg (coreReg c 0x3_000C) (fun s => s.writeSeed c v)
def execMtchSpill (c : CoreId) (v : Word) (s : State) : Out := s.atReg (coreReg c 0x3_0010) (fun s => s.writeSpill c v)

def execQntSlotCfg (c : CoreId) (slot : Fin 64) (v : Word) (s : State) : Out :=
  s.atReg (coreReg c (0x5_1000 + 0x20 * slot.val)) (fun s => s.writeSlotCfg c slot.val v)

def execArrFreezeLo (c : CoreId) (_ : Word) (s : State) : Out := s.atReg (coreReg c 0x1_0010) (fun s => s.clearFreezes c)
def execArrFillLo (c : CoreId) (_ : Word) (s : State) : Out := s.atReg (coreReg c 0x1_0028) (fun s => s.clearFills c)
def execArrColdWait (c : CoreId) (_ : Word) (s : State) : Out := s.atReg (coreReg c 0x1_0030) (fun s => s.clearColdWait c)

def execTimePhaseLo (p : Fin 7) (_ : Word) (s : State) : Out := s.atReg (0x3_0040_0100 + 8 * p.val) (fun s => s.clearPhase p)

/-- A read of a LO register latches its HI half (03 R86). -/
def execLoReadLatch (off : Nat) (s : State) : Out := s.atReg off (fun s => s.latchHi off)

def execCrwnRxwinCfg (q : QuarterId) (w : Fin 64) (v : Word) (s : State) : Out :=
  s.atReg (quarterReg q (0x1000 + 0x20 * w.val)) (fun s => s.writeWinCfg q w v)

def execCrwnRxwinBase (q : QuarterId) (w : Fin 64) (v : Word) (s : State) : Out :=
  s.atReg (quarterReg q (0x1004 + 0x20 * w.val)) (fun s => s.writeWinBase q w v)

def execCrwnRxwinSize (q : QuarterId) (w : Fin 64) (v : Word) (s : State) : Out :=
  s.atReg (quarterReg q (0x1008 + 0x20 * w.val)) (fun s => s.writeWinSize q w v)

def execCrwnRxwinFree (q : QuarterId) (w : Fin 64) (v : Word) (s : State) : Out :=
  s.atReg (quarterReg q (0x1010 + 0x20 * w.val)) (fun s => s.freeWin q w v)

def execCmemRxwinCfg (p : PartId) (c : CoreId) (w : Fin 8) (v : Word) (s : State) : Out :=
  s.atReg (coreReg c (0x9_0100 + 0x10 * w.val)) (fun s => s.writeCmemWin p c w v)

def execCmemRxwinFree (c : CoreId) (w : Fin 8) (v : Word) (s : State) : Out :=
  s.atReg (coreReg c (0x9_0108 + 0x10 * w.val)) (fun s => s.freeCmemWin c w v)

end Sys2Proof.Machine
end

