-- ==== Sys2Proof/Machine/ThreadMem.lean ====
section
/-! DEFINITION. Loads, stores and atomics of threads (09 R198-R206, R210; 01 R26-R28; 11 R239, R246-R248) and the refusals that
wait for their latency (18 R404). -/

namespace Sys2Proof.Machine

/-! ## Issue -/

/-- The register pair of a 64-bit operand (log 18). -/
def pairRegs (r : Reg) : List Reg := [r, r + 1]

/-- The registers that hold an operand of `w` bytes. -/
def valRegs (w : Nat) (r : Reg) : List Reg := if w = 8 then pairRegs r else [r]

/-- The operand of `w` bytes in a register or a pair. -/
def Gang.operand (k : Gang) (w t : Nat) (r : Reg) : BitVec 64 := if w = 8 then k.reg64 t r else (k.reg t r).setWidth 64

/-- Issues a memory instruction: its threads' addresses and operands are taken, and THREAD_ACCESS_COMPLETE performs it. -/
def State.access (s : State) (h : Th) (kind : AccKind) (w : Nat) (va : Reg) (imm : Addr) (vb vc vd : Option Reg)
    (ps : Option PReg) : Out :=
  s.issue h (pairRegs va ++ (vb.toList ++ vc.toList).flatMap (valRegs w)) [] (fun s =>
    let k := s.gang h.core h.gang
    let m := (s.cplOf h 0).mask
    let value (t : Nat) (r : Option Reg) : BitVec 64 := match r with
      | some r => k.operand w t r
      | none => 0
    if m = 0 then s
    else s.addMemop h.core h.gang (.acc {
      kind, width := w, vd, ps, mask := m, issued := s.now, answer := none
      items := (k.execs h).map (fun t => ⟨Fin.ofNat 32 t, k.reg64 t va + imm,
        if kind = .cas then value t vc else value t vb, value t vb⟩) }))

def execLd8 (h : Th) (vd va : Reg) (imm : Addr) (ps : Option PReg) (s : State) : Out :=
  s.access h .load 1 va imm none none (some vd) ps
def execLd16 (h : Th) (vd va : Reg) (imm : Addr) (ps : Option PReg) (s : State) : Out :=
  s.access h .load 2 va imm none none (some vd) ps
def execLd32 (h : Th) (vd va : Reg) (imm : Addr) (ps : Option PReg) (s : State) : Out :=
  s.access h .load 4 va imm none none (some vd) ps
def execLd64 (h : Th) (vd va : Reg) (imm : Addr) (ps : Option PReg) (s : State) : Out :=
  s.access h .load 8 va imm none none (some vd) ps

def execSt8 (h : Th) (va : Reg) (imm : Addr) (vb : Reg) (ps : Option PReg) (s : State) : Out :=
  s.access h .store 1 va imm (some vb) none none ps
def execSt16 (h : Th) (va : Reg) (imm : Addr) (vb : Reg) (ps : Option PReg) (s : State) : Out :=
  s.access h .store 2 va imm (some vb) none none ps
def execSt32 (h : Th) (va : Reg) (imm : Addr) (vb : Reg) (ps : Option PReg) (s : State) : Out :=
  s.access h .store 4 va imm (some vb) none none ps
def execSt64 (h : Th) (va : Reg) (imm : Addr) (vb : Reg) (ps : Option PReg) (s : State) : Out :=
  s.access h .store 8 va imm (some vb) none none ps

def execAtomAdd (h : Th) (vd va vb : Reg) (ps : Option PReg) (s : State) : Out :=
  s.access h .add 4 va 0 (some vb) none (some vd) ps
def execAtomMax (h : Th) (vd va vb : Reg) (ps : Option PReg) (s : State) : Out :=
  s.access h .max 4 va 0 (some vb) none (some vd) ps
def execAtomMin (h : Th) (vd va vb : Reg) (ps : Option PReg) (s : State) : Out :=
  s.access h .min 4 va 0 (some vb) none (some vd) ps
def execAtomAnd (h : Th) (vd va vb : Reg) (ps : Option PReg) (s : State) : Out :=
  s.access h .and 4 va 0 (some vb) none (some vd) ps
def execAtomOr (h : Th) (vd va vb : Reg) (ps : Option PReg) (s : State) : Out :=
  s.access h .or 4 va 0 (some vb) none (some vd) ps
def execAtomXchg (h : Th) (vd va vb : Reg) (ps : Option PReg) (s : State) : Out :=
  s.access h .xchg 4 va 0 (some vb) none (some vd) ps
def execAtomCas32 (h : Th) (vd va vb vc : Reg) (ps : Option PReg) (s : State) : Out :=
  s.access h .cas 4 va 0 (some vb) (some vc) (some vd) ps
def execAtomCas64 (h : Th) (vd va vb vc : Reg) (ps : Option PReg) (s : State) : Out :=
  s.access h .cas 8 va 0 (some vb) (some vc) (some vd) ps

/-- The device number of an address names a module (01 R27, 09 R199). -/
def State.deviceKnown (s : State) (p : PartId) (g : Addr) : Bool :=
  let dev := bitsOf g.toNat 62 49
  if p = 0 then decide (dev ≤ 12287) else (s.partOf p).devices.any (fun d => d.1 == dev)

/-- `atom.add.f32` is refused at issue in a deterministic partition and counted once, unless every thread's device number is
refused first (09 R208, 21 R453). -/
def execAtomAddF32 (h : Th) (vd va vb : Reg) (ps : Option PReg) (s : State) : Out :=
  let k := s.gang h.core h.gang
  let counted : Bool := s.det h.core && (k.execs h).any (fun t => s.deviceKnown (s.part h.core) (k.reg64 t va))
    && s.ready h (pairRegs va ++ [vb]) []
  State.access (if counted then s.onCore h.core (fun k => { k with varies := satInc 32 k.varies }) else s)
    h .addF32 4 va 0 (some vb) none (some vd) ps

/-! ## One thread's access -/

/-- A load or store in the register window (01 R28, 00 R6): registers are words, a 64-bit access takes two, the lower first.
What a narrower store puts beside its bytes is free. -/
def State.accessReg (s : State) (p : PartId) (kind : AccKind) (w off : Nat) (val : BitVec 64) : State × Except Code (BitVec 64) :=
  let base := off / 4 * 4
  if !s.regAllowed p base then (s, .error .unmapped)
  else match kind with
    | .load =>
      let (t, lo) := s.readReg base
      if w = 8 then
        let (u, hi) := t.readReg (base + 4)
        (u, .ok (hi.setWidth 64 <<< 32 ||| lo.setWidth 64))
      else (t, .ok (BitVec.ofNat 64 (lo.toNat / 2 ^ (8 * (off % 4)) % 2 ^ (8 * w))))
    | .store =>
      if w = 8 then (((s.writeReg p base (val.setWidth 32)).writeReg p (base + 4) ((val >>> 32).setWidth 32)), .ok 0)
      else if w = 4 then (s.writeReg p base (val.setWidth 32), .ok 0)
      else
        let (f, t) := s.freeWord
        let lane : Word := w32 ((2 ^ (8 * w) - 1) * 2 ^ (8 * (off % 4)))
        let v : Word := w32 (val.toNat % 2 ^ (8 * w) * 2 ^ (8 * (off % 4)))
        (t.writeReg p base ((f &&& ~~~lane) ||| v), .ok 0)
    | _ => (s, .error .unmapped)

/-- An access to another module: the request goes out on VC 0, a store or an atomic with its credit and its epoch, and `reply`
is what comes back (01 R27, 14 R304, 11 R246-R248). -/
def State.accessRemote (s : State) (c : CoreId) (kind : AccKind) (w d : Nat) (fb : Bool) (loc : Nat) (val : BitVec 64)
    (reply : Code × BitVec 64) : State × Except Code (BitVec 64) :=
  let held : Bool := (s.core c).credits.any (fun e => e.covers d fb loc w && decide (0 < e.bytes))
  let paid : Option State := match kind with
    | .load => some s
    | .store => s.payRemote c d fb loc w
    | _ => if s.remoteNeeds (s.part c) loc && !held then none else some s
  let epoch : Option Nat := if kind = .load then none else some (s.core c).seq.epoch.toNat
  match paid with
  | none => (s, .error .noCredit)
  | some t => match t.sendMsg d fb 0 (s.part c) false t.nextOp epoch (leBytes 8 loc ++ (if kind = .load then [] else leBytes w val.toNat)) with
    | .error e => (s, .error e)
    | .ok t => ({ t with nextOp := t.nextOp + 1 }, if reply.1 = .done then .ok reply.2 else .error reply.1)

/-- One thread's access, with the refusals in the order of 21 R453. -/
def State.accessItem (s : State) (c : CoreId) (kind : AccKind) (w : Nat) (i : AccItem) (reply : Code × BitVec 64) :
    State × Except Code (BitVec 64) :=
  let p := s.part c
  if !s.deviceKnown p i.addr then (s, .error .unmapped)
  else if kind = .addF32 ∧ s.det c then (s, .error .varies)
  else if i.addr.toNat % w ≠ 0 then (s, .error .align)
  else match s.resolve p i.addr (if kind = .load then .read else .write) with
    | .error e => (s, .error e)
    | .ok (.remote d fb loc) => s.accessRemote c kind w d fb loc i.val reply
    | .ok (.here a) => match s.place a with
      | .regs off => s.accessReg p kind w off i.val
      | _ => match kind with
        | .load => match s.readLine (a / 64) with
          | (t, .done) => (t, .ok (BitVec.ofNat 64 (leNat (t.rd a w))))
          | (t, e) => (t, .error e)
        | .store => match s.coreWrite c a (leBytes w i.val.toNat) with
          | (t, .done) => (t, .ok 0)
          | (t, e) => (t, .error e)
        | _ => s.atomicAt c kind w a i.val i.cmp

/-! ## Completion (R198) -/

/-- The failures and the values of an access, thread by thread. -/
abbrev Answer := List (Nat × Code) × List (Nat × BitVec 64)

/-- Performs the threads of an access in ascending order; each has its answer from another module, where it goes there. -/
def State.accessAll (s : State) (c : CoreId) (kind : AccKind) (w : Nat) :
    List AccItem → List (Code × BitVec 64) → State × Answer
  | [], _ => (s, [], [])
  | i :: is, answers =>
    match s.accessItem c kind w i (answers.headD (.incomplete, 0)) with
    | (t, .ok v) =>
      let (u, bad, good) := t.accessAll c kind w is answers.tail
      (u, bad, (i.thread.val, v) :: good)
    | (t, .error e) =>
      let (u, bad, good) := t.accessAll c kind w is answers.tail
      (u, (i.thread.val, e) :: bad, good)

/-- The register image of a loaded or old value. -/
def loadWord (w : Nat) (v : BitVec 64) : Word :=
  if w < 4 then (Config.loadHigh w (v.setWidth 32)) <<< (8 * w) ||| w32 (v.toNat % 2 ^ (8 * w)) else v.setWidth 32

/-- Writes one thread's destination. -/
def Gang.setDest (k : Gang) (a : Access) (t : Nat) (v : BitVec 64) (failed : Bool) : Gang :=
  match a.vd with
  | none => k
  | some r =>
    if a.width = 8 then k.setReg64 t r (if failed then 0 else v)
    else k.setReg t r (if failed then 0 else loadWord a.width v)

/-- Destinations, the status predicate and the fault latch of a completed access (R198). -/
def State.endAccess (s : State) (c : CoreId) (g : GangId) (a : Access) (ans : Answer) : State :=
  let t := ans.1.foldl (fun u b => u.report b.2) s
  let t := t.onGang c g (fun k =>
    let k := ans.2.foldl (fun n b => n.setDest a b.1 b.2 false) k
    let k := ans.1.foldl (fun n b => n.setDest a b.1 0 true) k
    match a.ps with
    | none => k
    | some p => (threadsOf a.mask).foldl (fun n t => n.setPred t p (ans.1.any (fun b => b.1 == t))) k)
  match ans.1 with
  | [] => t
  | (n, code) :: _ => t.gfault c g false n code ((a.items.find? (fun i => i.thread.val == n)).elim 0 (·.addr))

/-- Two accesses meet: some thread touches in both the same byte (R202). -/
def Access.meets (a b : Access) : Bool :=
  a.items.any (fun i => b.items.any (fun j => i.thread == j.thread
    && decide (i.addr.toNat < j.addr.toNat + b.width) && decide (j.addr.toNat < i.addr.toNat + a.width)))

/-- An access may be performed: no fence stands before it and no earlier access of a thread to the same bytes (R202, R203). -/
def mayPerform (before : List MemOp) (a : Access) : Bool :=
  before.all (fun m => match m with
    | .fence _ _ => false
    | .acc b => b.answer.isSome || !b.meets a)

/-- Takes a memory instruction out of its gang, with the fences that only it held. -/
def State.dropMemop (s : State) (c : CoreId) (g : GangId) (idx : Nat) : State :=
  s.onGang c g (fun k => { k with memops := pruneFences (k.memops.eraseIdx idx) })

/-- A thread of a tenant was refused an address: the steward and, on this module, the owner of the frame have the record (18 R405). -/
def State.refuseAddr (s : State) (c : CoreId) (a : Addr) : State :=
  let p := s.part c
  let e := Tab.get 0 (s.partOf p).pages (a.toNat % 2 ^ 49 / 0x20_0000)
  let owner : PartId := s.ownerAt ((e.toNat % 2 ^ 28) * 0x20_0000 + a.toNat % 0x20_0000)
  let t := s.noteRefusal p c.val (.address a)
  if a.getLsbD 63 = s.fabricB ∧ (s.partOf p).devices.any (fun d => d.1 == bitsOf a.toNat 62 49 && d.2 == s.dev) then
    t.tellOwner owner p c.val (.address a)
  else t

def threadAccessAt (c : CoreId) (g : GangId) (idx : Nat) (reply : RemoteReply) (s : State) : Out :=
  let ops := (s.gang c g).memops
  match ops[idx]? with
  | some (.acc a) =>
    if !s.coreOn c ∨ a.answer.isSome ∨ !mayPerform (ops.take idx) a then .next s
    else
      let (t, ans) := s.accessAll c a.kind a.width a.items reply.answers
      let p := s.part c
      if p ≠ 0 ∧ ans.1.any (fun b => b.2 == .refused) then
        let u : State := { t.onGang c g (fun k => { k with memops := k.memops.set idx (.acc { a with answer := some ans }) }) with
          parked := t.parked ++ [.access c g] }
        .next (a.items.foldl (fun v i => if ans.1.contains (i.thread.val, .refused) then v.refuseAddr c i.addr else v) u)
      else .next ((t.dropMemop c g idx).endAccess c g a ans)
  | _ => .next s

/-- A memory instruction completes at its home (R198). -/
def execThreadAccessComplete (core : CoreId) (gang : GangId) (idx : Nat) (reply : RemoteReply) (s : State) : Out :=
  asCore core (threadAccessAt core gang idx reply) s

/-! ## Refusals of tenants (18 R404) -/

/-- The oldest memory instruction of a gang that has its answer and waits for its latency. -/
def parkedAccess : List MemOp → Nat → Option (Nat × Access × Answer)
  | [], _ => none
  | .acc a :: r, n => match a.answer with
    | some x => some (n, a, x)
    | none => parkedAccess r (n + 1)
  | .fence _ _ :: r, n => parkedAccess r (n + 1)

/-- When a refused operation was issued. -/
def State.parkedAt (s : State) : Parked → Nat
  | .cpl c => c.issued
  | .access c g => (parkedAccess (s.gang c g).memops 0).elim 0 (fun x => x.2.1.issued)
  | .wait _ _ _ n => n
  | .reply _ n => n

/-- Ends a parked refusal. -/
def State.unpark (s : State) : Parked → State
  | .cpl c => s.writeCpl c .refused
  | .access c g => match parkedAccess (s.gang c g).memops 0 with
    | some (n, a, ans) => (s.dropMemop c g n).endAccess c g a ans
    | none => s
  | .wait c g _ _ => s.endWait c g .refused
  | .reply _ _ => { s with reply := some (.refused, []) }

/-- PART_PAD.NS ns after its issue a tenant's refusal completes. -/
def execRefusalComplete (idx : Nat) (s : State) : Out :=
  match s.parked[idx]? with
  | some x =>
    if s.parkedAt x + s.sec.pad ≤ s.now then .next (({ s with parked := s.parked.eraseIdx idx }).unpark x) else .next s
  | none => .next s

/-! ## A tick of device time: one nanosecond (16 R367-R368, 17 R388; log 2) -/

/-- A gang waits in `bar.wait`, or may wait on a CPL register it has not got yet; whether it reads one now is free. -/
def Gang.waits (k : Gang) (reads : Bool) : Bool := k.wait.isSome || (!k.cplWait.isEmpty && reads)

/-- A core's effective phase (16 R367): 5 IDLE, 6 STALL, else its tag. -/
def Core.effectivePhase (k : Core) (reads : Bool) : Nat :=
  let gs := k.gangs.toList
  if gs.all (fun g => g.status == .free) then 5
  else if gs.all (fun g => g.status != .live || g.waits reads) then 6 else k.phase.toNat

/-- Logical cores whose effective phase is `p`; core n takes the free choice n places on. -/
def State.inPhase (s : State) (p : Nat) : Nat :=
  ((List.range s.coreCount).filter (fun n =>
    (s.core (Fin.ofNat 192 n)).effectivePhase (Config.freeBool (s.free + n)) == p)).length

/-- PWR_GOV_WAIT counts each microsecond in which a request waited once. -/
def Pwr.noteWait (p : Pwr) (now : Nat) : Pwr :=
  if (p.up.isEmpty && p.down.isEmpty) || p.waitLast == some (now / 1000) then p
  else { p with wait := satInc 32 p.wait, waitLast := some (now / 1000) }

/-- One nanosecond passes, if the always-on domain runs. -/
def State.tick (s : State) : State :=
  if s.pwr.alwaysOn then
    { s with
      now := (s.now + 1) % 2 ^ 64, pwr := s.pwr.noteWait s.now, free := s.free + s.coreCount
      phases := Vector.ofFn (fun i => (s.phases[i.val] + s.inPhase i.val) % 2 ^ 64) }
  else s

end Sys2Proof.Machine
end

