-- ==== Sys2Proof/Machine/Dispatch.lean ====
section
/-! DEFINITION. One arm per command, each one call of its meaning. -/

namespace Sys2Proof.Machine

def exec (i : Instr) (s : State) : Host.Outcome State Fault Refusal :=
  match i with
  | .add h sgn vd va b => Sys2Proof.Machine.execAdd h sgn vd va b s
  | .sub h sgn vd va b => Sys2Proof.Machine.execSub h sgn vd va b s
  | .mulLo h sgn vd va b => Sys2Proof.Machine.execMulLo h sgn vd va b s
  | .mulHi h sgn vd va b => Sys2Proof.Machine.execMulHi h sgn vd va b s
  | .and h vd va vb => Sys2Proof.Machine.execAnd h vd va vb s
  | .or h vd va vb => Sys2Proof.Machine.execOr h vd va vb s
  | .xor h vd va vb => Sys2Proof.Machine.execXor h vd va vb s
  | .not h vd va => Sys2Proof.Machine.execNot h vd va s
  | .shl h vd va vb => Sys2Proof.Machine.execShl h vd va vb s
  | .shr h vd va vb => Sys2Proof.Machine.execShr h vd va vb s
  | .sra h vd va vb => Sys2Proof.Machine.execSra h vd va vb s
  | .rotl h vd va vb => Sys2Proof.Machine.execRotl h vd va vb s
  | .popc h vd va => Sys2Proof.Machine.execPopc h vd va s
  | .clz h vd va => Sys2Proof.Machine.execClz h vd va s
  | .cmpEq h ty pd va vb => Sys2Proof.Machine.execCmpEq h ty pd va vb s
  | .cmpNe h ty pd va vb => Sys2Proof.Machine.execCmpNe h ty pd va vb s
  | .cmpLt h ty pd va vb => Sys2Proof.Machine.execCmpLt h ty pd va vb s
  | .cmpLe h ty pd va vb => Sys2Proof.Machine.execCmpLe h ty pd va vb s
  | .mov h vd va => Sys2Proof.Machine.execMov h vd va s
  | .movi h vd imm => Sys2Proof.Machine.execMovi h vd imm s
  | .sel h vd va vb ps => Sys2Proof.Machine.execSel h vd va vb ps s
  | .fadd h rnd vd va vb => Sys2Proof.Machine.execFadd h rnd vd va vb s
  | .fmul h rnd vd va vb => Sys2Proof.Machine.execFmul h rnd vd va vb s
  | .ffma h rnd vd va vb vc => Sys2Proof.Machine.execFfma h rnd vd va vb vc s
  | .fmax h vd va vb => Sys2Proof.Machine.execFmax h vd va vb s
  | .fmin h vd va vb => Sys2Proof.Machine.execFmin h vd va vb s
  | .fexp2 h vd va => Sys2Proof.Machine.execFexp2 h vd va s
  | .flog2 h vd va => Sys2Proof.Machine.execFlog2 h vd va s
  | .frcp h vd va => Sys2Proof.Machine.execFrcp h vd va s
  | .frsqrt h vd va => Sys2Proof.Machine.execFrsqrt h vd va s
  | .cvt h fmtIn fmtOut rnd ovf vd va => Sys2Proof.Machine.execCvt h fmtIn fmtOut rnd ovf vd va s
  | .gredAdd h vd va => Sys2Proof.Machine.execGredAdd h vd va s
  | .gredMax h vd vi va => Sys2Proof.Machine.execGredMax h vd vi va s
  | .gredMin h vd vi va => Sys2Proof.Machine.execGredMin h vd vi va s
  | .ld8 h vd va imm ps => Sys2Proof.Machine.execLd8 h vd va imm ps s
  | .ld16 h vd va imm ps => Sys2Proof.Machine.execLd16 h vd va imm ps s
  | .ld32 h vd va imm ps => Sys2Proof.Machine.execLd32 h vd va imm ps s
  | .ld64 h vd va imm ps => Sys2Proof.Machine.execLd64 h vd va imm ps s
  | .st8 h va imm vb ps => Sys2Proof.Machine.execSt8 h va imm vb ps s
  | .st16 h va imm vb ps => Sys2Proof.Machine.execSt16 h va imm vb ps s
  | .st32 h va imm vb ps => Sys2Proof.Machine.execSt32 h va imm vb ps s
  | .st64 h va imm vb ps => Sys2Proof.Machine.execSt64 h va imm vb ps s
  | .atomAdd h vd va vb ps => Sys2Proof.Machine.execAtomAdd h vd va vb ps s
  | .atomMax h vd va vb ps => Sys2Proof.Machine.execAtomMax h vd va vb ps s
  | .atomMin h vd va vb ps => Sys2Proof.Machine.execAtomMin h vd va vb ps s
  | .atomAnd h vd va vb ps => Sys2Proof.Machine.execAtomAnd h vd va vb ps s
  | .atomOr h vd va vb ps => Sys2Proof.Machine.execAtomOr h vd va vb ps s
  | .atomXchg h vd va vb ps => Sys2Proof.Machine.execAtomXchg h vd va vb ps s
  | .atomCas32 h vd va vb vc ps => Sys2Proof.Machine.execAtomCas32 h vd va vb vc ps s
  | .atomCas64 h vd va vb vc ps => Sys2Proof.Machine.execAtomCas64 h vd va vb vc ps s
  | .atomAddF32 h vd va vb ps => Sys2Proof.Machine.execAtomAddF32 h vd va vb ps s
  | .br h target => Sys2Proof.Machine.execBr h target s
  | .brAny h target => Sys2Proof.Machine.execBrAny h target s
  | .brAll h target => Sys2Proof.Machine.execBrAll h target s
  | .call h target => Sys2Proof.Machine.execCall h target s
  | .ret h => Sys2Proof.Machine.execRet h s
  | .pand h pd pa pb => Sys2Proof.Machine.execPand h pd pa pb s
  | .por h pd pa pb => Sys2Proof.Machine.execPor h pd pa pb s
  | .pxor h pd pa pb => Sys2Proof.Machine.execPxor h pd pa pb s
  | .pnot h pd pa => Sys2Proof.Machine.execPnot h pd pa s
  | .exit h => Sys2Proof.Machine.execExit h s
  | .fenceAcq h scope => Sys2Proof.Machine.execFenceAcq h scope s
  | .fenceRel h scope => Sys2Proof.Machine.execFenceRel h scope s
  | .fenceSc h scope => Sys2Proof.Machine.execFenceSc h scope s
  | .barInit h bar count cpl => Sys2Proof.Machine.execBarInit h bar count cpl s
  | .barArrive h bar cpl => Sys2Proof.Machine.execBarArrive h bar cpl s
  | .barWait h bar phase limitUs cpl => Sys2Proof.Machine.execBarWait h bar phase limitUs cpl s
  | .barWaitLimitExpiry core gang => Sys2Proof.Machine.execBarWaitLimitExpiry core gang s
  | .credReq h addr bytes cpl => Sys2Proof.Machine.execCredReq h addr bytes cpl s
  | .spawn h target entry arg count cpl => Sys2Proof.Machine.execSpawn h target entry arg count cpl s
  | .spawnQueueServe core => Sys2Proof.Machine.execSpawnQueueServe core s
  | .specGet h vd sel => Sys2Proof.Machine.execSpecGet h vd sel s
  | .snapTrig h => Sys2Proof.Machine.execSnapTrig h s
  | .nop h => Sys2Proof.Machine.execNop h s
  | .reservedEncoding core gang => Sys2Proof.Machine.execReservedEncoding core gang s
  | .fetchFailure core gang code => Sys2Proof.Machine.execFetchFailure core gang code s
  | .gangFree core gang => Sys2Proof.Machine.execGangFree core gang s
  | .arrMode h wide cpl => Sys2Proof.Machine.execArrMode h wide cpl s
  | .arrangementSwitch core => Sys2Proof.Machine.execArrangementSwitch core s
  | .arrLoadw h op cpl => Sys2Proof.Machine.execArrLoadw h op cpl s
  | .loadwStart core => Sys2Proof.Machine.execLoadwStart core s
  | .loadwComplete core => Sys2Proof.Machine.execLoadwComplete core s
  | .mmaRun h op cpl => Sys2Proof.Machine.execMmaRun h op cpl s
  | .runStart core => Sys2Proof.Machine.execRunStart core s
  | .rowEntry core wgtLate => Sys2Proof.Machine.execRowEntry core wgtLate s
  | .outputRowWrite core => Sys2Proof.Machine.execOutputRowWrite core s
  | .agOpen h op cpl => Sys2Proof.Machine.execAgOpen h op cpl s
  | .preloadStart core => Sys2Proof.Machine.execPreloadStart core s
  | .preloadComplete core => Sys2Proof.Machine.execPreloadComplete core s
  | .agClose h op cpl => Sys2Proof.Machine.execAgClose h op cpl s
  | .drainStart core => Sys2Proof.Machine.execDrainStart core s
  | .drainComplete core => Sys2Proof.Machine.execDrainComplete core s
  | .idleTimerExpiry core => Sys2Proof.Machine.execIdleTimerExpiry core s
  | .seqRun h desc cpl => Sys2Proof.Machine.execSeqRun h desc cpl s
  | .spkRun h desc cpl => Sys2Proof.Machine.execSpkRun h desc cpl s
  | .spnRun h desc cpl => Sys2Proof.Machine.execSpnRun h desc cpl s
  | .nestStart core => Sys2Proof.Machine.execNestStart core s
  | .seqIssue core => Sys2Proof.Machine.execSeqIssue core s
  | .mskScore h op cpl => Sys2Proof.Machine.execMskScore h op cpl s
  | .mskSelect h op cpl => Sys2Proof.Machine.execMskSelect h op cpl s
  | .mskApply h op cpl => Sys2Proof.Machine.execMskApply h op cpl s
  | .mskTiles h op cpl => Sys2Proof.Machine.execMskTiles h op cpl s
  | .updateEngineCommandStart q => Sys2Proof.Machine.execUpdateEngineCommandStart q s
  | .mskApplyComplete q => Sys2Proof.Machine.execMskApplyComplete q s
  | .mskTilesComplete q => Sys2Proof.Machine.execMskTilesComplete q s
  | .updOpt h desc cpl => Sys2Proof.Machine.execUpdOpt h desc cpl s
  | .updAccept q => Sys2Proof.Machine.execUpdAccept q s
  | .updComplete q => Sys2Proof.Machine.execUpdComplete q s
  | .spMm h op cpl => Sys2Proof.Machine.execSpMm h op cpl s
  | .spSddmm h op cpl => Sys2Proof.Machine.execSpSddmm h op cpl s
  | .spGemm h op cpl => Sys2Proof.Machine.execSpGemm h op cpl s
  | .mtchLoad h op cpl => Sys2Proof.Machine.execMtchLoad h op cpl s
  | .mtchProbe h op cpl => Sys2Proof.Machine.execMtchProbe h op cpl s
  | .mtchIsect h op cpl => Sys2Proof.Machine.execMtchIsect h op cpl s
  | .mtchClear h cpl => Sys2Proof.Machine.execMtchClear h cpl s
  | .segSum h op cpl => Sys2Proof.Machine.execSegSum h op cpl s
  | .segMax h op cpl => Sys2Proof.Machine.execSegMax h op cpl s
  | .segMin h op cpl => Sys2Proof.Machine.execSegMin h op cpl s
  | .gatRows h op cpl => Sys2Proof.Machine.execGatRows h op cpl s
  | .sctRows h op cpl => Sys2Proof.Machine.execSctRows h op cpl s
  | .sctAdd h op cpl => Sys2Proof.Machine.execSctAdd h op cpl s
  | .irregularComplete core => Sys2Proof.Machine.execIrregularComplete core s
  | .rngSeed h op cpl => Sys2Proof.Machine.execRngSeed h op cpl s
  | .rngFill h op cpl => Sys2Proof.Machine.execRngFill h op cpl s
  | .rngCat h op cpl => Sys2Proof.Machine.execRngCat h op cpl s
  | .randomConsumerStart core => Sys2Proof.Machine.execRandomConsumerStart core s
  | .stuckDetector core lane => Sys2Proof.Machine.execStuckDetector core lane s
  | .qntLdtab h op cpl => Sys2Proof.Machine.execQntLdtab h op cpl s
  | .qntSttab h op cpl => Sys2Proof.Machine.execQntSttab h op cpl s
  | .qntPass h op cpl => Sys2Proof.Machine.execQntPass h op cpl s
  | .qntPassComplete core => Sys2Proof.Machine.execQntPassComplete core s
  | .qntStep h cpl => Sys2Proof.Machine.execQntStep h cpl s
  | .quantiserCommandStart core => Sys2Proof.Machine.execQuantiserCommandStart core s
  | .layCopy h desc cpl => Sys2Proof.Machine.execLayCopy h desc cpl s
  | .layCopyStart core => Sys2Proof.Machine.execLayCopyStart core s
  | .layCopyComplete core => Sys2Proof.Machine.execLayCopyComplete core s
  | .strmOpen h strm desc cpl => Sys2Proof.Machine.execStrmOpen h strm desc cpl s
  | .strmClose h strm cpl => Sys2Proof.Machine.execStrmClose h strm cpl s
  | .streamRequest core => Sys2Proof.Machine.execStreamRequest core s
  | .streamDataReturn core strm reply => Sys2Proof.Machine.execStreamDataReturn core strm reply s
  | .chunkWritten core strm => Sys2Proof.Machine.execChunkWritten core strm s
  | .streamComplete core strm => Sys2Proof.Machine.execStreamComplete core strm s
  | .collAllreduce h desc cpl => Sys2Proof.Machine.execCollAllreduce h desc cpl s
  | .collRscatter h desc cpl => Sys2Proof.Machine.execCollRscatter h desc cpl s
  | .collAllgather h desc cpl => Sys2Proof.Machine.execCollAllgather h desc cpl s
  | .collAlltoall h desc cpl => Sys2Proof.Machine.execCollAlltoall h desc cpl s
  | .collBcast h desc cpl => Sys2Proof.Machine.execCollBcast h desc cpl s
  | .collBarrier h desc cpl => Sys2Proof.Machine.execCollBarrier h desc cpl s
  | .collectiveStart group => Sys2Proof.Machine.execCollectiveStart group s
  | .collectiveChunk c => Sys2Proof.Machine.execCollectiveChunk c s
  | .dueExpiry group => Sys2Proof.Machine.execDueExpiry group s
  | .alignmentMarker port lane bit errs laneNo => Sys2Proof.Machine.execAlignmentMarker port lane bit errs laneNo s
  | .flitSend port => Sys2Proof.Machine.execFlitSend port s
  | .dataFlit port f => Sys2Proof.Machine.execDataFlit port f s
  | .ackFlit port f => Sys2Proof.Machine.execAckFlit port f s
  | .nakFlit port f => Sys2Proof.Machine.execNakFlit port f s
  | .creditFlit port f => Sys2Proof.Machine.execCreditFlit port f s
  | .controlFlit port f => Sys2Proof.Machine.execControlFlit port f s
  | .idleFlit port f => Sys2Proof.Machine.execIdleFlit port f s
  | .ackTimeout port => Sys2Proof.Machine.execAckTimeout port s
  | .retrainComplete port locks => Sys2Proof.Machine.execRetrainComplete port locks s
  | .flowRecompute src dst vc => Sys2Proof.Machine.execFlowRecompute src dst vc s
  | .adaptiveEscape port => Sys2Proof.Machine.execAdaptiveEscape port s
  | .message m => Sys2Proof.Machine.execMessage m s
  | .stallTimeout src op => Sys2Proof.Machine.execStallTimeout src op s
  | .senderTimeout op => Sys2Proof.Machine.execSenderTimeout op s
  | .abortNotice op code => Sys2Proof.Machine.execAbortNotice op code s
  | .heartbeat port => Sys2Proof.Machine.execHeartbeat port s
  | .heartbeatSilence port => Sys2Proof.Machine.execHeartbeatSilence port s
  | .membershipChange leaves joins => Sys2Proof.Machine.execMembershipChange leaves joins s
  | .membership version members coordinator standby => Sys2Proof.Machine.execMembership version members coordinator standby s
  | .ethernetFrame port link f => Sys2Proof.Machine.execEthernetFrame port link f s
  | .tlsHandshake port job cert => Sys2Proof.Machine.execTlsHandshake port job cert s
  | .sessionClose sid => Sys2Proof.Machine.execSessionClose sid s
  | .forwardedWrite addr data => Sys2Proof.Machine.execForwardedWrite addr data s
  | .pairCompare side addr data => Sys2Proof.Machine.execPairCompare side addr data s
  | .pairWaitExpiry addr => Sys2Proof.Machine.execPairWaitExpiry addr s
  | .placementChange job change => Sys2Proof.Machine.execPlacementChange job change s
  | .coreFailure core => Sys2Proof.Machine.execCoreFailure core s
  | .pierFailure p => Sys2Proof.Machine.execPierFailure p s
  | .spanFailure a b => Sys2Proof.Machine.execSpanFailure a b s
  | .crownPatrol q bank found => Sys2Proof.Machine.execCrownPatrol q bank found s
  | .hbmPatrol st chan found => Sys2Proof.Machine.execHbmPatrol st chan found s
  | .channelTimeout st chan line => Sys2Proof.Machine.execChannelTimeout st chan line s
  | .refresh st bank => Sys2Proof.Machine.execRefresh st bank s
  | .sharedReload region line => Sys2Proof.Machine.execSharedReload region line s
  | .pageEntryChange part page entry => Sys2Proof.Machine.execPageEntryChange part page entry s
  | .healthTestFailure => Sys2Proof.Machine.execHealthTestFailure s
  | .retestExpiry pass => Sys2Proof.Machine.execRetestExpiry pass s
  | .drbgRequest use resist => Sys2Proof.Machine.execDrbgRequest use resist s
  | .stepGrant up => Sys2Proof.Machine.execStepGrant up s
  | .rampTimeEnd t => Sys2Proof.Machine.execRampTimeEnd t s
  | .wakeComplete t => Sys2Proof.Machine.execWakeComplete t s
  | .s1Entry => Sys2Proof.Machine.execS1Entry s
  | .idleTimeout => Sys2Proof.Machine.execIdleTimeout s
  | .powerCapAverage watts => Sys2Proof.Machine.execPowerCapAverage watts s
  | .thermalSample t => Sys2Proof.Machine.execThermalSample t s
  | .moduleShutdown cause => Sys2Proof.Machine.execModuleShutdown cause s
  | .shutdownStep => Sys2Proof.Machine.execShutdownStep s
  | .inputUndervoltage mv us => Sys2Proof.Machine.execInputUndervoltage mv us s
  | .inputTurnOn mv ms => Sys2Proof.Machine.execInputTurnOn mv ms s
  | .resetN samples => Sys2Proof.Machine.execResetN samples s
  | .snapIn highNs => Sys2Proof.Machine.execSnapIn highNs s
  | .gauntletAlarm cause => Sys2Proof.Machine.execGauntletAlarm cause s
  | .status => Sys2Proof.Machine.execStatus s
  | .wake => Sys2Proof.Machine.execWake s
  | .shutdown => Sys2Proof.Machine.execShutdown s
  | .image img => Sys2Proof.Machine.execImage img s
  | .startUp trayId slotId parity => Sys2Proof.Machine.execStartUp trayId slotId parity s
  | .stewardSignalTimeout => Sys2Proof.Machine.execStewardSignalTimeout s
  | .fieldUpdate owner img => Sys2Proof.Machine.execFieldUpdate owner img s
  | .liveActivation ok => Sys2Proof.Machine.execLiveActivation ok s
  | .debugSignature key sig => Sys2Proof.Machine.execDebugSignature key sig s
  | .jobSubmit job => Sys2Proof.Machine.execJobSubmit job s
  | .stageReport job stage step => Sys2Proof.Machine.execStageReport job stage step s
  | .stepBoundary job othersNf lossSum => Sys2Proof.Machine.execStepBoundary job othersNf lossSum s
  | .updVerdict q v => Sys2Proof.Machine.execUpdVerdict q v s
  | .partitionCreate owner p => Sys2Proof.Machine.execPartitionCreate owner p s
  | .partitionDestroy p => Sys2Proof.Machine.execPartitionDestroy p s
  | .publish part quarter bank banks master copy mappers digest => Sys2Proof.Machine.execPublish part quarter bank banks master copy mappers digest s
  | .withdraw part region => Sys2Proof.Machine.execWithdraw part region s
  | .quote requester part nonce => Sys2Proof.Machine.execQuote requester part nonce s
  | .refusalComplete idx => Sys2Proof.Machine.execRefusalComplete idx s
  | .fabricTrigger target => Sys2Proof.Machine.execFabricTrigger target s
  | .targetTime => Sys2Proof.Machine.execTargetTime s
  | .trig => Sys2Proof.Machine.execTrig s
  | .send => Sys2Proof.Machine.execSend s
  | .release => Sys2Proof.Machine.execRelease s
  | .snapStatValidClear b => Sys2Proof.Machine.execSnapStatValidClear b s
  | .seqCtlAbort core stale => Sys2Proof.Machine.execSeqCtlAbort core stale s
  | .mtchSeed core v => Sys2Proof.Machine.execMtchSeed core v s
  | .mtchSpill core v => Sys2Proof.Machine.execMtchSpill core v s
  | .qntSlotCfg core slot v => Sys2Proof.Machine.execQntSlotCfg core slot v s
  | .arrFreezeLo core v => Sys2Proof.Machine.execArrFreezeLo core v s
  | .arrFillLo core v => Sys2Proof.Machine.execArrFillLo core v s
  | .arrColdWait core v => Sys2Proof.Machine.execArrColdWait core v s
  | .timePhaseLo p v => Sys2Proof.Machine.execTimePhaseLo p v s
  | .loReadLatch off => Sys2Proof.Machine.execLoReadLatch off s
  | .crwnRxwinCfg q w v => Sys2Proof.Machine.execCrwnRxwinCfg q w v s
  | .crwnRxwinBase q w v => Sys2Proof.Machine.execCrwnRxwinBase q w v s
  | .crwnRxwinSize q w v => Sys2Proof.Machine.execCrwnRxwinSize q w v s
  | .crwnRxwinFree q w v => Sys2Proof.Machine.execCrwnRxwinFree q w v s
  | .cmemRxwinCfg part core w v => Sys2Proof.Machine.execCmemRxwinCfg part core w v s
  | .cmemRxwinFree core w v => Sys2Proof.Machine.execCmemRxwinFree core w v s
  | .bootLock => Sys2Proof.Machine.execBootLock s
  | .registerWrite part off v => Sys2Proof.Machine.execRegisterWrite part off v s
  | .threadAccessComplete core gang idx reply => Sys2Proof.Machine.execThreadAccessComplete core gang idx reply s
  | .randomConsumerComplete core => Sys2Proof.Machine.execRandomConsumerComplete core s
  | .alwaysOnSupplyFall => Sys2Proof.Machine.execAlwaysOnSupplyFall s

end Sys2Proof.Machine
end

