-- ==== Sys2Proof/Safety.lean ====
section
/-! DEFINITION. What counts as a safe state, in the terms claims use: memory in its canonical form, queues within their depth,
and hard-wired facts of the manual. -/

namespace Sys2Proof.Machine

/-- Memory lists rising addresses and no zero byte. -/
abbrev Memory.wf (m : List Host.Cell) : Bool := Tab.wf 0 m

/-- The machine goes on: a command answers a next state. -/
def goesOn (c : Instr) (s : State) : Prop := ∃ t, exec c s = .next t

end Sys2Proof.Machine
end

