-- ==== Sys2Proof/Certificates/Slice0/Obligations.lean ====
section
/-! DEFINITION. The statements for the provers, one for each family of commands and kind of state, with the words they are
written in. -/

namespace Sys2Proof.Claims

open Sys2Proof.Machine

/-! ## The words of the statements -/

/-- `s` once an instruction that reads `rs` has issued (09 R204, log 187): reading a CPL register in which a command completed with
DONE, while an active thread's copy of it is still 0, leaves a `fence.acq` of DEVICE scope behind the gang's earlier accesses; no
other read changes anything. -/
def Reading (s : State) (h : Th) (rs : List Reg) : State :=
  let k := s.gang h.core h.gang
  if rs.any (fun r => k.cplDone.contains r && (List.range 32).any (fun n => k.mask.getLsbD n && k.reg n r == 0)) then
    s.onGang h.core h.gang (fun k => { k with memops := pruneFences (k.memops ++ [.fence .acq 3]) })
  else s

/-- `t` is `s` after an instruction that writes `f` into v`vd` of every executing thread and moves past itself: no other
register, gang or part of the module changes. -/
def WroteReg (s t : State) (h : Th) (vd : Reg) (f : Gang → Nat → Word) : Prop :=
  let k := s.gang h.core h.gang
  let k' := t.gang h.core h.gang
  (∀ n r, k'.reg n r = if n ∈ k.execs h ∧ r = vd then f k n else k.reg n r)
    ∧ k' = { k with pc := k.pc + 8, regs := k'.regs } ∧ t = s.onGang h.core h.gang (fun _ => k')

/-- The same for a predicate register. -/
def WrotePred (s t : State) (h : Th) (pd : PReg) (f : Gang → Nat → Bool) : Prop :=
  let k := s.gang h.core h.gang
  let k' := t.gang h.core h.gang
  (∀ n p, k'.pred n p = if n ∈ k.execs h ∧ p = pd then f k n else k.pred n p)
    ∧ k' = { k with pc := k.pc + 8, preds := k'.preds } ∧ t = s.onGang h.core h.gang (fun _ => k')

/-- `t` is `s` but for one gang, which is `k'`. -/
def OnlyGang (s t : State) (h : Th) (k' : Gang) : Prop := t = s.onGang h.core h.gang (fun _ => k')

/-- An integer or move instruction: its gang, destination, the registers and predicates it reads, and its result
(09 R210: wrapping modulo 2^32, shift counts modulo 32). -/
def aluRow : Instr → Option (Th × Reg × List Reg × List PReg × (Gang → Nat → Word))
  | .add h _ vd va b => some (h, vd, va :: srcRegs b, [],
      fun k n => BitVec.ofNat 32 ((k.reg n va).toNat + (srcVal k n b).toNat))
  | .sub h _ vd va b => some (h, vd, va :: srcRegs b, [],
      fun k n => BitVec.ofInt 32 ((k.reg n va).toInt - (srcVal k n b).toInt))
  | .mulLo h _ vd va b => some (h, vd, va :: srcRegs b, [],
      fun k n => BitVec.ofNat 32 ((k.reg n va).toNat * (srcVal k n b).toNat))
  | .mulHi h sgn vd va b => some (h, vd, va :: srcRegs b, [], fun k n =>
      if sgn then (((k.reg n va).signExtend 64 * (srcVal k n b).signExtend 64) >>> 32).setWidth 32
      else (((k.reg n va).setWidth 64 * (srcVal k n b).setWidth 64) >>> 32).setWidth 32)
  | .and h vd va vb => some (h, vd, [va, vb], [], fun k n => k.reg n va &&& k.reg n vb)
  | .or h vd va vb => some (h, vd, [va, vb], [], fun k n => k.reg n va ||| k.reg n vb)
  | .xor h vd va vb => some (h, vd, [va, vb], [], fun k n => k.reg n va ^^^ k.reg n vb)
  | .not h vd va => some (h, vd, [va], [], fun k n => ~~~ k.reg n va)
  | .shl h vd va vb => some (h, vd, [va, vb], [], fun k n => k.reg n va <<< ((k.reg n vb).toNat % 32))
  | .shr h vd va vb => some (h, vd, [va, vb], [], fun k n => k.reg n va >>> ((k.reg n vb).toNat % 32))
  | .sra h vd va vb => some (h, vd, [va, vb], [], fun k n => (k.reg n va).sshiftRight ((k.reg n vb).toNat % 32))
  | .rotl h vd va vb => some (h, vd, [va, vb], [], fun k n =>
      k.reg n va <<< ((k.reg n vb).toNat % 32) ||| k.reg n va >>> (32 - (k.reg n vb).toNat % 32))
  | .popc h vd va => some (h, vd, [va], [], fun k n =>
      BitVec.ofNat 32 ((List.range 32).filter (fun i => (k.reg n va).getLsbD i)).length)
  | .clz h vd va => some (h, vd, [va], [], fun k n =>
      BitVec.ofNat 32 (32 - (if k.reg n va = 0 then 0 else Nat.log2 (k.reg n va).toNat + 1)))
  | .mov h vd va => some (h, vd, [va], [], fun k n => k.reg n va)
  | .movi h vd imm => some (h, vd, [], [], fun _ _ => imm)
  | .sel h vd va vb ps => some (h, vd, [va, vb], [ps], fun k n => if k.pred n ps then k.reg n va else k.reg n vb)
  | _ => none

/-- A compare or predicate instruction (09 R210). -/
def predRow : Instr → Option (Th × PReg × List Reg × List PReg × (Gang → Nat → Bool))
  | .cmpEq h ty pd va vb => some (h, pd, [va, vb], [], fun k n => match ty with
      | .f32 => (f32 (k.reg n va)).eqv (f32 (k.reg n vb))
      | _ => decide (k.reg n va = k.reg n vb))
  | .cmpNe h ty pd va vb => some (h, pd, [va, vb], [], fun k n => match ty with
      | .f32 => !(f32 (k.reg n va)).eqv (f32 (k.reg n vb))
      | _ => decide (k.reg n va ≠ k.reg n vb))
  | .cmpLt h ty pd va vb => some (h, pd, [va, vb], [], fun k n => match ty with
      | .i32 => decide ((k.reg n va).toInt < (k.reg n vb).toInt)
      | .u32 => decide ((k.reg n va).toNat < (k.reg n vb).toNat)
      | .f32 => (f32 (k.reg n va)).lt (f32 (k.reg n vb)))
  | .cmpLe h ty pd va vb => some (h, pd, [va, vb], [], fun k n => match ty with
      | .i32 => decide ((k.reg n va).toInt ≤ (k.reg n vb).toInt)
      | .u32 => decide ((k.reg n va).toNat ≤ (k.reg n vb).toNat)
      | .f32 => (f32 (k.reg n va)).lt (f32 (k.reg n vb)) || (f32 (k.reg n va)).eqv (f32 (k.reg n vb)))
  | .pand h pd pa pb => some (h, pd, [], [pa, pb], fun k n => k.pred n pa && k.pred n pb)
  | .por h pd pa pb => some (h, pd, [], [pa, pb], fun k n => k.pred n pa || k.pred n pb)
  | .pxor h pd pa pb => some (h, pd, [], [pa, pb], fun k n => k.pred n pa != k.pred n pb)
  | .pnot h pd pa => some (h, pd, [], [pa], fun k n => !k.pred n pa)
  | _ => none

/-- A floating-point instruction that draws no random value: RND other than 0b11 (02 R61, R63; 09 R210). -/
def fpuRow : Instr → Option (Th × Reg × List Reg × (Gang → Nat → Word))
  | .fadd h rnd vd va vb => if rnd = 3 then none else some (h, vd, [va, vb],
      fun k n => toF32R rnd 0 ((f32 (k.reg n va)).add (f32 (k.reg n vb))))
  | .fmul h rnd vd va vb => if rnd = 3 then none else some (h, vd, [va, vb],
      fun k n => toF32R rnd 0 ((f32 (k.reg n va)).mul (f32 (k.reg n vb))))
  | .ffma h rnd vd va vb vc => if rnd = 3 then none else some (h, vd, [va, vb, vc],
      fun k n => toF32R rnd 0 (((f32 (k.reg n va)).mul (f32 (k.reg n vb))).add (f32 (k.reg n vc))))
  | .fmax h vd va vb => some (h, vd, [va, vb], fun k n =>
      let (x, y) := (f32 (k.reg n va), f32 (k.reg n vb))
      if x.isNan || y.isNan then 0x7FC0_0000 else if x.below y then k.reg n vb else k.reg n va)
  | .fmin h vd va vb => some (h, vd, [va, vb], fun k n =>
      let (x, y) := (f32 (k.reg n va), f32 (k.reg n vb))
      if x.isNan || y.isNan then 0x7FC0_0000 else if y.below x then k.reg n vb else k.reg n va)
  | .fexp2 h vd va => some (h, vd, [va], fun k n => unaryF 0 (k.reg n va))
  | .flog2 h vd va => some (h, vd, [va], fun k n => unaryF 1 (k.reg n va))
  | .frcp h vd va => some (h, vd, [va], fun k n => unaryF 2 (k.reg n va))
  | .frsqrt h vd va => some (h, vd, [va], fun k n => unaryF 3 (k.reg n va))
  | .gredAdd h vd va => some (h, vd, [va], fun k _ =>
      match (k.execs h).map (fun n => k.reg n va) with
      | [] => 0
      | x :: r => r.foldl (fun a b => toF32 ((f32 a).add (f32 b))) (toF32 (f32 x)))
  | _ => none

/-- What a branch or the end of threads makes of its gang (09 R194, R210). -/
def branchRow : Instr → Option (Th × (Gang → Option Gang))
  | .br h target => some (h, fun k => some { k with pc := target })
  | .brAny h target => some (h, fun k =>
      some { k with pc := if ∃ n, n < 32 ∧ k.mask.getLsbD n ∧ k.pred n h.guard = h.sense then target else k.pc + 8 })
  | .brAll h target => some (h, fun k =>
      some { k with pc := if ∀ n, n < 32 → k.mask.getLsbD n → k.pred n h.guard = h.sense then target else k.pc + 8 })
  | .call h target => some (h, fun k =>
      if k.stack.length < 16 then some { k with stack := (k.pc + 8) :: k.stack, pc := target } else none)
  | .ret h => some (h, fun k => match k.stack with
      | a :: r => some { k with stack := r, pc := a }
      | [] => none)
  | .exit h => some (h, fun k =>
      let m := maskOf ((List.range 32).filter (fun n => k.mask.getLsbD n && k.pred n h.guard != h.sense))
      some { k with pc := k.pc + 8, mask := m, status := if m = 0 then .ending else k.status })
  | .nop h => some (h, fun k => some { k with pc := k.pc + 8 })
  | _ => none

end Sys2Proof.Claims

open Sys2Proof Sys2Proof.Machine Sys2Proof.Claims

/-- 09 R193, R210: every integer and move instruction issues when its gang may, and writes the result of its row. -/
def Obligations.IntegerResults : Prop :=
  ∀ (i : Instr) (s : State) (h : Th) (vd : Reg) (rs : List Reg) (ps : List PReg) (f : Gang → Nat → Word),
    aluRow i = some (h, vd, rs, ps, f) → s.ready h rs ps = true → ∃ t, exec i s = .next t ∧ WroteReg (Reading s h rs) t h vd f

/-- 09 R210: compares and predicate instructions. -/
def Obligations.PredicateResults : Prop :=
  ∀ (i : Instr) (s : State) (h : Th) (pd : PReg) (rs : List Reg) (ps : List PReg) (f : Gang → Nat → Bool),
    predRow i = some (h, pd, rs, ps, f) → s.ready h rs ps = true → ∃ t, exec i s = .next t ∧ WrotePred (Reading s h rs) t h pd f

/-- 02 R61, R63, 09 R210: floating-point instructions without a random draw. -/
def Obligations.FloatResults : Prop :=
  ∀ (i : Instr) (s : State) (h : Th) (vd : Reg) (rs : List Reg) (f : Gang → Nat → Word),
    fpuRow i = some (h, vd, rs, f) → s.ready h rs [] = true → ∃ t, exec i s = .next t ∧ WroteReg (Reading s h rs) t h vd f

/-- 09 R192, R194, R210: branches, calls, returns, exit and nop change their gang as the row says and nothing else. -/
def Obligations.BranchResults : Prop :=
  ∀ (i : Instr) (s : State) (h : Th) (g : Gang → Option Gang) (k : Gang),
    branchRow i = some (h, g) → s.ready h [] [] = true → g (s.gang h.core h.gang) = some k →
      ∃ t, exec i s = .next t ∧ OnlyGang s t h k

namespace Sys2Proof.Claims

/-- A floating-point operation that may round stochastically, with the random value it rounds by. -/
def stochRow : Instr → Option (Th × Reg × List Reg × (Gang → Nat → Nat → Word))
  | .fadd h rnd vd va vb => if rnd = 3 then some (h, vd, [va, vb],
      fun k n r => toF32R 3 r ((f32 (k.reg n va)).add (f32 (k.reg n vb)))) else none
  | .fmul h rnd vd va vb => if rnd = 3 then some (h, vd, [va, vb],
      fun k n r => toF32R 3 r ((f32 (k.reg n va)).mul (f32 (k.reg n vb)))) else none
  | .ffma h rnd vd va vb vc => if rnd = 3 then some (h, vd, [va, vb, vc],
      fun k n r => toF32R 3 r (((f32 (k.reg n va)).mul (f32 (k.reg n vb))).add (f32 (k.reg n vc)))) else none
  | _ => none

/-- Thread `n` has drawn one word from lane `n` if it executes (02 R43, 08 R173): the lane is one word on. -/
def LanesDrawn (s t : State) (h : Th) : Prop :=
  ∀ n : Fin 32, (t.core h.core).rng.lanes[n.val] =
    if n.val ∈ (s.gang h.core h.gang).execs h then
      { s := wordStep (s.core h.core).rng.lanes[n.val].s, pos := ((s.core h.core).rng.lanes[n.val].pos + 1) % 2 ^ 64 }
    else (s.core h.core).rng.lanes[n.val]

/-- The random value thread `n` would take: bits 11:0 of its lane's next word. -/
def laneBits (s : State) (h : Th) (n : Fin 32) : Nat := (laneFilter (s.core h.core).rng.lanes[n.val].s).toNat % 4096

/-- The registers of a gang change as an instruction that writes `f` into v`vd` of every executing thread changes them. -/
def RegsWritten (s t : State) (h : Th) (vd : Reg) (f : Fin 32 → Word) : Prop :=
  ∀ (n : Fin 32) (r : Reg), (t.gang h.core h.gang).reg n.val r =
    if n.val ∈ (s.gang h.core h.gang).execs h ∧ r = vd then f n else (s.gang h.core h.gang).reg n.val r

/-- Nothing but registers of one gang moves in its core, beside the parts a statement names: the other gangs, the array, the
matcher, the quantiser and the streams are as they were, and so is every byte of memory. -/
def CoreFrame (s t : State) (h : Th) : Prop :=
  (∀ g, g ≠ h.gang → t.gang h.core g = s.gang h.core g)
    ∧ (t.core h.core).arr = (s.core h.core).arr ∧ (t.core h.core).mtch = (s.core h.core).mtch
    ∧ (t.core h.core).qnt = (s.core h.core).qnt ∧ (t.core h.core).streams = (s.core h.core).streams
    ∧ (∀ c, c ≠ h.core → t.core c = s.core c) ∧ ∀ a, t.rdByte a = s.rdByte a

/-- The first active thread of a gang. -/
def firstThread (k : Gang) : Nat := ((List.range 32).filter (fun n => k.mask.getLsbD n)).headD 0

/-- A gang has ended with a failure latched, if none was (09 R194, R198, R214): nothing more of it issues. -/
def EndedWith (s t : State) (c : CoreId) (g : GangId) (fetch : Bool) (code : Code) : Prop :=
  let k := s.gang c g
  let k' := t.gang c g
  k'.status = .ending ∧ k'.mask = 0 ∧ k'.regs = k.regs ∧ k'.preds = k.preds
    ∧ (k.gfault.valid = true → k'.gfault = k.gfault)
    ∧ (k.gfault.valid = false → k'.gfault = { valid := true, fetch, thread := firstThread k, code, addr := k.pc })
    ∧ ∀ a, t.rdByte a = s.rdByte a

/-- A gang stands at an instruction: live, its core running, not waiting and not held. -/
def AtInstr (s : State) (c : CoreId) (g : GangId) : Prop :=
  s.coreOn c = true ∧ (s.gang c g).status = .live ∧ (s.gang c g).wait = none ∧ (s.gang c g).held = false

/-- A memory instruction: its thread part, kind, width in bytes, address register and offset, stored, compared and written
registers, and status predicate (09 R198, R206, R210). -/
def memRow : Instr → Option (Th × AccKind × Nat × Reg × Addr × Option Reg × Option Reg × Option Reg × Option PReg)
  | .ld8 h vd va imm ps => some (h, .load, 1, va, imm, none, none, some vd, ps)
  | .ld16 h vd va imm ps => some (h, .load, 2, va, imm, none, none, some vd, ps)
  | .ld32 h vd va imm ps => some (h, .load, 4, va, imm, none, none, some vd, ps)
  | .ld64 h vd va imm ps => some (h, .load, 8, va, imm, none, none, some vd, ps)
  | .st8 h va imm vb ps => some (h, .store, 1, va, imm, some vb, none, none, ps)
  | .st16 h va imm vb ps => some (h, .store, 2, va, imm, some vb, none, none, ps)
  | .st32 h va imm vb ps => some (h, .store, 4, va, imm, some vb, none, none, ps)
  | .st64 h va imm vb ps => some (h, .store, 8, va, imm, some vb, none, none, ps)
  | .atomAdd h vd va vb ps => some (h, .add, 4, va, 0, some vb, none, some vd, ps)
  | .atomMax h vd va vb ps => some (h, .max, 4, va, 0, some vb, none, some vd, ps)
  | .atomMin h vd va vb ps => some (h, .min, 4, va, 0, some vb, none, some vd, ps)
  | .atomAnd h vd va vb ps => some (h, .and, 4, va, 0, some vb, none, some vd, ps)
  | .atomOr h vd va vb ps => some (h, .or, 4, va, 0, some vb, none, some vd, ps)
  | .atomXchg h vd va vb ps => some (h, .xchg, 4, va, 0, some vb, none, some vd, ps)
  | .atomCas32 h vd va vb vc ps => some (h, .cas, 4, va, 0, some vc, some vb, some vd, ps)
  | .atomCas64 h vd va vb vc ps => some (h, .cas, 8, va, 0, some vc, some vb, some vd, ps)
  | .atomAddF32 h vd va vb ps => some (h, .addF32, 4, va, 0, some vb, none, some vd, ps)
  | _ => none

/-- The registers an operand of `w` bytes takes: a pair for 8 (log 18). -/
def opRegs (w : Nat) : Option Reg → List Reg
  | some r => if w = 8 then [r, r + 1] else [r]
  | none => []

/-- The operand's value in thread `n`. -/
def opVal (k : Gang) (w n : Nat) : Option Reg → BitVec 64
  | some r => if w = 8 then (k.reg n (r + 1)).setWidth 64 <<< 32 ||| (k.reg n r).setWidth 64 else (k.reg n r).setWidth 64
  | none => 0

/-- The fences (09 R203). -/
def fenceRow : Instr → Option (Th × FenceKind × BitVec 3)
  | .fenceAcq h sc => some (h, .acq, sc)
  | .fenceRel h sc => some (h, .rel, sc)
  | .fenceSc h sc => some (h, .sc, sc)
  | _ => none

/-- An earlier access a fence of this kind waits for: one that returns a value for `fence.acq`, any for the others. -/
def heldBy (k : FenceKind) (m : MemOp) : Prop :=
  match m, k with
  | .acc a, .acq => a.kind ≠ .store
  | .acc _, _ => True
  | .fence _ _, _ => False

/-- A memory instruction in flight that may be performed now: its core runs, it has not been answered, and neither a fence nor
an earlier access to the same bytes stands before it (09 R202, R203). -/
def MayPerform (s : State) (c : CoreId) (g : GangId) (idx : Nat) (a : Access) : Prop :=
  (s.gang c g).memops[idx]? = some (.acc a) ∧ s.coreOn c = true ∧ a.answer = none ∧ a.width ∈ [1, 2, 4, 8]
    ∧ mayPerform ((s.gang c g).memops.take idx) a = true

/-- A thread's address stands at `x` of this module's memory, as its core sees it (01 R26-R28, 09 R199-R200). -/
def AtMemory (s : State) (c : CoreId) (i : AccItem) (w : Nat) (r : Right) (x : Nat) : Prop :=
  s.deviceKnown (s.part c) i.addr = true ∧ i.addr.toNat % w = 0 ∧ (s.from_ c).resolve (s.part c) i.addr r = .ok (.here x)
    ∧ (∀ o, s.place x ≠ .regs o)

/-- The status predicate of a completed access holds `b` in every thread that was active at issue (09 R198). -/
def StatusIs (t : State) (c : CoreId) (g : GangId) (a : Access) (b : Bool) : Prop :=
  ∀ p, a.ps = some p → ∀ n : Fin 32, a.mask.getLsbD n.val = true → (t.gang c g).pred n.val p = b

/-- v`r` of thread `n` holds a value of `w` bytes: the pair for 8, the low bytes for fewer than 4 (log 18, log 19). -/
def Holds (t : State) (c : CoreId) (g : GangId) (w : Nat) (n : Nat) (r : Reg) (v : Nat) : Prop :=
  let k := t.gang c g
  if w = 8 then (k.reg n r).toNat + 2 ^ 32 * (k.reg n (r + 1)).toNat = v
  else (k.reg n r).toNat % 2 ^ (8 * w) = v

/-- What an atomic of `w` bytes leaves in memory (09 R206, R210). -/
def atomResult (kind : AccKind) (old v cmp : BitVec 64) : BitVec 64 :=
  let o : Word := old.setWidth 32
  let x : Word := v.setWidth 32
  match kind with
  | .add => (BitVec.ofNat 32 (o.toNat + x.toNat)).setWidth 64
  | .max => (if o.toInt < x.toInt then x else o).setWidth 64
  | .min => (if x.toInt < o.toInt then x else o).setWidth 64
  | .and => (o &&& x).setWidth 64
  | .or => (o ||| x).setWidth 64
  | .cas => if old = cmp then v else old
  | .addF32 => (toF32 ((f32 o).add (f32 x))).setWidth 64
  | _ => x.setWidth 64

end Sys2Proof.Claims

/-- 02 R43, R61, 08 R173-R174, 09 R210: with RND 0b11 each executing thread rounds by bits 11:0 of one word of its own lane, and
that lane alone moves one word on. -/
def Sys2Proof.Claims.StochasticFloatResults : Prop :=
  ∀ (i : Instr) (s : State) (h : Th) (vd : Reg) (rs : List Reg) (f : Gang → Nat → Nat → Word),
    stochRow i = some (h, vd, rs, f) → s.ready h rs [] = true → s.rngFree h.core = true →
    ¬ (s.det h.core = true ∧ (s.core h.core).rng.fresh = true) →
      ∃ t, exec i s = .next t ∧ RegsWritten s t h vd (fun n => f (s.gang h.core h.gang) n.val (laneBits s h n))
        ∧ LanesDrawn s t h ∧ (t.gang h.core h.gang).pc = (s.gang h.core h.gang).pc + 8 ∧ CoreFrame s t h

/-- 09 R208, R213: in a deterministic partition a draw from FRESH lanes is refused: CORE_VARIES counts it and no register,
lane or byte changes. -/
def Sys2Proof.Claims.StochasticFloatRefused : Prop :=
  ∀ (i : Instr) (s : State) (h : Th) (vd : Reg) (rs : List Reg) (f : Gang → Nat → Nat → Word),
    stochRow i = some (h, vd, rs, f) → s.ready h rs [] = true → s.rngFree h.core = true →
    s.det h.core = true → (s.core h.core).rng.fresh = true →
      ∃ t, exec i s = .next t ∧ (t.core h.core).varies = min (2 ^ 32 - 1) ((s.core h.core).varies + 1)
        ∧ (t.core h.core).rng = (s.core h.core).rng
        ∧ t.gang h.core h.gang = { (Reading s h rs).gang h.core h.gang with pc := (s.gang h.core h.gang).pc + 8 } ∧ CoreFrame s t h

/-- 02 R44-R46, R61, R43: `cvt` writes each executing thread's converted code, with RND 0b11 by its lane's random value, and
sets its gang's bits of CORE_TFLAGS for the saturations and non-finite values met. -/
def Obligations.ConversionResults : Prop :=
  ∀ (s : State) (h : Th) (fi fo : BitVec 4) (rnd ovf : BitVec 2) (vd va : Reg),
    ovf ≠ 3 → fmtReserved fi = false → fmtReserved fo = false → s.ready h [va] [] = true →
    (rnd = 3 → s.rngFree h.core = true ∧ ¬ (s.det h.core = true ∧ (s.core h.core).rng.fresh = true)) →
      let k := s.gang h.core h.gang
      let r : Fin 32 → Nat := fun n => if rnd = 3 then laneBits s h n else 0
      let c : Fin 32 → Conv := fun n => cvtWord fi fo rnd ovf (r n) (k.reg n.val va)
      ∃ t, exec (.cvt h fi fo rnd ovf vd va) s = .next t
        ∧ RegsWritten s t h vd (fun n => BitVec.ofNat 32 (c n).code) ∧ (t.gang h.core h.gang).pc = k.pc + 8
        ∧ (rnd ≠ 3 → (t.core h.core).rng = (s.core h.core).rng) ∧ (rnd = 3 → LanesDrawn s t h)
        ∧ (∀ g : Fin 16, (t.core h.core).tNarrowSat.getLsbD g.val =
            ((s.core h.core).tNarrowSat.getLsbD g.val || decide (g = h.gang ∧ ∃ n : Fin 32, n.val ∈ k.execs h ∧ (c n).sat = true)))
        ∧ (∀ g : Fin 16, (t.core h.core).tNonfinite.getLsbD g.val =
            ((s.core h.core).tNonfinite.getLsbD g.val || decide (g = h.gang ∧ ∃ n : Fin 32, n.val ∈ k.execs h ∧ (c n).nonfin = true)))
        ∧ CoreFrame s t h

/-- 02 R63, 09 R210: `gred.max` and `gred.min` give every executing thread the winning value of the gang and, in v`vi`, the
number of the thread that holds it; the other registers stay. -/
def Obligations.GangReductionWinners : Prop :=
  ∀ (s : State) (h : Th) (vd vi va : Reg) (isMax : Bool), s.ready h [va] [] = true →
    let k := s.gang h.core h.gang
    ∃ t, exec (if isMax then .gredMax h vd vi va else .gredMin h vd vi va) s = .next t
      ∧ (∀ (n : Nat) (r : Reg), (t.gang h.core h.gang).reg n r =
          if n ∈ k.execs h ∧ r = vi then (gangBest isMax k h va).2
          else if n ∈ k.execs h ∧ r = vd then (gangBest isMax k h va).1 else k.reg n r)
      ∧ (t.gang h.core h.gang).preds = k.preds ∧ (t.gang h.core h.gang).pc = k.pc + 8 ∧ CoreFrame s t h

/-- 09 R194, R198, R210, 02 R32, R45: a reserved encoding, a failed fetch and the 17th nested call end the gang and latch FORMAT,
the fetch's code, or LIMIT, with the first active thread and the program counter; nothing is stored. -/
def Obligations.GangEndingFailures : Prop :=
  (∀ (s : State) (c : CoreId) (g : GangId), AtInstr s c g →
      ∃ t, exec (.reservedEncoding c g) s = .next t ∧ EndedWith s t c g false .format)
  ∧ (∀ (s : State) (c : CoreId) (g : GangId) (e : Code), AtInstr s c g → e ≠ .done →
      ∃ t, exec (.fetchFailure c g e) s = .next t ∧ EndedWith s t c g true e)
  ∧ (∀ (s : State) (h : Th) (fi fo : BitVec 4) (rnd ovf : BitVec 2) (vd va : Reg), s.ready h [] [] = true →
      ovf = 3 ∨ fmtReserved fi = true ∨ fmtReserved fo = true →
      ∃ t, exec (.cvt h fi fo rnd ovf vd va) s = .next t ∧ EndedWith s t h.core h.gang false .format)
  ∧ (∀ (s : State) (h : Th) (target : Addr), s.ready h [] [] = true → 16 ≤ (s.gang h.core h.gang).stack.length →
      ∃ t, exec (.call h target) s = .next t ∧ EndedWith s t h.core h.gang false .limit)

/-- 09 R193, R198, R202: a load, store or atomic leaves its gang as one memory instruction that holds each executing thread's
address and operands, and changes nothing else; it is performed by THREAD_ACCESS_COMPLETE. (`atom.add.f32` in a deterministic
partition is stated in `FloatAddRefused` below.) -/
def Sys2Proof.Claims.MemoryIssue : Prop :=
  ∀ (i : Instr) (s : State) (h : Th) (kind : AccKind) (w : Nat) (va : Reg) (imm : Addr) (vb cmp vd : Option Reg) (ps : Option PReg),
    memRow i = some (h, kind, w, va, imm, vb, cmp, vd, ps) →
    s.ready h ([va, va + 1] ++ opRegs w cmp ++ opRegs w vb) [] = true →
    (s.gang h.core h.gang).execs h ≠ [] → (kind = .addF32 → s.det h.core = false) →
      let k := s.gang h.core h.gang
      let a : Access := { kind, width := w, vd, ps, mask := maskOf (k.execs h), issued := s.now, answer := none
                          items := (k.execs h).map (fun n => ⟨Fin.ofNat 32 n,
                            ((k.reg n (va + 1)).setWidth 64 <<< 32 ||| (k.reg n va).setWidth 64) + imm,
                            opVal k w n vb, if kind = .cas then opVal k w n cmp else opVal k w n vb⟩) }
      exec i s = .next ((Reading s h ([va, va + 1] ++ opRegs w cmp ++ opRegs w vb)).onGang h.core h.gang (fun k => { k with
        pc := k.pc + 8, memops := pruneFences (k.memops ++ [.acc a]) }))

/-- 09 R206, R208, R213: `atom.add.f32` in a deterministic partition is counted in CORE_VARIES once, at issue. -/
def Sys2Proof.Claims.FloatAddRefused : Prop :=
  ∀ (s : State) (h : Th) (vd va vb : Reg) (ps : Option PReg), s.ready h [va, va + 1, vb] [] = true → s.det h.core = true →
    (∃ n ∈ (s.gang h.core h.gang).execs h, s.deviceKnown (s.part h.core)
      (((s.gang h.core h.gang).reg n (va + 1)).setWidth 64 <<< 32 ||| ((s.gang h.core h.gang).reg n va).setWidth 64) = true) →
      ∃ t, exec (.atomAddF32 h vd va vb ps) s = .next t
        ∧ (t.core h.core).varies = min (2 ^ 32 - 1) ((s.core h.core).varies + 1)
        ∧ (t.gang h.core h.gang).pc = (s.gang h.core h.gang).pc + 8 ∧ (t.gang h.core h.gang).regs = (s.gang h.core h.gang).regs
        ∧ CoreFrame s t h

/-- 09 R203: a fence stays in its gang's order while an earlier access it waits for is not complete; with none it is past at
once. It changes no register and no byte. -/
def Obligations.FenceOrder : Prop :=
  ∀ (i : Instr) (s : State) (h : Th) (k : FenceKind) (sc : BitVec 3),
    fenceRow i = some (h, k, sc) → s.ready h [] [] = true → (s.gang h.core h.gang).execs h ≠ [] →
      let ops := (s.gang h.core h.gang).memops
      ∃ t, exec i s = .next t
        ∧ t = s.onGang h.core h.gang (fun x => { x with pc := x.pc + 8, memops := (t.gang h.core h.gang).memops })
        ∧ ((∃ m ∈ ops, heldBy k m) → (t.gang h.core h.gang).memops.getLast? = some (.fence k sc))
        ∧ ((∀ m ∈ ops, ¬ heldBy k m) → (t.gang h.core h.gang).memops = pruneFences ops)
        ∧ (t.gang h.core h.gang).memops.filter isAcc = ops.filter isAcc

/-- 09 R198, R202, 00 R464: a load of one thread completes with the little-endian bytes at its address in its destination, its
status predicate 0, and no byte changed. -/
def Obligations.LoadCompletes : Prop :=
  ∀ (s : State) (c : CoreId) (g : GangId) (idx : Nat) (reply : RemoteReply) (a : Access) (i : AccItem) (r : Reg) (x : Nat),
    MayPerform s c g idx a → a.kind = .load → a.items = [i] → a.vd = some r → AtMemory s c i a.width .read x →
    ((s.from_ c).readLine (x / 64)).2 = .done →
      ∃ t, exec (.threadAccessComplete c g idx reply) s = .next t
        ∧ Holds t c g a.width i.thread.val r (leNat (s.rd x a.width)) ∧ StatusIs t c g a false
        ∧ (t.gang c g).memops = pruneFences ((s.gang c g).memops.eraseIdx idx)
        ∧ (t.gang c g).gfault = (s.gang c g).gfault
        ∧ (∀ n q, n ≠ i.thread.val → (t.gang c g).reg n q = (s.gang c g).reg n q)
        ∧ ∀ b, t.rdByte b = s.rdByte b

/-- 09 R198, R202, 11 R239, R248, R250, 00 R464: a store of one thread that its credits, the receiver's epoch and the line allow
writes its bytes, little-endian, at its address and no other byte, and no register. -/
def Obligations.StoreCompletes : Prop :=
  ∀ (s : State) (c : CoreId) (g : GangId) (idx : Nat) (reply : RemoteReply) (a : Access) (i : AccItem) (x : Nat),
    MayPerform s c g idx a → a.kind = .store → a.items = [i] → a.vd = none → AtMemory s c i a.width .write x →
    (s.from_ c).mayWrite c x a.width = true → s.staleAt c x = none →
    ((s.from_ c).store x (leBytes a.width i.val.toNat)).2 = .done →
      ∃ t, exec (.threadAccessComplete c g idx reply) s = .next t
        ∧ (∀ b, t.rdByte b = if x ≤ b ∧ b < x + a.width then BitVec.ofNat 8 (i.val.toNat / 256 ^ (b - x)) else s.rdByte b)
        ∧ StatusIs t c g a false ∧ (t.gang c g).regs = (s.gang c g).regs
        ∧ (t.gang c g).gfault = (s.gang c g).gfault
        ∧ (t.gang c g).memops = pruneFences ((s.gang c g).memops.eraseIdx idx)

/-- 09 R206, R210, 11 R248: an atomic of one thread stores its result at its address and answers the old value; no other byte
changes. Float adds are stated where nothing combines them, in core memory. -/
def Obligations.AtomicCompletes : Prop :=
  ∀ (s : State) (c : CoreId) (g : GangId) (idx : Nat) (reply : RemoteReply) (a : Access) (i : AccItem) (r : Reg) (x : Nat),
    MayPerform s c g idx a → a.kind ≠ .load → a.kind ≠ .store → (a.kind = .addF32 → s.det c = false ∧ s.isCmem x = true) →
    (a.width = 4 ∨ a.kind = .cas ∧ a.width = 8) →
    a.items = [i] → a.vd = some r → AtMemory s c i a.width .write x →
    s.mayAtomic c x = true → s.staleAt c x = none → ((s.from_ c).readLine (x / 64)).2 = .done →
      let old : BitVec 64 := BitVec.ofNat 64 (leNat (s.rd x a.width))
      ∃ t, exec (.threadAccessComplete c g idx reply) s = .next t
        ∧ Holds t c g a.width i.thread.val r old.toNat ∧ StatusIs t c g a false
        ∧ ∀ b, t.rdByte b = if x ≤ b ∧ b < x + a.width
            then BitVec.ofNat 8 ((atomResult a.kind old i.val i.cmp).toNat / 256 ^ (b - x)) else s.rdByte b

/-- 09 R198, R208, R214, 01 R27, 21 R453: an access of one thread whose device is unknown, that R208 refuses, that is misaligned,
or that does not resolve stores nothing; its destination is 0, its status predicate 1, and the gang latches the failure. -/
def Obligations.AccessFailures : Prop :=
  ∀ (s : State) (c : CoreId) (g : GangId) (idx : Nat) (reply : RemoteReply) (a : Access) (i : AccItem) (e : Code),
    MayPerform s c g idx a → a.items = [i] → s.part c = 0 ∨ e ≠ .refused →
    (let known := s.deviceKnown (s.part c) i.addr
     let varies := a.kind = .addF32 ∧ s.det c = true
     (known = false ∧ e = .unmapped) ∨ (known = true ∧ varies ∧ e = .varies)
       ∨ (known = true ∧ ¬ varies ∧ i.addr.toNat % a.width ≠ 0 ∧ e = .align)
       ∨ (known = true ∧ ¬ varies ∧ i.addr.toNat % a.width = 0
          ∧ (s.from_ c).resolve (s.part c) i.addr (if a.kind = .load then .read else .write) = .error e)) →
      ∃ t, exec (.threadAccessComplete c g idx reply) s = .next t
        ∧ (∀ r, a.vd = some r → (t.gang c g).reg i.thread.val r = 0)
        ∧ (∀ p, a.ps = some p → ∀ n : Fin 32, a.mask.getLsbD n.val = true → (t.gang c g).pred n.val p = decide (n = i.thread))
        ∧ ((s.gang c g).gfault.valid = false →
            (t.gang c g).gfault = { valid := true, fetch := false, thread := i.thread.val, code := e, addr := i.addr })
        ∧ ((s.gang c g).gfault.valid = true → (t.gang c g).gfault = (s.gang c g).gfault)
        ∧ ∀ b, t.rdByte b = s.rdByte b

/-- 02 R43, R61, 08 R173-R174, 09 R208, R213: floating-point operations that round by a random value: where they draw it and where it is refused. -/
def Obligations.StochasticFloats : Prop :=
  StochasticFloatResults ∧ StochasticFloatRefused

/-- 09 R193, R198, R202, R206, R213: how loads, stores and atomics issue. -/
def Obligations.MemoryCommands : Prop :=
  MemoryIssue ∧ FloatAddRefused

namespace Sys2Proof.Claims

/-- What every engine command, `spawn` and `cred.req` does to its gang as it issues: past itself, with one more completion
awaited in its CPL register (09 R192, R194, R197). -/
def Issued (s : State) (h : Th) (cpl : Reg) : State :=
  s.onGang h.core h.gang (fun k =>
    { k with pc := k.pc + 8, outstanding := k.outstanding + 1, cplWait := k.cplWait ++ [cpl] })

/-- The gang may issue an engine command and at least one of its threads executes it (09 R192, R193, R204; 17 R385). -/
def MayIssue (s : State) (h : Th) : Prop := s.readyEngine h = true ∧ (s.cplOf h 0).mask ≠ 0

/-- Code `e` stands, zero-extended, in v`r` of every thread of `m` (09 R197). -/
def CodeIn (t : State) (c : CoreId) (g : GangId) (m : BitVec 32) (r : Reg) (e : Code) : Prop :=
  ∀ n : Fin 32, m.getLsbD n.val = true → (t.gang c g).reg n.val r = BitVec.ofNat 32 (codeVal e)

/-- A command's code `e` stands in the CPL register of the thread command it belongs to, if it belongs to one: its gang must be live
as the command ends (09 R194), and a tenant's REFUSED waits for its latency (18 R404). -/
def Reports (s t : State) (o : Owner) (e : Code) : Prop :=
  ∀ k, o = .thread k → (s.gang k.core k.gang).status = .live → e ≠ .refused ∨ s.part k.core = 0 →
    CodeIn t k.core k.gang k.mask k.reg e

/-- An instruction that reports at once has left code `e` in its CPL register and waits for nothing. -/
def Answered (s t : State) (h : Th) (cpl : Reg) (e : Code) : Prop :=
  CodeIn t h.core h.gang (s.cplOf h 0).mask cpl e ∧ (t.gang h.core h.gang).outstanding = (s.gang h.core h.gang).outstanding
    ∧ (t.gang h.core h.gang).pc = (s.gang h.core h.gang).pc + 8

/-- The state in which a core's engine looks up addresses. -/
def Seen (s : State) (h : Th) (cpl : Reg) : State := (Issued s h cpl).from_ h.core

/-- No other core, no memory, no quarter, no power and no trust state moves. -/
def Elsewhere (s t : State) (c : CoreId) : Prop :=
  (∀ d, d ≠ c → t.core d = s.core d) ∧ (∀ a, t.rdByte a = s.rdByte a) ∧ t.quarters = s.quarters ∧ t.pwr = s.pwr
    ∧ t.sec = s.sec ∧ t.boot = s.boot ∧ t.pending = s.pending

/-- No gang waits at barrier `b`. -/
def NoneWaits (s : State) (b : BarId) : Prop :=
  ∀ (c : CoreId) (g : GangId) (w : BarWait), (s.gang c g).wait = some w → w.bar ≠ b

end Sys2Proof.Claims

/-- 09 R207: `bar.init` sets the expected count (a free one above 65,535, log 161) and starts the phase's arrivals anew; the phase number stays (log 26). With
no arrivals pending no wait ends. -/
def Sys2Proof.Claims.BarrierInit : Prop :=
  ∀ (s : State) (h : Th) (b : BarId) (n : Nat) (cpl : Option Reg), s.ready h [] [] = true → (s.cplOf h 0).mask ≠ 0 →
    s.barAllowed h.core b = true →
      ∃ t, exec (.barInit h b n cpl) s = .next t
        ∧ (n < 65536 → (t.barrier h.core b).count = n) ∧ (t.barrier h.core b).arrived = 0
        ∧ (t.barrier h.core b).phase = (s.barrier h.core b).phase
        ∧ (∀ b', b' ≠ b → t.barrier h.core b' = s.barrier h.core b') ∧ (∀ a, t.rdByte a = s.rdByte a)
        ∧ ((s.barrier h.core b).arrived = 0 → ∀ c g, (t.gang c g).wait = (s.gang c g).wait)
        ∧ (∀ r, cpl = some r → NoneWaits s b → Answered s t h r .done)

/-- 09 R207, R204: an arrival below the count is counted; the one that reaches it starts the next phase with no arrivals, and ends
with DONE the wait of every gang of the barrier's core, or of the module, whose phase it completes: that gang goes on, as by a
`fence.acq`. An arrival at a barrier without a count answers SHAPE. -/
def Sys2Proof.Claims.BarrierArrive : Prop :=
  ∀ (s : State) (h : Th) (b : BarId) (cpl : Option Reg), MayIssue s h → s.barAllowed h.core b = true →
      let x := s.barrier h.core b
      ∃ t, exec (.barArrive h b cpl) s = .next t
        ∧ (0 < x.count → x.arrived + 1 < x.count → t.barrier h.core b = { x with arrived := x.arrived + 1 }
            ∧ ∀ c g, (t.gang c g).wait = (s.gang c g).wait)
        ∧ (0 < x.count → x.count ≤ x.arrived + 1 → t.barrier h.core b = { x with arrived := 0, phase := x.phase + 1 }
            ∧ ∀ c g w, (s.gang c g).wait = some w → c.val < s.coreCount → w.bar = b → s.barAllowed c b = true →
                (c = h.core ∨ ∃ i, b = .device i) →
                (w.phase ≤ x.phase → (t.gang c g).wait = none
                  ∧ (t.gang c g).memops = pruneFences ((s.gang c g).memops ++ [.fence .acq (match b with | .core _ => 1 | .device _ => 3)])
                  ∧ ∀ r, w.cpl = some r → CodeIn t c g w.mask r .done)
                ∧ (x.phase < w.phase → t.gang c g = s.gang c g))
        ∧ (0 < x.count → ∀ r, cpl = some r → CodeIn t h.core h.gang (s.cplOf h 0).mask r .done)
        ∧ (x.count = 0 → t.barrier h.core b = x ∧ ∀ r, cpl = some r → Answered s t h r .shape)
        ∧ ∀ a, t.rdByte a = s.rdByte a

/-- 09 R207: `bar.wait` holds its gang until the phase it names completes, with the deadline its limit in microseconds gives (none
for 0); a phase already past answers DONE and a barrier without a count SHAPE, and the gang goes on. -/
def Sys2Proof.Claims.BarrierWait : Prop :=
  ∀ (s : State) (h : Th) (b : BarId) (phase limit : Nat) (cpl : Option Reg), s.ready h [] [] = true → (s.cplOf h 0).mask ≠ 0 →
    s.barAllowed h.core b = true →
      let x := s.barrier h.core b
      ∃ t, exec (.barWait h b phase limit cpl) s = .next t
        ∧ (0 < x.count → x.passed phase = false →
            t = s.onGang h.core h.gang (fun k => { k with
              pc := k.pc + 8
              wait := some ⟨b, phase, if limit = 0 then none else some (s.now + 1000 * limit), cpl, (s.cplOf h 0).mask⟩ }))
        ∧ (0 < x.count → x.passed phase = true → (t.gang h.core h.gang).wait = none
            ∧ (t.gang h.core h.gang).memops = pruneFences ((s.gang h.core h.gang).memops
                ++ [.fence .acq (match b with | .core _ => 1 | .device _ => 3)])
            ∧ ∀ r, cpl = some r → Answered s t h r .done)
        ∧ (x.count = 0 → (t.gang h.core h.gang).wait = none ∧ ∀ r, cpl = some r → Answered s t h r .shape)
        ∧ Elsewhere s t h.core

/-- 09 R207: a wait whose limit has passed ends with INCOMPLETE and its gang goes on. -/
def Sys2Proof.Claims.BarrierWaitExpiry : Prop :=
  ∀ (s : State) (c : CoreId) (g : GangId) (w : BarWait) (d : Nat),
    (s.gang c g).wait = some w → w.deadline = some d → d ≤ s.now →
      ∃ t, exec (.barWaitLimitExpiry c g) s = .next t ∧ (t.gang c g).wait = none
        ∧ (∀ r, w.cpl = some r → CodeIn t c g w.mask r .incomplete) ∧ (t.gang c g).pc = (s.gang c g).pc
        ∧ (∀ g', g' ≠ g → t.gang c g' = s.gang c g') ∧ Elsewhere s t c

/-- 09 R207, R208: a device barrier of another partition is REFUSED and left as it is. (A tenant's refusal waits for its latency, 18
R404: `Regions` below.) -/
def Sys2Proof.Claims.BarrierRefused : Prop :=
  ∀ (i : Instr) (s : State) (h : Th) (b : BarId) (n p l : Nat) (r : Reg), MayIssue s h → s.barAllowed h.core b = false →
    s.part h.core = 0 → i = .barInit h b n (some r) ∨ i = .barArrive h b (some r) ∨ i = .barWait h b p l (some r) →
      ∃ t, exec i s = .next t ∧ Answered s t h r .refused ∧ t.barriers = s.barriers ∧ Elsewhere s t h.core

/-- 09 R195: the table of refusals of `spawn`, in its order. -/
def Sys2Proof.Claims.SpawnRefused : Prop :=
  ∀ (s : State) (h : Th) (target : Nat) (entry : Addr) (arg : Word) (count : Nat) (cpl : Reg), MayIssue s h →
    (s.gang h.core h.gang).status = .live →
      let u : CoreId := Fin.ofNat 192 target
      let code : Option Code :=
        if entry.toNat % 8 ≠ 0 then some .align else if count = 0 ∨ 32 < count then some .shape
        else if s.coreCount ≤ target then some .limit
        else if s.part u ≠ s.part h.core then some .refused
        else if (s.core u).phys = none then some .unreachable
        else if (s.quarter (s.quarterOf u)).tripped = true then some .thermal
        else if 16 ≤ (s.core u).spawns.length then some .limit else none
      ∀ e, code = some e → e ≠ .refused ∨ s.part h.core = 0 →
        ∃ t, exec (.spawn h target entry arg count cpl) s = .next t ∧ Answered s t h cpl e
          ∧ (t.core h.core).spawns = (s.core h.core).spawns ∧ Elsewhere s t h.core

/-- 09 R196: a spawn that finds a free gang and an empty queue on a running core starts the lowest-numbered free gang at once: live
at its entry, with v0 the argument, v1 the spawner's identity and v2 the thread index. -/
def Sys2Proof.Claims.SpawnStarts : Prop :=
  ∀ (s : State) (h : Th) (target : CoreId) (entry : Addr) (arg : Word) (count : Nat) (cpl : Reg) (g : GangId), MayIssue s h →
    s.spawnCheck h.core target.val entry count = .done → s.coreOn target = true → (s.core target).spawns = [] →
    (s.gang target g).status = .free → (∀ g', g' < g → (s.gang target g').status ≠ .free) →
      ∃ t, exec (.spawn h target.val entry arg count cpl) s = .next t
        ∧ (let k := t.gang target g
           k.status = .live ∧ k.pc = entry ∧ k.stack = [] ∧ k.outstanding = 0 ∧ k.gfault = (s.gang target g).gfault
            ∧ (∀ n : Fin 32, k.mask.getLsbD n.val = decide (n.val < count))
            ∧ ∀ n : Fin 32, n.val < count → k.reg n.val 0 = arg
              ∧ k.reg n.val 1 = BitVec.ofNat 32 (h.core.val * 16 + h.gang.val) ∧ k.reg n.val 2 = BitVec.ofNat 32 n.val)
        ∧ (t.core target).spawns = [] ∧ ∀ a, t.rdByte a = s.rdByte a

/-- 09 R196: the head of a core's spawn queue takes the lowest-numbered free gang as soon as there is one. -/
def Sys2Proof.Claims.SpawnQueueServed : Prop :=
  ∀ (s : State) (c : CoreId) (r : SpawnReq) (rest : List SpawnReq) (g : GangId),
    (s.core c).spawns = r :: rest → s.coreOn c = true → (s.gang c g).status = .free →
    (∀ g', g' < g → (s.gang c g').status ≠ .free) → ¬ (r.owner.core = c ∧ r.owner.gang = g) →
      ∃ t, exec (.spawnQueueServe c) s = .next t ∧ (t.core c).spawns = rest
        ∧ (t.gang c g).status = .live ∧ (t.gang c g).pc = r.entry
        ∧ (∀ n : Fin 32, n.val < r.count → (t.gang c g).reg n.val 0 = r.arg ∧ (t.gang c g).reg n.val 2 = BitVec.ofNat 32 n.val)
        ∧ ∀ a, t.rdByte a = s.rdByte a

/-- 09 R194: an ending gang whose commands have all completed is free, with nothing left of it but CORE_GFAULT; jobs that waited for
it start. -/
def Sys2Proof.Claims.GangFreed : Prop :=
  ∀ (s : State) (c : CoreId) (g : GangId), (s.gang c g).status = .ending → (s.gang c g).outstanding = 0 →
    (s.gang c g).memops = [] →
      exec (.gangFree c g) s = .next (s.onGang c g (fun k => { gfault := k.gfault })).launchReady
      ∧ ((∀ j ∈ s.jobs, j.state ≠ .waiting) → ∃ t, exec (.gangFree c g) s = .next t ∧ (t.gang c g).status = .free ∧ (t.gang c g).mask = 0 ∧ (t.gang c g).stack = []
        ∧ (t.gang c g).gfault = (s.gang c g).gfault ∧ (∀ g', g' ≠ g → t.gang c g' = s.gang c g')
        ∧ (t.core c).arr = (s.core c).arr ∧ Elsewhere s t c)

/-- 09 R210, R199: `spec.get` writes the thread, gang, core, partition or device number; a tenant reads its virtual device
number. -/
def Obligations.SpecialNumbers : Prop :=
  ∀ (s : State) (h : Th) (vd : Reg) (sel : SpecSel), s.ready h [] [] = true →
    (sel = .device → s.part h.core = 0 ∨ ∃ d ∈ (s.partOf (s.part h.core)).devices, d.2 = s.dev) →
      ∃ t, exec (.specGet h vd sel) s = .next t ∧ WroteReg s t h vd (fun _ n => match sel with
        | .thread => BitVec.ofNat 32 n
        | .gang => BitVec.ofNat 32 h.gang.val
        | .core => BitVec.ofNat 32 h.core.val
        | .partition => BitVec.ofNat 32 (s.part h.core).val
        | .device => BitVec.ofNat 32 (if s.part h.core = 0 then s.dev
            else (((s.partOf (s.part h.core)).devices.find? (fun d => d.2 == s.dev)).map (·.1)).getD 0))

/-- 11 R247: `cred.req`. Its table, for a window of this module: UNMAPPED, REFUSED (a tenant's is parked, 18 R404), LIMIT,
NO_CREDIT with nothing granted; otherwise DONE: AVAIL falls by the units asked, and the core's entry for the window rises by 64
bytes for each, or holds only those when it is new or was of an older generation. A count of 0 gives a current entry's balance back
and frees the entry. A request to another module waits for its answer. -/
def Obligations.CreditRequests : Prop :=
  ∀ (s : State) (h : Th) (addr : Addr) (bytes : Nat) (cpl : Reg), MayIssue s h →
    let u := Seen s h cpl
    let n := (bytes + 63) / 64
    let l := (s.core h.core).credits
    let refused (e : Code) : Prop := ∃ t, exec (.credReq h addr bytes cpl) s = .next t ∧ Answered s t h cpl e
      ∧ (t.core h.core).credits = l ∧ Elsewhere s t h.core
    (∀ e, u.resolve (s.part h.core) addr .write = .error e → e ≠ .refused ∨ s.part h.core = 0 → refused e)
    ∧ (∀ a, u.resolve (s.part h.core) addr .write = .ok (.here a) →
      (s.windowAt a = none → refused .unmapped)
      ∧ ∀ r, s.windowAt a = some r →
        let w := s.window r
        let full := 16 ≤ l.length ∧ ∀ e ∈ l, e.win ≠ r
        (w.part ≠ (s.part h.core).val → s.part h.core = 0 → refused .refused)
        ∧ (w.part ≠ (s.part h.core).val → s.part h.core ≠ 0 → ∃ t, exec (.credReq h addr bytes cpl) s = .next t
            ∧ t.parked = s.parked ++ [.cpl (s.cplOf h cpl)] ∧ t.cores = (Issued s h cpl).cores ∧ t.quarters = s.quarters)
        ∧ (w.part = (s.part h.core).val → full → refused .limit)
        ∧ (w.part = (s.part h.core).val → ¬ full → 0 < n → w.avail < n → refused .noCredit)
        ∧ (w.part = (s.part h.core).val → ¬ full → 0 < n → n ≤ w.avail → ∃ t, exec (.credReq h addr bytes cpl) s = .next t
            ∧ Answered s t h cpl .done ∧ t.window r = { w with avail := w.avail - n }
            ∧ (∀ e, l.find? (fun e => e.win == r) = some e → t.balance h.core r = (if e.gen = w.gen then e.bytes else 0) + 64 * n)
            ∧ (l.find? (fun e => e.win == r) = none → t.balance h.core r = 64 * n)
            ∧ (∀ x, x ≠ r → t.window x = s.window x) ∧ ∀ b, t.rdByte b = s.rdByte b)
        ∧ (w.part = (s.part h.core).val → ¬ full → n = 0 → ∃ t, exec (.credReq h addr bytes cpl) s = .next t
            ∧ Answered s t h cpl .done ∧ (t.core h.core).credits = l.filter (fun e => e.win != r)
            ∧ (∀ e, l.find? (fun e => e.win == r) = some e → e.gen = w.gen →
                t.window r = { w with avail := min (w.avail + e.bytes / 64) (winUnits r w) })
            ∧ ((∀ e ∈ l, e.win = r → e.gen ≠ w.gen) → t.window r = w) ∧ ∀ b, t.rdByte b = s.rdByte b))
    ∧ (∀ d fb a v, u.resolve (s.part h.core) addr .write = .ok (.remote d fb a) →
      u.askCredit h.core d fb a n (l.find? (fun e => e.covers d fb a 1)) = .ok v →
        ∃ t, exec (.credReq h addr bytes cpl) s = .next t ∧ t.cores = (Issued s h cpl).cores ∧ t.mem = s.mem
          ∧ t.sentOps = s.sentOps ++ [⟨s.nextOp, .thread (s.cplOf h cpl), s.now, d, fb, some (h.core, a, 64 * n), none⟩])

/-- 09 R204, R207: the barriers: setting one, arriving, waiting, refusals, and the end of a wait by its limit. -/
def Obligations.BarrierCommands : Prop :=
  BarrierInit ∧ BarrierArrive ∧ BarrierWait ∧ BarrierRefused ∧ BarrierWaitExpiry

/-- 09 R194-R196: gangs: a refused spawn, a gang that starts, the spawn queue, and a gang that is free again. -/
def Obligations.Gangs : Prop :=
  SpawnRefused ∧ SpawnStarts ∧ SpawnQueueServed ∧ GangFreed

namespace Sys2Proof.Claims

/-- A thread's engine command has been taken by its core's array: `t` is the state after issue, with the array changed by `f`. -/
def ToArray (s t : State) (h : Th) (cpl : Reg) (f : Arr → Arr) : Prop := t = (Issued s h cpl).onArr h.core f

/-- The bytes a sparse tile is read from: its slots in use, of both half-blocks or one, and for MSK its gradient tile (04 R93, R96-R97,
R101). -/
def tileSources (op : LoadwOp) (sl : List Nat) (daddr : Nat) (sfmt : BitVec 4) : List (Nat × Nat) :=
  let g := geometry op.spo op.wide op.fmtA op.fmtW
  let used := (sl.take g.slots).filter (· != 0xFFFF_FFFF)
  if op.spo = 3 then (daddr, denseBytes { g with outs := 64 } op.fmtW) :: used.map (fun x => (64 * x, 2 * halfBytes sfmt))
  else used.map (fun x => (64 * x, (if op.spo = 1 ∧ op.wide ∧ g.cls ≠ 4 then 1 else 2) * halfBytes op.fmtW))

/-- Every byte of memory reads as before. -/
def SameBytes (s t : State) : Prop := ∀ a, t.rdByte a = s.rdByte a

end Sys2Proof.Claims

/-- 03 R65, R84: `arr.mode` to the arrangement in force answers DONE; to the other one it waits, as PENDING, after every earlier
array command. -/
def Sys2Proof.Claims.ArrangementRequest : Prop :=
  ∀ (s : State) (h : Th) (wide : Bool) (cpl : Reg), MayIssue s h → s.nestBusy h.core = false → (s.core h.core).arr.pending = none →
    ((s.core h.core).arr.wide = wide → ∃ t, exec (.arrMode h wide cpl) s = .next t ∧ Answered s t h cpl .done
      ∧ (t.core h.core).arr = (s.core h.core).arr ∧ Elsewhere s t h.core)
    ∧ ((s.core h.core).arr.wide ≠ wide → ∃ t, exec (.arrMode h wide cpl) s = .next t ∧ ToArray s t h cpl (fun a => { a with
        seq := a.seq + 1, pending := some (.thread (s.cplOf h cpl), wide, a.seq) }))

/-- 03 R68-R70, 04 R96-R97, R101: `arr.loadw`, accepted, waits at the crown port; its half is LOADING for the new tile. A dense tile
is named by its address; a sparse one by a descriptor that is read first, and every slot in use, and DADDR of an MSK tile, must lie
in the crown or the core's own memory. -/
def Sys2Proof.Claims.WeightLoadIssue : Prop :=
  ∀ (s : State) (h : Th) (op : LoadwOp) (cpl : Reg), MayIssue s h → s.nestBusy h.core = false →
    let u := Seen s h cpl
    let p := s.part h.core
    (∀ a, op.spo = 0 → u.deviceBad p op.src = false → op.src.toNat % 64 = 0 → u.localOf p op.src = .ok a →
      pairOk op.spo op.fmtA op.fmtW = true →
      u.arrSource h.core p (a % 2 ^ 64) (tileBytes (geometry op.spo op.wide op.fmtA op.fmtW) op.fmtW) false = .done →
        ∃ t, exec (.arrLoadw h op cpl) s = .next t ∧ ToArray s t h cpl (fun k => { k with
          seq := k.seq + 1
          loads := k.loads ++ [⟨.thread (s.cplOf h cpl), p, k.seq, { op with src := BitVec.ofNat 64 a }, none, false, .done⟩]
          halves := vmod k.halves op.whalf (fun x => { x with
            state := .loading, key := some ⟨op.wide, op.fmtA, op.fmtW, op.spo⟩, last := none, issued := k.seq }) }))
    ∧ (∀ v bs, op.spo ≠ 0 → u.readDesc p op.src 32 32 true = (v, .ok bs) →
        let (sl, daddr, _, sfmt) := parseTile bs
        let a := (v.core h.core).arr
        (2 ≤ op.spo.toNat → a.effWide = false ∧ op.wide = false) → pairOk op.spo op.fmtA op.fmtW = true →
        (op.spo = 3 → daddr % 64 = 0 ∧ fmtArray sfmt = true ∧ sfmt ≠ 0xE) →
        (∀ x ∈ tileSources op sl daddr sfmt, v.arrSource h.core p x.1 x.2 false = .done) →
        ∃ t, exec (.arrLoadw h op cpl) s = .next t ∧ t.mem = v.mem ∧ (t.core h.core).arr = { a with
          seq := a.seq + 1
          loads := a.loads ++ [⟨.thread (s.cplOf h cpl), p, a.seq, op, some (parseTile bs), false, .done⟩]
          halves := vmod a.halves op.whalf (fun x => { x with
            state := .loading, key := some ⟨op.wide, op.fmtA, op.fmtW, op.spo⟩, last := none, issued := a.seq }) })
    ∧ (∀ v e, op.spo ≠ 0 → e ≠ .refused ∨ p = 0 → u.readDesc p op.src 32 32 true = (v, .error e) →
        ∃ t, exec (.arrLoadw h op cpl) s = .next t ∧ Answered s t h cpl e ∧ (t.core h.core).arr = (s.core h.core).arr)
    ∧ (op.spo = 0 → u.deviceBad p op.src = true →
        ∃ t, exec (.arrLoadw h op cpl) s = .next t ∧ Answered s t h cpl .unmapped ∧ (t.core h.core).arr = (s.core h.core).arr)
    ∧ (op.spo = 0 → u.deviceBad p op.src = false → op.src.toNat % 64 ≠ 0 →
        ∃ t, exec (.arrLoadw h op cpl) s = .next t ∧ Answered s t h cpl .align ∧ (t.core h.core).arr = (s.core h.core).arr)

/-- 02 R54, 03 R72, R74: an accepted `mma.run` joins the run queue and moves LASTK and EMPTY of its group at once; a refused one
answers its code and changes no part of the array. -/
def Sys2Proof.Claims.RunIssue : Prop :=
  ∀ (s : State) (h : Th) (op : RunOp) (cpl : Reg), MayIssue s h → s.arrRoom h (some op.group) = true →
    (s.core h.core).arr.queued < 16 →
      (s.runCheck h.core op (s.nestHolds h.core op.group) = .done →
        ∃ t, exec (.mmaRun h op cpl) s = .next t ∧ ToArray s t h cpl (fun a => { a with
          seq := a.seq + 1
          groups := vmod a.groups op.group (fun g => { g with lastk := op.ktile.toNat, empty := false })
          runs := a.runs ++ [{ owner := .thread (s.cplOf h cpl), part := s.part h.core, seq := a.seq, op
                               wide := a.effWide, load := a.halves[op.whalf.val].issued, rlen := none, started := false
                               entered := 0, written := 0, moved := false, weights := [], md := [], nhalf := false }] }))
      ∧ (∀ e, s.runCheck h.core op (s.nestHolds h.core op.group) = e → e ≠ .done →
        ∃ t, exec (.mmaRun h op cpl) s = .next t ∧ Answered s t h cpl e ∧ (t.core h.core).arr = (s.core h.core).arr
          ∧ Elsewhere s t h.core)

/-- 02 R52-R53: `ag.open` of a CLOSED group makes it OPEN with its rows, width and accumulator type, every element +0, no flag and
no SAT_KTILE; a group that is not CLOSED is LIMIT, and a bad width or row count SHAPE. -/
def Sys2Proof.Claims.GroupOpen : Prop :=
  ∀ (s : State) (h : Th) (op : OpenOp) (cpl : Reg), MayIssue s h → s.arrRoom h (some op.group) = true →
    s.nestHolds h.core op.group = false → op.pre = none →
      let g := s.group h.core op.group
      let shape := (op.width = 128 ∨ op.width = 512) ∧ 0 < op.rows ∧ op.rows * op.width ≤ 32768
      (g.state = .closed → shape → ∃ t, exec (.agOpen h op cpl) s = .next t ∧ Answered s t h cpl .done ∧ Elsewhere s t h.core
        ∧ (t.core h.core).arr = { (s.core h.core).arr with groups := vmod (s.core h.core).arr.groups op.group (fun _ =>
            { state := .opened, acctInt := op.acctInt, wide := decide (op.width = 512), rows := op.rows }) })
      ∧ (g.state = .closed → ¬ shape → ∃ t, exec (.agOpen h op cpl) s = .next t ∧ Answered s t h cpl .shape
        ∧ (t.core h.core).arr = (s.core h.core).arr)
      ∧ (g.state ≠ .closed → ∃ t, exec (.agOpen h op cpl) s = .next t ∧ Answered s t h cpl .limit
        ∧ (t.core h.core).arr = (s.core h.core).arr)

/-- 02 R52, 03 R78: `ag.open` with a preload, accepted, opens the group and leaves the preload on the transfer path; its
completion follows the preload. -/
def Sys2Proof.Claims.GroupPreloadIssue : Prop :=
  ∀ (s : State) (h : Th) (op : OpenOp) (cpl : Reg) (ga : Addr) (f : BitVec 4) (a : Nat), MayIssue s h →
    s.arrRoom h (some op.group) = true → s.nestHolds h.core op.group = false → op.pre = some (ga, f) →
    (Seen s h cpl).deviceBad (s.part h.core) ga = false → (Seen s h cpl).localOf (s.part h.core) ga = .ok a →
    s.agOpenBad h.core op.group op.acctInt op.width op.rows (some f) = none →
    (Seen s h cpl).arrSource h.core (s.part h.core) a (elemBytes f ((op.rows - 1) * op.width + op.width)) true = .done →
      ∃ t, exec (.agOpen h op cpl) s = .next t ∧ ToArray s t h cpl (fun x => { x with
        groups := vmod x.groups op.group (fun _ =>
          { state := .opened, acctInt := op.acctInt, preload := true, wide := op.width == 512, rows := op.rows, loading := true })
        xfers := x.xfers ++ [.preload (.thread (s.cplOf h cpl)) (s.part h.core) op.group a f op.width
          (op.rows / max op.rows 1) op.width op.rows false 0 .done] })

/-- 02 R53, R56: `ag.close` of an OPEN group makes it DRAINING and leaves the drain on the transfer path; a group that is not OPEN
is SHAPE. -/
def Sys2Proof.Claims.GroupClose : Prop :=
  ∀ (s : State) (h : Th) (op : CloseOp) (cpl : Reg), MayIssue s h → s.arrRoom h (some op.group) = true →
    s.nestHolds h.core op.group = false → ¬ (op.rnd = 3 ∧ s.det h.core = true ∧ (s.core h.core).rng.fresh = true) →
      let g := s.group h.core op.group
      let cols := if g.wide then 512 else 128
      (g.state = .opened → 0 < g.rows → fmtReserved op.fmt = false → op.ovf ≠ 3 → (fmtPaired op.fmt = true → op.pstrm ≠ op.ostrm) →
        (op.table.isSome = true → lastEntry op.cmode op.cbase.toNat 1 g.rows cols ≤ 4095) →
          ∃ t u, exec (.agClose h op cpl) s = .next t ∧ ToArray s u h cpl (fun a => { a with
            seq := a.seq + 1
            groups := vmod a.groups op.group (fun g => { g with state := .draining })
            xfers := a.xfers ++ [.close (.thread (s.cplOf h cpl)) (s.part h.core) a.seq op 1 cols g.rows false 0 none] })
          ∧ (op.rnd ≠ 3 → t = u)
          ∧ (op.rnd = 3 → t = u.onCore h.core (fun k => { k with rng := { k.rng with
              queue := k.rng.queue ++ [.close (s.core h.core).arr.seq] } })))
      ∧ (g.state ≠ .opened → ∃ t, exec (.agClose h op cpl) s = .next t ∧ Answered s t h cpl .shape
          ∧ (t.core h.core).arr = (s.core h.core).arr)
      ∧ (g.state = .opened → fmtReserved op.fmt = true ∨ op.ovf = 3 →
          ∃ t, exec (.agClose h op cpl) s = .next t ∧ Answered s t h cpl .format ∧ (t.core h.core).arr = (s.core h.core).arr)

/-- 03 R69-R71: the load at the crown port starts when its half is free; its tile is in the half once it, or its first 1 KiB, has
come; it completes with the half READY, EMPTY after LIMIT (07 R163) or BAD after a memory error, ends the runs of a failed tile, and
stores nothing. (While an update engine rewrites blocks, what the tile reads is a free choice line by line, log 72.) -/
def Sys2Proof.Claims.WeightLoadEvents : Prop :=
  (∀ (s : State) (c : CoreId) (l : LoadCmd) (rest : List LoadCmd) (u : State) (k : TileRead),
    (s.core c).arr.loads = l :: rest → s.coreOn c = true → l.started = false → (s.core c).arr.loadFree l = true →
    (∀ q : QuarterId, (s.upd q).run = none) → (s.from_ c).readTile c l = (u, k) →
      ∃ t, exec (.loadwStart c) s = .next t ∧ (t.core c).arr.loads = { l with started := true, code := k.code } :: rest
        ∧ (k.code = .done ∨ 1024 ≤ k.came →
            (t.core c).arr.halves[l.op.whalf.val].bytes = k.w ∧ (t.core c).arr.halves[l.op.whalf.val].md = k.md
            ∧ (t.core c).arr.halves[l.op.whalf.val].cur = l.seq)
        ∧ (k.code ≠ .done → k.came < 1024 → (t.core c).arr.halves = (u.core c).arr.halves)
        ∧ (t.core c).arr.runs = (u.core c).arr.runs ∧ t.mem = u.mem)
  ∧ (∀ (s : State) (c : CoreId) (l : LoadCmd) (rest : List LoadCmd),
    (s.core c).arr.loads = l :: rest → s.coreOn c = true → l.started = true →
      ∃ t, exec (.loadwComplete c) s = .next t ∧ (t.core c).arr.loads = rest ∧ SameBytes s t
        ∧ ((s.core c).arr.halves[l.op.whalf.val].issued = l.seq →
            (t.core c).arr.halves[l.op.whalf.val].state =
              (if l.code = .done then .ready else if l.code = .limit then .empty else .bad)
            ∧ (t.core c).arr.halves[l.op.whalf.val].last = some l.code)
        ∧ (l.code = .done → (t.core c).arr.runs = (s.core c).arr.runs)
        ∧ (l.code ≠ .done → ∀ r ∈ (t.core c).arr.runs, r ∈ (s.core c).arr.runs ∧ r.load ≠ l.seq))

/-- 03 R65, R82: the switch happens once no earlier run is left, takes 4 cycles and leaves no tile in the PEs; the idle timer asks
for a downward step 4 us after the last row. -/
def Sys2Proof.Claims.ArrangementAndIdle : Prop :=
  (∀ (s : State) (c : CoreId) (o : Owner) (w : Bool) (n : Nat), (s.core c).arr.pending = some (o, w, n) → s.coreOn c = true →
    (∀ r ∈ (s.core c).arr.runs, n < r.seq) →
      ∃ t, exec (.arrangementSwitch c) s = .next t ∧ (t.core c).arr = { (s.core c).arr with
        wide := w, pending := none, held := none, cycle := (s.core c).arr.cycle + 4 } ∧ SameBytes s t)
  ∧ (∀ (s : State) (c : CoreId), s.coreOn c = true → (s.core c).arr.warmth = .warm → (s.core c).arr.idleSince + 4000 ≤ s.now →
    s.pwr.down.length < 1024 →
      exec (.idleTimerExpiry c) s = .next ((s.onPwr (fun p => { p with down := p.down ++ [⟨.array c, s.now⟩] })).onArr c
        (fun a => { a with warmth := .downWaiting })))

/-- 03 R73, R76, R82: the first run whose tile, stream data and starting values are there starts in a warm array; a cold array asks
for its upward step first. -/
def Sys2Proof.Claims.RunStarts : Prop :=
  ∀ (s : State) (c : CoreId) (r : RunCmd), (s.core c).arr.nextRun = some r → s.coreOn c = true → r.started = false →
    s.runReady c r = true →
      ((s.core c).arr.warmth = .warm → exec (.runStart c) s = .next (s.onArr c (fun a => { a with
          runs := a.runs.map (fun x => if x.seq = r.seq then { x with started := true } else x) })))
      ∧ ((s.core c).arr.warmth = .cold → s.pwr.up.length < 1024 →
          exec (.runStart c) s = .next ((s.onPwr (fun p => { p with up := p.up ++ [⟨.array c, s.now⟩] })).onArr c
            (fun a => { a with warmth := .upWaiting })))

/-- 03 R77: the bits of the freeze causes that hold in a cycle: ACT_DRY, WGT_LATE, SCALE_DRY and PSUM_WAIT of the started run that
reads next, and DRAIN_BLOCK, a row to be written while a preload holds its group's port. -/
def Sys2Proof.Claims.FreezeCauses : Prop :=
  ∀ (s : State) (c : CoreId) (late : Bool),
    let a := (s.core c).arr
    let b := s.cycleCauses c late
    (b.getLsbD 0 = true ↔ ∃ r y z, a.nextRun.filter (·.started) = some r ∧ s.feed c r r.entered = .dry true y z)
    ∧ (b.getLsbD 1 = true ↔ ∃ r, a.nextRun.filter (·.started) = some r
        ∧ (a.tileBad r = true ∨ late = true ∧ ∃ l ∈ a.loads, l.seq = r.load ∧ l.started = true))
    ∧ (b.getLsbD 2 = true ↔ ∃ r y z, a.nextRun.filter (·.started) = some r ∧ s.feed c r r.entered = .dry y true z)
    ∧ (b.getLsbD 3 = true ↔ ∃ r, a.nextRun.filter (·.started) = some r
        ∧ ∃ x ∈ outRows r.op r.entered, s.preloaded c r.op.group x = false)
    ∧ (b.getLsbD 4 = true ↔ ∃ p ∈ a.pipe, p.due = a.cycle ∧ s.portTaken c = some p.group)

/-- 02 R50, 03 R75-R77, R81-R90: an array cycle in which a cause of R77 holds is a freeze, counted with its causes; one without a
started run, or whose started run waits for rows of its group still on their way (log 156), is empty, counted as a cold wait while a
ready run is held for its upward grant; otherwise, in a warm array, the row enters, and its result is on its way to its group, or a
double-bit error in a word it reads ends its run (11 R236). Fill is counted where it runs. Groups change only as a preload at the
head of the transfer path moves (log 181). -/
def Sys2Proof.Claims.CycleKinds : Prop :=
  ∀ (s : State) (c : CoreId) (late : Bool), s.coreOn c = true → (∀ p ∈ (s.core c).arr.pipe, (s.core c).arr.cycle ≤ p.due) →
    let a := (s.core c).arr
    let filled := if a.fillOn then (a.fills + 1) % 2 ^ 64 else a.fills
    ((∀ r, a.nextRun.filter (·.started) = some r → s.feed c r r.entered ≠ .ended) → s.cycleCauses c late ≠ 0 →
      ∃ t, exec (.rowEntry c late) s = .next t ∧ (t.core c).arr.frozen = true
        ∧ (t.core c).arr.freezes = (a.freezes + 1) % 2 ^ 64 ∧ (t.core c).arr.cause = a.cause ||| s.cycleCauses c late
        ∧ (t.core c).arr.fills = filled ∧ (t.core c).arr.cycle = a.cycle
        ∧ (t.core c).arr.pipe = a.pipe ∧ (t.core c).arr.runs = a.runs ∧ (s.portTaken c = none → (t.core c).arr.groups = a.groups)
        ∧ SameBytes s t)
    ∧ (∀ r act n k under, a.nextRun.filter (·.started) = some r → s.feed c r r.entered = .ready act n k under →
      s.cycleCauses c late = 0 → s.pipeReady c r r.entered = true → a.warmth = .warm →
        ((∀ x ∈ (s.core c).bufErr, s.rowWords c r r.entered n k x.1 = false) →
          let g := geometry r.op.spo r.wide r.op.fmtA r.op.fmtW
          let w := runWeights a r
          ∃ t row, exec (.rowEntry c late) s = .next t ∧ (t.core c).arr.pipe = a.pipe ++ [row] ∧ row.run = r.seq
            ∧ row.group = r.op.group ∧ row.row = r.entered ∧ row.due = a.cycle + g.latency - 1
            ∧ row.vals = (rowResult (s.group c r.op.group) { r with weights := w.1, md := w.2.1, nhalf := w.2.2 } r.entered act.toArray).1
            ∧ (row.lastRow = true ↔ r.entered + 1 = r.op.rows.toNat)
            ∧ (t.core c).arr.cycle = a.cycle + g.interval ∧ (t.core c).arr.idleSince = s.now ∧ (t.core c).arr.frozen = false
            ∧ (t.core c).arr.freezes = a.freezes ∧ (s.portTaken c = none → (t.core c).arr.groups = a.groups) ∧ SameBytes s t)
        ∧ ((∃ x ∈ (s.core c).bufErr, s.rowWords c r r.entered n k x.1 = true ∧ x.2 = .double) →
          ∃ t, exec (.rowEntry c late) s = .next t ∧ (∀ x ∈ (t.core c).arr.runs, x.seq ≠ r.seq) ∧ SameBytes s t))
    ∧ (∀ r act n k under, a.nextRun.filter (·.started) = some r → s.feed c r r.entered = .ready act n k under →
      s.cycleCauses c late = 0 → s.portTaken c = none →
        (s.pipeReady c r r.entered = false →
          exec (.rowEntry c late) s = .next (s.onArr c (fun x => { x with
            frozen := false, cycle := x.cycle + 1, filling := x.fillOn, fills := filled
            lfsr := if x.fillOn then Config.fillNext x.lfsr else x.lfsr })))
        ∧ (s.pipeReady c r r.entered = true → a.warmth = .upWaiting →
          exec (.rowEntry c late) s = .next (s.onArr c (fun x => { x with
            frozen := false, cycle := x.cycle + 1, filling := x.fillOn, fills := filled
            lfsr := if x.fillOn then Config.fillNext x.lfsr else x.lfsr, coldWait := min (2 ^ 32 - 1) (x.coldWait + 1) }))))
    ∧ (a.nextRun.filter (·.started) = none → s.cycleCauses c late = 0 →
      ∃ t, exec (.rowEntry c late) s = .next t ∧ (t.core c).arr.cycle = a.cycle + 1 ∧ (t.core c).arr.frozen = false
        ∧ (t.core c).arr.coldWait = (if a.warmth = .upWaiting ∧ ∃ r, a.nextRun = some r ∧ s.runReady c r = true
            then min (2 ^ 32 - 1) (a.coldWait + 1) else a.coldWait)
        ∧ (t.core c).arr.filling = a.fillOn ∧ (t.core c).arr.fills = filled
        ∧ (s.portTaken c = none → (t.core c).arr.groups = a.groups) ∧ (t.core c).arr.freezes = a.freezes
        ∧ (a.warmth = .warm → a.fillEn = false → (∃ n, a.fedAt = some n ∧ n + 8 ≤ a.cycle) →
            (∀ r, a.nextRun = some r → s.runReady c r = false) → s.pwr.down.length < 1024 →
            (t.core c).arr.warmth = .downWaiting ∧ t.pwr.down = s.pwr.down ++ [⟨.array c, s.now⟩])
        ∧ SameBytes s t)

/-- 02 R50, 03 R75-R77, R81-R90: what an array cycle is, and which causes freeze it. -/
def Obligations.ArrayCycles : Prop :=
  FreezeCauses ∧ CycleKinds

/-- 02 R49, R59, 03 R75: the oldest row whose cycle has passed is written into its group, and only there; SAT_KTILE keeps the tile of
the first saturation. The last row of a run completes it with DONE. -/
def Obligations.RowsWritten : Prop :=
  ∀ (s : State) (c : CoreId) (p : RowInFlight), s.coreOn c = true →
    (s.core c).arr.pipe.find? (fun p => decide (p.due < (s.core c).arr.cycle)) = some p →
      let a := (s.core c).arr
      ∃ t, exec (.outputRowWrite c) s = .next t ∧ (t.core c).arr.pipe = a.pipe.erase p
        ∧ (t.group c p.group).elems = p.vals.foldl (fun e v => Tab.set 0 e v.1 v.2) (s.group c p.group).elems
        ∧ (t.group c p.group).flags = (s.group c p.group).flags.join { p.flags with sideUnder := false }
        ∧ (t.group c p.group).satK = (if (s.group c p.group).satSeen then (s.group c p.group).satK else p.satK.getD (s.group c p.group).satK)
        ∧ (∀ g, g ≠ p.group → t.group c g = s.group c g) ∧ SameBytes s t
        ∧ (∀ r, a.runs.find? (fun r => r.seq == p.run) = some r → p.lastRow = true → (s.core c).seq.run = none →
            Reports s t r.owner .done ∧ ∀ x ∈ (t.core c).arr.runs, x.seq ≠ p.run)

/-- 02 R52-R53, 03 R78: the transfer path. A preload at its head starts; its last move, of up to 64 elements of a row, puts their values,
widened exactly, into its group, and it completes; a read that fails ends it with its code. A drain at its head starts when the
group's earlier runs and the quantiser's earlier commands have ended, and a drain that has ended leaves its group CLOSED. -/
def Obligations.TransferPath : Prop :=
  (∀ (s : State) (c : CoreId) (o : Owner) (p : PartId) (g : GroupId) (a : Nat) (f : BitVec 4) (st fac cols rows n : Nat) (b : Code)
      (rest : List Xfer),
    (s.core c).arr.xfers = .preload o p g a f st fac cols rows false n b :: rest → s.coreOn c = true →
      exec (.preloadStart c) s = .next (s.onArr c (fun x => { x with xfers := .preload o p g a f st fac cols rows true n b :: rest })))
  ∧ (∀ (s : State) (c : CoreId) (o : Owner) (p : PartId) (g : GroupId) (a : Nat) (f : BitVec 4) (st fac cols rows n : Nat) (b : Code)
      (rest : List Xfer), (s.core c).arr.xfers = .preload o p g a f st fac cols rows true n b :: rest → s.coreOn c = true →
      let ended (v t : State) (e : Code) : Prop := (t.core c).arr.xfers = rest ∧ (t.group c g).loading = false
        ∧ (∀ g', g' ≠ g → t.group c g' = v.group c g') ∧ t.mem = v.mem ∧ ((v.core c).seq.run = none → Reports v t o e)
      let row := n / cols
      let col := n % cols
      let key (k : Nat) : Nat := if fac = 2 then (2 * row + k / 128) * 128 + k % 128 else row * (s.group c g).cols + k
      (b ≠ .done ∨ cols * rows ≤ n → ∃ t, exec (.preloadComplete c) s = .next t ∧ ended s t b
        ∧ (t.group c g).elems = (s.group c g).elems)
      ∧ (∀ u bs, b = .done → 0 < cols → row + 1 = rows → cols - col ≤ 64 → preloadOk (s.group c g).acctInt f = true →
        (s.from_ c).readRange p (a + elemBytes f (row * st + col)) (elemBytes f (cols - col)) = (u, bs, .done) →
        ∃ t, exec (.preloadComplete c) s = .next t ∧ ended u t .done
          ∧ (t.group c g).elems = ((codesOf f bs (cols - col)).zipIdx).foldl (fun m w =>
              Tab.set 0 m (key (col + w.2)) (preloadWord f w.1)) (s.group c g).elems)
      ∧ (∀ u e, b = .done → 0 < cols → n < cols * rows → e ≠ .done → preloadOk (s.group c g).acctInt f = true →
        (s.from_ c).readRange p (a + elemBytes f (row * st + col)) (elemBytes f (min 64 (cols - col))) = (u, [], e) →
        ∃ t, exec (.preloadComplete c) s = .next t ∧ ended u t e ∧ (t.group c g).elems = (s.group c g).elems))
  ∧ (∀ (s : State) (c : CoreId) (o : Owner) (p : PartId) (n : Nat) (op : CloseOp) (fac cols rows done : Nat) (rest : List Xfer),
    (s.core c).arr.xfers = .close o p n op fac cols rows false done none :: rest → s.coreOn c = true →
    (∀ r ∈ (s.core c).arr.runs, r.op.group = op.group → n ≤ r.seq) → (s.core c).qnt.pass = none →
    (∀ q ∈ (s.core c).qnt.queue, n ≤ q.seq) → (op.rnd = 3 → (s.core c).rng.busy = some (.close n)) →
      exec (.drainStart c) s = .next ((s.onArr c (fun a => { a with xfers := .close o p n op fac cols rows true done none :: rest })).pump c))
  ∧ (∀ (s : State) (c : CoreId) (o : Owner) (p : PartId) (n : Nat) (op : CloseOp) (fac cols rows done : Nat) (e : Code) (rest : List Xfer),
    (s.core c).arr.xfers = .close o p n op fac cols rows true done (some e) :: rest → s.coreOn c = true →
      ∃ t, exec (.drainComplete c) s = .next t ∧ (t.core c).arr.xfers = rest
        ∧ t.group c op.group = { s.group c op.group with state := .closed } ∧ (∀ g, g ≠ op.group → t.group c g = s.group c g)
        ∧ SameBytes s t)

/-- 10 R216: `seq.run`, `spk.run` and `spn.run` join the nest queue of their core; a running nest and four waiting ones stall the
gang. -/
def Sys2Proof.Claims.NestIssue : Prop :=
  ∀ (i : Instr) (s : State) (h : Th) (desc : Addr) (cpl : Reg) (spo : Option (BitVec 2)),
    (i = .seqRun h desc cpl ∧ spo = none) ∨ (i = .spkRun h desc cpl ∧ spo = some 1) ∨ (i = .spnRun h desc cpl ∧ spo = some 2) →
    MayIssue s h →
      ((s.core h.core).seq.queue.length + (if (s.core h.core).seq.run.isSome then 1 else 0) < 5 →
        exec i s = .next ((Issued s h cpl).onSeq h.core (fun q => { q with
          queue := q.queue ++ [⟨.thread (s.cplOf h cpl), s.part h.core, desc, spo⟩] })))
      ∧ (5 ≤ (s.core h.core).seq.queue.length + (if (s.core h.core).seq.run.isSome then 1 else 0) → exec i s = .next s)

/-- 10 R217-R224, 04 R95, 00 R466: the head of the nest queue starts once no nest runs, its descriptor and headers read. A nest that
its checks accept runs: it lays out its commands iteration by iteration and holds its groups; one without a command completes. One
refused, or whose descriptor cannot be read, completes with that code and nothing is held. -/
def Sys2Proof.Claims.NestStart : Prop :=
  ∀ (s : State) (c : CoreId) (n : NestCmd) (rest : List NestCmd), (s.core c).seq.run = none → (s.core c).seq.queue = n :: rest →
    s.coreOn c = true →
      let u := (s.from_ c).onSeq c (fun q => { q with queue := rest })
      (∀ v e, u.readDesc n.part n.desc 160 64 true = (v, .error e) → ∃ t, exec (.nestStart c) s = .next t
        ∧ (t.core c).seq.queue = rest ∧ (t.core c).seq.run = none ∧ t.mem = v.mem ∧ Reports v t n.owner e)
      ∧ (∀ v bs, u.readDesc n.part n.desc 160 64 true = (v, .ok bs) →
        let d := parseNest bs n.spo
        let lens := nestLens (s.core c).seq d
        ¬ (d.rnd = 3 ∧ s.det c = true ∧ (s.core c).rng.fresh = true) → d.spo = 0 →
        (∀ e, v.nestCheck c d lens = e → e ≠ .done → ∃ t, exec (.nestStart c) s = .next t
          ∧ (t.core c).seq.queue = rest ∧ (t.core c).seq.run = none ∧ t.mem = v.mem ∧ Reports v t n.owner e)
        ∧ (v.nestCheck c d lens = .done →
          let k := nestCut d lens
          let its := outerIters (lens.drop 3)
          let ops := ((List.range its.length).zip its).flatMap (fun p =>
            iterOps d k none p.1 (d.wsrc + iterOffset d p.2 true) (d.pre + iterOffset d p.2 false))
          (k.lm ≠ 0 → k.lo ≠ 0 → ops ≠ [] → ∃ t, exec (.nestStart c) s = .next t ∧ (t.core c).seq.queue = rest
            ∧ (t.core c).seq.run = some ⟨n.owner, n.part, d, ops, 0,
                (List.range (d.ni * ceilDiv (nth (0, 0, 0, 0) d.levels 0).1 d.mrows)).map (· + d.gbase), none, false⟩
            ∧ (t.core c).arr = (v.core c).arr ∧ t.mem = v.mem)
          ∧ (k.lm = 0 ∨ k.lo = 0 → ∃ t, exec (.nestStart c) s = .next t ∧ (t.core c).seq.queue = rest ∧ (t.core c).seq.run = none
            ∧ (t.core c).arr = (v.core c).arr ∧ t.mem = v.mem ∧ Reports v t n.owner .done)))

/-- 10 R218-R221, R224, 03 R74, 04 R102-R103: the running nest issues the next of its commands in order: it opens a group that is
CLOSED, at once or with a preload; loads a tile into the half it did not use last; skips a sparse tile whose slots are all zero, with
its runs; gives a run of the tile just loaded; and closes a group. While the group to open is not CLOSED, or 16 runs wait, nothing
happens. -/
def Sys2Proof.Claims.NestCommands : Prop :=
  ∀ (s : State) (c : CoreId) (r : NestRun) (rest : List SeqOp), (s.core c).seq.run = some r → s.coreOn c = true → r.failed = none →
    rest ≠ [] →
    let d := r.d
    let a := (s.core c).arr
    let width := if d.wide then 512 else 128
    let fac := if d.spo = 2 then 2 else 1
    let maxO := (nth (0, 0, 0, 0) d.levels 2).1
    (∀ (g : GroupId) rows cols pre, r.ops = .opn g rows cols pre :: rest →
      ((s.group c g).state ≠ .closed → exec (.seqIssue c) s = .next s)
      ∧ ((s.group c g).state = .closed → 0 < rows → fac * rows * width ≤ 32768 →
        (d.start = false → ∃ t, exec (.seqIssue c) s = .next t
          ∧ (t.core c).seq.run = some { r with ops := rest }
          ∧ t.group c g = { state := .opened, acctInt := fmtIsInt d.fmtA, wide := d.wide, rows := fac * rows }
          ∧ (∀ g', g' ≠ g → t.group c g' = s.group c g') ∧ SameBytes s t)
        ∧ (d.start = true → 0 < cols → preloadOk (fmtIsInt d.fmtA) d.pfmt = true →
          (s.from_ c).arrSource c r.part pre (elemBytes d.pfmt ((rows - 1) * maxO + cols)) true = .done →
          ∃ t, exec (.seqIssue c) s = .next t
            ∧ (t.core c).seq.run = some { r with ops := rest, open_ := r.open_ + 1 }
            ∧ (t.group c g).state = .opened ∧ (t.group c g).loading = true ∧ (t.group c g).elems = []
            ∧ (t.core c).arr.xfers = a.xfers ++ [.preload (.nest c) r.part g pre d.pfmt maxO (fac * rows / max rows 1) cols rows false 0 .done]
            ∧ SameBytes s t)))
    ∧ (∀ k n src, r.ops = .tile k n src none :: rest → d.spo = 0 → pairOk d.spo d.fmtA d.fmtW = true →
      (s.from_ c).arrSource c r.part (src % 2 ^ 64) (tileBytes (geometry d.spo d.wide d.fmtA d.fmtW) d.fmtW) false = .done →
      let h := (s.core c).seq.half
      ∃ t, exec (.seqIssue c) s = .next t
        ∧ (t.core c).seq = { (s.core c).seq with half := 1 - h, run := some { r with ops := rest, open_ := r.open_ + 1 } }
        ∧ (t.core c).arr.loads = a.loads
            ++ [⟨.nest c, r.part, a.seq, ⟨h, BitVec.ofNat 64 src, d.wide, d.fmtA, d.fmtW, d.spo⟩, none, false, .done⟩]
        ∧ (t.core c).arr.halves[h.val].state = .loading ∧ SameBytes s t)
    ∧ (∀ k n src hd v sl, r.ops = .tile k n src (some hd) :: rest → d.spo = 1 ∨ d.spo = 2 →
      (s.from_ c).slotsOf r.part hd (tileBlocks d.spo d.wide (pairClass d.fmtA d.fmtW) k n 0) = (v, .ok sl) →
      (∀ x ∈ sl, x = 0xFFFF_FFFF) → dropRuns rest ≠ [] →
      ∃ t, exec (.seqIssue c) s = .next t ∧ (t.core c).seq.run = some { r with ops := dropRuns rest }
        ∧ (t.core c).seq.skip = min (2 ^ 32 - 1) ((v.core c).seq.skip + 1) ∧ (t.core c).arr.loads = (v.core c).arr.loads ∧ t.mem = v.mem)
    ∧ (∀ k n (g : GroupId) rows aoff rlen, r.ops = .run k n g rows aoff rlen :: rest →
      (16 ≤ a.queued → exec (.seqIssue c) s = .next s)
      ∧ (a.queued < 16 →
        let op : RunOp := ⟨g, BitVec.ofNat 20 k, 1 - (s.core c).seq.half, d.fmtA, d.fmtW, d.spo, d.asrc, d.astrm,
          BitVec.ofNat 18 aoff, BitVec.ofNat 9 rows, 0, d.sstrm⟩
        s.runCheck c op false = .done → ∃ t, exec (.seqIssue c) s = .next t ∧ (t.core c).seq.pos = k
          ∧ (t.core c).seq.run = some { r with ops := rest, open_ := r.open_ + 1 }
          ∧ (t.core c).arr.runs = a.runs ++ [{
              owner := .nest c, part := r.part, seq := a.seq, op, wide := a.effWide, load := a.halves[op.whalf.val].issued, rlen
              started := false, entered := 0, written := 0, moved := false, weights := [], md := [], nhalf := false }]
          ∧ (t.group c g).lastk = (BitVec.ofNat 20 k : BitVec 20).toNat ∧ (t.group c g).empty = false ∧ SameBytes s t))
    ∧ (∀ (g : GroupId) rows cols cbase, r.ops = .close g rows cols cbase :: rest → (s.group c g).state = .opened → 0 < rows →
      fmtReserved d.fmtOut = false → d.ovf ≠ 3 → d.rnd ≠ 3 → (fmtPaired d.fmtOut = true → d.pstrm ≠ d.ostrm) → d.bypass = true →
      ∃ t, exec (.seqIssue c) s = .next t ∧ (t.core c).seq.run = some { r with ops := rest, open_ := r.open_ + 1 }
        ∧ t.group c g = { s.group c g with state := .draining }
        ∧ (t.core c).arr.xfers = a.xfers ++ [.close (.nest c) r.part a.seq ⟨g, d.ostrm, d.pstrm, d.fmtOut, d.rnd, d.ovf, none,
            BitVec.ofNat 12 cbase, d.cmode⟩ ((s.group c g).rows / max rows 1) cols ((s.group c g).rows / max rows 1 * rows) false 0 none]
        ∧ SameBytes s t)

/-- 10 R225, R232: a write of SEQ_CTL.ABORT stops the running nest and completes every queued one, with STALE_EPOCH where STALE is set
in the same write and else with INCOMPLETE; a running nest with commands open completes with that code once they have ended. -/
def Sys2Proof.Claims.NestAbort : Prop :=
  ∀ (s : State) (c : CoreId) (stale : Bool), s.regLive (c.val * 0x10_0000 + 0x2_0008) = true →
    let code : Code := if stale then .staleEpoch else .incomplete
    ∃ t, exec (.seqCtlAbort c stale) s = .next t ∧ (t.core c).seq.queue = []
      ∧ (∀ r, (s.core c).seq.run = some r → r.open_ ≠ 0 → (∀ n ∈ (s.core c).seq.queue, n.owner ≠ .nest c) →
          (t.core c).seq.run = some { r with aborted := true, failed := some code })
      ∧ (∀ r, (s.core c).seq.run = some r → r.open_ = 0 → (t.core c).seq.run = none)
      ∧ (∀ n ∈ (s.core c).seq.queue, Reports s t n.owner code)
      ∧ (t.core c).arr = (s.core c).arr ∧ SameBytes s t

/-- 03 R65, R82, R84: the arrangement of the array, and its idle timer. -/
def Obligations.Arrangement : Prop :=
  ArrangementRequest ∧ ArrangementAndIdle

/-- 03 R68-R71, 04 R96: weight loads, from issue to their end. -/
def Obligations.WeightLoads : Prop :=
  WeightLoadIssue ∧ WeightLoadEvents

/-- 02 R54, 03 R72-R76, R82: `mma.run`, from issue to its start. -/
def Obligations.Runs : Prop :=
  RunIssue ∧ RunStarts

/-- 02 R52-R53, R56, 03 R78: opening and closing accumulator groups. -/
def Obligations.Groups : Prop :=
  GroupOpen ∧ GroupPreloadIssue ∧ GroupClose

/-- 10 R216-R225, R232: nests: their queue, their start, their commands and their abort. -/
def Obligations.Nests : Prop :=
  NestIssue ∧ NestStart ∧ NestCommands ∧ NestAbort

namespace Sys2Proof.Claims

/-- An irregular or matcher command (05 R106-R131). -/
def irrRow : Instr → Option (Th × IrrOp × Reg)
  | .spMm h op cpl => some (h, .spMm op, cpl)
  | .spSddmm h op cpl => some (h, .spSddmm op, cpl)
  | .spGemm h op cpl => some (h, .spGemm op, cpl)
  | .mtchLoad h op cpl => some (h, .mtchLoad op, cpl)
  | .mtchProbe h op cpl => some (h, .mtchProbe op, cpl)
  | .mtchIsect h op cpl => some (h, .mtchIsect op, cpl)
  | .mtchClear h cpl => some (h, .mtchClear, cpl)
  | .segSum h op cpl => some (h, .segSum op, cpl)
  | .segMax h op cpl => some (h, .segMax op, cpl)
  | .segMin h op cpl => some (h, .segMin op, cpl)
  | .gatRows h op cpl => some (h, .gatRows op, cpl)
  | .sctRows h op cpl => some (h, .sctRows op, cpl)
  | .sctAdd h op cpl => some (h, .sctAdd op, cpl)
  | _ => none

/-- The global addresses a mask score names. -/
def scoreAddrs (op : MskScoreOp) : List Addr := [op.range.hdr] ++ op.grad.toList ++ [op.master, op.score]

/-- A table command of the quantiser: whether it loads. -/
def tabRow : Instr → Option (Th × QntTabOp × Reg × Bool)
  | .qntLdtab h op cpl => some (h, op, cpl, true)
  | .qntSttab h op cpl => some (h, op, cpl, false)
  | _ => none

/-- A thread's command has joined the quantiser's queue of its core, at its place in the order it shares with the closes. -/
def ToQuantiser (s t : State) (h : Th) (cpl : Reg) (op : QntOp) : Prop :=
  t = (Issued s h cpl).onCore h.core (fun k => { k with
    arr := { k.arr with seq := k.arr.seq + 1 }
    qnt := { k.qnt with queue := k.qnt.queue ++ [⟨.thread (s.cplOf h cpl), s.part h.core, k.arr.seq, op⟩] } })

/-- A consumer of the random unit has taken its place in issue order (08 R174). -/
def ToRandom (t u : State) (c : CoreId) (x : Consumer) : Prop :=
  t = u.onCore c (fun k => { k with rng := { k.rng with queue := k.rng.queue ++ [x] } })

end Sys2Proof.Claims

/-- 06 R136: `msk.score` over the blocks its range names: an unaligned master or score array is ALIGN, a header whose format is not
one of 04 R94 FORMAT; accepted, it computes its scores and completes with the code of the run. -/
def Sys2Proof.Claims.MaskScore : Prop :=
  ∀ (s v : State) (h : Th) (op : MskScoreOp) (cpl : Reg) (bs : List Byte), MayIssue s h →
    (∀ g ∈ scoreAddrs op, (Seen s h cpl).deviceBad (s.part h.core) g = false) →
    (Seen s h cpl).readMskDescs (s.part h.core) op.range.hdr op.grad = (v, .ok bs) →
      (¬ (op.master.toNat % 64 = 0 ∧ op.score.toNat % 64 = 0) →
        ∃ t, exec (.mskScore h op cpl) s = .next t ∧ t = (v.finish (.thread (s.cplOf h cpl)) .align).back s ∧ t.mem = v.mem)
      ∧ (op.master.toNat % 64 = 0 → op.score.toNat % 64 = 0 → fmtSparse (parseHdr bs).fmtW = false →
        ∃ t, exec (.mskScore h op cpl) s = .next t ∧ t = (v.finish (.thread (s.cplOf h cpl)) .format).back s ∧ t.mem = v.mem)
      ∧ (∀ a b, op.master.toNat % 64 = 0 → op.score.toNat % 64 = 0 → fmtSparse (parseHdr bs).fmtW = true →
        v.gradCheck (s.part h.core) (parseHdr bs) (gradOf 32 bs) = .done →
        v.locals (s.part h.core) [op.master, op.score] = .ok [a, b] →
          let r := (Run.plain v h.core (s.part h.core)).blocks (parseHdr bs) op.range.kb0 op.range.nkb
          let q := r.1.scoreBlocks (parseHdr bs) (gradOf 32 bs) a b op.alphaK op.alphaP r.2
          ∃ t, exec (.mskScore h op cpl) s = .next t ∧ t = (q.s.finish (.thread (s.cplOf h cpl)) q.code).back s ∧ t.mem = q.s.mem)

/-- 06 R137-R140: `msk.select` over scores and a proposal that lie well computes its proposal and completes with the code of the
run; every address must be a multiple of 64; MODE 1 needs a positive finite temperature, and waits while the random unit has an
earlier consumer. -/
def Sys2Proof.Claims.MaskSelect : Prop :=
  (∀ (s v : State) (h : Th) (op : MskSelectOp) (cpl : Reg) (bs : List Byte), MayIssue s h →
    let two := op.drop ≠ 0xFFFF
    let as := [op.score, op.proposal, op.summary, op.scratch]
    (op.sampled = true → s.rngFree h.core = true) →
    (∀ g ∈ op.range.hdr :: as, (Seen s h cpl).deviceBad (s.part h.core) g = false) →
    (Seen s h cpl).readMskDescs (s.part h.core) op.range.hdr none = (v, .ok bs) →
    (op.sampled = true → v.rngVaries h.core = false) →
      (¬ (∀ g ∈ as, g.toNat % 64 = 0) → ∃ t, exec (.mskSelect h op cpl) s = .next t
        ∧ Reports v t (.thread (s.cplOf h cpl)) .align ∧ t.mem = v.mem)
      ∧ ((∀ g ∈ as, g.toNat % 64 = 0) → fmtSparse (parseHdr bs).fmtW = true → op.sampled = true → f32Positive op.temp = false →
        ∃ t, exec (.mskSelect h op cpl) s = .next t ∧ Reports v t (.thread (s.cplOf h cpl)) .limit ∧ t.mem = v.mem)
      ∧ (∀ ls, (∀ g ∈ as, g.toNat % 64 = 0) → fmtSparse (parseHdr bs).fmtW = true → (op.sampled = true → f32Positive op.temp = true) →
        v.locals (s.part h.core) (if two then as else as.take 3) = .ok ls →
        (two → v.scratchOk (s.part h.core) (nth 0 ls 3) = true) →
          let r := (Run.plain v h.core (s.part h.core)).blocks (parseHdr bs) op.range.kb0 op.range.nkb
          let q := r.1.select (parseHdr bs) op (nth 0 ls 0) (nth 0 ls 3) (nth 0 ls 1) (nth 0 ls 2) r.2
          ∃ t, exec (.mskSelect h op cpl) s = .next t ∧ Reports q.s t (.thread (s.cplOf h cpl)) q.code ∧ t.mem = q.s.mem))
  ∧ (∀ (s : State) (h : Th) (op : MskSelectOp) (cpl : Reg), op.sampled = true → s.rngFree h.core = false →
      exec (.mskSelect h op cpl) s = .next s)

/-- 06 R135, R143, 00 R466: `msk.apply` and `msk.tiles`, checked, join the run queue of the update engine of their core's quarter with
their descriptors as read; nothing is stored before they run. A misaligned operand is ALIGN, a format that is not sparse FORMAT. -/
def Sys2Proof.Claims.MaskCommandsQueue : Prop :=
  (∀ (s v : State) (h : Th) (op : MskApplyOp) (cpl : Reg) (bs : List Byte), MayIssue s h →
    let as := [op.proposal, op.master] ++ op.mom1.toList ++ op.mom2.toList
    (∀ g ∈ op.range.hdr :: as, (Seen s h cpl).deviceBad (s.part h.core) g = false) →
    (Seen s h cpl).readMskDescs (s.part h.core) op.range.hdr none = (v, .ok bs) →
      (¬ (∀ g ∈ as, g.toNat % 64 = 0) → ∃ t, exec (.mskApply h op cpl) s = .next t
        ∧ Reports v t (.thread (s.cplOf h cpl)) .align ∧ t.quarters = v.quarters ∧ t.mem = v.mem)
      ∧ ((∀ g ∈ as, g.toNat % 64 = 0) → fmtSparse (parseHdr bs).fmtW = false → ∃ t, exec (.mskApply h op cpl) s = .next t
        ∧ Reports v t (.thread (s.cplOf h cpl)) .format ∧ t.quarters = v.quarters ∧ t.mem = v.mem)
      ∧ (∀ ls, (∀ g ∈ as, g.toNat % 64 = 0) → fmtSparse (parseHdr bs).fmtW = true → v.locals (s.part h.core) as = .ok ls →
        ∃ t, exec (.mskApply h op cpl) s = .next t
          ∧ (t.upd (v.quarterOf h.core)).queue = (v.upd (v.quarterOf h.core)).queue
              ++ [⟨.thread (s.cplOf h cpl), some h.core, v.part h.core, .apply op bs⟩]
          ∧ (∀ q, q ≠ v.quarterOf h.core → t.upd q = v.upd q) ∧ t.cores = v.cores ∧ t.mem = v.mem))
  ∧ (∀ (s v : State) (h : Th) (op : MskTilesOp) (cpl : Reg) (bs : List Byte), MayIssue s h →
    let row := v.rowFails (s.part h.core) .read (parseRows (bs.drop 64))
    (∀ g ∈ [op.oldHdr, op.newHdr, op.grad] ++ tilesAddrs op, (Seen s h cpl).deviceBad (s.part h.core) g = false) →
    (Seen s h cpl).readTilesDescs (s.part h.core) op = (v, .ok bs) →
      (¬ (∀ g ∈ tilesAddrs op, g.toNat % 64 = 0) → ∃ t, exec (.mskTiles h op cpl) s = .next t
        ∧ Reports v t (.thread (s.cplOf h cpl)) .align ∧ t.quarters = v.quarters ∧ t.mem = v.mem)
      ∧ (∀ ls, (∀ g ∈ tilesAddrs op, g.toNat % 64 = 0) → .align ∉ row → .shape ∉ row → fmtSparse (parseHdr bs).fmtW = true →
        fmtGrad (parseRows (bs.drop 64)).fmt = true → v.locals (s.part h.core) (tilesAddrs op) = .ok ls →
        ∃ t, exec (.mskTiles h op cpl) s = .next t
          ∧ (t.upd (v.quarterOf h.core)).queue = (v.upd (v.quarterOf h.core)).queue
              ++ [⟨.thread (s.cplOf h cpl), some h.core, v.part h.core, .tiles op bs⟩]
          ∧ (∀ q, q ≠ v.quarterOf h.core → t.upd q = v.upd q) ∧ t.cores = v.cores ∧ t.mem = v.mem))

/-- 16 R353, R356, 08 R175: `upd.opt` leaves for the update engine of its core's quarter. Where its roundings draw random values it
hands over every lane's state as it stands, and each lane passes its share of the words reserved: one for two of the 8,192 elements
of each stored block for each rounding, over 32 lanes, rounded up. -/
def Sys2Proof.Claims.UpdateIssue : Prop :=
  ∀ (s : State) (h : Th) (desc : Addr) (cpl : Reg), MayIssue s h →
    let q := s.quarterOf h.core
    let (draws, n) := match (s.readOpt (s.part h.core) desc).2 with
      | .ok bs => ((parseOpt bs).draws, ((Run.plain s h.core (s.part h.core)).blocks (optHdr bs) (parseOpt bs).kb0 (parseOpt bs).nkb).2.length)
      | .error _ => (0, 0)
    (Seen s h cpl).deviceBad (s.part h.core) desc = false →
    (draws ≠ 0 → s.rngFree h.core = true ∧ ¬ (s.det h.core = true ∧ (s.core h.core).rng.fresh = true)) →
      ∃ t ls, exec (.updOpt h desc cpl) s = .next t
        ∧ (t.upd q).arrivals = (s.upd q).arrivals ++ [(.thread (s.cplOf h cpl), h.core, s.part h.core, desc, ls)]
        ∧ (draws = 0 → ls = [] ∧ (t.core h.core).rng = (s.core h.core).rng)
        ∧ (draws ≠ 0 → ls = (s.core h.core).rng.lanes.toList.map (·.s)
            ∧ ∀ l : Fin 32, (t.core h.core).rng.lanes[l.val] =
                { s := jumpBits (32 * ((8192 * n * draws + 63) / 64)) (s.core h.core).rng.lanes[l.val].s
                  pos := ((s.core h.core).rng.lanes[l.val].pos + (8192 * n * draws + 63) / 64) % 2 ^ 64 })
        ∧ (t.gang h.core h.gang).pc = (s.gang h.core h.gang).pc + 8
        ∧ (∀ q', q' ≠ q → t.quarter q' = s.quarter q') ∧ SameBytes s t

/-- 06 R143, R147-R148, 16 R355-R357, R359-R360, R370: the update engine takes its next command when none runs: an update waits for
its step's verdict, runs by its scale, ends with LIMIT when the verdict is of a later step, or, when the verdict skips it, writes its
record, arrives at its fence and completes without a change; a mask command starts its counts anew. -/
def Sys2Proof.Claims.UpdateEngineStarts : Prop :=
  ∀ (s : State) (q : QuarterId) (u : UpdCmd) (rest : List UpdCmd), (s.upd q).run = none → s.fabricOn q = true →
    (s.upd q).queue = u :: rest →
      let v : State := { s with viewer := some (.quarter q) }
      (∀ bs step ls l0, u.op = .opt bs step ls l0 →
        let ahead := ((s.upd q).vStep + 65536 - step) % 65536
        ((s.upd q).vValid = false ∨ 32768 ≤ ahead → exec (.updateEngineCommandStart q) s = .next s)
        ∧ ((s.upd q).vValid = true → 0 < ahead → ahead < 32768 → ∃ t, exec (.updateEngineCommandStart q) s = .next t
            ∧ (t.upd q).queue = rest ∧ (t.upd q).run = none ∧ Reports s t u.owner .limit ∧ t.mem = s.mem)
        ∧ ((s.upd q).vValid = true → ahead = 0 → (s.upd q).vSkip = false →
          exec (.updateEngineCommandStart q) s = .next (s.onUpd q (fun k => { k with
            blocks := 0, queue := rest, run := some { u with op := .opt bs step ls (s.upd q).vLs } })))
        ∧ (∀ d w, (s.upd q).vValid = true → ahead = 0 → (s.upd q).vSkip = true → v.optLocal u.part (parseOpt bs) = .ok d → d.fence = 0xFF →
          (v.onUpd q (fun k => { k with queue := rest, blocks := 0 })).writeRange (u.core.getD 0) u.part d.record
            (leBytes 4 1 ++ leBytes 4 0 ++ leBytes 2 d.step ++ List.replicate 6 0) = (w, .done) →
          ∃ t, exec (.updateEngineCommandStart q) s = .next t ∧ (t.upd q).queue = (w.upd q).queue ∧ (t.upd q).run = none
            ∧ Reports w t u.owner .done ∧ t.mem = w.mem))
      ∧ (∀ o b, u.op = .apply o b → exec (.updateEngineCommandStart q) s = .next (s.onUpd q (fun k => { k with
            tiles := false, mskBlocks := 0, chg := 0, queue := rest, run := some u })))
      ∧ (∀ o b, u.op = .tiles o b → exec (.updateEngineCommandStart q) s = .next (s.onUpd q (fun k => { k with
            tiles := true, mskBlocks := 0, queue := rest, run := some u })))

/-- 16 R355-R356, R371: an update command that arrives and whose descriptor cannot be read ends with the code of the read, one that
fails a check with that check's; one that passes is judged, recorded and held in arrival order. -/
def Sys2Proof.Claims.UpdateArrives : Prop :=
  ∀ (s : State) (q : QuarterId) (o : Owner) (c : CoreId) (p : PartId) (desc : Addr) (ls : List (BitVec 128))
    (rest : List (Owner × CoreId × PartId × Addr × List (BitVec 128))),
    (s.upd q).arrivals = (o, c, p, desc, ls) :: rest → s.fabricOn q = true →
      let u := ({ s with viewer := some (.quarter q) } : State).onUpd q (fun k => { k with arrivals := rest })
      (∀ v e, u.readOpt p desc = (v, .error e) → ∃ t, exec (.updAccept q) s = .next t ∧ (t.upd q).queue = (v.upd q).queue
        ∧ (t.upd q).arrivals = (v.upd q).arrivals ∧ Reports v t o e ∧ t.mem = v.mem)
      ∧ (∀ v w bs gb, u.readOpt p desc = (v, .ok bs) → v.optGrad p (parseOpt bs) = (w, .ok gb) →
        let g := gradOf 160 (bs ++ gb)
        (∀ e, w.optCheck c p (parseOpt bs) (optHdr bs) g = e → e ≠ .done → ∃ t, exec (.updAccept q) s = .next t
          ∧ (t.upd q).queue = (w.upd q).queue ∧ Reports w t o e ∧ t.mem = w.mem)
        ∧ (∀ d r nf, w.optCheck c p (parseOpt bs) (optHdr bs) g = .done → w.optLocal p (parseOpt bs) = .ok d →
          (Run.alone w c p).judge d (optHdr bs) g = (r, nf) → r.ok = true →
            let k := r.s.upd q
            ∃ t, exec (.updAccept q) s = .next t ∧ (t.upd q).queue = k.queue ++ [⟨o, some c, p, .opt (bs ++ gb) d.step ls 0⟩]
              ∧ (t.upd q).nstep = d.step ∧ (t.upd q).nf = (if k.nstep = d.step then k.nf || nf else nf)
              ∧ (t.upd q).acc = (if k.nstep = d.step then min (2 ^ 15 - 1) (k.acc + 1) else 1) ∧ t.mem = r.s.mem))

/-- 06 R142-R146, 16 R358-R360: the engine's command ends with the code of its run and leaves the engine free: `msk.apply`, `msk.tiles`,
and `upd.opt`, which writes its record last. -/
def Sys2Proof.Claims.UpdateEngineEnds : Prop :=
  ∀ (s : State) (q : QuarterId) (u : UpdCmd), (s.upd q).run = some u →
    let v : State := { s with viewer := some (.quarter q) }
    (∀ o b r e, u.op = .apply o b → v.runApply q u o (parseHdr b) = (r, e) →
      ∃ t, exec (.mskApplyComplete q) s = .next t ∧ (t.upd q).run = none ∧ Reports r t u.owner e ∧ t.mem = r.mem)
    ∧ (∀ o b ls, u.op = .tiles o b → v.locals u.part (tilesAddrs o) = .ok ls →
      let r := (v.updRun u).tiles q o (parseHdr b) (parseHdr (b.drop 32)) (parseRows (b.drop 64)) (tilesAt o ls)
      ∃ t, exec (.mskTilesComplete q) s = .next t ∧ (t.upd q).run = none ∧ Reports r.s t u.owner r.code ∧ t.mem = r.s.mem)
    ∧ (∀ b step ls l d r nf, u.op = .opt b step ls l → v.optLocal u.part (parseOpt b) = .ok d → v.runOpt q u b ls l = (r, nf) →
      (r.ok = false → ∃ t, exec (.updComplete q) s = .next t ∧ (t.upd q).run = none ∧ Reports r.s t u.owner r.code ∧ t.mem = r.s.mem)
      ∧ (∀ w, r.ok = true → d.fence = 0xFF → r.s.writeRange (u.core.getD 0) u.part d.record
          (leBytes 4 (if nf then 4 else 0) ++ leBytes 4 (r.s.upd q).blocks ++ leBytes 2 d.step ++ List.replicate 6 0) = (w, .done) →
        ∃ t, exec (.updComplete q) s = .next t ∧ (t.upd q).run = none ∧ Reports w t u.owner .done ∧ t.mem = w.mem))

/-- 05 R111, 09 R204, R208, 21 R453: an irregular or matcher command with a bad device number is UNMAPPED; one that R208 refuses is VARIES
and counted; a descriptor read for that check that fails gives its code; else the command joins its core's queue with its issue number
and holds its gang until it completes, and a stochastic one takes its place as a consumer of the random unit. -/
def Sys2Proof.Claims.IrregularIssue : Prop :=
  ∀ (i : Instr) (s : State) (h : Th) (op : IrrOp) (cpl : Reg), irrRow i = some (h, op, cpl) → MayIssue s h →
    let c := h.core
    let bad : Prop := ∃ g ∈ op.shape.2.2.1.map structAddr ++ op.shape.2.2.2, (Seen s h cpl).deviceBad (s.part c) g = true
    let fresh : Prop := op.shape.1 = 3 ∧ s.det c = true ∧ (s.core c).rng.fresh = true
    (bad → ∃ t, exec i s = .next t ∧ Answered s t h cpl .unmapped ∧ (t.core c).mtch = (s.core c).mtch ∧ Elsewhere s t c)
    ∧ (¬ bad → fresh → ∃ t, exec i s = .next t ∧ Answered s t h cpl .varies ∧ (t.core c).mtch = (s.core c).mtch
      ∧ (t.core c).varies = min (2 ^ 32 - 1) ((s.core c).varies + 1) ∧ Elsewhere s t c)
    ∧ (∀ v e, ¬ bad → ¬ fresh → (Seen s h cpl).addVaries c (s.part c) op = (v, .error e) →
      ∃ t, exec i s = .next t ∧ Reports v t (.thread (s.cplOf h cpl)) e ∧ (t.core c).mtch = (v.core c).mtch ∧ t.mem = v.mem)
    ∧ (∀ v, ¬ bad → ¬ fresh → (Seen s h cpl).addVaries c (s.part c) op = (v, .ok true) →
      ∃ t, exec i s = .next t ∧ Reports v t (.thread (s.cplOf h cpl)) .varies ∧ (t.core c).mtch = (v.core c).mtch
        ∧ (t.core c).varies = min (2 ^ 32 - 1) ((v.core c).varies + 1) ∧ t.mem = v.mem)
    ∧ (∀ v, ¬ bad → ¬ fresh → (Seen s h cpl).addVaries c (s.part c) op = (v, .ok false) →
      ∃ t u, exec i s = .next t
        ∧ u = (((v.onArr c (fun a => { a with seq := a.seq + 1 })).onMtch c (fun m => { m with
            queue := m.queue ++ [(s.cplOf h cpl, s.part c, op, (v.core c).arr.seq)] })).onGang c h.gang
              (fun k => { k with held := true })).back s
        ∧ (op.shape.1 ≠ 3 → t = u) ∧ (op.shape.1 = 3 → ToRandom t u c .irregular)
        ∧ (t.gang c h.gang).held = true ∧ t.mem = v.mem)

/-- 05 R110-R112: the command at the head of the matcher queue completes with the code of its run and lets its gang go on, and a
stochastic one frees the random unit; one that must wait for its paired stream stays at the head, and so does a stochastic one whose
turn at the random unit has not come. -/
def Sys2Proof.Claims.IrregularCompletes : Prop :=
  ∀ (s : State) (c : CoreId) (k : Cpl) (p : PartId) (op : IrrOp) (n : Nat) (rest : List (Cpl × PartId × IrrOp × Nat)),
    (s.core c).mtch.queue = (k, p, op, n) :: rest → s.coreOn c = true →
      (op.shape.1 = 3 → (s.core c).rng.busy ≠ some .irregular → exec (.irregularComplete c) s = .next s)
      ∧ ((op.shape.1 = 3 → (s.core c).rng.busy = some .irregular) →
        let r := (s.from_ c).runIrr c p op n
        (r.wait = false → ∃ t, exec (.irregularComplete c) s = .next t ∧ (t.core c).mtch.queue = rest
          ∧ (t.gang k.core k.gang).held = false ∧ Reports r.s t (.thread k) r.code
          ∧ (op.shape.1 = 3 → (t.core c).rng.busy = none) ∧ t.mem = r.s.mem)
        ∧ (r.wait = true → exec (.irregularComplete c) s = .next (((s.from_ c).keepTry c op r).back s)
          ∧ (((s.from_ c).keepTry c op r).core c).mtch.queue = (s.core c).mtch.queue))

/-- 08 R174, R177, R180, R182, 09 R208: `rng.seed`, `rng.fill` and `rng.cat`, accepted, take their place in the consumers' order; a
fresh seed in a deterministic partition is refused and counted. -/
def Sys2Proof.Claims.RandomIssue : Prop :=
  ∀ (s : State) (h : Th) (cpl : Reg), MayIssue s h →
    (∀ o : RngSeedOp, ¬ (s.det h.core = true ∧ (o.fresh = true ∨ (s.core h.core).rng.fresh = true)) →
      ∃ t, exec (.rngSeed h o cpl) s = .next t ∧ ToRandom t (Issued s h cpl) h.core (.seed (s.cplOf h cpl) o))
    ∧ (∀ o : RngSeedOp, s.det h.core = true → o.fresh = true ∨ (s.core h.core).rng.fresh = true →
      ∃ t, exec (.rngSeed h o cpl) s = .next t ∧ (t.core h.core).rng = (s.core h.core).rng
        ∧ (t.core h.core).varies = min (2 ^ 32 - 1) ((s.core h.core).varies + 1) ∧ Answered s t h cpl .varies)
    ∧ (∀ o : RngFillOp, (Seen s h cpl).deviceBad (s.part h.core) o.addr = false →
      ¬ (s.det h.core = true ∧ (s.core h.core).rng.fresh = true) → (Seen s h cpl).fillCheck (s.part h.core) o = .done →
        ∃ t, exec (.rngFill h o cpl) s = .next t ∧ ToRandom t (Issued s h cpl) h.core (.fill (s.cplOf h cpl) (s.part h.core) o))
    ∧ (∀ (o : RngCatOp) v bs, (Seen s h cpl).deviceBad (s.part h.core) o.scores = false →
      (Seen s h cpl).deviceBad (s.part h.core) o.out = false →
      (Seen s h cpl).readDesc (s.part h.core) o.scores 32 32 false = (v, .ok bs) → v.rngVaries h.core = false →
      v.catCheck (s.part h.core) o (parseRows bs) = .done →
        ∃ t, exec (.rngCat h o cpl) s = .next t
          ∧ ToRandom t (v.back s) h.core (.cat (s.cplOf h cpl) (s.part h.core) o bs))

/-- 08 R173, R174, R177, R179, R180, R182: the first consumer takes an idle unit. A JOB seed puts every masked lane at its position and
leaves the others; a FRESH seed gives each masked lane the DRBG's next 128 bits after a reseed, at position 0, and waits while the
source is retested; `rng.fill` and `rng.cat` end with the code of their run; each frees the unit. A lane whose state is 0 is seeded
anew, counted and flagged. -/
def Sys2Proof.Claims.RandomUnit : Prop :=
  (∀ (s : State) (c : CoreId) (x : Consumer) (rest : List Consumer), (s.core c).rng.queue = x :: rest → s.coreOn c = true →
    (s.core c).rng.busy = none →
      exec (.randomConsumerStart c) s = .next (s.onRng c (fun r => { r with queue := rest, busy := some x })))
  ∧ (∀ (s : State) (c : CoreId) (k : Cpl) (o : RngSeedOp), (s.core c).rng.busy = some (.seed k o) → o.fresh = false →
      ∃ t, exec (.randomConsumerComplete c) s = .next t ∧ (t.core c).rng.busy = none ∧ (t.core c).rng.seed = o.seed
        ∧ (t.core c).rng.fresh = false ∧ (t.core c).rng.queue = (s.core c).rng.queue
        ∧ (∀ l : Fin 32, (t.core c).rng.lanes[l.val] =
            if o.mask.getLsbD l.val then laneAt s.dev c.val l.val o.seed o.pos.toNat else (s.core c).rng.lanes[l.val])
        ∧ Reports s t (.thread k) .done ∧ SameBytes s t)
  ∧ (∀ (s : State) (c : CoreId) (k : Cpl) (o : RngSeedOp), (s.core c).rng.busy = some (.seed k o) → o.fresh = true →
      let ls := (List.range 32).filter (fun l => o.mask.getLsbD l)
      (s.sec.retest = none →
        ∃ t, exec (.randomConsumerComplete c) s = .next t ∧ (t.core c).rng.busy = none ∧ (t.core c).rng.fresh = true
          ∧ t.sec.drbg = (s.sec.drbg.reseed.generate ls.length).1 ∧ t.sec.drbgCount = 1
          ∧ (∀ l : Fin 32, (t.core c).rng.lanes[l.val] =
              if o.mask.getLsbD l.val then
                let v := nth 0 (s.sec.drbg.reseed.generate ls.length).2 (ls.idxOf l.val)
                { s := if v = 0 then baseState (s.core c).rng.seed else v, pos := 0 }
              else (s.core c).rng.lanes[l.val])
          ∧ Reports s t (.thread k) .done ∧ SameBytes s t)
      ∧ (s.sec.retest ≠ none → (∀ w ∈ s.sec.drbgWait, w.1 ≠ .seedFresh c) → exec (.randomConsumerComplete c) s =
          .next (s.onSec (fun x => { x with drbgWait := x.drbgWait ++ [(.seedFresh c, s.now)] }))))
  ∧ (∀ (s : State) (c : CoreId) (k : Cpl) (p : PartId) (o : RngFillOp) (a : Nat), (s.core c).rng.busy = some (.fill k p o) →
      (s.from_ c).localOf p o.addr = .ok a →
        let r := fillLines o c p a (o.count / 16 + 1) 0 (s.from_ c)
        ∃ t, exec (.randomConsumerComplete c) s = .next t ∧ (t.core c).rng = { (r.1.core c).rng with busy := none }
          ∧ Reports r.1 t (.thread k) r.2 ∧ t.mem = r.1.mem)
  ∧ (∀ (s : State) (c : CoreId) (k : Cpl) (p : PartId) (o : RngCatOp) (bs : List Byte), (s.core c).rng.busy = some (.cat k p o bs) →
      let r := (s.from_ c).runCat c p o bs
      ∃ t, exec (.randomConsumerComplete c) s = .next t ∧ (t.core c).rng = { (r.1.core c).rng with busy := none }
        ∧ Reports r.1 t (.thread k) r.2 ∧ t.mem = r.1.mem)
  ∧ (∀ (s : State) (c : CoreId) (l : ThreadId), s.coreOn c = true → (s.core c).rng.lanes[l.val].s = 0 →
      ∃ t, exec (.stuckDetector c l) s = .next t ∧ (t.core c).rng.stuck = true
        ∧ (t.core c).rng.stuckCount = min (2 ^ 32 - 1) ((s.core c).rng.stuckCount + 1)
        ∧ (∀ m : Fin 32, (t.core c).rng.lanes[m.val] =
            if m = l then laneAt s.dev c.val l.val (s.core c).rng.seed 0 else (s.core c).rng.lanes[m.val])
        ∧ Elsewhere s t c)
  ∧ (∀ (s : State) (c : CoreId) (l : ThreadId), (s.core c).rng.lanes[l.val].s ≠ 0 → exec (.stuckDetector c l) s = .next s)

/-- 08 R184-R185: a failed health test starts a retest and is logged. A request that needs no fresh entropy is served from the DRBG's
state, which every 1,048,576 requests is reseeded; one that demands prediction resistance reseeds at once, or ends with HEALTH during a
retest. A FRESH seed waits for the retest: it is served when the retest passes, and ends with HEALTH, its lanes as they were, once it
has waited 10 ms. -/
def Sys2Proof.Claims.EntropyEvents : Prop :=
  (∀ s : State, exec .healthTestFailure s = .next { s with
    sec := { s.sec with retest := s.sec.retest.or (some s.now) }, log := s.log ++ [.entropy s.now] })
  ∧ (∀ (s : State) (u : DrbgUse), (∀ c, u ≠ .seedFresh c) →
      (s.sec.drbgCount < 1_048_576 →
        ∃ t, exec (.drbgRequest u false) s = .next t ∧ t.sec.drbgLast = .done ∧ t.sec.drbgCount = s.sec.drbgCount + 1
          ∧ t.sec.drbg = (s.sec.drbg.generate 1).1 ∧ t.sec.drbgWait = s.sec.drbgWait ∧ t.cores = s.cores ∧ t.mem = s.mem)
      ∧ (s.sec.retest = none →
        ∃ t, exec (.drbgRequest u true) s = .next t ∧ t.sec.drbgLast = .done ∧ t.sec.drbgCount = 1
          ∧ t.sec.drbg = (s.sec.drbg.reseed.generate 1).1 ∧ t.sec.drbgWait = s.sec.drbgWait ∧ t.cores = s.cores ∧ t.mem = s.mem)
      ∧ (s.sec.retest = none → 1_048_576 ≤ s.sec.drbgCount →
        ∃ t, exec (.drbgRequest u false) s = .next t ∧ t.sec.drbgLast = .done ∧ t.sec.drbgCount = 1
          ∧ t.sec.drbg = (s.sec.drbg.reseed.generate 1).1 ∧ t.cores = s.cores ∧ t.mem = s.mem)
      ∧ (s.sec.retest ≠ none →
        ∃ t, exec (.drbgRequest u true) s = .next t ∧ t.sec.drbgLast = .health ∧ t.sec.drbgCount = s.sec.drbgCount
          ∧ t.sec.drbg = s.sec.drbg ∧ t.sec.drbgWait = s.sec.drbgWait ∧ t.cores = s.cores ∧ t.mem = s.mem))
  ∧ (∀ (s : State) (c : CoreId) (x : Cpl × RngSeedOp), s.freshSeed c = some x → s.sec.retest ≠ none →
      (∀ w ∈ s.sec.drbgWait, w.1 ≠ .seedFresh c) →
        exec (.drbgRequest (.seedFresh c) false) s =
          .next { s with sec := { s.sec with drbgWait := s.sec.drbgWait ++ [(.seedFresh c, s.now)] } })
  ∧ (∀ s : State, s.sec.retest = none → ∀ b, exec (.retestExpiry b) s = .next s)
  ∧ (∀ (s : State) (t0 : Nat), s.sec.retest = some t0 → (∀ w ∈ s.sec.drbgWait, s.now < w.2 + 10_000_000) →
      (∀ w ∈ s.sec.keyWait, s.now < w.2 + 10_000_000) → exec (.retestExpiry false) s = .next s)
  ∧ (∀ (s : State) (t0 : Nat), s.sec.retest = some t0 → s.sec.drbgWait = [] → s.sec.keyWait = [] →
      exec (.retestExpiry true) s = .next { s with sec := { s.sec with retest := none } })
  ∧ (∀ (s : State) (c : CoreId) (k : Cpl) (o : RngSeedOp) (t0 t1 : Nat), s.freshSeed c = some (k, o) → s.sec.retest = some t0 →
      s.sec.drbgWait = [(.seedFresh c, t1)] → s.sec.keyWait = [] →
        (∃ t, exec (.retestExpiry true) s = .next t ∧ t.sec.retest = none ∧ t.sec.drbgWait = [] ∧ (t.core c).rng.busy = none
          ∧ (t.core c).rng.fresh = true ∧ Reports s t (.thread k) .done)
        ∧ (t1 + 10_000_000 ≤ s.now → ∃ t, exec (.retestExpiry false) s = .next t ∧ t.sec.retest = some t0 ∧ t.sec.drbgWait = []
          ∧ (t.core c).rng = { (s.core c).rng with busy := none } ∧ Reports s t (.thread k) .health))

/-- 07 R152, R154, R157-R159, R165: quantiser commands, accepted, join the core's queue of 16, a stochastic pass also the consumers of
the random unit; a table command or a pass refused answers its code and leaves the queue; a full queue stalls the gang. -/
def Sys2Proof.Claims.QuantiserIssue : Prop :=
  ∀ (s : State) (h : Th) (cpl : Reg), MayIssue s h →
    ((s.core h.core).qnt.queue.length < 16 →
      (∃ t, exec (.qntStep h cpl) s = .next t ∧ ToQuantiser s t h cpl .step)
      ∧ (∀ i o l, tabRow i = some (h, o, cpl, l) →
          (∀ a, (Seen s h cpl).tabCheck (s.part h.core) o l = .ok a → ∃ t, exec i s = .next t ∧ ToQuantiser s t h cpl
            (if l then .ldtab { o with addr := BitVec.ofNat 64 a } else .sttab { o with addr := BitVec.ofNat 64 a }))
          ∧ (∀ e, (Seen s h cpl).tabCheck (s.part h.core) o l = .error e → ∃ t, exec i s = .next t
            ∧ Reports s t (.thread (s.cplOf h cpl)) e ∧ (t.core h.core).qnt = (s.core h.core).qnt ∧ t.mem = s.mem))
      ∧ (∀ o, chanDeviceBad (Seen s h cpl) (s.part h.core) o.iscale = false →
          chanDeviceBad (Seen s h cpl) (s.part h.core) o.oscale = false →
          ¬ (o.rnd = 3 ∧ s.det h.core = true ∧ (s.core h.core).rng.fresh = true) →
          (∀ e, s.passCheck h.core o = e → e ≠ .done → ∃ t, exec (.qntPass h o cpl) s = .next t ∧ Answered s t h cpl e
            ∧ (t.core h.core).qnt = (s.core h.core).qnt ∧ Elsewhere s t h.core)
          ∧ (∀ v w ci co, s.passCheck h.core o = .done →
            (Seen s h cpl).readChan (s.part h.core) o.iscale o.width = (v, ci, .done) →
            v.readChan (s.part h.core) o.oscale o.width = (w, co, .done) →
            ∃ t, exec (.qntPass h o cpl) s = .next t
              ∧ (t.core h.core).qnt.queue = (w.core h.core).qnt.queue
                  ++ [⟨.thread (s.cplOf h cpl), s.part h.core, (w.core h.core).arr.seq, .pass o ci co (slotNow (w.core h.core).qnt.slots o.oscale)⟩]
              ∧ (t.core h.core).rng.queue = (w.core h.core).rng.queue
                  ++ (if o.rnd = 3 then [.quantiser (w.core h.core).arr.seq] else []) ∧ t.mem = w.mem)))
    ∧ (16 ≤ (s.core h.core).qnt.queue.length → exec (.qntStep h cpl) s = .next s
        ∧ (∀ o, exec (.qntPass h o cpl) s = .next s) ∧ ∀ i o l, tabRow i = some (h, o, cpl, l) → exec i s = .next s)

/-- 07 R152, R154, R160, R165: the next quantiser command waits for every earlier close on the transfer path. Then a table command is
done whole and answers the code of its run, a step fence advances every enabled slot at once, and a pass begins, a stochastic one when
the random unit is its own; a pass that has ended completes and frees the quantiser. -/
def Sys2Proof.Claims.QuantiserEvents : Prop :=
  (∀ (s : State) (c : CoreId) (q : QntCmd) (rest : List QntCmd), (s.core c).qnt.queue = q :: rest → (s.core c).qnt.pass = none →
    s.coreOn c = true →
      let earlier := (s.core c).arr.xfers.any (fun x => match x with | .close _ _ n _ _ _ _ _ _ _ => decide (n < q.seq) | _ => false)
      let u := (s.from_ c).onQnt c (fun x => { x with queue := rest })
      (earlier = true → exec (.quantiserCommandStart c) s = .next s)
      ∧ (earlier = false → q.op = .step →
        ∃ t, exec (.quantiserCommandStart c) s = .next t
          ∧ (t.core c).qnt.queue = rest.map (QntCmd.afterFence (t.core c).qnt.slots)
          ∧ (∀ i : Fin 64, Tab.get {} (t.core c).qnt.slots i.val = (Tab.get {} (s.core c).qnt.slots i.val).advance)
          ∧ (t.core c).qnt.tables = (s.core c).qnt.tables ∧ Reports s t q.owner .done ∧ SameBytes s t)
      ∧ (∀ o, earlier = false → q.op = .ldtab o →
        let r := u.runLdtab c q.part o
        ∃ t, exec (.quantiserCommandStart c) s = .next t ∧ (t.core c).qnt = (r.1.core c).qnt ∧ Reports r.1 t q.owner r.2 ∧ t.mem = r.1.mem)
      ∧ (∀ o, earlier = false → q.op = .sttab o →
        let r := u.runSttab c q.part o
        ∃ t, exec (.quantiserCommandStart c) s = .next t ∧ (t.core c).qnt = (r.1.core c).qnt ∧ Reports r.1 t q.owner r.2 ∧ t.mem = r.1.mem)
      ∧ (∀ o ci co e, earlier = false → q.op = .pass o ci co e →
        (o.rnd = 3 → (s.core c).rng.busy ≠ some (.quantiser q.seq) → exec (.quantiserCommandStart c) s = .next s)
        ∧ ((o.rnd = 3 → (s.core c).rng.busy = some (.quantiser q.seq)) → exec (.quantiserCommandStart c) s =
          .next (((u.onQnt c (fun x => { x with pass := some ⟨q, e, 0, [], none⟩ })).pump c).back s))))
  ∧ (∀ (s : State) (c : CoreId) (r : PassRun) (e : Code), (s.core c).qnt.pass = some r → r.ended = some e → s.coreOn c = true →
      ∃ t, exec (.qntPassComplete c) s = .next t ∧ (t.core c).qnt = { (s.core c).qnt with pass := none }
        ∧ (∀ o ci co x, r.cmd.op = .pass o ci co x → o.rnd = 3 → (t.core c).rng.busy = none)
        ∧ Reports s t r.cmd.owner e ∧ SameBytes s t)

/-- 13 R287, R298: `lay.copy` with a bad device number is UNMAPPED, which LAY_STAT keeps; else it joins the layout engine's queue, 8
behind the command that runs, and a full queue stalls the gang. The head starts with its descriptor read and checked, and a descriptor
that fails ends it; the running command leaves its code in LAY_STAT and in its CPL register, and the engine free. -/
def Obligations.LayoutCommands : Prop :=
  (∀ (s : State) (h : Th) (desc : Addr) (cpl : Reg), MayIssue s h →
    ((s.core h.core).lay.room = true →
      ((Seen s h cpl).deviceBad (s.part h.core) desc = false →
        exec (.layCopy h desc cpl) s = .next ((Issued s h cpl).onLay h.core (fun l => { l with
          queue := l.queue ++ [⟨s.cplOf h cpl, s.part h.core, desc⟩] })))
      ∧ ((Seen s h cpl).deviceBad (s.part h.core) desc = true → ∃ t, exec (.layCopy h desc cpl) s = .next t
        ∧ Answered s t h cpl .unmapped ∧ (t.core h.core).lay = { (s.core h.core).lay with code := .unmapped } ∧ Elsewhere s t h.core))
    ∧ ((s.core h.core).lay.room = false → exec (.layCopy h desc cpl) s = .next s))
  ∧ (∀ (s v : State) (c : CoreId) (k : LayCmd) (rest : List LayCmd) (d : Except Code (List Byte)), (s.core c).lay.queue = k :: rest →
    (s.core c).lay.run = none → s.coreOn c = true →
    ((s.from_ c).onLay c (fun l => { l with queue := rest })).readDesc k.part k.desc 128 64 false = (v, d) →
      (∀ e, d = .error e → ∃ t, exec (.layCopyStart c) s = .next t ∧ (t.core c).lay.run = none ∧ (t.core c).lay.code = e
        ∧ (t.core c).lay.queue = (v.core c).lay.queue ∧ Reports v t (.thread k.owner) e ∧ t.mem = v.mem)
      ∧ (∀ bs, d = .ok bs → v.layCheck c k.part (parseLay bs) = .done → ∃ t, exec (.layCopyStart c) s = .next t
        ∧ (t.core c).lay = { (v.core c).lay with run := some (k, bs), inplace := v.inPlace c k.part (parseLay bs) } ∧ t.mem = v.mem)
      ∧ (∀ bs e, d = .ok bs → v.layCheck c k.part (parseLay bs) = e → e ≠ .done → ∃ t, exec (.layCopyStart c) s = .next t
        ∧ (t.core c).lay.run = none ∧ (t.core c).lay.code = e ∧ Reports v t (.thread k.owner) e ∧ t.mem = v.mem))
  ∧ (∀ (s : State) (c : CoreId) (k : LayCmd) (bs : List Byte), (s.core c).lay.run = some (k, bs) → s.coreOn c = true →
      let r := if (s.core c).lay.inplace then (Run.alone (s.from_ c) c k.part).layInPlace (parseLay bs)
        else (Run.alone (s.from_ c) c k.part).layCopy (parseLay bs)
      ∃ t, exec (.layCopyComplete c) s = .next t ∧ (t.core c).lay.run = none ∧ (t.core c).lay.code = r.code
        ∧ Reports r.s t (.thread k.owner) r.code ∧ t.mem = r.s.mem)

/-- 13 R277-R282, 09 R208: `strm.open` of an IDLE stream, accepted, opens it with its descriptor and nothing moved; a descriptor that
cannot be read or fails a check answers the code and opens nothing. `strm.close` of an OPEN or CLOSING stream waits for its end, and
of an IDLE one completes at once. -/
def Sys2Proof.Claims.StreamOpenClose : Prop :=
  (∀ (s v : State) (h : Th) (i : StreamId) (desc : Addr) (cpl : Reg) (d : Except Code (List Byte)), MayIssue s h →
    (Seen s h cpl).readDesc (s.part h.core) desc 64 64 true = (v, d) →
      (∀ bs, d = .ok bs → v.strmCheck h.core i bs = .done → ∃ t, exec (.strmOpen h i desc cpl) s = .next t
        ∧ (let x := t.strm h.core i
           x.state = .opened ∧ x.desc = parseStrm bs ∧ x.owner = .thread (s.cplOf h cpl) ∧ x.asked = 0 ∧ x.landed = 0
            ∧ x.readPos = 0 ∧ x.emitted = 0 ∧ x.fifo = [] ∧ x.reqs = [] ∧ x.stop = none ∧ x.part = v.part h.core
            ∧ x.flags = (v.strm h.core i).flags ∧ x.code = (v.strm h.core i).code)
        ∧ (∀ j, j ≠ i → t.strm h.core j = v.strm h.core j) ∧ t.mem = v.mem)
      ∧ (∀ e, d = .error e → ∃ t, exec (.strmOpen h i desc cpl) s = .next t ∧ Reports v t (.thread (s.cplOf h cpl)) e
        ∧ (t.core h.core).streams = (v.core h.core).streams ∧ t.mem = v.mem)
      ∧ (∀ bs e, d = .ok bs → v.strmCheck h.core i bs = e → e ≠ .done → ∃ t, exec (.strmOpen h i desc cpl) s = .next t
        ∧ Reports v t (.thread (s.cplOf h cpl)) e ∧ (t.core h.core).streams = (v.core h.core).streams ∧ t.mem = v.mem
        ∧ (e = .varies → (t.core h.core).varies = min (2 ^ 32 - 1) ((v.core h.core).varies + 1))))
  ∧ (∀ (s : State) (h : Th) (i : StreamId) (cpl : Reg), MayIssue s h →
      ((s.strm h.core i).state = .idle → ∃ t, exec (.strmClose h i cpl) s = .next t ∧ Answered s t h cpl .done
        ∧ (t.core h.core).streams = (s.core h.core).streams ∧ Elsewhere s t h.core)
      ∧ ((s.strm h.core i).state ≠ .idle → exec (.strmClose h i cpl) s = .next ((Issued s h cpl).onStrm h.core i (fun x => { x with
          state := .closing, closers := x.closers ++ [s.cplOf h cpl] }))))

/-- 13 R284-R286: in a cycle of the stream engine the ready stream with the least slack asks for its next piece and is no longer
passed over; every other ready stream has lost once more. A landed chunk arrives once at its signal barrier. -/
def Sys2Proof.Claims.StreamRequests : Prop :=
  (∀ (s : State) (c : CoreId), s.coreOn c = true →
    let u := s.pump c
    ∃ t, exec (.streamRequest c) s = .next t ∧ (t.core c).strmCycle = (u.core c).strmCycle + 1
      ∧ (∀ i : StreamId, u.strmWinner c = some i →
          (t.strm c i).reqs = (u.strm c i).reqs ++ [((u.strm c i).asked, u.reqLen (u.strm c i))]
          ∧ (t.strm c i).asked = (u.strm c i).asked + u.reqLen (u.strm c i) ∧ (t.strm c i).lost = 0)
      ∧ (∀ i : StreamId, u.strmWinner c ≠ some i → (t.strm c i).reqs = (u.strm c i).reqs ∧ (t.strm c i).asked = (u.strm c i).asked
          ∧ (t.strm c i).lost = (u.strm c i).lost + (if u.strmReady c (u.strm c i) then 1 else 0))
      ∧ t.mem = u.mem)
  ∧ (∀ (s : State) (c : CoreId) (i : StreamId) (b : BarId), s.coreOn c = true → (s.strm c i).desc.sbar = some b →
      (s.strm c i).state ≠ .idle → (s.strm c i).signalled < (s.strm c i).chunksDone →
        exec (.chunkWritten c i) s = .next ((s.onStrm c i (fun x => { x with signalled := x.signalled + 1 })).barArrive c b))

/-- 13 R280-R283, 00 R465: the oldest request of a stream moves its bytes: a source row is read, bytes for an IN stream land in its ring,
others at the destination row, and the first failing line stops the stream with its code. A stream whose end has come is IDLE with its
code, nothing outstanding and its FIFO empty, and it and every waiting close complete. -/
def Sys2Proof.Claims.StreamData : Prop :=
  (∀ (s v : State) (c : CoreId) (i : StreamId) (reply : RemoteReply) (off n : Nat) (rest : List (Nat × Nat)) (bs : List Byte) (e : Code),
    s.coreOn c = true → (s.strm c i).state ≠ .idle → (s.strm c i).reqs = (off, n) :: rest →
    let x := s.strm c i
    let row := off / max x.desc.rowb 1
    let at_ : Addr := BitVec.ofNat 64 (off % max x.desc.rowb 1)
    (if x.desc.kind = .out then (s.from_ c, x.fifo.take n, Code.done)
      else (s.from_ c).strmReadGo x.part x.desc.adaptive reply 10 (x.desc.srcRow row + at_) n) = (v, bs, e) →
      (x.desc.kind = .inp → exec (.streamDataReturn c i reply) s = .next ((State.pump
        (((v.onCore c (fun k => { k with ibuf := ringPut k.ibuf x.desc x.landed bs })).bufWrite c
          (inputWords x.desc.iboff x.desc.iblen x.landed bs.length)).strmMoved c i bs.length e) c).back s))
      ∧ (∀ u k f, x.desc.kind ≠ .inp → v.strmWriteGo c x.part x.desc.adaptive reply 10 0 (x.desc.dstRow row + at_) bs = (u, k, f) →
        exec (.streamDataReturn c i reply) s =
          .next ((State.pump (u.strmMoved c i k (if f = .done then e else f)) c).back s)))
  ∧ (∀ (s : State) (c : CoreId) (i : StreamId) (e : Code), (s.strm c i).ending = some e → s.coreOn c = true →
      let u := s.onStrm c i (fun x => { x with
        state := .idle, code := e, stop := none, reqs := [], closers := [], owner := .quiet, fifo := [] })
      let v := (s.strm c i).closers.foldl (fun u k => u.finish (.thread k) .done) (u.finish (s.strm c i).owner e)
      exec (.streamComplete c i) s = .next ((v.strmEnds c i e).nestSettle c) ∧ (v.strm c i) = (u.strm c i))

/-- 06 R136-R141: the mask commands that run at once. -/
def Obligations.MaskScores : Prop :=
  MaskScore ∧ MaskSelect

/-- 06 R135, R142-R143, 16 R353-R356: how commands come to the update engine of a quarter. -/
def Obligations.UpdateEngineFed : Prop :=
  MaskCommandsQueue ∧ UpdateIssue ∧ UpdateArrives

/-- 06 R142-R148, 16 R355-R360: how the update engine takes a command and ends it. -/
def Obligations.UpdateEngineRuns : Prop :=
  UpdateEngineStarts ∧ UpdateEngineEnds

/-- 05 R110-R112, 09 R204: irregular and matcher commands, from issue to their end. -/
def Obligations.IrregularCommands : Prop :=
  IrregularIssue ∧ IrregularCompletes

/-- 08 R173-R185: the random unit and its entropy. -/
def Obligations.RandomCommands : Prop :=
  RandomIssue ∧ RandomUnit ∧ EntropyEvents

/-- 07 R152-R165: the quantiser, from the issue of a command to its end. -/
def Obligations.QuantiserCommands : Prop :=
  QuantiserIssue ∧ QuantiserEvents

/-- 13 R277-R286: streams: their opening and closing, their requests and their data. -/
def Obligations.Streams : Prop :=
  StreamOpenClose ∧ StreamRequests ∧ StreamData

namespace Sys2Proof.Claims

/-- The six collective commands. -/
def collRow : Instr → Option (CollKind × Th × Addr × Reg)
  | .collAllreduce h d cpl => some (.allreduce, h, d, cpl)
  | .collRscatter h d cpl => some (.rscatter, h, d, cpl)
  | .collAllgather h d cpl => some (.allgather, h, d, cpl)
  | .collAlltoall h d cpl => some (.alltoall, h, d, cpl)
  | .collBcast h d cpl => some (.bcast, h, d, cpl)
  | .collBarrier h d cpl => some (.barrier, h, d, cpl)
  | _ => none

/-- A flit that arrives: its port, its content, and the type of its row (14 R302). -/
def flitRow : Instr → Option (PortId × Flit × Nat)
  | .dataFlit n f => some (n, f, 0)
  | .ackFlit n f => some (n, f, 1)
  | .nakFlit n f => some (n, f, 2)
  | .creditFlit n f => some (n, f, 3)
  | .controlFlit n f => some (n, f, 4)
  | .idleFlit n f => some (n, f, 5)
  | _ => none

/-- `t` is `s` but for port `n`, which is `p`. -/
def OnlyPort (s t : State) (n : PortId) (p : Port) : Prop := t = s.onPort n (fun _ => p)

/-- The replay buffer after an ack for everything before number `a`. -/
def unacked (p : Port) (a : Nat) : List (Nat × TxFlit) :=
  if p.txSeq = a then []
  else if ∃ r ∈ p.replay, r.1 = a then p.replay.dropWhile (fun r => r.1 != a) else p.replay

/-- Port `q` is port `p` after the ack and the credit return of a good flit, as far as every flit does the same to a port. -/
def Acked (p q : Port) (f : Flit) : Prop :=
  q.replay = unacked p f.ack.toNat
    ∧ (∀ v : Fin 8, q.credit[v.val] = p.credit[v.val] + (if v.val = f.vc.toNat then f.cred.toNat else 0))
    ∧ q.txq = p.txq ∧ q.txSeq = p.txSeq ∧ q.width = p.width ∧ q.lanes = p.lanes

/-- A data or control flit in sequence: what it carries is handed on, the next number is expected, and an ack is owed. -/
def PassedOn (p q : Port) (f : Flit) : Prop :=
  Acked p q f ∧ q.rxSeq = (p.rxSeq + 1) % 4096 ∧ q.rxq = p.rxq ++ [(f.first, f.payload.take f.len.toNat, flitVc f)]
    ∧ q.ackOwed = true ∧ q.nakOwed = false ∧ q.nakked = false

/-- The FEC of a port counts what a flit that arrives met (14 R324; the counts themselves are free, log 85). -/
def fecCounted (now : Nat) (f : Flit) (p : Port) : Port :=
  { p with
    fecCorr := min (2 ^ 16 - 1) (p.fecCorr + Config.fecCorrected f now)
    fecUncorr := min (2 ^ 16 - 1) (p.fecUncorr + if flitCrcOk f then 0 else Config.fecLost f now) }

/-- The state in which a pier's switch and engines act. -/
def atPier (s : State) (p : PierId) : State := { s with viewer := some (.pier p) }

/-- The eighth lane bits of `m` from `lo` on are all set. -/
def fourSet (m : BitVec 8) (lo : Nat) : Bool := (List.range 4).all (fun i => m.getLsbD (lo + i))

/-- A message this module was told of has ended on its side: `t` has sent the notice. -/
def Told (s t : State) (dst op : Nat) (e : Code) : Prop := t.notices = s.notices ++ [(dst, op, e)]

end Sys2Proof.Claims

/-- 15 R333-R335, 09 R208, 21 R453: a collective whose descriptor is good is issued: it waits for its group, and stores nothing. Its
descriptor is read first; then a deterministic partition refuses one with a POLICY or a narrow wire, counted; then the first failed
check answers, and its sharding descriptors come last. -/
def Sys2Proof.Claims.CollectiveIssue : Prop :=
  ∀ (i : Instr) (s v : State) (k : CollKind) (h : Th) (desc : Addr) (cpl : Reg) (r : Except Code (List Byte)),
    collRow i = some (k, h, desc, cpl) → MayIssue s h → (Seen s h cpl).readDesc (s.part h.core) desc 128 64 false = (v, r) →
    let o : Owner := .thread (s.cplOf h cpl)
    (∀ e, r = .error e → ∃ t, exec i s = .next t ∧ Reports v t o e ∧ t.collIssues = v.collIssues ∧ t.mem = v.mem)
    ∧ (∀ bs, r = .ok bs →
      let d := parseColl bs
      let varies : Prop := v.det h.core = true ∧ (d.policy ≠ 0 ∨ d.narrow = true)
      (varies → ∃ t, exec i s = .next t ∧ Reports v t o .varies ∧ t.collIssues = v.collIssues ∧ t.mem = v.mem
        ∧ (t.core h.core).varies = min (2 ^ 32 - 1) ((v.core h.core).varies + 1))
      ∧ (∀ e, ¬ varies → v.collCheck h.core (s.part h.core) k d = e → e ≠ .done →
        ∃ t, exec i s = .next t ∧ t = (v.finish o e).back s ∧ t.collIssues = v.collIssues ∧ t.mem = v.mem)
      ∧ (∀ w e, ¬ varies → v.collCheck h.core (s.part h.core) k d = .done → v.shardCheck (s.part h.core) d = (w, e) → e ≠ .done →
        ∃ t, exec i s = .next t ∧ Reports w t o e ∧ t.collIssues = w.collIssues ∧ t.mem = w.mem)
      ∧ (∀ w, ¬ varies → v.collCheck h.core (s.part h.core) k d = .done → v.shardCheck (s.part h.core) d = (w, .done) →
        ∃ t, exec i s = .next t ∧ t.mem = w.mem ∧ t.cores = w.cores
          ∧ t.collIssues = w.collIssues ++ [(d.group, ⟨s.cplOf h cpl, s.part h.core, k, d, h.core⟩)]))

/-- 15 R335, R342: once every local participant of a group has issued, its engine starts the collective; issues whose signatures
differ end it at once with SHAPE, and the group's next collective has the next number. While a collective of the group runs, the
engine runs 64, or a participant is missing, nothing happens. -/
def Sys2Proof.Claims.CollectiveStart : Prop :=
  ∀ (s : State) (g : Nat) (x : GroupSpec), s.groupOf g = some x → s.pierOn (s.homePier g) = true →
    ((s.collOf g).isSome = true ∨ 64 ≤ s.collLoad (s.homePier g) ∨ s.nextIssues g (s.myLocals x) = none →
      exec (.collectiveStart g) s = .next s)
    ∧ (∀ i is, s.collOf g = none → s.collLoad (s.homePier g) < 64 → s.nextIssues g (s.myLocals x) = some (i :: is) →
      exec (.collectiveStart g) s = .next (((atPier s (s.homePier g)).collLaunch g x i is).back s)
      ∧ ((∃ j ∈ is, sameIssue i j = false) → ∃ t, exec (.collectiveStart g) s = .next t ∧ t.collOf g = none
        ∧ Tab.get 0 t.collNext g = Tab.get 0 s.collNext g + 1 ∧ (t.pier (s.homePier g)).coll.code = .shape ∧ t.mem = s.mem))

/-- 10 R227, 15 R335, R341-R344: a chunk of another epoch than that of the group's lead participant is discarded, counted in SEQ_STALE
and told to its sender, and ends the collective it belongs to with STALE_EPOCH. A chunk of the collective that runs ends it with
CHUNK_CHECK and a count, or with SHAPE, or joins what has come, and its credit goes back. One of a late child completes the child's
subtotal. One of a later collective is kept, and one of an earlier is discarded. -/
def Sys2Proof.Claims.ChunkArrives : Prop :=
  ∀ (s : State) (c : Chunk) (x : GroupSpec), s.groupOf c.group = some x → s.pierOn (s.homePier c.group) = true →
    let home := s.homePier c.group
    let v := atPier s home
    let lead : CoreId := Fin.ofNat 192 ((s.myLocals x).headD 0)
    let late := s.lateWait.find? (fun w => w.group == c.group && w.num == c.num && w.child == c.src)
    let here : Prop := ∃ r, s.collOf c.group = some r ∧ c.num = r.num
    (c.epoch ≠ (s.core lead).seq.epoch → ∃ t, exec (.collectiveChunk c) s = .next t ∧ t.mem = s.mem
      ∧ ((memberAt x c.src).dev, c.op, Code.staleEpoch) ∈ t.notices
      ∧ (t.core lead).seq.stale = min (2 ^ 32 - 1) ((s.core lead).seq.stale + 1)
      ∧ (here → t.collOf c.group = none ∧ (t.pier home).coll.code = .staleEpoch)
      ∧ (¬ here → t.collRuns = s.collRuns))
    ∧ (c.epoch = (s.core lead).seq.epoch →
      (∀ r, s.collOf c.group = some r → c.num = r.num → chunkOk c = false →
        ∃ t, exec (.collectiveChunk c) s = .next t ∧ t.collOf c.group = none ∧ t.mem = s.mem ∧ (t.pier home).coll.code = .chunkCheck
          ∧ (t.pier home).coll.chunkCheck = min (2 ^ 32 - 1) ((s.pier home).coll.chunkCheck + 1))
      ∧ (∀ r, s.collOf c.group = some r → c.num = r.num → chunkOk c = true →
        let signed : Prop := c.sigOp.toNat = r.head.desc.opByte ∧ c.sigFmt.toNat = r.head.desc.fmtByte
          ∧ c.sigCount.toNat = r.head.desc.count
        (¬ signed → ∃ t, exec (.collectiveChunk c) s = .next t ∧ t.collOf c.group = none ∧ t.mem = s.mem
          ∧ (t.pier home).coll.code = .shape)
        ∧ (signed → exec (.collectiveChunk c) s = .next ((((v.consumed x c).collAdvance c.group x
          { r with got := r.got ++ [(c.src, c.back, c.index, c.last, c.data)] }).lateInRun c.group c.src).back s)))
      ∧ (∀ w, ¬ here → late = some w → chunkOk c = true →
        let w' : LateWait := { w with got := w.got ++ c.data }
        let u := ({ v with lateWait := s.lateWait.map (fun y => if y = w then w' else y) } : State).consumed x c
        exec (.collectiveChunk c) s = .next ((if c.last then u.lateDone w' else u).back s))
      ∧ (late = none →
        (∀ r, s.collOf c.group = some r → r.num < c.num →
          exec (.collectiveChunk c) s = .next { s with collEarly := s.collEarly ++ [c] })
        ∧ (∀ r, s.collOf c.group = some r → c.num < r.num → exec (.collectiveChunk c) s = .next s)
        ∧ (s.collOf c.group = none → Tab.get 0 s.collNext c.group ≤ c.num →
          exec (.collectiveChunk c) s = .next { s with collEarly := s.collEarly ++ [c] })
        ∧ (s.collOf c.group = none → c.num < Tab.get 0 s.collNext c.group → exec (.collectiveChunk c) s = .next s)))

/-- 15 R344: at DUE a TREE node that still waits for children goes on without those whose subtotals are not complete; before DUE, or
with POLICY wait, nothing happens. -/
def Sys2Proof.Claims.DuePasses : Prop :=
  ∀ (s : State) (g : Nat) (x : GroupSpec) (r : CollRun), s.groupOf g = some x → s.collOf g = some r →
    (x.tree = true ∧ r.head.desc.policy ≠ 0 ∧ r.head.desc.due ≠ 0 ∧ r.head.desc.due ≤ s.now ∧ r.fwd = 0 ∧ r.phase = 2 →
      exec (.dueExpiry g) s = .next (((atPier s (s.homePier g)).collAdvance g x { r with
        late := x.children.filter (fun c => !(readyChildren x r).contains c) }).back s))
    ∧ (s.now < r.head.desc.due ∨ r.head.desc.policy = 0 → exec (.dueExpiry g) s = .next s)

/-- 15 R333-R344: collectives: their issue, their start, their chunks, and DUE. -/
def Obligations.Collectives : Prop :=
  CollectiveIssue ∧ CollectiveStart ∧ ChunkArrives ∧ DuePasses

/-- 14 R302-R305: a flit that arrives. Its operands must spell its row's type, or a type the protocol does not have; at a port that is
down or retrains it is lost; one with a bad CRC or out of sequence is discarded and a nak is owed, once; one of no known type is
discarded; a good one in sequence brings an ack and credits, and what a data or control flit carries is handed on. A nak sends
everything unacknowledged again, and more than 16 in 1 ms retrain the port. -/
def Obligations.FlitArrives : Prop :=
  ∀ (i : Instr) (s : State) (n : PortId) (f : Flit) (ty : Nat), flitRow i = some (n, f, ty) → (ty = 2 → (s.port n).burst.length ≤ 16) →
    let p := s.port n
    let c := fecCounted s.now f p
    let discarded : State := s.onPort n (fun p => { fecCounted s.now f p with nakOwed := !p.nakked })
    (f.wfAs ty = false → exec i s = .fault .illFormed)
    ∧ (f.wfAs ty = true → s.portLive n = false ∨ p.retraining = true → exec i s = .next s)
    ∧ (f.wfAs ty = true → s.portLive n = true → p.retraining = false →
      (flitCrcOk f = false → exec i s = .next discarded)
      ∧ (flitCrcOk f = true → 5 < f.ftype.toNat → exec i s = .next (s.onPort n (fecCounted s.now f)))
      ∧ (flitCrcOk f = true → f.ftype.toNat = ty → f.seq.toNat ≠ p.rxSeq → exec i s = .next discarded)
      ∧ (flitCrcOk f = true → f.ftype.toNat = ty → f.seq.toNat = p.rxSeq →
        (ty = 1 ∨ ty = 3 ∨ ty = 5 → ∃ t q, exec i s = .next t ∧ OnlyPort s t n q ∧ Acked p q f
          ∧ q.rxSeq = p.rxSeq ∧ q.rxq = p.rxq ∧ q.nakOwed = false ∧ q.fecCorr = c.fecCorr ∧ q.fecUncorr = c.fecUncorr)
        ∧ (ty = 2 → ∃ t q, exec i s = .next t ∧ OnlyPort s t n q ∧ Acked p q f ∧ q.rxSeq = p.rxSeq ∧ q.rxq = p.rxq
          ∧ q.resend = q.replay.map (·.1) ∧ q.replays = min (2 ^ 16 - 1) (p.replays + 1)
          ∧ (q.retraining = true ↔ 16 < (p.burst.filter (fun t => decide (s.now < t + 1_000_000))).length + 1))
        ∧ (ty = 4 → ∃ t q, exec i s = .next t ∧ OnlyPort s t n q ∧ PassedOn p q f)
        ∧ (ty = 0 → ∃ t u q, exec i s = .next t ∧ OnlyPort s u n q ∧ PassedOn p q f
          ∧ (s.rouses n f = false → t = u) ∧ (s.rouses n f = true → t = u.rouse) ∧ (s.pwrState ≠ 2 → t = u))))

/-- 14 R302-R305: what a port sends next, once the switch has taken what it has handed on: a nak that is owed, a flit to be sent again,
a flit without payload while 1,024 flits are unacknowledged, else a new flit, VC 4 before any other, against a credit and into the
replay buffer, or a flit without payload where there is none; a flit without payload is an ack or a credit return where one is owed,
else idle. The ack timeout retrains the port. -/
def Sys2Proof.Claims.FlitLeaves : Prop :=
  (∀ (s : State) (n : PortId), s.portLive n = true → (s.port n).retraining = false →
    let u := (atPier s (pierOf n)).drainRx n
    let p := u.port n
    p.rxq = []
    ∧ (p.nakOwed = true → exec (.flitSend n) s =
        .next ((u.onPort n (fun p => { p with nakOwed := false, nakked := true }.sends 2 p.nextSeq none)).back s))
    ∧ (∀ k rest x, p.nakOwed = false → p.resend = k :: rest → p.replay.find? (fun r => r.1 == k) = some (k, x) →
        exec (.flitSend n) s = .next ((u.onPort n (fun p => { p with resend := rest }.sends x.type k (some x))).back s))
    ∧ (p.nakOwed = false → p.resend = [] → 1024 ≤ p.replay.length →
        exec (.flitSend n) s = .next ((u.onPort n (fun p => p.sends p.quietType p.nextSeq none)).back s))
    ∧ (∀ f, p.nakOwed = false → p.resend = [] → p.replay.length < 1024 →
        ((∃ rr, (u.chooseFlit n).1 = some (f, rr)) ∨ p.first (u.offers n) 4 = some f) →
        ∃ t, exec (.flitSend n) s = .next t
          ∧ (let q := t.port n
             q.txq = p.txq.erase f ∧ q.replay = p.replay ++ [(p.txSeq, f)] ∧ q.txSeq = (p.txSeq + 1) % 4096
              ∧ (∀ v : Fin 8, q.credit[v.val] = p.credit[v.val] - (if v = f.vc then 1 else 0))
              ∧ q.sent = some (p.flit f.type p.txSeq (some f)) ∧ q.ackOwed = false)
          ∧ t.adaptQ = (if f ∈ p.txq then u.adaptQ else u.adaptQ.erase f) ∧ t.mem = s.mem)
    ∧ (p.nakOwed = false → p.resend = [] → p.replay.length < 1024 → (u.chooseFlit n).1 = none →
        ∃ t, exec (.flitSend n) s = .next t
          ∧ (let q := t.port n
             q.sent = some (p.flit p.quietType p.txSeq none) ∧ q.txq = p.txq ∧ q.replay = p.replay ∧ q.txSeq = p.txSeq ∧ q.credit = p.credit)
          ∧ t.adaptQ = u.adaptQ ∧ t.mem = s.mem)
    ∧ (p.quietType = 1 ↔ p.ackOwed = true) ∧ (p.quietType = 3 ↔ p.ackOwed = false ∧ ∃ v : Fin 8, p.owed[v.val] ≠ 0))
  ∧ (∀ (s : State) (n : PortId), s.portLive n = true → (s.port n).retraining = false → (s.port n).replay ≠ [] →
      (s.now < (s.port n).lastAck + 100_000 → exec (.ackTimeout n) s = .next s)
      ∧ ((s.port n).lastAck + 100_000 ≤ s.now → exec (.ackTimeout n) s = .next (s.onPort n (fun p => { p with
          retraining := true, retrains := min (2 ^ 16 - 1) (p.retrains + 1), burst := [] }))))

/-- 14 R300-R301: lane lock. An unlocked lane locks with the fourth marker one period apart; a locked lane is unlocked and LOST with
the third missing marker in a row, and a torus or pair port then retrains. A torus or pair port that is down comes up by the lanes that
have locked and deskew: their numbers differ and no two markers lie more than 4,096 bits apart. -/
def Sys2Proof.Claims.LaneLock : Prop :=
  ∀ (s : State) (n : PortId) (l : Fin 8) (bit errs : Nat) (num : Fin 8), (s.port n).en = true → s.pierOn (pierOf n) = true →
    let x := (s.port n).lanes[l.val]
    ∃ t, exec (.alignmentMarker n l bit errs num) s = .next t ∧ t.mem = s.mem ∧ t.cores = s.cores
      ∧ (∀ m : Fin 8, m ≠ l → (t.port n).lanes[m.val] = (s.port n).lanes[m.val])
      ∧ (∀ k, k ≠ n → (t.port k).lanes = (s.port k).lanes)
      ∧ (let y := (t.port n).lanes[l.val]
        (∀ c, x.locked = false → x.cands.find? (fun c => c.1 + markerPeriod == bit) = some c → 3 ≤ c.2 → errs ≤ 3 →
            y.locked = true ∧ y.due = bit + markerPeriod ∧ y.number = num.val ∧ y.misses = 0)
        ∧ (x.locked = false → 3 < errs → y.locked = false)
        ∧ (x.locked = true → x.due ≠ bit → y = x)
        ∧ (x.locked = true → x.due = bit → errs ≤ 3 → y = { x with due := bit + markerPeriod, misses := 0 })
        ∧ (x.locked = true → x.due = bit → 3 < errs → x.misses < 2 → y = { x with due := bit + markerPeriod, misses := x.misses + 1 })
        ∧ (x.locked = true → x.due = bit → 3 < errs → 2 ≤ x.misses →
            y.locked = false ∧ y.lost = true ∧ (s.isEth n = false → (t.port n).retraining = true))
        ∧ (s.isEth n = false → (s.port n).width = 0 → (s.port n).retraining = false → x.locked = false ∨ y.locked = true →
            (t.port n).width = lockedWidth (t.port n)))
      ∧ (∀ q : Port, q.narrowed = false → (lockedWidth q = 3 ↔
          q.half 0 = true ∧ q.half 4 = true ∧ deskewed q.lanes.toList = true))

/-- 14 R305, R307, R309: a training leaves each lane locked or failed, and everything unacknowledged to be sent again. A torus or pair
port has the width its locked halves give, and once narrowed stays narrow; when it has narrowed or gone down every flow of the port is
held. An ETH port has the links its locked halves give. -/
def Sys2Proof.Claims.TrainingEnds : Prop :=
  ∀ (s : State) (n : PortId) (m : BitVec 8) (marks : List (Nat × Fin 8)), (s.port n).retraining = true → s.pierOn (pierOf n) = true →
    ∃ t, exec (.retrainComplete n ⟨m, marks⟩) s = .next t ∧ (t.port n).retraining = false ∧ t.mem = s.mem ∧ t.cores = s.cores
      ∧ (∀ l : Fin 8, (t.port n).lanes[l.val] = trainedLane (s.port n).lanes[l.val] (m.getLsbD l.val) (nth (0, 0) marks l.val))
      ∧ (s.isEth n = true →
          (t.port n).links = ((t.port n).half 0 && deskewed ((t.port n).lanesOf 0), (t.port n).half 4 && deskewed ((t.port n).lanesOf 4)))
      ∧ (s.isEth n = false →
          (t.port n).narrowed = ((s.port n).narrowed || !fourSet m 0 || !fourSet m 4)
          ∧ (t.port n).width = lockedWidth (t.port n)
          ∧ ((t.port n).width = 3 ∨ (t.port n).width = (s.port n).width → (t.port n).replay = (s.port n).replay
              ∧ (t.port n).resend = (s.port n).replay.map (·.1))
          ∧ ((t.port n).width ≠ 3 → (t.port n).width ≠ (s.port n).width → ∀ f ∈ s.flows, f.2 = n → ∃ h ∈ t.heldFlows, h.1 = f.1))

/-- 14 R308-R310: a held flow with no flit unacknowledged goes on by the port its position gives now, with the flits it kept back, and
waits until then; one of another module with no way loses them. The first flit of an adaptive route that has waited 2 us and has no
port goes on by VC 7 in dimension order; before 2 us none does. -/
def Sys2Proof.Claims.FlowsMove : Prop :=
  (∀ (s : State) (src dst : Nat) (vc : Fin 8) (h : (Nat × Nat × Nat) × List TxFlit),
    s.heldFlows.find? (fun h => h.1 == (src, dst, vc.val)) = some h →
    let waits : Prop := ∃ f, s.flows.find? (fun f => f.1 == (src, dst, vc.val)) = some f
      ∧ ∃ r ∈ (s.port f.2).replay, r.2.flow = (src, dst, vc.val)
    (waits → exec (.flowRecompute src dst vc) s = .next s)
    ∧ (∀ n, ¬ waits → s.flowPort src dst = .ok n →
      ∃ t, exec (.flowRecompute src dst vc) s = .next t ∧ (t.port n).txq = (s.port n).txq ++ h.2
        ∧ (∀ k ∈ t.heldFlows, k.1 ≠ (src, dst, vc.val))
        ∧ t.flows = s.flows.filter (fun f => f.1 != (src, dst, vc.val)) ++ [((src, dst, vc.val), n)] ∧ t.mem = s.mem)
    ∧ (∀ e, ¬ waits → s.flowPort src dst = .error e → src ≠ s.dev →
      exec (.flowRecompute src dst vc) s = .next { s with
        heldFlows := s.heldFlows.filter (fun h => h.1 != (src, dst, vc.val))
        flows := s.flows.filter (fun f => f.1 != (src, dst, vc.val)) }))
  ∧ (∀ (s : State) (src dst : Nat) (vc : Fin 8), (∀ h ∈ s.heldFlows, h.1 ≠ (src, dst, vc.val)) →
      exec (.flowRecompute src dst vc) s = .next s)
  ∧ (∀ (s : State) (n : PortId) (f : TxFlit) (rest : List TxFlit), s.adaptQ = f :: rest → f.since + 2000 ≤ s.now →
      s.bestPort f = none → s.flowPort f.src f.dst = .ok n →
        ∃ t, exec (.adaptiveEscape n) s = .next t ∧ t.adaptQ = rest
          ∧ (t.port n).txq = (s.port n).txq ++ [{ f with vc := 7, adaptive := false }] ∧ t.mem = s.mem)
  ∧ (∀ (s : State) (n : PortId), (∀ f ∈ s.adaptQ, s.now < f.since + 2000) → exec (.adaptiveEscape n) s = .next s)

/-- 14 R299-R310: ports: lane lock, trainings, what leaves them, and the flows that change them. -/
def Obligations.Ports : Prop :=
  LaneLock ∧ TrainingEnds ∧ FlitLeaves ∧ FlowsMove

/-- 10 R227, 14 R319, R321, 18 R403: a message. Another module's is passed by. One that carries data of a stale epoch is discarded, told
and counted in SEQ_STALE; later pieces of no open message are counted LATE; an open message waits. With the last piece a message of
a bad tag or a counter already seen is counted and told; one that is good is served: a write lands, and its sender is told how. -/
def Sys2Proof.Claims.MessageArrives : Prop :=
  ∀ (s : State) (m : Msg), s.pierOn m.pier = true →
    let p := s.pier m.pier
    let v := atPier s m.pier
    let c := v.msgCore m
    let isOpen := ∃ e ∈ p.msgs, e.src = m.src ∧ e.op = m.op
    let good := tagged m.kind = true → m.epoch = (s.core c).seq.epoch
    let key := (m.src + 16384 * (if m.fabricB then 1 else 0), m.dst, m.vc.val)
    let plain := Config.gcmOpen (s.fabricKey m.part) (gcmNonce m.src m.fabricB m.part m.counter.toNat) m.aad m.data m.tag
    (m.dst ≠ s.dev → exec (.message m) s = .next s)
    ∧ (m.dst = s.dev → ¬ good → ∃ t, exec (.message m) s = .next t ∧ Told s t m.src m.op .staleEpoch ∧ t.mem = s.mem
        ∧ (t.core c).seq.stale = min (2 ^ 32 - 1) ((s.core c).seq.stale + 1)
        ∧ ∀ e ∈ (t.pier m.pier).msgs, ¬ (e.src = m.src ∧ e.op = m.op))
    ∧ (m.dst = s.dev → good → m.first = false → ¬ isOpen →
        exec (.message m) s = .next (s.onPier m.pier (fun p => { p with late := min (2 ^ 32 - 1) (p.late + 1) })))
    ∧ (m.dst = s.dev → good → (m.first = true ∨ isOpen) → m.last = false →
        exec (.message m) s = .next (s.onPier m.pier (fun p => { p with
          msgs := p.msgs.filter (fun e => e.src != m.src || e.op != m.op) ++ [⟨m.src, m.op, m.part, m.addr, m.len, s.now⟩] })))
    ∧ (m.dst = s.dev → good → (m.first = true ∨ isOpen) → m.last = true →
        (plain = none ∨ counterOk (p.mark key) m.adaptive m.counter.toNat = false →
          ∃ t, exec (.message m) s = .next t ∧ Told s t m.src m.op .incomplete ∧ t.mem = s.mem
            ∧ t.sec.tagfail = min (2 ^ 32 - 1) (s.sec.tagfail + 1)
            ∧ (t.pier m.pier).abort = min (2 ^ 32 - 1) (p.abort + 1))
        ∧ (∀ bs, plain = some bs → counterOk (p.mark key) m.adaptive m.counter.toNat = true →
          let u := v.onPier m.pier (fun p => { p with
            msgs := p.msgs.filter (fun e => e.src != m.src || e.op != m.op) }.setMark key m.counter.toNat)
          exec (.message m) s = .next ((u.serveMsg m bs).back s)
          ∧ (∀ w e, m.kind = .write ∨ m.kind = .stream → u.land m.part (m.addr.toNat % 2 ^ 49) bs = (w, e) →
            ∃ t, exec (.message m) s = .next t ∧ t.mem = w.mem ∧ t.sec = w.sec
              ∧ (e = .done → t.notices = w.notices) ∧ (e ≠ .done → Told w t m.src m.op e))))

/-- 14 R319-R320, 15 R342: the timers of messages and operations. A partial message that stalls is discarded, counted in ABORT, and
told; an operation not acknowledged in twice the stall time ends with INCOMPLETE, and a collective chunk its collective. -/
def Sys2Proof.Claims.MessageTimers : Prop :=
  (∀ (s : State) (src op : Nat) (i : PierId) (e : OpenMsg),
    (i = 1 → ∀ e ∈ (s.pier 0).msgs, ¬ (e.src = src ∧ e.op = op ∧ e.at_ + (s.pier 0).stallMs * 1_000_000 ≤ s.now)) →
    (s.pier i).msgs.find? (fun e => e.src == src && e.op == op && decide (e.at_ + (s.pier i).stallMs * 1_000_000 ≤ s.now)) = some e →
      ∃ t, exec (.stallTimeout src op) s = .next t ∧ Told s t src op .incomplete ∧ t.mem = s.mem
        ∧ (t.pier i).msgs = (s.pier i).msgs.erase e ∧ (t.pier i).abort = min (2 ^ 32 - 1) ((s.pier i).abort + 1))
  ∧ (∀ (s : State) (src op : Nat), (∀ (i : PierId), ∀ e ∈ (s.pier i).msgs, ¬ (e.src = src ∧ e.op = op)) → src < 2 ^ 32 →
      exec (.stallTimeout src op) s = .next s)
  ∧ (∀ (s : State) (op : Nat) (o : SentOp), s.sentOps.find? (fun o => o.id == op) = some o →
      (s.now < o.at_ + 2 * (s.pier (s.opPier o)).stallMs * 1_000_000 → exec (.senderTimeout op) s = .next s)
      ∧ (o.at_ + 2 * (s.pier (s.opPier o)).stallMs * 1_000_000 ≤ s.now → o.coll = none →
        ∃ t, exec (.senderTimeout op) s = .next t ∧ Reports s t o.owner .incomplete ∧ t.mem = s.mem ∧ ∀ x ∈ t.sentOps, x.id ≠ op)
      ∧ (∀ g x r, o.at_ + 2 * (s.pier (s.opPier o)).stallMs * 1_000_000 ≤ s.now → o.coll = some g → s.groupOf g.1 = some x →
          s.collOf g.1 = some r →
        ∃ t, exec (.senderTimeout op) s = .next t ∧ t.collOf g.1 = none ∧ (t.pier (s.homePier g.1)).coll.code = .incomplete
          ∧ t.mem = s.mem))

/-- 11 R247-R248, 14 R319, 15 R340, R342: an acknowledgement completes its operation with DONE and any other notice with its code. The
answer to a remote `cred.req` makes its entry, or drops it where none was asked; one that lacks what a grant tells ends it with
INCOMPLETE. The acknowledgement of a collective chunk lets its edge go on; a notice that names the collective a group runs ends it. -/
def Sys2Proof.Claims.Notices : Prop :=
  (∀ (s : State) (op : Nat) (e : Code) (gr : Option Grant) (o : SentOp), op < 2 ^ 32 → s.sentOps.find? (fun o => o.id == op) = some o →
    let u : State := { s with sentOps := s.sentOps.filter (fun x => x.id != op) }
    (o.coll = none → e ≠ .done ∨ o.credit = none →
      ∃ t, exec (.abortNotice op ⟨e, gr⟩) s = .next t ∧ Reports s t o.owner e ∧ t.sentOps = u.sentOps ∧ t.mem = s.mem)
    ∧ (∀ c a n, o.credit = some (c, a, n) → e = .done →
      (n = 0 → ∃ t, exec (.abortNotice op ⟨e, gr⟩) s = .next t ∧ Reports s t o.owner .done
        ∧ (t.core c).credits = (s.core c).credits.filter (fun x => !x.covers o.dst o.fabricB a 1) ∧ t.mem = s.mem)
      ∧ (∀ g, n ≠ 0 → gr = some g → ∃ t b, exec (.abortNotice op ⟨e, gr⟩) s = .next t ∧ Reports s t o.owner .done ∧ n ≤ b
        ∧ (t.core c).credits = (s.core c).credits.filter (fun x => !x.covers o.dst o.fabricB a 1)
            ++ [⟨.remote o.dst o.fabricB g.base g.size, g.gen, b⟩] ∧ t.mem = s.mem)
      ∧ (n ≠ 0 → gr = none → ∃ t, exec (.abortNotice op ⟨e, gr⟩) s = .next t ∧ Reports s t o.owner .incomplete ∧ t.mem = s.mem))
    ∧ (∀ g, o.coll = some g → o.credit = none →
      (e = .done → exec (.abortNotice op ⟨e, gr⟩) s = .next (u.chunkBack g.1))
      ∧ (∀ x r, e ≠ .done → s.groupOf g.1 = some x → s.collOf g.1 = some r →
        ∃ t, exec (.abortNotice op ⟨e, gr⟩) s = .next t ∧ t.collOf g.1 = none ∧ (t.pier (s.homePier g.1)).coll.code = e ∧ t.mem = s.mem)))
  ∧ (∀ (s : State) (g num : Nat) (e : Code) (gr : Option Grant) (x : GroupSpec) (r : CollRun), g < 256 → s.groupOf g = some x →
      s.collOf g = some r → r.num = num → e ≠ .done →
        ∃ t, exec (.abortNotice (collOp g num) ⟨e, gr⟩) s = .next t ∧ t.collOf g = none ∧ t.mem = s.mem
          ∧ (t.pier (s.homePier g)).coll.code = e)
  ∧ (∀ (s : State) (op : Nat) (e : Code) (gr : Option Grant), op < 2 ^ 32 → (∀ o ∈ s.sentOps, o.id ≠ op) →
      exec (.abortNotice op ⟨e, gr⟩) s = .next s)

/-- 10 R227, 14 R319-R321, 18 R403: messages, their timers, and the notices that end operations. -/
def Obligations.Messages : Prop :=
  MessageArrives ∧ MessageTimers ∧ Notices

/-- 14 R308, R313-R315: heartbeats leave every live torus port each 1 ms, a neighbour not heard for 10 ms is silent; a newer membership
takes effect with its routes on both piers; whoever holds the role gives the changes that R313 lets it make the next version, and no
other module makes one. -/
def Sys2Proof.Claims.MembershipRules : Prop :=
  (∀ (s : State) (n : PortId), s.portLive n = true → n.val % 26 < 24 →
    (s.now < (s.port n).beatOut + 1_000_000 → exec (.heartbeat n) s = .next s)
    ∧ ((s.port n).beatOut + 1_000_000 ≤ s.now → ∃ t, exec (.heartbeat n) s = .next t ∧ (t.port n).beatOut = s.now
        ∧ (t.port n).txq = (s.port n).txq
            ++ flitsOf s.now s.dev s.dev 6 0 false (s.sealMsg 0 (Config.msgHeader s.nextOp none)) ∧ t.mem = s.mem
        ∧ ∀ m, m ≠ n → t.port m = s.port m))
  ∧ (∀ (s : State) (n : PortId), s.pierOn (pierOf n) = true → (s.port n).en = true → n.val % 26 < 24 →
      ((s.port n).beatIn + 10_000_000 ≤ s.now → exec (.heartbeatSilence n) s = .next (s.onPort n (fun p => { p with silent := true })))
      ∧ (s.now < (s.port n).beatIn + 10_000_000 → exec (.heartbeatSilence n) s = .next s))
  ∧ (∀ (s : State) (v : Nat) (ms : List Nat) (c st : Option Nat), s.boot.mode = .running →
      (v ≤ s.net.version → exec (.membership v ms c st) s = .next s)
      ∧ (s.net.version < v → v < 2 ^ 32 → ∃ t, exec (.membership v ms c st) s = .next t ∧ t.net.version = v
          ∧ t.net.members = ms.filter (fun n => decide (n < 12288)) ∧ t.net.coordinator = c ∧ t.net.standby = st
          ∧ (∀ (p : PierId), ∀ d ∈ t.net.members, Tab.get none (t.pier p).routes d = routeTo t.net.members s.dev d) ∧ t.mem = s.mem))
  ∧ (∀ (s : State) (ls : List Leave) (js : List Join), s.boot.mode = .running →
      let gone := (ls.filter (s.mayLeave (ls.map (·.dev)))).map (·.dev)
      let come := (js.filter s.mayJoin).map (·.dev)
      let role := (nextRoles s.net (s.net.members.filter (fun d => !gone.contains d && decide (d < 12288)))).1
      (role ≠ some s.dev → exec (.membershipChange ls js) s = .next s)
      ∧ (role = some s.dev → (∃ d ∈ s.net.members, d ∈ gone ∧ d ∉ come) →
        ∃ t, exec (.membershipChange ls js) s = .next t ∧ t.net.version = (s.net.version + 1) % 2 ^ 32
          ∧ (∀ d, d < 12288 → (d ∈ t.net.members ↔ (d ∈ s.net.members ∧ d ∉ gone) ∨ d ∈ come)) ∧ t.mem = s.mem))

/-- 14 R316-R318, 08 R184-R185: ingest. A handshake with a trusted certificate opens a session with keys of its own for each direction;
an untrusted one, and one beyond 4,096 sessions, ends with an alert; while the DRBG can give nothing it waits. A datagram of no session,
of a bad tag, or of a number not new is dropped and counted, and a good one is taken; a frame of another port is no datagram. A closed
session is gone with its keys. -/
def Sys2Proof.Claims.IngestRules : Prop :=
  (∀ (s : State) (n : PortId) (job : Nat) (cert : List Byte), s.isEth n = true → s.pierOn (pierOf n) = true →
    s.boot.mode = .running → s.sec.locked = false →
    let full := 4096 ≤ (s.pier 0).sessions.length + (s.pier 1).sessions.length
    let trusted := ∃ j ∈ s.jobs, j.spec.id = job ∧ cert ∈ j.spec.trust
    let dry := 1_048_576 ≤ s.sec.drbgCount ∧ s.sec.retest ≠ none
    (¬ full → trusted → ¬ dry →
        ∃ t x, exec (.tlsHandshake n job cert) s = .next t ∧ (t.pier (pierOf n)).sessions = (s.pier (pierOf n)).sessions ++ [x]
          ∧ x.job = job ∧ x.port = n ∧ x.msgs = [] ∧ x.seen = [] ∧ x.highest = 0 ∧ x.newest = none
          ∧ x.keyIn ++ x.saltIn ++ x.keyOut ++ x.saltOut = Config.tlsExport s.free
          ∧ ((∀ (i : PierId), ∀ y ∈ (s.pier i).sessions, y.sid ≠ (Config.freeWord s.free).toNat) →
              x.sid = (Config.freeWord s.free).toNat) ∧ t.mem = s.mem)
    ∧ (full ∨ ¬ trusted → exec (.tlsHandshake n job cert) s = .next (s.onPier (pierOf n) (fun p => { p with alerts := p.alerts + 1 })))
    ∧ (¬ full → trusted → dry → exec (.tlsHandshake n job cert) s = .next s))
  ∧ (∀ (s : State) (sid : BitVec 32), ∃ t, exec (.sessionClose sid) s = .next t
      ∧ (∀ i : PierId, (t.pier i).sessions = (s.pier i).sessions.filter (fun x => x.sid != sid.toNat)) ∧ t.mem = s.mem ∧ t.cores = s.cores)
  ∧ (∀ (s : State) (n : PortId) (l : Fin 2) (bytes : Nat) (c : CfgImage) (port : BitVec 16) (sid : BitVec 32) (seq : BitVec 64)
      (msg off total : BitVec 32) (cipher tag : List Byte),
    s.boot.cfg = some c → s.isEth n = true → (s.port n).en = true → s.pierOn (pierOf n) = true →
    (if l = 0 then (s.port n).links.1 else (s.port n).links.2) = true → bytes ≤ 9216 →
      let f : EthFrame := ⟨bytes, .ingest true port sid seq msg off total cipher tag⟩
      let dropped := s.onPier (pierOf n) (fun p => { p with drop := min (2 ^ 32 - 1) (p.drop + 1) })
      (port ≠ ingestPort c → exec (.ethernetFrame n l f) s = .next s)
      ∧ (port = ingestPort c →
        ((s.pier (pierOf n)).sessions.find? (fun x => x.sid == sid.toNat) = none → exec (.ethernetFrame n l f) s = .next dropped)
        ∧ ∀ x, (s.pier (pierOf n)).sessions.find? (fun x => x.sid == sid.toNat) = some x →
          let plain := Config.gcmOpen x.keyIn (x.saltIn ++ leBytes 8 seq.toNat) (ingestAad sid seq msg off total) cipher tag
          (plain = none ∨ seqOk x seq.toNat = false → exec (.ethernetFrame n l f) s = .next dropped)
          ∧ (∀ bs, plain = some bs → seqOk x seq.toNat = true → exec (.ethernetFrame n l f) s
              = .next (s.takeDatagram (pierOf n) x seq.toNat msg.toNat off.toNat total.toNat bs).rouse)))

/-- 14 R313-R318: membership and ingest. -/
def Obligations.FabricMembership : Prop :=
  MembershipRules ∧ IngestRules

namespace Sys2Proof.Claims

/-- What a commit of fabric A's bits on the pair leaves in this module's memory. -/
def committed (s : State) (addr : Nat) (bs : List Byte) : List Host.Cell :=
  if s.inCkpt addr = true then (s.store addr bs).1.mem else s.mem

/-- The comparator of a pier. -/
def pairOf (s : State) (p : PierId) : Coll := (s.pier p).coll

/-- A mirror of two members, with its comparator at pier `p` of the fabric A module. -/
def MirrorAt (s : State) (p : PierId) : Prop :=
  s.fabricB = false ∧ s.pairMode = 2 ∧ s.net.twin = true ∧ s.dev ∈ s.net.members ∧ s.pairPier = some p

end Sys2Proof.Claims

/-- 15 R345: standby. A line of a forwarded region is written at its twin; a module that is not in standby, or has no twin, does
nothing; 64 bytes are the line. -/
def Sys2Proof.Claims.Standby : Prop :=
  ∀ (s : State) (addr : Nat) (bs : List Byte),
    (bs.length ≠ 64 → exec (.forwardedWrite addr bs) s = .fault .illFormed)
    ∧ (bs.length = 64 → s.pairMode ≠ 1 ∨ s.net.twin = false ∨ (s.inCkpt addr = false ∧ s.inState addr = false) →
        exec (.forwardedWrite addr bs) s = .next s)
    ∧ (bs.length = 64 → s.pairMode = 1 → s.net.twin = true → s.inCkpt addr = true ∨ s.inState addr = true →
      (s.fabricB = false → ∃ t, exec (.forwardedWrite addr bs) s = .next t ∧ t.mem = s.mem ∧ t.cores = s.cores)
      ∧ (s.fabricB = true → addr % 64 = 0 → s.deadLine (addr / 64) = false →
        ∃ t, exec (.forwardedWrite addr bs) s = .next t
          ∧ (∀ a, t.rdByte a = if addr ≤ a ∧ a < addr + 64 then bs.getD (a - addr) 0 else s.rdByte a) ∧ t.cores = s.cores))

/-- 15 R346-R347: the comparator. With no twin the survivor's writes pass and SOLO is set; a first write waits, or stalls while 4,096
wait; equal writes commit; unequal ones, and one whose partner does not come in PAIR_WAIT, are counted, set SUSPECT, and commit fabric
A's bits; the partner that comes later finds the wait ended. -/
def Sys2Proof.Claims.Mirror : Prop :=
  (∀ (s : State) (d : PairSide) (addr : Nat) (bs : List Byte),
    (bs.length ≠ 64 → exec (.pairCompare d addr bs) s = .fault .illFormed)
    ∧ (bs.length = 64 → s.fabricB = true ∨ s.pairMode ≠ 2 → exec (.pairCompare d addr bs) s = .next s)
    ∧ (bs.length = 64 → s.fabricB = false → s.pairMode = 2 → s.net.twin = false → s.dev ∈ s.net.members →
        ∃ t, exec (.pairCompare d addr bs) s = .next t ∧ (pairOf t (s.pairPier.getD 0)).solo = true
          ∧ t.mem = (if d = .a then committed s addr bs else s.mem) ∧ t.cores.map (·.gangs) = s.cores.map (·.gangs)))
  ∧ (∀ (s : State) (p : PierId) (d : PairSide) (addr : Nat) (bs : List Byte), MirrorAt s p → bs.length = 64 →
      (pairOf s p).stalled = [] →
      ((d, addr) ∈ (pairOf s p).missed → ∃ t, exec (.pairCompare d addr bs) s = .next t
        ∧ (pairOf t p).missed = (pairOf s p).missed.erase (d, addr) ∧ (pairOf t p).held = (pairOf s p).held
        ∧ t.mem = (if d = .a then committed s addr bs else s.mem))
      ∧ ((d, addr) ∉ (pairOf s p).missed →
        ((pairOf s p).held.find? (fun l => l.addr == addr && l.side != d) = none → (pairOf s p).held.length < 4096 →
          exec (.pairCompare d addr bs) s = .next (s.onPier p (fun k => { k with coll := { k.coll with
            solo := false, held := k.coll.held ++ [⟨d, addr, bs, s.now⟩] } })))
        ∧ ((pairOf s p).held.find? (fun l => l.addr == addr && l.side != d) = none → 4096 ≤ (pairOf s p).held.length →
          exec (.pairCompare d addr bs) s = .next (s.onPier p (fun k => { k with coll := { k.coll with
            solo := false, stalled := [⟨d, addr, bs, s.now⟩] } })))
        ∧ ∀ l, (pairOf s p).held.find? (fun l => l.addr == addr && l.side != d) = some l →
          (l.data = bs → ∃ t, exec (.pairCompare d addr bs) s = .next t ∧ (pairOf t p).held = (pairOf s p).held.erase l
            ∧ (pairOf t p).diverge = (pairOf s p).diverge ∧ (pairOf t p).suspect = (pairOf s p).suspect ∧ t.mem = committed s addr bs)
          ∧ (l.data ≠ bs → ∃ t, exec (.pairCompare d addr bs) s = .next t ∧ (pairOf t p).held = (pairOf s p).held.erase l
            ∧ (pairOf t p).diverge = min (2 ^ 32 - 1) ((pairOf s p).diverge + 1) ∧ (pairOf t p).suspect = true
            ∧ t.mem = committed s addr (if d = .a then bs else l.data))))
  ∧ (∀ (s : State) (p : PierId) (addr : Nat) (l : PairLine),
      (p = 1 → ∀ k ∈ (pairOf s 0).held, ¬ (k.addr = addr ∧ k.since + 1000 * (pairOf s 0).pairWait ≤ s.now)) →
      (pairOf s p).held.find? (fun l => l.addr == addr && decide (l.since + 1000 * (pairOf s p).pairWait ≤ s.now)) = some l →
      (pairOf s p).stalled = [] →
        ∃ t, exec (.pairWaitExpiry addr) s = .next t ∧ (pairOf t p).held = (pairOf s p).held.erase l
          ∧ (pairOf t p).diverge = min (2 ^ 32 - 1) ((pairOf s p).diverge + 1) ∧ (pairOf t p).suspect = true
          ∧ (pairOf t p).missed = (pairOf s p).missed ++ [(if l.side = .a then .b else .a, addr)]
          ∧ t.mem = (if l.side = .a then committed s addr l.data else s.mem))
  ∧ (∀ (s : State) (addr : Nat), (∀ (p : PierId), ∀ l ∈ (pairOf s p).held, l.addr ≠ addr ∨ s.now < l.since + 1000 * (pairOf s p).pairWait) →
      exec (.pairWaitExpiry addr) s = .next s)

/-- 15 R345-R347: the redundant pair. -/
def Obligations.RedundantPair : Prop :=
  Standby ∧ Mirror

/-- 10 R229: a placement change of a running module gives every core of the job the epoch after the job's own, which was not the job's
within the last 10 s; their waiting nests are gone, and the job's work is held until the change is confirmed. Any other epoch changes nothing.
A core that a stage moves to starts its lanes from the job's seed (log 193). Confirmed, the job goes on from its committed boundary,
and what was reported beyond it is reported again (log 193). -/
def Sys2Proof.Claims.PlacementChanges : Prop :=
  (∀ (s : State) (job : Nat) (e : BitVec 16) (moved : List CoreId) (j : Job),
    s.jobs.find? (fun j => j.spec.id == job) = some j → s.boot.mode = .running →
    let fresh : Prop := e = j.epoch + 1 ∧ ∀ p ∈ j.past, p.1 = e → p.2 + 10_000_000_000 ≤ s.now
    (¬ fresh → exec (.placementChange job (.epoch e moved)) s = .next s)
    ∧ (fresh → ∃ t, exec (.placementChange job (.epoch e moved)) s = .next t
        ∧ (∀ c ∈ j.spec.cores, (t.core c).seq.epoch = e) ∧ (∀ c, c ∉ j.spec.cores → (t.core c).seq.epoch = (s.core c).seq.epoch)
        ∧ (∀ c ∈ j.spec.cores, s.coreOn c = true → (t.core c).seq.queue = [])
        ∧ (∀ x ∈ t.jobs, x.spec.id = job → x.epoch = e ∧ x.placing = true) ∧ (∀ c ∈ j.spec.cores, t.placing c = true)
        ∧ (∀ c ∈ moved, c ∈ j.spec.cores → ∀ l : Fin 32, (t.core c).rng.lanes[l] = laneAt s.dev c.val l.val j.spec.seed 0)
        ∧ t.mem = s.mem))
  ∧ (∀ (s : State) (job : Nat) (j : Job), s.jobs.find? (fun j => j.spec.id == job) = some j → s.boot.mode = .running →
      (j.placing = false → exec (.placementChange job .confirmed) s = .next s)
      ∧ (j.placing = true → ∃ t, exec (.placementChange job .confirmed) s = .next t
          ∧ (∀ x ∈ t.jobs, x.spec.id = job → x.placing = false ∧ ∀ r ∈ x.reports, r.2 ≤ x.committed) ∧ t.mem = s.mem))
  ∧ (∀ (s : State) (job : Nat) (x : Placement), s.jobs.find? (fun j => j.spec.id == job) = none ∨ s.boot.mode ≠ .running →
      exec (.placementChange job x) s = .next s)

/-- 01 R16-R17, R21, R24: a failing core loses its gangs, commands and memory, and takes its quarter's lowest spare,
and with no spare the jobs that waited for it are gone; a failing pier's ports, sessions and domains go, and the other steward is active; a failing span is no path. -/
def Sys2Proof.Claims.PartsFail : Prop :=
  (∀ (s : State) (c : CoreId),
    ((s.core c).phys = none → exec (.coreFailure c) s = .next s)
    ∧ ((s.core c).phys ≠ none → c.val < s.coreCount →
        ∃ t, exec (.coreFailure c) s = .next t ∧ (t.core c).phys = (s.quarter (s.quarterOf c)).spares.head?
          ∧ (t.quarter (s.quarterOf c)).spares = (s.quarter (s.quarterOf c)).spares.drop 1
          ∧ (∀ g, (t.gang c g).status = .free) ∧ (t.core c).mtch.queue = [] ∧ (t.core c).spawns = []
          ∧ (∀ o, o < coreBytes → t.rdByte (c.val * coreWindow + o) = 0)
          ∧ ((s.quarter (s.quarterOf c)).spares = [] → ∀ j ∈ t.jobs, ¬ (j.state = .waiting ∧ c ∈ j.spec.cores))
          ∧ ∀ a, a < c.val * coreWindow ∨ c.val * coreWindow + coreBytes ≤ a → t.rdByte a = s.rdByte a))
  ∧ (∀ (s : State) (p : PierId), (s.pier p).alive = true → (s.pier (p + 1)).alive = true →
      ∃ t, exec (.pierFailure p) s = .next t ∧ (t.pier p).alive = false ∧ (t.pier p).sessions = [] ∧ (t.pier p).msgs = []
        ∧ (∀ n, pierOf n = p → (t.port n).txq = [] ∧ (t.port n).width = 0) ∧ (∀ f ∈ t.flows, pierOf f.2 ≠ p)
        ∧ t.boot.steward = (if s.boot.steward = p then p + 1 else s.boot.steward)
        ∧ t.dom (domSwitch p.val) = .off ∧ t.mem = s.mem)
  ∧ (∀ (s : State) (p : PierId), (s.pier p).alive = true → (s.pier (p + 1)).alive = false →
      ∃ t, exec (.pierFailure p) s = .next t ∧ (t.pier p).alive = false ∧ t.pwr.shut ≠ none)
  ∧ (∀ (s : State) (p : PierId), (s.pier p).alive = false → exec (.pierFailure p) s = .next s)
  ∧ (∀ (s : State) (x y : QuarterId), ringPair x y = true → ∃ t, exec (.spanFailure (.quarter x) (.quarter y)) s = .next t
      ∧ t.ringLive x y = false ∧ t.mem = s.mem ∧ t.cores = s.cores ∧ t.piers = s.piers
      ∧ ∀ a b, a ≠ x → a ≠ y → t.spanLive a b = s.spanLive a b)
  ∧ (∀ (s : State) (x : QuarterId) (p : PierId), ∃ t, exec (.spanFailure (.quarter x) (.pier p)) s = .next t
      ∧ t.spanLive x (.pier p) = false ∧ t.mem = s.mem ∧ ∀ y d, (y, d) ≠ (x, .pier p) → t.spanLive y d = s.spanLive y d)

/-- 11 R249-R252, 12 R266-R269: patrols read the next line and find or count what is there; a double error poisons its line; a bank whose
zone is not ON, or beyond the cut, is not read. A silent channel is dead from then on; refresh changes no result; a poisoned published
line is queued for its reload where its region has a source. -/
def Sys2Proof.Claims.MemoryEvents : Prop :=
  (∀ (s : State) (q : QuarterId) (b : Fin 64) (x : Option Upset),
    let k := s.quarter q
    let i := Tab.get 0 k.patrol b.val
    let on : Prop := s.dom (domZone q.val (zoneOfBank (k.physBank b.val))) = .on
    (¬ on → exec (.crownPatrol q b x) s = .next s)
    ∧ (∀ a, on → s.crownLine q b.val i = some a → ∃ t, exec (.crownPatrol q b x) s = .next t
        ∧ Tab.get 0 (t.quarter q).patrol b.val = (i + 1) % 524_288
        ∧ (x = some .double → a / 64 ∈ t.poison) ∧ (x = some .single → t.poison = s.poison)
        ∧ (x = none → (∀ u ∈ s.upsets, u.1 ≠ a / 64) → t.poison = s.poison) ∧ t.mem = s.mem)
    ∧ (on → s.crownLine q b.val i = none → b.val < k.cut.ws + k.cut.scr + k.cut.sc → ∃ t, exec (.crownPatrol q b x) s = .next t
        ∧ Tab.get 0 (t.quarter q).patrol b.val = (i + 1) % 524_288 ∧ (x ≠ some .double → t.poison = s.poison) ∧ t.mem = s.mem)
    ∧ (on → s.crownLine q b.val i = none → k.cut.ws + k.cut.scr + k.cut.sc ≤ b.val → exec (.crownPatrol q b x) s = .next s))
  ∧ (∀ (s : State) (k : StackId) (c : Fin 32) (x : Option Upset) (a : Nat),
      let q : QuarterId := Fin.ofNat 4 (k.val / 3)
      let key := 32 * (k.val % 3) + c.val
      s.fabricOn q = true → (k.val % 3, c.val) ∉ (s.quarter q).dead →
      s.channelAddr k.val c.val (64 * Tab.get 0 (s.quarter q).hbmPatrol key) = some a →
        ∃ t, exec (.hbmPatrol k c x) s = .next t
          ∧ Tab.get 0 (t.quarter q).hbmPatrol key = (Tab.get 0 (s.quarter q).hbmPatrol key + 1) % 33_554_432
          ∧ (x = some .double → a / 64 ∈ t.poison) ∧ (x = some .single → t.poison = s.poison) ∧ t.mem = s.mem)
  ∧ (∀ (s : State) (k : StackId) (c : Fin 32) (line : Nat),
      let q : QuarterId := Fin.ofNat 4 (k.val / 3)
      (nth 0 (s.quarter q).chmap (k.val % 3)).getLsbD c.val = true → (k.val % 3, c.val) ∉ (s.quarter q).dead →
        ∃ t, exec (.channelTimeout k c line) s = .next t ∧ (k.val % 3, c.val) ∈ (t.quarter q).dead
          ∧ (t.quarter q).hbmUe = min (2 ^ 32 - 1) ((s.quarter q).hbmUe + 1)
          ∧ ((s.quarter q).hbmLatch.valid = true → (t.quarter q).hbmLatch = (s.quarter q).hbmLatch)
          ∧ ((s.quarter q).hbmLatch.valid = false → (t.quarter q).hbmLatch.valid = true ∧ (t.quarter q).hbmLatch.dead = true
              ∧ (t.quarter q).hbmLatch.stack = k.val % 3 ∧ (t.quarter q).hbmLatch.chan = c.val)
          ∧ (∀ a, s.channelAddr k.val c.val (64 * (line % 33_554_432)) = some a → a / 64 ∈ (t.quarter q).timedOut)
          ∧ (k.val, c.val) ∈ t.badChannels ∧ t.mem = s.mem)
  ∧ (∀ (s : State) (k : StackId) (n : Nat), exec (.refresh k n) s = .next s)
  ∧ (∀ (s : State) (region line : Nat) (r : Region) (o : Nat), s.regions.find? (fun r => r.id == region) = some r →
      s.place (line * 64) = .weight r.quarter o → r.bank ≤ s.weightBank r.quarter o → s.weightBank r.quarter o < r.bank + r.banks →
      line ∈ s.poison → s.fabricOn r.quarter = true →
      (r.master.isSome = true ∨ r.copy.isSome = true → exec (.sharedReload region line) s = .next (s.onQuarter r.quarter (fun k =>
        { k with upd := { k.upd with queue := k.upd.queue ++ [⟨.quiet, none, 0, .reload region line⟩] } })))
      ∧ (r.master = none → r.copy = none → exec (.sharedReload region line) s = .next s))

/-- 09 R200-R201, 18 R406: the steward changes one page-table entry of a live partition; a page of a published region is shared for
whoever maps it. -/
def Sys2Proof.Claims.PageEntries : Prop :=
  ∀ (s : State) (p : PartId) (page : Nat) (e : BitVec 64), page < 2 ^ 28 →
    (p = 0 → exec (.pageEntryChange p page e) s = .next s)
    ∧ (p ≠ 0 → (s.partOf p).live = true → ∃ t, exec (.pageEntryChange p page e) s = .next t
        ∧ Tab.get 0 (t.partOf p).pages page
          = (if ∃ r ∈ s.regions, s.frameIn r (pageFrame e) = true then e ||| 0x0800_0000_0000_0000 else e)
        ∧ (∀ n, n ≠ page → Tab.get 0 (t.partOf p).pages n = Tab.get 0 (s.partOf p).pages n)
        ∧ (∀ x, x ≠ p → t.partOf x = s.partOf x) ∧ t.mem = s.mem ∧ t.cores = s.cores)

/-- 01 R16-R24, 09 R201, 10 R229, 11 R249-R252, 12 R266-R269: what befalls the module: placement, failing parts, memory errors, and page
entries. -/
def Obligations.ModuleEvents : Prop :=
  PlacementChanges ∧ PartsFail ∧ MemoryEvents ∧ PageEntries

/-- 17 R380-R382: the governor grants the oldest request of a direction when the grants of the last 10 us and its own step are at most
16 A, and in a shutdown none; a domain granted upward is WAKING, one granted downward ramps for 1 us. -/
def Obligations.Governor : Prop :=
  (∀ (s : State) (up : Bool), s.pwr.shut ≠ none → exec (.stepGrant up) s = .next s)
  ∧ (∀ (s : State) (r : StepReq) (rest : List StepReq), s.pwr.shut = none → s.pwr.up = r :: rest →
      let used := ((s.pwr.upUsed.filter (fun g => decide (s.now < g.1 + 10000))).map (·.2)).sum
      (128 < used + stepUnits r.target ∨ s.ramping r.target = true → exec (.stepGrant true) s = .next s)
      ∧ (used + stepUnits r.target ≤ 128 → s.ramping r.target = false → ∃ t, exec (.stepGrant true) s = .next t ∧ t.pwr.up = rest
          ∧ t.pwr.down = s.pwr.down
          ∧ ((t.pwr.upUsed.filter (fun g => decide (s.now < g.1 + 10000))).map (·.2)).sum = used + stepUnits r.target
          ∧ (∀ d g, r.target = .domain d g → s.dom d = .off ∨ s.dom d = .gated → t.dom d = .waking
              ∧ t.pwr.wakes = s.pwr.wakes ++ [(r.target, s.dom d == .off)])
          ∧ (∀ c, r.target = .array c → (s.core c).arr.warmth = .upWaiting →
              (t.core c).arr = { (s.core c).arr with warmth := .warm, idleSince := s.now, fedAt := none })
          ∧ (∀ q, r.target = .clock q → (t.quarter q).freq = min ((s.quarter q).freq + 1) (2 * (s.quarter q).clkMax))
          ∧ t.mem = s.mem))
  ∧ (∀ (s : State) (r : StepReq) (rest : List StepReq), s.pwr.shut = none → s.pwr.down = r :: rest →
      let used := ((s.pwr.downUsed.filter (fun g => decide (s.now < g.1 + 10000))).map (·.2)).sum
      (128 < used + stepUnits r.target ∨ s.mayGoDown r.target = false → exec (.stepGrant false) s = .next s)
      ∧ (used + stepUnits r.target ≤ 128 → s.mayGoDown r.target = true → ∃ t, exec (.stepGrant false) s = .next t ∧ t.pwr.down = rest
          ∧ t.pwr.up = s.pwr.up ∧ t.pwr.dom = s.pwr.dom
          ∧ ((∀ q, r.target ≠ .clock q) → t.pwr.ramps = s.pwr.ramps ++ [(r.target, s.now)])
          ∧ (∀ q, r.target = .clock q → (t.quarter q).freq = max ((s.quarter q).freq - 1) 20)
          ∧ (∀ c, r.target = .array c → (t.core c).arr.warmth = .rampDown) ∧ t.mem = s.mem))

/-- 17 R376, R378, R380, 11 R245, 00 R10: the end of a ramp leaves its domain OFF or GATED, its stack in self-refresh, its array cold;
the end of a wake leaves its domain ON and its stack out of self-refresh. A core group gone OFF has lost its cores' memory, and
one that wakes from OFF has zeros there. -/
def Sys2Proof.Claims.RampsAndWakes : Prop :=
  (∀ (s : State) (d : DomainId) (gate : Bool) (r : StepTarget × Nat),
    s.pwr.ramps.find? (fun r => r.1 == .domain d gate && decide (r.2 + 1000 ≤ s.now)) = some r →
      ∃ t, exec (.rampTimeEnd (.domain d gate)) s = .next t ∧ t.dom d = (if gate then .gated else .off)
        ∧ t.pwr.ramps = s.pwr.ramps.erase r ∧ (∀ e, e ≠ d → t.dom e = s.dom e)
        ∧ (gate = true → t.mem = s.mem)
        ∧ (∀ q j c o, gate = false → DomKind.of d = .group q j → c ∈ s.groupCores q j → o < coreBytes →
            t.rdByte (c.val * coreWindow + o) = 0))
  ∧ (∀ (s : State) (c : CoreId) (r : StepTarget × Nat),
      s.pwr.ramps.find? (fun r => r.1 == .array c && decide (r.2 + 1000 ≤ s.now)) = some r → (s.core c).arr.warmth = .rampDown →
        ∃ t, exec (.rampTimeEnd (.array c)) s = .next t ∧ (t.core c).arr = { (s.core c).arr with warmth := .cold } ∧ t.mem = s.mem)
  ∧ (∀ (s : State) (k : StackId) (r : StepTarget × Nat),
      s.pwr.ramps.find? (fun r => r.1 == .stack k && decide (r.2 + 1000 ≤ s.now)) = some r →
        ∃ t, exec (.rampTimeEnd (.stack k)) s = .next t
          ∧ (t.quarter (Fin.ofNat 4 (k.val / 3))).selfref.getLsbD (k.val % 3) = true ∧ t.mem = s.mem)
  ∧ (∀ (s : State) (x : StepTarget), (∀ r ∈ s.pwr.ramps, r.1 = x → s.now < r.2 + 1000) → exec (.rampTimeEnd x) s = .next s)
  ∧ (∀ (s : State) (d : DomainId) (g : Bool) (w : StepTarget × Bool), s.pwr.wakes.find? (fun w => w.1 == .domain d g) = some w →
      ∃ t, exec (.wakeComplete (.domain d g)) s = .next t ∧ t.dom d = .on ∧ t.pwr.wakes = s.pwr.wakes.erase w
        ∧ (∀ e, e ≠ d → t.dom e = s.dom e)
        ∧ ∀ q j c o, w.2 = true → DomKind.of d = .group q j → c ∈ s.groupCores q j → o < coreBytes →
            t.rdByte (c.val * coreWindow + o) = 0)
  ∧ (∀ (s : State) (k : StackId) (w : StepTarget × Bool), s.pwr.wakes.find? (fun w => w.1 == .stack k) = some w →
      ∃ t, exec (.wakeComplete (.stack k)) s = .next t
        ∧ (t.quarter (Fin.ofNat 4 (k.val / 3))).selfref.getLsbD (k.val % 3) = false ∧ t.mem = s.mem)
  ∧ (∀ (s : State) (x : StepTarget), (∀ w ∈ s.pwr.wakes, w.1 ≠ x) → exec (.wakeComplete x) s = .next s)

/-- 17 R377-R378: with no gang live or ending the steward requests the gating of every core group that is ON; after PWR_IDLE.MS in S1 it
requests S2. Neither changes a domain itself. -/
def Sys2Proof.Claims.IdleStates : Prop :=
  (∀ s : State, s.stewardUp = true → s.pwr.shut = none →
    ((∀ c ∈ s.allCores, (s.core c).spawns = [] ∧ ∀ g : GangId, (s.gang c g).status = .free) → s.pwr.down = [] → s.pwr.up = [] →
      ∃ t, exec .s1Entry s = .next t ∧ t.pwr.dom = s.pwr.dom
        ∧ (∀ d q j, DomKind.of d = .group q j → s.dom d = .on → ∃ r ∈ t.pwr.down, r.target = .domain d true)
        ∧ (∀ r ∈ t.pwr.down, ∃ d q j, r.target = .domain d true ∧ DomKind.of d = .group q j ∧ s.dom d = .on)
        ∧ t.cores = s.cores ∧ t.mem = s.mem)
    ∧ ((∃ c ∈ s.allCores, ∃ g : GangId, (s.gang c g).status ≠ .free) → exec .s1Entry s = .next s))
  ∧ (∀ (s : State) (t0 : Nat), s.pwr.s1Since = some t0 →
      (s.now < t0 + s.pwr.idleMs * 1_000_000 → exec .idleTimeout s = .next s)
      ∧ (t0 + s.pwr.idleMs * 1_000_000 ≤ s.now → s.stewardUp = true → s.pwrState = 1 → s.pwr.shut = none →
          (∀ j ∈ s.jobs, j.state ≠ .waiting) → (∀ c ∈ s.allCores, (s.core c).spawns = []) → s.pwr.down = [] → s.pwr.up = [] →
        ∃ t, exec .idleTimeout s = .next t ∧ t.pwr.s1Since = none ∧ t.pwr.dom = s.pwr.dom
          ∧ (∀ d q j, DomKind.of d = .group q j → s.dom d = .gated → ∃ r ∈ t.pwr.down, r.target = .domain d false)
          ∧ (∀ d q, DomKind.of d = .fabric q → s.dom d = .on → ∃ r ∈ t.pwr.down, r.target = .domain d true) ∧ t.mem = s.mem))

/-- 17 R383-R384: an average above the cap asks for a step down of every running quarter clock above 1.0 GHz; a sample at 95 degrees
throttles its quarter, one at 105 trips it, and two tripped quarters or a pier at 105 shut the module down. -/
def Sys2Proof.Claims.HeatAndCap : Prop :=
  (∀ (s : State) (w : Nat), s.stewardUp = true → s.pwr.shut = none → s.pwr.down = [] → s.pwr.up = [] →
    ∃ t, exec (.powerCapAverage w) s = .next t ∧ t.pwr.dom = s.pwr.dom ∧ t.mem = s.mem
      ∧ (s.pwr.cap < w → t.pwr.up = [] ∧ ∀ q, s.fabricOn q = true → 20 < (s.quarter q).freq → ∃ r ∈ t.pwr.down, r.target = .clock q)
      ∧ (w ≤ s.pwr.cap → s.pwr.cap ≤ w + 100 → t.pwr.lowAvg = 0 ∧ t.pwr.up = [])
      ∧ (w + 100 < s.pwr.cap → t.pwr.lowAvg = s.pwr.lowAvg + 1))
  ∧ (∀ (s : State) (x : Temps), ¬ (x.quarters.length = 4 ∧ x.piers.length = 2 ∧ x.hbms.length = 12) →
      exec (.thermalSample x) s = .fault .illFormed)
  ∧ (∀ (s : State) (x : Temps), x.quarters.length = 4 → x.piers.length = 2 → x.hbms.length = 12 → s.boot.mode = .running →
      s.pwrState ≠ 3 → (∀ y ∈ x.piers, y < 105) →
      ((∀ y ∈ x.quarters, y < 105) → (∀ q : QuarterId, (s.quarter q).tripped = false) →
        ∃ t, exec (.thermalSample x) s = .next t ∧ t.pwr.shut = s.pwr.shut
          ∧ (∀ q : QuarterId, (t.quarter q).hot = (decide (95 ≤ nth 0 x.quarters q.val)
              || ((s.quarter q).hot && decide (92 ≤ nth 0 x.quarters q.val))))
          ∧ (∀ q : QuarterId, t.pwr.throttle.getLsbD q.val = (s.pwr.throttle.getLsbD q.val || decide (95 ≤ nth 0 x.quarters q.val)))
          ∧ t.pwr.trip = s.pwr.trip ∧ t.cores = s.cores ∧ t.mem = s.mem)
      ∧ (∀ q : QuarterId, s.pwr.shut = none → 105 ≤ nth 0 x.quarters q.val → (∀ r : QuarterId, (s.quarter r).tripped = false) →
          (∀ r : QuarterId, r ≠ q → nth 0 x.quarters r.val < 105) →
            ∃ t, exec (.thermalSample x) s = .next t ∧ (t.quarter q).tripped = true ∧ t.pwr.trip.getLsbD q.val = true
              ∧ (∀ c ∈ s.quarterCores q, ∀ g, (t.gang c g).status = .free) ∧ t.pwr.shut = none)
      ∧ (∀ q r : QuarterId, q ≠ r → s.pwr.shut = none → 105 ≤ nth 0 x.quarters q.val → 105 ≤ nth 0 x.quarters r.val →
          ∃ t, exec (.thermalSample x) s = .next t ∧ t.pwr.shut ≠ none))
  ∧ (∀ (s : State) (x : Temps), x.quarters.length = 4 → x.piers.length = 2 → x.hbms.length = 12 → s.boot.mode = .running →
      s.pwrState ≠ 3 → s.pwr.shut = none → (∃ y ∈ x.piers, 105 ≤ y) → ∃ t, exec (.thermalSample x) s = .next t ∧ t.pwr.shut ≠ none)

/-- 17 R376-R384: ramps, wakes, idle states, clocks and heat. -/
def Obligations.Domains : Prop :=
  RampsAndWakes ∧ IdleStates ∧ HeatAndCap

/-- 17 R385, 22 R457, R459, R461: a shutdown begins from any of its causes, in the order of its domains; once the last is OFF, no sooner
than 2 ms after its start, the module is in S3, or goes on into the reset that asked for it. -/
def Sys2Proof.Claims.Shutdowns : Prop :=
  (∀ (s : State) (x : ShutCause), s.pwrState ≠ 3 → s.pwr.alwaysOn = true → exec (.moduleShutdown x) s = .next (s.shutdown x))
  ∧ (∀ (s : State) (x : ShutCause), s.pwrState = 3 ∨ s.pwr.alwaysOn = false → exec (.moduleShutdown x) s = .next s)
  ∧ (∀ (s : State) (x : ShutCause), s.pwr.shut = none → (s.shutdown x).pwr.shut ≠ none ∧ (s.shutdown x).sbInt = true
      ∧ (s.shutdown x).pwr.up = [] ∧ (s.shutdown x).pwr.down = [] ∧ (s.shutdown x).pwr.dom = s.pwr.dom
      ∧ (s.shutdown x).pwr.shutAt = s.now ∧ (s.shutdown x).mem = s.mem)
  ∧ (∀ (s : State) (x : ShutCause) (d e : DomainId) (l : List DomainId), s.pwr.shut = some (x, d :: e :: l) →
      ∃ t, exec .shutdownStep s = .next t ∧ t.dom d = .off ∧ t.pwr.shut = some (x, e :: l) ∧ ∀ f, f ≠ d → t.dom f = s.dom f)
  ∧ (∀ (s : State) (x : ShutCause) (l : List DomainId), s.pwr.shut = some (x, l) → l.length ≤ 1 →
      (s.now < s.pwr.shutAt + 2_000_000 → exec .shutdownStep s = .next s)
      ∧ (s.pwr.shutAt + 2_000_000 ≤ s.now → ∃ t, exec .shutdownStep s = .next t ∧ t.pwr.shut = none ∧ t.mem = []
          ∧ (∀ d, t.dom d = .off) ∧ t.pending = s.pending
          ∧ (x ≠ .reset → s.boot.resetPending = false → t.boot = s.boot ∧ t.now = s.now)))
  ∧ (∀ s : State, s.pwr.shut = none → exec .shutdownStep s = .next s)

/-- 22 R457-R461: the pins and the sideband. An input outside 40 V to 58 V for 100 us begins a shutdown; above 42 V for 10 ms it starts
the always-on domain from reset; RESET_N low for 3 samples resets the module, after a shutdown where one must run first;
SNAP_IN high for 80 ns is a trigger; STATUS, WAKE and SHUTDOWN answer. -/
def Sys2Proof.Claims.PinsAndSideband : Prop :=
  (∀ (s : State) (mv us : Nat), s.pwrState ≠ 3 → s.pwr.alwaysOn = true →
    ((mv < 40_000 ∨ 58_000 < mv) ∧ 100 ≤ us → exec (.inputUndervoltage mv us) s = .next (s.shutdown .undervoltage))
    ∧ (40_000 ≤ mv ∧ mv ≤ 58_000 ∨ us < 100 → exec (.inputUndervoltage mv us) s = .next s))
  ∧ (∀ (s : State) (mv ms : Nat),
      (42_000 < mv → 10 ≤ ms → s.pwr.alwaysOn = false → ∃ t, exec (.inputTurnOn mv ms) s = .next t ∧ t.pwr.alwaysOn = true
        ∧ t.mem = [] ∧ t.boot.mode = State.reset.boot.mode ∧ t.pending = s.pending)
      ∧ (mv ≤ 42_000 ∨ ms < 10 ∨ s.pwr.alwaysOn = true → exec (.inputTurnOn mv ms) s = .next s))
  ∧ (∀ s : State, ∃ t, exec .alwaysOnSupplyFall s = .next t ∧ t.pwr.alwaysOn = false ∧ t.mem = [] ∧ t.sbInt = false
      ∧ t.boot.flash = s.boot.flash ∧ t.pending = s.pending)
  ∧ (∀ (s : State) (n : Nat),
      (n < 3 → exec (.resetN n) s = .next s)
      ∧ (3 ≤ n → s.pwr.alwaysOn = true → s.pwr.shut ≠ none →
          exec (.resetN n) s = .next { s with boot := { s.boot with resetPending := true } })
      ∧ (3 ≤ n → s.pwr.alwaysOn = true → s.pwr.shut = none → s.sec.locked = true ∨ s.pwrState = 3 →
          ∃ t, exec (.resetN n) s = .next t ∧ t.mem = [] ∧ t.now = 0 ∧ t.sec.locked = false ∧ t.boot.flash = s.boot.flash
            ∧ t.boot.svn = s.boot.svn ∧ t.pending = s.pending)
      ∧ (3 ≤ n → s.pwr.alwaysOn = true → s.pwr.shut = none → s.sec.locked = false → s.pwrState ≠ 3 → s.boot.mode = .running →
          exec (.resetN n) s = .next (s.shutdown .reset)))
  ∧ (∀ (s : State) (n : Nat), (80 ≤ n → s.pwr.alwaysOn = true → exec (.snapIn n) s = .next (s.trigger 2))
      ∧ (n < 80 → exec (.snapIn n) s = .next s))
  ∧ (∀ s : State, s.pwr.alwaysOn = true → ∃ t ws, exec .status s = .next t ∧ t.sbReply = some (ws, .done) ∧ t.sbInt = false
      ∧ nth 0 ws 0 = BitVec.ofNat 32 (readBoot s 0) ∧ nth 0 ws 1 = BitVec.ofNat 32 (readSec s 0)
      ∧ nth 0 ws 2 = BitVec.ofNat 32 (readPwr s 0) ∧ nth 0 ws 3 = BitVec.ofNat 32 (readPwr s 0x44)
      ∧ t.cores = s.cores ∧ t.mem = s.mem ∧ t.pwr = s.pwr)
  ∧ (∀ s : State, s.pwr.alwaysOn = true →
      (s.sec.locked = true ∨ s.boot.mode = .recovery → exec .wake s = .next { s with sbReply := some ([], .refused) })
      ∧ (s.sec.locked = false → s.boot.mode = .running → s.pwrState = 3 →
          ∃ t, exec .wake s = .next t ∧ t.sbReply = some ([], .done) ∧ t.mem = [] ∧ t.boot.mode = State.reset.boot.mode)
      ∧ (s.sec.locked = false → s.boot.mode = .running → s.pwrState ≠ 3 → exec .wake s = .next { s with sbReply := some ([], .done) }
          ∧ exec .shutdown s = .next { s.shutdown .sideband with sbReply := some ([], .done) }))

/-- 17 R385, 22 R457-R461: shutdown, reset, and the pins and sideband that ask for them. -/
def Obligations.ShutdownAndReset : Prop :=
  Shutdowns ∧ PinsAndSideband

namespace Sys2Proof.Claims

/-- The steward's job interface has answered. -/
def Replied (t : State) (e : Code) (bs : List Byte) : Prop := t.reply = some (e, bs)

/-- A core is clean: no gang, no memory, and the partition named. -/
def CleanCore (t : State) (c : CoreId) (p : PartId) : Prop :=
  (t.core c).part = p ∧ (∀ g, (t.gang c g).status = .free) ∧ ∀ o, o < coreBytes → t.rdByte (c.val * coreWindow + o) = 0

/-- The image of a slot that passes every check of 19 R420. -/
def passing (s : State) (i : Fin 2) (tray slot : Nat) : Option SlotImage :=
  if s.slotValid s.boot.flash[i.val] tray slot then s.boot.flash[i.val].img else none

/-- A window after a configuration write that leaves the fields of `v` (11 R246, R248, R256-R257). -/
def Configured (s t : State) (r : WinRef) (v : Window) : Prop :=
  let w := t.window r
  w.gen = (s.window r).gen + 1 ∧ w.avail = winUnits r v ∧ w.base = v.base ∧ w.size = v.size ∧ w.part = v.part ∧ w.open_ = v.open_
    ∧ (w.en = true ↔ v.en = true ∧ v.size ≠ 0 ∧ v.base + winUnits r v ≤ s.winLimit r
        ∧ s.overlapsOther r { v with gen := (s.window r).gen + 1, avail := winUnits r v } = false)

/-- The configuration fields that BOOT_LOCK protects (00 R7) are in `t` as in `s`. -/
def LockedAlike (s t : State) : Prop :=
  t.boot.lock = s.boot.lock ∧ t.pwr.idleMs = s.pwr.idleMs ∧ t.pwr.cap = s.pwr.cap ∧ t.sec.pad = s.sec.pad
    ∧ (∀ c, (t.core c).arr.fillEn = (s.core c).arr.fillEn)
    ∧ (∀ q : QuarterId, (t.quarter q).cut = (s.quarter q).cut ∧ (t.quarter q).ilv = (s.quarter q).ilv
        ∧ (t.quarter q).clkMax = (s.quarter q).clkMax)
    ∧ (∀ p : PierId, (t.pier p).coll.pairMode = (s.pier p).coll.pairMode ∧ (t.pier p).coll.pairWait = (s.pier p).coll.pairWait)
    ∧ ∀ n, (t.port n).en = (s.port n).en ∧ (t.port n).eth = (s.port n).eth

end Sys2Proof.Claims

/-- 18 R409-R410: the first alarm of an event raises the fused count, to 4 at most, and zeroises the keys; a running module ends its
partitions and jobs and locks, one in S3 keeps the event for its next start. Alarms within 1 ms of the first are one event. -/
def Sys2Proof.Claims.Alarms : Prop :=
  ∀ (s : State) (x : AlarmCause), s.pwr.alwaysOn = true →
    (∀ t0, s.sec.eventAt = some t0 → s.now ≤ t0 + 1_000_000 →
      exec (.gauntletAlarm x) s = .next { s with sec := { s.sec with cause := s.sec.cause ||| alarmBit x } })
    ∧ ((∀ t0, s.sec.eventAt = some t0 → t0 + 1_000_000 < s.now) →
      ∃ t, exec (.gauntletAlarm x) s = .next t ∧ t.sec.tcount = min 4 (s.sec.tcount + 1) ∧ t.sec.akey = none
        ∧ (∀ p : PartId, (t.partOf p).keys = none) ∧ (∀ i : PierId, (t.pier i).sessions = []) ∧ t.sec.eventAt = some s.now
        ∧ (s.boot.mode = .running → s.sec.locked = false → s.pwrState ≠ 3 → t.sec.locked = true ∧ t.sbInt = true ∧ t.jobs = []
            ∧ (∀ p : PartId, (t.partOf p).live = false) ∧ ∀ c ∈ s.allCores, ∀ g, (t.gang c g).status = .free)
        ∧ (s.boot.mode = .running → s.sec.locked = false → s.pwrState = 3 → t.sec.locked = false ∧ t.sec.sleepAlarm = true)
        ∧ (s.boot.mode ≠ .running ∨ s.sec.locked = true → t.sec.locked = true ∧ t.sbInt = true) ∧ t.mem = s.mem)

/-- 18 R411: the debug port. A signature over the challenge that verifies under a listed key unlocks it and no tenant partition is left;
any other changes the challenge alone. -/
def Sys2Proof.Claims.DebugPort : Prop :=
  ∀ (s : State) (key sig : List Byte), s.serves = true →
    let good := Config.debugKeys.contains key && Config.ecdsaVerify key (sha384 s.sec.challenge) sig
    (good = true → ∃ t, exec (.debugSignature key sig) s = .next t ∧ t.sec.debug = true
        ∧ ∀ p : PartId, p ≠ 0 → (t.partOf p).live = false)
    ∧ (good = false → ∃ t, exec (.debugSignature key sig) s = .next t ∧ t.sec.debug = s.sec.debug ∧ t.parts = s.parts
        ∧ t.cores = s.cores ∧ t.mem = s.mem)

/-- 18 R394: a quote of a partition, for whoever may ask for it: its body and the signature over its digest. -/
def Sys2Proof.Claims.Quotes : Prop :=
  ∀ (s : State) (r p : PartId) (n : List Byte),
    (n.length ≠ 48 → exec (.quote r p n) s = .fault .illFormed)
    ∧ (∀ key, n.length = 48 → s.sec.akey = some key → s.serves = true → r = 0 ∨ (r = p ∧ (s.partOf r).live = true) →
        ∃ t, exec (.quote r p n) s = .next t
          ∧ Replied t .done (s.quoteBody p n ++ Config.ecdsaSign key (sha384 (s.quoteBody p n))) ∧ t.sec = s.sec ∧ t.mem = s.mem)
    ∧ (∀ key, n.length = 48 → s.sec.akey = some key → s.serves = true → r ≠ 0 → (s.partOf r).live = true → r ≠ p →
        ∃ t, exec (.quote r p n) s = .next t ∧ t.reply = s.reply ∧ t.parked = s.parked ++ [.reply r s.now])
    ∧ (n.length = 48 → s.sec.akey = none → exec (.quote r p n) s = .next s)

/-- 18 R394, R409-R411: alarms, the debug port, and quotes. -/
def Obligations.Trust : Prop :=
  Alarms ∧ DebugPort ∧ Quotes

/-- 19 R420-R423, 22 R460, 01 R21, R23, 12 R268: start-up boots the slot of the higher SEQ that passes, and locks the registers; with no
slot whose firmware passes, or none that passes every check, the module is in RECOVERY; with even parity of its straps it keeps an ID
fault, and with too few cores in a quarter or no live channel it stops, the fault shown on the sideband. -/
def Sys2Proof.Claims.StartUp : Prop :=
  ∀ (s : State) (tray slot : Nat) (parity : Bool),
    let firm : Prop := s.slotFirm s.boot.flash[0] = true ∨ s.slotFirm s.boot.flash[1] = true
    let choice := chooseSlot (passing s 0 tray slot) (passing s 1 tray slot)
    (s.boot.mode ≠ .reset → exec (.startUp tray slot parity) s = .next s)
    ∧ (s.boot.mode = .reset → s.sec.locked = false → s.pwr.alwaysOn = true →
      ((¬ firm) ∨ (parity = true ∧ choice = none) →
        ∃ t, exec (.startUp tray slot parity) s = .next t ∧ t.boot.mode = .recovery ∧ t.sbInt = true
          ∧ t.sec.mr = List.replicate 4 (List.replicate 48 0) ∧ t.boot.lock = s.boot.lock ∧ t.boot.flash = s.boot.flash)
      ∧ (firm → parity = false →
        ∃ t, exec (.startUp tray slot parity) s = .next t ∧ t.boot.mode = .idFault ∧ t.sbInt = true ∧ t.sbFault = some .straps
          ∧ t.boot.flash = s.boot.flash)
      ∧ (∀ b x row, firm → parity = true → choice = some (b, x) → coordOf x.config tray slot = some row →
        let short (q : QuarterId) : Prop := (s.healthyCores x.config q.val).length < s.perQuarter
        ((∃ q, short q) → ∃ t q, exec (.startUp tray slot parity) s = .next t ∧ t.boot.mode = .startFault
            ∧ t.sbFault = some (.cores q) ∧ short q ∧ t.boot.flash = s.boot.flash)
        ∧ ((∀ q, ¬ short q) → (∀ k, k < 12 → s.channelMap k = 0) → ∃ t, exec (.startUp tray slot parity) s = .next t
            ∧ t.boot.mode = .startFault ∧ t.sbFault = some .channels ∧ t.boot.flash = s.boot.flash)
        ∧ ((∀ q, ¬ short q) → (∃ k, k < 12 ∧ s.channelMap k ≠ 0) → (s.pier 0).alive = true →
          ∃ t, exec (.startUp tray slot parity) s = .next t ∧ t.boot.mode = .running ∧ t.boot.slot = b ∧ t.boot.lock = true
            ∧ t.boot.cfg = some x.config ∧ t.boot.steward = 0 ∧ t.dev = row.x + 8 * row.y + 64 * row.z + 768 * row.w
            ∧ t.fabricB = row.fabricB ∧ t.net.members = x.config.members.filter (fun n => decide (n < 12288))
            ∧ (∀ d q j, DomKind.of d = .group q j → t.dom d = .off) ∧ ∀ d q, DomKind.of d = .fabric q → t.dom d = .on)))

/-- 19 R421-R422, R427-R431, 22 R461: P1 starts the module when P0 is silent for 500 ms; an image is taken in RECOVERY only; an update is
by the owner, of a higher SEQ, and writes the inactive slot; live activation swaps the stewards; the lock. -/
def Sys2Proof.Claims.Updates : Prop :=
  (∀ s : State, s.boot.mode = .reset → s.sec.locked = false → (s.pier 0).alive = true → s.pwr.alwaysOn = true →
    (s.boot.resetAt + 500_000_000 ≤ s.now → exec .stewardSignalTimeout s = .next { s.onPier 0 (fun p => { p with alive := false }) with
        boot := { s.boot with steward := 1 } })
    ∧ (s.now < s.boot.resetAt + 500_000_000 → exec .stewardSignalTimeout s = .next s))
  ∧ (∀ (s : State) (x : SlotImage), s.pwr.alwaysOn = true →
      (s.boot.mode ≠ .recovery → exec (.image x) s = .next { s with sbReply := some ([], .refused) })
      ∧ (s.boot.mode = .recovery → s.sec.locked = false → x.blocksOk = true → ∃ t, exec (.image x) s = .next t
          ∧ t.boot.flash[0] = { img := some x } ∧ t.boot.flash[1] = s.boot.flash[1] ∧ t.boot.mode = .reset
          ∧ t.sbReply = some ([], .done) ∧ t.pending = s.pending)
      ∧ (s.boot.mode = .recovery → s.sec.locked = false → x.blocksOk = false → ∃ t, exec (.image x) s = .next t
          ∧ t.boot.flash[0] = { intent := true, complete := true } ∧ t.boot.mode = .recovery ∧ t.sbReply = some ([], .uncorrectable)))
  ∧ (∀ (s : State) (owner : List Byte) (x : SlotImage) (c : CfgImage) (y : SlotImage), s.serves = true → s.boot.cfg = some c →
      (s.boot.flash[if s.boot.slot then (1 : Fin 2) else 0]).img = some y →
      (owner ≠ c.ownerKey → ∃ t, exec (.fieldUpdate owner x) s = .next t ∧ Replied t .refused [] ∧ t.boot = s.boot)
      ∧ (owner = c.ownerKey → x.seq.toNat ≤ y.seq.toNat ∨ fwSigOk x = false ∨ s.cfgSigOk x = false →
          ∃ t, exec (.fieldUpdate owner x) s = .next t ∧ t.boot.updCode = .limit ∧ t.boot.flash = s.boot.flash ∧ Replied t .limit [])
      ∧ (owner = c.ownerKey → s.boot.updBusy = false → y.seq.toNat < x.seq.toNat → fwSigOk x = true → s.cfgSigOk x = true →
          x.blocksOk = true → ∃ t, exec (.fieldUpdate owner x) s = .next t
            ∧ t.boot.flash[if s.boot.slot then (0 : Fin 2) else 1] = { img := some x }
            ∧ t.boot.flash[if s.boot.slot then (1 : Fin 2) else 0] = s.boot.flash[if s.boot.slot then (1 : Fin 2) else 0]
            ∧ t.boot.updCode = (if s.slotValid { img := some x } s.boot.straps.1 s.boot.straps.2 then .done else .limit)
            ∧ t.boot.slot = s.boot.slot ∧ t.boot.mode = s.boot.mode)
      ∧ (owner = c.ownerKey → s.boot.updBusy = false → y.seq.toNat < x.seq.toNat → fwSigOk x = true → s.cfgSigOk x = true →
          x.blocksOk = false → ∃ t, exec (.fieldUpdate owner x) s = .next t
            ∧ t.boot.flash[if s.boot.slot then (0 : Fin 2) else 1] = { intent := true, complete := true }
            ∧ t.boot.flash[if s.boot.slot then (1 : Fin 2) else 0] = s.boot.flash[if s.boot.slot then (1 : Fin 2) else 0]
            ∧ t.boot.updCode = .uncorrectable ∧ t.boot.slot = s.boot.slot ∧ t.boot.mode = s.boot.mode))
  ∧ (∀ (s : State) (x : SlotImage), s.serves = true → s.boot.flash[if s.boot.slot then (0 : Fin 2) else 1] = { img := some x } →
      s.slotValid { img := some x } s.boot.straps.1 s.boot.straps.2 = true → x.seq.toNat % 65536 ≠ s.boot.seq →
      ((s.pier (s.boot.steward + 1)).alive = true → s.dom (domSteward (s.boot.steward + 1).val) = .on →
        ∃ t, exec (.liveActivation true) s = .next t ∧ t.boot.steward = s.boot.steward + 1 ∧ t.boot.activated = true
          ∧ t.boot.svn = max s.boot.svn x.svn ∧ t.boot.updCode = .done ∧ t.cores.map (·.gangs) = s.cores.map (·.gangs) ∧ t.mem = s.mem)
      ∧ (∃ t, exec (.liveActivation false) s = .next t ∧ t.boot.steward = s.boot.steward ∧ t.boot.svn = s.boot.svn
          ∧ t.boot.updCode = .unreachable))
  ∧ (∀ s : State, s.pwr.alwaysOn = true → exec .bootLock s = .next { s with boot := { s.boot with lock := true } })

/-- 19 R420-R431, 22 R460-R461: start-up, and the updates of what it starts. -/
def Obligations.BootAndUpdate : Prop :=
  StartUp ∧ Updates

/-- 16 R361, R366-R369, 07 R167: a job turned away leaves no job; one accepted is held. A stage reports a step once, and a boundary that every
stage has reported is committed. The verdict of a step that every stage and quarter has reached, and whose loss words are summed in
order, is written to all four quarters, queues the end of the step on the quantiser of each core, and moves L as R167 says; a new
scale goes to the cores. -/
def Obligations.Jobs : Prop :=
  (∀ (s : State) (j : JobSpec), s.serves = true →
    (∀ e, s.jobCheck j = e → e ≠ .done → e ≠ .refused →
      ∃ t, exec (.jobSubmit j) s = .next t ∧ Replied t e [] ∧ t.jobs = s.jobs ∧ t.groups = s.groups ∧ t.cores = s.cores ∧ t.mem = s.mem)
    ∧ (s.jobCheck j = .refused → ∃ t, exec (.jobSubmit j) s = .next t ∧ t.jobs = s.jobs ∧ t.mem = s.mem
        ∧ (j.part = 0 → Replied t .refused []) ∧ (j.part ≠ 0 → t.parked = s.parked ++ [.reply j.part s.now]))
    ∧ (s.jobCheck j = .done → ∃ t, exec (.jobSubmit j) s = .next t ∧ Replied t .done []
        ∧ (∃ x ∈ t.jobs, x.spec.id = j.id ∧ x.l = 16 ∧ x.clean = 0 ∧ x.epoch = j.epoch) ∧ (∀ g ∈ j.groups, g ∈ t.groups) ∧ t.mem = s.mem))
  ∧ (∀ (s : State) (job stage : Nat) (st : BitVec 16) (j : Job), s.jobs.find? (fun j => j.spec.id == job) = some j → s.serves = true →
      j.state = .running → stage ∈ j.spec.stages →
      ((stage, st.toNat) ∈ j.reports → exec (.stageReport job stage st) s = .next s)
      ∧ ((stage, st.toNat) ∉ j.reports → ∃ t k, exec (.stageReport job stage st) s = .next t
          ∧ t.jobs.find? (fun j => j.spec.id == job) = some k ∧ k.reports = j.reports ++ [(stage, st.toNat)]
          ∧ k.committed = (if ∀ g ∈ j.spec.stages, (g, st.toNat) ∈ k.reports then max j.committed st.toNat else j.committed)
          ∧ t.cores = s.cores ∧ t.mem = s.mem))
  ∧ (∀ (s : State) (job : Nat) (nf : Bool) (bef aft : List Word) (j : Job) (st : Nat),
      s.jobs.find? (fun j => j.spec.id == job) = some j →
      s.serves = true → j.state = .running → s.stepReady j = some st → (∀ c ∈ j.spec.cores, s.qntRoom c = true) →
        let bad := nf || s.stepNf j
        let skip := bad || (j.watch (sumInOrder (bef ++ (s.lossWord j).2 ++ aft))).2
        ∃ t k, exec (.stepBoundary job nf ⟨bef, aft⟩) s = .next t
          ∧ (∀ q : QuarterId, (t.upd q).vValid = true ∧ (t.upd q).vSkip = skip ∧ (t.upd q).vLs = j.l ∧ (t.upd q).vStep = st)
          ∧ t.jobs.find? (fun j => j.spec.id == job) = some k
          ∧ k.l = (if bad then j.l - 1 else if skip then j.l else if j.clean + 1 = j.spec.cleanLimit then min (j.l + 1) 24 else j.l)
          ∧ k.clean = (if bad then 0 else if skip then j.clean else if j.clean + 1 = j.spec.cleanLimit then 0 else j.clean + 1)
          ∧ (∀ c ∈ j.spec.cores, ∃ e ∈ (t.core c).qnt.queue, e.op = .step ∧ e.owner = .quiet)
          ∧ (∀ c ∈ j.spec.cores, k.l ≠ j.l ∨ k.clean ≠ j.clean ∨ k.floor ≠ j.floor →
              (t.core c).qnt.l = k.l ∧ (t.core c).qnt.clean = k.clean ∧ (t.core c).qnt.floor = k.floor)
          ∧ t.mem = (s.lossWord j).1.mem)
  ∧ (∀ (s : State) (job : Nat) (nf : Bool) (bef aft : List Word) (j : Job), s.jobs.find? (fun j => j.spec.id == job) = some j →
      s.stepReady j = none → exec (.stepBoundary job nf ⟨bef, aft⟩) s = .next s)
  ∧ (∀ (s : State) (q : QuarterId) (v : Word), s.dom (domFabric q.val) = .on ∨ s.dom (domFabric q.val) = .gated →
      exec (.updVerdict q v) s = .next (s.onQuarter q (fun k => { k with upd := { k.upd with
        vValid := v.getLsbD 31, vSkip := v.getLsbD 30, vLs := v.toNat / 65536 % 32, vStep := v.toNat % 65536 } })))

/-- 18 R397-R398, R408, R410: a partition that can be met is live with its keys, its cores clean and its own; what cannot be met is LIMIT,
after four tamper events REFUSED, for any but the owner REFUSED; what finds no entropy waits for it. A partition destroyed leaves its cores clean to partition 0. -/
def Sys2Proof.Claims.PartitionLife : Prop :=
  (∀ (s : State) (owner : List Byte) (x : PartSpec) (c : CfgImage), s.serves = true → s.boot.cfg = some c →
    (owner ≠ c.ownerKey → ∃ t, exec (.partitionCreate owner x) s = .next t ∧ Replied t .refused [] ∧ t.mem = s.mem
        ∧ ∀ p, (t.partOf p).live = (s.partOf p).live)
    ∧ (owner = c.ownerKey → 4 ≤ s.sec.tcount → ∃ t, exec (.partitionCreate owner x) s = .next t ∧ Replied t .refused []
        ∧ t.mem = s.mem ∧ ∀ p, (t.partOf p).live = (s.partOf p).live)
    ∧ (owner = c.ownerKey → s.sec.tcount < 4 → s.canCreate x = false → ∃ t, exec (.partitionCreate owner x) s = .next t
        ∧ Replied t .limit [] ∧ t.mem = s.mem ∧ ∀ p, (t.partOf p).live = (s.partOf p).live)
    ∧ (owner = c.ownerKey → s.sec.tcount < 4 → s.canCreate x = true → s.drbgGen 6 ≠ none →
        ∃ t, exec (.partitionCreate owner x) s = .next t ∧ Replied t .done [] ∧ (t.partOf x.id).live = true
          ∧ (t.partOf x.id).keys ≠ none ∧ (t.partOf x.id).devices = x.devices
          ∧ (∀ c ∈ quadCores x.quads, CleanCore t c x.id) ∧ (∀ p, p ≠ x.id → (t.partOf p).live = (s.partOf p).live))
    ∧ (owner = c.ownerKey → s.sec.tcount < 4 → s.canCreate x = true → s.drbgGen 6 = none →
        exec (.partitionCreate owner x) s = .next (s.awaitKey (.part x))))
  ∧ (∀ (s : State) (p : PartId), s.serves = true →
      (p = 0 ∨ (s.partOf p).live = false → ∃ t, exec (.partitionDestroy p) s = .next t ∧ Replied t .limit [] ∧ t.mem = s.mem
          ∧ t.cores = s.cores)
      ∧ (p ≠ 0 → (s.partOf p).live = true → ∃ t, exec (.partitionDestroy p) s = .next t ∧ Replied t .done []
          ∧ (t.partOf p).live = false ∧ (t.partOf p).keys = none ∧ (∀ j ∈ t.jobs, j.spec.part ≠ p) ∧ (∀ r ∈ t.regions, r.owner ≠ p)
          ∧ ∀ x, (s.partOf p).spec = some x → ∀ c ∈ quadCores x.quads, CleanCore t c 0))

/-- 18 R404, R406-R407: publishing whole banks of one's own adds a region and its entry in each mapper's weight list; withdrawing it
removes it and tells the mappers, once no reload of it runs; what is not one's own is refused, and a tenant's refusal completes after
PART_PAD. -/
def Sys2Proof.Claims.Regions : Prop :=
  (∀ (s : State) (p : PartId) (q : QuarterId) (b n : Nat) (m cp : Option Nat) (ms : List PartId) (d : List Byte),
    let fits : Prop := s.holdsBanks p q b n = true ∧ (∀ r ∈ s.regions, r.quarter = q → b + n ≤ r.bank ∨ r.bank + r.banks ≤ b)
      ∧ ∀ x ∈ ms, x ≠ p ∧ (s.partOf x).live = true
    (d.length ≠ 48 → exec (.publish p q b n m cp ms d) s = .fault .illFormed)
    ∧ (d.length = 48 → s.serves = true → p = 0 ∨ (s.partOf p).live = true → fits →
        ∃ t id, exec (.publish p q b n m cp ms d) s = .next t ∧ (∀ r ∈ s.regions, r.id < id)
          ∧ t.regions = s.regions ++ [⟨id, p, q, b, n, m, cp, ms, d⟩] ∧ Replied t .done (leBytes 8 id)
          ∧ (ms.Nodup → ∀ x ∈ ms, (t.partOf x).weights = (s.partOf x).weights
              ++ [leBytes 8 (crownBase + q.val * crownSlice + b * bankBytes) ++ leBytes 8 (n * bankBytes) ++ d ++ List.replicate 16 0])
          ∧ t.mem = s.mem ∧ t.cores = s.cores)
    ∧ (d.length = 48 → s.serves = true → p = 0 ∨ (s.partOf p).live = true → ¬ fits →
        ∃ t, exec (.publish p q b n m cp ms d) s = .next t ∧ t.regions = s.regions ∧ t.mem = s.mem
          ∧ (p = 0 → Replied t .refused []) ∧ (p ≠ 0 → t.parked = s.parked ++ [.reply p s.now])))
  ∧ (∀ (s : State) (p : PartId) (id : Nat) (r : Region), s.serves = true → p = 0 ∨ (s.partOf p).live = true →
      s.regions.find? (fun r => r.id == id) = some r →
      (r.owner = p → s.reloading r = true → exec (.withdraw p id) s = .next s)
      ∧ (r.owner = p → s.reloading r = false → ∃ t, exec (.withdraw p id) s = .next t ∧ Replied t .done []
          ∧ t.regions = s.regions.filter (fun x => x.id != id) ∧ (∀ x ∈ r.mappers, .withdrawn id ∈ (t.partOf x).events) ∧ t.mem = s.mem)
      ∧ (r.owner ≠ p → ∃ t, exec (.withdraw p id) s = .next t ∧ t.regions = s.regions ∧ t.mem = s.mem
          ∧ (p = 0 → Replied t .refused []) ∧ (p ≠ 0 → t.parked = s.parked ++ [.reply p s.now])))
  ∧ (∀ (s : State) (i : Nat) (k : Cpl), s.parked[i]? = some (.cpl k) →
      (s.now < k.issued + s.sec.pad → exec (.refusalComplete i) s = .next s)
      ∧ (k.issued + s.sec.pad ≤ s.now → (s.gang k.core k.gang).status = .live → ∃ t, exec (.refusalComplete i) s = .next t
          ∧ t.parked = s.parked.eraseIdx i ∧ CodeIn t k.core k.gang k.mask k.reg .refused ∧ Elsewhere s t k.core))

/-- 18 R397-R408: partitions and published regions. -/
def Obligations.Partitions : Prop :=
  PartitionLife ∧ Regions

/-- 20 R434-R438: a trigger of an enabled source takes a copy of every block that holds none, and a held copy stays until it is released;
a fabric trigger waits for its target, is discarded when early or while another waits, and is taken late when past. -/
def Obligations.Snapshots : Prop :=
  (∀ s : State, s.pwr.alwaysOn = true → s.snapg.srcen.getLsbD 0 = true → ∃ t, exec .trig s = .next t
    ∧ (∀ b ∈ s.snapBlocks, (t.copyOf b).valid = true)
    ∧ (∀ b, (s.copyOf b).valid = true → t.copyOf b = s.copyOf b)
    ∧ (∀ b ∈ s.snapBlocks, (s.copyOf b).valid = false → (t.copyOf b).at_ = s.now ∧ (t.copyOf b).source = 1 ∧ (t.copyOf b).late = false)
    ∧ t.cores = s.cores ∧ t.mem = s.mem)
  ∧ (∀ s : State, s.pwr.alwaysOn = true → s.snapg.srcen.getLsbD 0 = false → exec .trig s = .next s)
  ∧ (∀ (s : State) (h : Th), s.ready h [] [] = true → (s.cplOf h 0).mask ≠ 0 → ∃ t, exec (.snapTrig h) s = .next t
      ∧ (t.gang h.core h.gang) = { s.gang h.core h.gang with pc := (s.gang h.core h.gang).pc + 8 }
      ∧ (s.part h.core = 0 → s.snapg.srcen.getLsbD 0 = true → ∀ b ∈ s.snapBlocks, (t.copyOf b).valid = true)
      ∧ (s.part h.core ≠ 0 → ∀ c : CoreId, c.val < s.coreCount →
          (s.part c = s.part h.core → (t.copyOf (.core c)).valid = true)
          ∧ (s.part c ≠ s.part h.core → t.copyOf (.core c) = s.copyOf (.core c))) ∧ t.mem = s.mem)
  ∧ (∀ (s : State) (x : BitVec 64), s.boot.mode = .running → s.sec.locked = false → s.pwrState ≠ 3 → s.snapg.srcen.getLsbD 3 = true →
      (s.snapg.waiting ≠ none ∨ s.now + 1_000_000_000 < x.toNat → exec (.fabricTrigger x) s
        = .next { s with snapg := { s.snapg with missed := min (2 ^ 32 - 1) (s.snapg.missed + 1) } })
      ∧ (s.snapg.waiting = none → s.now < x.toNat → x.toNat ≤ s.now + 1_000_000_000 →
        exec (.fabricTrigger x) s = .next { s with snapg := { s.snapg with waiting := some x.toNat } })
      ∧ (s.snapg.waiting = none → x.toNat ≤ s.now → ∃ t, exec (.fabricTrigger x) s = .next t
          ∧ ∀ b ∈ s.snapBlocks, (s.copyOf b).valid = false → (t.copyOf b).late = true ∧ (t.copyOf b).source = 8))
  ∧ (∀ (s : State) (x : Nat), s.snapg.waiting = some x → s.pwr.alwaysOn = true →
      (s.now < x → exec .targetTime s = .next s)
      ∧ (x ≤ s.now → ∃ t, exec .targetTime s = .next t ∧ t.snapg.waiting = none
          ∧ (s.snapg.srcen.getLsbD 3 = true → ∀ b ∈ s.snapBlocks, (t.copyOf b).valid = true) ∧ t.mem = s.mem))
  ∧ (∀ s : State, s.pwr.alwaysOn = true → ∃ t, exec .send s = .next t ∧ t.snapg.sent = s.snapg.sent ++ [(s.snapg.target, s.snapg.both)]
      ∧ t.snapg.copies = s.snapg.copies ∧ t.snapg.pwr = s.snapg.pwr ∧ t.mem = s.mem)
  ∧ (∀ s : State, s.pwr.alwaysOn = true → ∃ t, exec .release s = .next t ∧ (∀ b, (t.copyOf b).valid = false) ∧ t.cores = s.cores
      ∧ t.mem = s.mem)
  ∧ (∀ (s : State) (b : SnapBlock), s.regLive (snapHeader b) = true → ∃ t, exec (.snapStatValidClear b) s = .next t
      ∧ (t.copyOf b).valid = false ∧ (∀ x, x ≠ b → t.copyOf x = s.copyOf x) ∧ t.cores = s.cores ∧ t.mem = s.mem)

/-- 03 R86: ARR_FREEZE_LO and ARR_FREEZE_HI of a core whose block is powered are one 64-bit count of freeze cycles: LO reads bits 31:0; a
read of LO latches HI, which then reads as latched whatever the count does; any write to LO clears all 64 bits, and a write to
HI nothing. A freeze cycle counts once. -/
def Obligations.FreezeCounter : Prop :=
  ∀ (s : State) (c : CoreId), c.val < s.coreCount →
    let lo := c.val * 0x10_0000 + 0x1_0010
    let n := (s.core c).arr.freezes
    s.regRead lo = BitVec.ofNat 32 n
    ∧ (s.regLive lo = true → ∃ t, exec (.loReadLatch lo) s = .next t ∧ (∃ l, t = { s with latches := l })
        ∧ t.regRead (lo + 4) = BitVec.ofNat 32 (n / 2 ^ 32)
        ∧ ∀ f, (t.onArr c f).regRead (lo + 4) = BitVec.ofNat 32 (n / 2 ^ 32))
    ∧ (∀ v, s.regLive lo = true → exec (.arrFreezeLo c v) s = .next (s.onArr c (fun a => { a with freezes := 0 }))
        ∧ exec (.registerWrite 0 lo v) s = .next (s.onArr c (fun a => { a with freezes := 0 })))
    ∧ (∀ v, exec (.registerWrite 0 (lo + 4) v) s = .next s)
    ∧ (∀ late, s.coreOn c = true → (∀ p ∈ (s.core c).arr.pipe, (s.core c).arr.cycle ≤ p.due) →
        (∀ r, (s.core c).arr.nextRun.filter (·.started) = some r → s.feed c r r.entered ≠ .ended) → s.cycleCauses c late ≠ 0 →
        ∃ t, exec (.rowEntry c late) s = .next t ∧ (t.core c).arr.freezes = (n + 1) % 2 ^ 64)
    ∧ (State.reset.core c).arr.freezes = 0

/-- 16 R372: CORE_PHASE of a core: after reset 5; it reads its tag in bits 2:0 and 0 above; a write takes bits 2:0, and 7 is written
as 5. -/
def Obligations.PhaseTag : Prop :=
  ∀ (s : State) (c : CoreId) (v : Word), c.val < s.coreCount →
    let off := c.val * 0x10_0000 + 0x30
    (State.reset.core c).phase = 5 ∧ s.regRead off = (s.core c).phase.setWidth 32
    ∧ (s.regLive off = true → ∀ p, p = 0 ∨ p = s.part c → exec (.registerWrite p off v) s
        = .next (s.onCore c (fun k => { k with phase := if v.setWidth 3 = 7 then 5 else v.setWidth 3 })))

/-- 00 R6-R9, 18 R400: a register write. Software of a tenant changes no register of a core that is not its own and none of the module's;
under the boot lock no write changes a locked field; a write where nothing is powered is lost. -/
def Sys2Proof.Claims.WritesAllowed : Prop :=
  (∀ (s : State) (p : PartId) (off : Nat) (v : Word), p ≠ 0 → 0xC00_0000 ≤ off → exec (.registerWrite p off v) s = .next s)
  ∧ (∀ (s : State) (p : PartId) (c : CoreId) (o : Nat) (v : Word), p ≠ 0 → s.part c ≠ p → o < 0x10_0000 →
      exec (.registerWrite p (c.val * 0x10_0000 + o) v) s = .next s)
  ∧ (∀ (s : State) (p : PartId) (off : Nat) (v : Word), s.regLive off = false → exec (.registerWrite p off v) s = .next s)
  ∧ (∀ (s : State) (p : PartId) (off : Nat) (v : Word), s.boot.lock = true →
      ∃ t, exec (.registerWrite p off v) s = .next t ∧ LockedAlike s t)

/-- 03 R89-R90, 05 R131-R132, 07 R171, 16 R373, 03 R86: the registers whose writes have a command of their own: counters that any write
clears, the matcher's seed and spill region, whose write clears its table, and a slot's configuration, whose write starts the slot
anew. -/
def Sys2Proof.Claims.OwnWrites : Prop :=
  (∀ (s : State) (c : CoreId) (v : Word),
    (s.regLive (c.val * 0x10_0000 + 0x1_0028) = true →
      exec (.arrFillLo c v) s = .next (s.onArr c (fun a => { a with fills := 0 })))
    ∧ (s.regLive (c.val * 0x10_0000 + 0x1_0030) = true →
      exec (.arrColdWait c v) s = .next (s.onArr c (fun a => { a with coldWait := 0 })))
    ∧ (s.regLive (c.val * 0x10_0000 + 0x3_000C) = true → ∃ t, exec (.mtchSeed c v) s = .next t ∧ (t.core c).mtch.seed = v
        ∧ (t.core c).mtch.slots = [] ∧ (t.core c).mtch.spillCount = 0 ∧ (t.core c).mtch.queue = (s.core c).mtch.queue)
    ∧ (s.regLive (c.val * 0x10_0000 + 0x3_0010) = true → ∃ t, exec (.mtchSpill c v) s = .next t
        ∧ (t.core c).mtch.spillLog = v.toNat % 32 ∧ (t.core c).mtch.spillBase = v.toNat / 256 % 131072
        ∧ (t.core c).mtch.slots = [] ∧ (t.core c).mtch.spillCount = 0)
    ∧ (∀ i : Fin 64, s.regLive (c.val * 0x10_0000 + (0x5_1000 + 0x20 * i.val)) = true → ∃ t, exec (.qntSlotCfg c i v) s = .next t
        ∧ (let x := Tab.get {} (t.core c).qnt.slots i.val
           x.static_ = v.getLsbD 31 ∧ x.hlen = v.toNat / 256 % 64 ∧ x.margin = v.toNat / 16 % 4 ∧ x.fmt = v.setWidth 4
            ∧ x.amax = 0 ∧ x.hist = [] ∧ x.nf = 0 ∧ x.sat = 0 ∧ x.exp = (Tab.get {} (s.core c).qnt.slots i.val).exp)
        ∧ ∀ j : Fin 64, j ≠ i → Tab.get {} (t.core c).qnt.slots j.val = Tab.get {} (s.core c).qnt.slots j.val))
  ∧ (∀ (s : State) (p : Fin 7) (v : Word), s.regLive (0x3_0040_0100 + 8 * p.val) = true →
      ∃ t, exec (.timePhaseLo p v) s = .next t ∧ t.phases[p.val] = 0 ∧ (∀ q : Fin 7, q ≠ p → t.phases[q.val] = s.phases[q.val])
        ∧ t.cores = s.cores ∧ t.mem = s.mem)

/-- 00 R6-R10, 03 R86-R90, 05 R131-R132, 07 R171, 16 R373, 18 R400: register writes. -/
def Obligations.RegisterWrites : Prop :=
  WritesAllowed ∧ OwnWrites

/-- 11 R246, R248, R253-R257: a configuration write of a receive window takes its fields, raises the generation and fills AVAIL, and a
window left empty, out of its memory or over another is not enabled; at the last generation nothing changes; units returned
raise AVAIL to the size at most. A tenant configures no core-memory window. -/
def Obligations.WindowWrites : Prop :=
  (∀ (s : State) (q : QuarterId) (w : Fin 64) (v : Word),
    let r := WinRef.scratch q w
    let at_ (o : Nat) : Nat := 0x1_0000_0000 + q.val * 0x100_0000 + (o + 0x20 * w.val)
    let x := s.window r
    (x.gen ≠ 0xFFFF_FFFF →
      (s.regLive (at_ 0x1000) = true → ∃ t, exec (.crwnRxwinCfg q w v) s = .next t ∧ SameBytes s t
        ∧ Configured s t r { x with en := v.getLsbD 31, open_ := v.getLsbD 30, part := v.toNat / 2 ^ 25 % 32 })
      ∧ (s.regLive (at_ 0x1004) = true → ∃ t, exec (.crwnRxwinBase q w v) s = .next t ∧ SameBytes s t
        ∧ Configured s t r { x with base := v.toNat % 2 ^ 25 })
      ∧ (s.regLive (at_ 0x1008) = true → ∃ t, exec (.crwnRxwinSize q w v) s = .next t ∧ SameBytes s t
        ∧ Configured s t r { x with size := v.toNat % 2 ^ 26 }))
    ∧ (x.gen = 0xFFFF_FFFF → exec (.crwnRxwinCfg q w v) s = .next s ∧ exec (.crwnRxwinBase q w v) s = .next s
        ∧ exec (.crwnRxwinSize q w v) s = .next s)
    ∧ (s.regLive (at_ 0x1010) = true → ∃ t, exec (.crwnRxwinFree q w v) s = .next t
        ∧ t.window r = { x with avail := min (x.avail + v.toNat % 2 ^ 26) x.size } ∧ SameBytes s t))
  ∧ (∀ (s : State) (p : PartId) (c : CoreId) (w : Fin 8) (v : Word),
      let r := WinRef.cmem c w
      let at_ (o : Nat) : Nat := c.val * 0x10_0000 + (o + 0x10 * w.val)
      let x := s.window r
      (p ≠ 0 → exec (.cmemRxwinCfg p c w v) s = .next s)
      ∧ (p = 0 → x.gen ≠ 0xFFFF_FFFF → s.regLive (at_ 0x9_0100) = true → ∃ t, exec (.cmemRxwinCfg p c w v) s = .next t ∧ SameBytes s t
          ∧ Configured s t r { x with
              en := v.getLsbD 31, part := v.toNat / 2 ^ 26 % 32, size := v.toNat / 2 ^ 17 % 32, base := v.toNat % 2 ^ 17 })
      ∧ (s.regLive (at_ 0x9_0108) = true → ∃ t, exec (.cmemRxwinFree c w v) s = .next t
          ∧ t.window r = { x with avail := min (x.avail + v.toNat % 2 ^ 17) (x.size * 1024) } ∧ SameBytes s t))

/-- The block takes its commands in order: a step with command `c` in front is `c` on the state with the queue's rest. -/
def Obligations.StepRunsFront : Prop :=
  ∀ (c : Instr) (s : State) (rest : List Instr), s.pending = c :: rest → step s = exec c { s with pending := rest }

/-- 16 R368, R373: with nothing commanded a nanosecond of device time passes while the always-on domain runs (log 2), and nothing but
time, its counters and the model's own counter moves. -/
def Obligations.IdleTick : Prop :=
  ∀ s : State, s.pending = [] →
    (s.pwr.alwaysOn = false → step s = .next s)
    ∧ (s.pwr.alwaysOn = true → ∃ t, step s = .next t ∧ t.now = (s.now + 1) % 2 ^ 64 ∧ t.pending = []
        ∧ t = { s with now := t.now, pwr := { s.pwr with wait := t.pwr.wait, waitLast := t.pwr.waitLast }, free := t.free, phases := t.phases })

/-- A step takes exactly the front command: whatever it does, the queue that is left is the rest of the queue. -/
def Obligations.QueueIsFifo : Prop :=
  ∀ (s t : State), step s = .next t → t.pending = s.pending.tail

/-- No command is refused, and one faults only when its operands do not spell it. -/
def Obligations.StepGoesOn : Prop :=
  ∀ (c : Instr) (s : State), (∃ t, exec c s = .next t) ∨ (c.wellFormed = false ∧ exec c s = .fault .illFormed)

/-- 01 R28, 12: memory keeps its one form, rising addresses and no byte listed that is 0, through every step. -/
def Obligations.MemoryFormKept : Prop :=
  ∀ (s t : State), Memory.wf s.mem = true → step s = .next t → Memory.wf t.mem = true

/-- Memory has its form at reset. -/
def Obligations.MemoryFormAtReset : Prop :=
  Memory.wf State.reset.mem = true

/-- What reset leaves (00 R10): values the registers' own tables give. -/
def Obligations.ResetValues : Prop :=
  State.reset.mem = [] ∧ State.reset.pending = [] ∧ State.reset.now = 0 ∧ State.reset.boot.lock = false
    ∧ State.reset.sec.locked = false ∧ State.reset.sec.pad = 10_000 ∧ State.reset.pwr.cap = 3600 ∧ State.reset.pwr.idleMs = 1000
    ∧ (∀ d, State.reset.dom d = .off) ∧ State.reset.snapg.srcen = 0xF
    ∧ (∀ c : CoreId, (State.reset.core c).phase = 5 ∧ (State.reset.core c).seq.stale = 0 ∧ (State.reset.core c).varies = 0
        ∧ (∀ g, (State.reset.gang c g).gfault.valid = false) ∧ ∀ g, (State.reset.group c g).state = .closed)
    ∧ ∀ n, (State.reset.port n).en = false ∧ (State.reset.port n).width = 0
end

