-- ==== Sys2Proof/Laws/Table.lean ====
section
/-! SUPPORT. Sparse tables: what reading after writing gives, and the canonical form kept by every write. -/

namespace Sys2Proof.Machine

section
variable {α : Type}

@[simp] theorem Tab.get_nil (d : α) (a : Nat) : Tab.get d [] a = d := rfl

theorem Tab.get_ins_self (d : α) (t : Tab α) (a : Nat) (v : α) : Tab.get d (Tab.ins t a v) a = v := by
  induction t with
  | nil => simp [Tab.ins, Tab.get]
  | cons p r ih =>
    obtain ⟨k, x⟩ := p
    simp only [Tab.ins]
    split
    · simp [Tab.get]
    · split
      · simp [Tab.get]
      · rename_i h1 h2
        have h3 : k ≠ a := fun h => h2 h.symm
        simp [Tab.get, ih, h3]

theorem Tab.get_ins_other (d : α) (t : Tab α) {a b : Nat} (v : α) (h : b ≠ a) :
    Tab.get d (Tab.ins t a v) b = Tab.get d t b := by
  induction t with
  | nil => simp [Tab.ins, Tab.get, h.symm]
  | cons p r ih =>
    obtain ⟨k, x⟩ := p
    simp only [Tab.ins]
    split
    · simp [Tab.get, h.symm]
    · split
      · rename_i h2
        subst h2
        simp [Tab.get, h.symm]
      · simp [Tab.get, ih]

theorem Tab.get_del_self (d : α) (t : Tab α) (a : Nat) : Tab.get d (Tab.del t a) a = d := by
  induction t with
  | nil => rfl
  | cons p r ih =>
    obtain ⟨k, x⟩ := p
    by_cases h : k = a
    · simpa [Tab.del, h] using ih
    · simpa [Tab.del, Tab.get, h] using ih

theorem Tab.get_del_other (d : α) (t : Tab α) {a b : Nat} (h : b ≠ a) :
    Tab.get d (Tab.del t a) b = Tab.get d t b := by
  induction t with
  | nil => rfl
  | cons p r ih =>
    obtain ⟨k, x⟩ := p
    by_cases hk : k = a
    · subst hk
      simpa [Tab.del, Tab.get, h.symm] using ih
    · have : Tab.del ((k, x) :: r) a = (k, x) :: Tab.del r a := by simp [Tab.del, hk]
      rw [this]
      simp [Tab.get, ih]

variable [DecidableEq α]

@[simp] theorem Tab.get_set_self (d : α) (t : Tab α) (a : Nat) (v : α) : Tab.get d (Tab.set d t a v) a = v := by
  unfold Tab.set
  split
  · rename_i h
    rw [Tab.get_del_self, h]
  · exact Tab.get_ins_self d t a v

theorem Tab.get_set_other (d : α) (t : Tab α) {a b : Nat} (v : α) (h : b ≠ a) :
    Tab.get d (Tab.set d t a v) b = Tab.get d t b := by
  unfold Tab.set
  split
  · exact Tab.get_del_other d t h
  · exact Tab.get_ins_other d t v h

theorem Tab.get_set (d : α) (t : Tab α) (a b : Nat) (v : α) :
    Tab.get d (Tab.set d t a v) b = if b = a then v else Tab.get d t b := by
  split
  · rename_i h
    rw [h, Tab.get_set_self]
  · rename_i h
    exact Tab.get_set_other d t v h

/-- The canonical form, as facts about all entries. -/
theorem Tab.wf_iff (d : α) (t : Tab α) :
    Tab.wf d t = true ↔ t.Pairwise (fun p q => p.1 < q.1) ∧ ∀ p ∈ t, p.2 ≠ d := by
  induction t with
  | nil => simp [Tab.wf]
  | cons p r ih =>
    obtain ⟨k, v⟩ := p
    cases r with
    | nil => simp [Tab.wf]
    | cons q r =>
      obtain ⟨k', v'⟩ := q
      simp only [Tab.wf, Bool.and_eq_true, decide_eq_true_eq, bne_iff_ne, ne_eq] at ih ⊢
      rw [ih]
      constructor
      · rintro ⟨⟨hv, hk⟩, hp, hd⟩
        refine ⟨List.pairwise_cons.2 ⟨?_, hp⟩, ?_⟩
        · intro a ha
          rcases List.mem_cons.1 ha with rfl | ha
          · exact hk
          · exact Nat.lt_trans hk ((List.pairwise_cons.1 hp).1 a ha)
        · intro a ha
          rcases List.mem_cons.1 ha with rfl | ha
          · exact hv
          · exact hd a ha
      · rintro ⟨hp, hd⟩
        have hp' := List.pairwise_cons.1 hp
        exact ⟨⟨hd _ (List.mem_cons_self ..), hp'.1 _ (List.mem_cons_self ..)⟩, hp'.2,
          fun a ha => hd a (List.mem_cons_of_mem _ ha)⟩

/-- Taking entries out keeps the canonical form. -/
theorem Tab.wf_filter {d : α} {t : Tab α} (h : Tab.wf d t = true) (f : Nat × α → Bool) : Tab.wf d (t.filter f) = true := by
  rw [Tab.wf_iff] at h ⊢
  exact ⟨h.1.filter f, fun p hp => h.2 p (List.mem_filter.1 hp).1⟩

omit [DecidableEq α] in
theorem Tab.mem_ins {t : Tab α} {a : Nat} {v : α} {p : Nat × α} (h : p ∈ Tab.ins t a v) : p = (a, v) ∨ p ∈ t := by
  induction t with
  | nil => simpa [Tab.ins] using h
  | cons q r ih =>
    obtain ⟨k, x⟩ := q
    simp only [Tab.ins] at h
    split at h
    · simpa using h
    · split at h
      · rcases List.mem_cons.1 h with h | h
        · exact .inl h
        · exact .inr (List.mem_cons_of_mem _ h)
      · rcases List.mem_cons.1 h with h | h
        · exact .inr (h ▸ List.mem_cons_self ..)
        · rcases ih h with h | h
          · exact .inl h
          · exact .inr (List.mem_cons_of_mem _ h)

theorem Tab.wf_ins {d : α} {t : Tab α} (h : Tab.wf d t = true) (a : Nat) {v : α} (hv : v ≠ d) :
    Tab.wf d (Tab.ins t a v) = true := by
  rw [Tab.wf_iff] at h ⊢
  obtain ⟨hp, hd⟩ := h
  refine ⟨?_, fun p hm => ?_⟩
  · induction t with
    | nil => simp [Tab.ins]
    | cons q r ih =>
      obtain ⟨k, x⟩ := q
      have hp' := List.pairwise_cons.1 hp
      simp only [Tab.ins]
      split
      · rename_i h1
        refine List.pairwise_cons.2 ⟨fun b hb => ?_, hp⟩
        rcases List.mem_cons.1 hb with rfl | hb
        · exact h1
        · exact Nat.lt_trans h1 (hp'.1 b hb)
      · split
        · rename_i h2
          subst h2
          exact List.pairwise_cons.2 ⟨hp'.1, hp'.2⟩
        · rename_i h1 h2
          refine List.pairwise_cons.2 ⟨fun b hb => ?_, ih hp'.2 (fun p hm => hd p (List.mem_cons_of_mem _ hm))⟩
          rcases Tab.mem_ins hb with rfl | hb
          · show k < a
            omega
          · exact hp'.1 b hb
  · rcases Tab.mem_ins hm with rfl | hm
    · exact hv
    · exact hd p hm

theorem Tab.wf_set {d : α} {t : Tab α} (h : Tab.wf d t = true) (a : Nat) (v : α) : Tab.wf d (Tab.set d t a v) = true := by
  unfold Tab.set
  split
  · exact Tab.wf_filter h _
  · rename_i hv
    exact Tab.wf_ins h a hv

theorem Tab.wf_setList {d : α} {t : Tab α} (h : Tab.wf d t = true) (a : Nat) (vs : List α) :
    Tab.wf d (Tab.setList d t a vs) = true := by
  induction vs generalizing t a with
  | nil => exact h
  | cons v vs ih => exact ih (Tab.wf_set h a v) (a + 1)

/-- Reading after writing consecutive keys. -/
theorem Tab.get_setList (d : α) (t : Tab α) (a b : Nat) (vs : List α) :
    Tab.get d (Tab.setList d t a vs) b = if a ≤ b then (vs[b - a]?).getD (Tab.get d t b) else Tab.get d t b := by
  induction vs generalizing t a with
  | nil => simp [Tab.setList]
  | cons v vs ih =>
    simp only [Tab.setList, ih, Tab.get_set]
    by_cases h : a ≤ b
    · by_cases h2 : b = a
      · subst h2
        simp [show ¬ b + 1 ≤ b by omega]
      · have : b - a = (b - (a + 1)) + 1 := by omega
        simp [h, h2, show a + 1 ≤ b by omega, this]
    · simp [h, show ¬ a + 1 ≤ b by omega, show b ≠ a by omega]

end

end Sys2Proof.Machine
end

