-- ==== Sys2Proof/Laws/State.lean ====
section
/-! SUPPORT. What each update of the state leaves as it was: one lemma for each field and update, and the lemmas of the
accessors that read a part back. -/

namespace Sys2Proof.Machine

/-! ## `State.setCore` -/

@[simp] theorem State.setCore_pending (s : State) (c : CoreId) (k : Core) : (s.setCore c k).pending = s.pending := rfl
@[simp] theorem State.setCore_now (s : State) (c : CoreId) (k : Core) : (s.setCore c k).now = s.now := rfl
@[simp] theorem State.setCore_grade4810 (s : State) (c : CoreId) (k : Core) : (s.setCore c k).grade4810 = s.grade4810 := rfl
@[simp] theorem State.setCore_dev (s : State) (c : CoreId) (k : Core) : (s.setCore c k).dev = s.dev := rfl
@[simp] theorem State.setCore_fabricB (s : State) (c : CoreId) (k : Core) : (s.setCore c k).fabricB = s.fabricB := rfl
@[simp] theorem State.setCore_mem (s : State) (c : CoreId) (k : Core) : (s.setCore c k).mem = s.mem := rfl
@[simp] theorem State.setCore_poison (s : State) (c : CoreId) (k : Core) : (s.setCore c k).poison = s.poison := rfl
@[simp] theorem State.setCore_upsets (s : State) (c : CoreId) (k : Core) : (s.setCore c k).upsets = s.upsets := rfl
@[simp] theorem State.setCore_quarters (s : State) (c : CoreId) (k : Core) : (s.setCore c k).quarters = s.quarters := rfl
@[simp] theorem State.setCore_piers (s : State) (c : CoreId) (k : Core) : (s.setCore c k).piers = s.piers := rfl
@[simp] theorem State.setCore_barriers (s : State) (c : CoreId) (k : Core) : (s.setCore c k).barriers = s.barriers := rfl
@[simp] theorem State.setCore_barOwner (s : State) (c : CoreId) (k : Core) : (s.setCore c k).barOwner = s.barOwner := rfl
@[simp] theorem State.setCore_parts (s : State) (c : CoreId) (k : Core) : (s.setCore c k).parts = s.parts := rfl
@[simp] theorem State.setCore_frames (s : State) (c : CoreId) (k : Core) : (s.setCore c k).frames = s.frames := rfl
@[simp] theorem State.setCore_regions (s : State) (c : CoreId) (k : Core) : (s.setCore c k).regions = s.regions := rfl
@[simp] theorem State.setCore_pwr (s : State) (c : CoreId) (k : Core) : (s.setCore c k).pwr = s.pwr := rfl
@[simp] theorem State.setCore_sec (s : State) (c : CoreId) (k : Core) : (s.setCore c k).sec = s.sec := rfl
@[simp] theorem State.setCore_boot (s : State) (c : CoreId) (k : Core) : (s.setCore c k).boot = s.boot := rfl
@[simp] theorem State.setCore_snapg (s : State) (c : CoreId) (k : Core) : (s.setCore c k).snapg = s.snapg := rfl
@[simp] theorem State.setCore_phases (s : State) (c : CoreId) (k : Core) : (s.setCore c k).phases = s.phases := rfl
@[simp] theorem State.setCore_latches (s : State) (c : CoreId) (k : Core) : (s.setCore c k).latches = s.latches := rfl
@[simp] theorem State.setCore_sbFault (s : State) (c : CoreId) (k : Core) : (s.setCore c k).sbFault = s.sbFault := rfl
@[simp] theorem State.setCore_adaptQ (s : State) (c : CoreId) (k : Core) : (s.setCore c k).adaptQ = s.adaptQ := rfl
@[simp] theorem State.setCore_spareRows (s : State) (c : CoreId) (k : Core) : (s.setCore c k).spareRows = s.spareRows := rfl
@[simp] theorem State.setCore_jobs (s : State) (c : CoreId) (k : Core) : (s.setCore c k).jobs = s.jobs := rfl
@[simp] theorem State.setCore_groups (s : State) (c : CoreId) (k : Core) : (s.setCore c k).groups = s.groups := rfl
@[simp] theorem State.setCore_collIssues (s : State) (c : CoreId) (k : Core) : (s.setCore c k).collIssues = s.collIssues := rfl
@[simp] theorem State.setCore_collRuns (s : State) (c : CoreId) (k : Core) : (s.setCore c k).collRuns = s.collRuns := rfl
@[simp] theorem State.setCore_collNext (s : State) (c : CoreId) (k : Core) : (s.setCore c k).collNext = s.collNext := rfl
@[simp] theorem State.setCore_deferred (s : State) (c : CoreId) (k : Core) : (s.setCore c k).deferred = s.deferred := rfl
@[simp] theorem State.setCore_lateWait (s : State) (c : CoreId) (k : Core) : (s.setCore c k).lateWait = s.lateWait := rfl
@[simp] theorem State.setCore_collEarly (s : State) (c : CoreId) (k : Core) : (s.setCore c k).collEarly = s.collEarly := rfl
@[simp] theorem State.setCore_net (s : State) (c : CoreId) (k : Core) : (s.setCore c k).net = s.net := rfl
@[simp] theorem State.setCore_flows (s : State) (c : CoreId) (k : Core) : (s.setCore c k).flows = s.flows := rfl
@[simp] theorem State.setCore_heldFlows (s : State) (c : CoreId) (k : Core) : (s.setCore c k).heldFlows = s.heldFlows := rfl
@[simp] theorem State.setCore_sentOps (s : State) (c : CoreId) (k : Core) : (s.setCore c k).sentOps = s.sentOps := rfl
@[simp] theorem State.setCore_nextOp (s : State) (c : CoreId) (k : Core) : (s.setCore c k).nextOp = s.nextOp := rfl
@[simp] theorem State.setCore_notices (s : State) (c : CoreId) (k : Core) : (s.setCore c k).notices = s.notices := rfl
@[simp] theorem State.setCore_parked (s : State) (c : CoreId) (k : Core) : (s.setCore c k).parked = s.parked := rfl
@[simp] theorem State.setCore_addGroups (s : State) (c : CoreId) (k : Core) : (s.setCore c k).addGroups = s.addGroups := rfl
@[simp] theorem State.setCore_log (s : State) (c : CoreId) (k : Core) : (s.setCore c k).log = s.log := rfl
@[simp] theorem State.setCore_repairUe (s : State) (c : CoreId) (k : Core) : (s.setCore c k).repairUe = s.repairUe := rfl
@[simp] theorem State.setCore_repairCe (s : State) (c : CoreId) (k : Core) : (s.setCore c k).repairCe = s.repairCe := rfl
@[simp] theorem State.setCore_badChannels (s : State) (c : CoreId) (k : Core) : (s.setCore c k).badChannels = s.badChannels := rfl
@[simp] theorem State.setCore_badCores (s : State) (c : CoreId) (k : Core) : (s.setCore c k).badCores = s.badCores := rfl
@[simp] theorem State.setCore_badBanks (s : State) (c : CoreId) (k : Core) : (s.setCore c k).badBanks = s.badBanks := rfl
@[simp] theorem State.setCore_sbInt (s : State) (c : CoreId) (k : Core) : (s.setCore c k).sbInt = s.sbInt := rfl
@[simp] theorem State.setCore_sbReply (s : State) (c : CoreId) (k : Core) : (s.setCore c k).sbReply = s.sbReply := rfl
@[simp] theorem State.setCore_reply (s : State) (c : CoreId) (k : Core) : (s.setCore c k).reply = s.reply := rfl
@[simp] theorem State.setCore_free (s : State) (c : CoreId) (k : Core) : (s.setCore c k).free = s.free := rfl
@[simp] theorem State.setCore_viewer (s : State) (c : CoreId) (k : Core) : (s.setCore c k).viewer = s.viewer := rfl

/-! ## `State.onCore` -/

@[simp] theorem State.onCore_pending (s : State) (c : CoreId) (f : Core → Core) : (s.onCore c f).pending = s.pending := rfl
@[simp] theorem State.onCore_now (s : State) (c : CoreId) (f : Core → Core) : (s.onCore c f).now = s.now := rfl
@[simp] theorem State.onCore_grade4810 (s : State) (c : CoreId) (f : Core → Core) : (s.onCore c f).grade4810 = s.grade4810 := rfl
@[simp] theorem State.onCore_dev (s : State) (c : CoreId) (f : Core → Core) : (s.onCore c f).dev = s.dev := rfl
@[simp] theorem State.onCore_fabricB (s : State) (c : CoreId) (f : Core → Core) : (s.onCore c f).fabricB = s.fabricB := rfl
@[simp] theorem State.onCore_mem (s : State) (c : CoreId) (f : Core → Core) : (s.onCore c f).mem = s.mem := rfl
@[simp] theorem State.onCore_poison (s : State) (c : CoreId) (f : Core → Core) : (s.onCore c f).poison = s.poison := rfl
@[simp] theorem State.onCore_upsets (s : State) (c : CoreId) (f : Core → Core) : (s.onCore c f).upsets = s.upsets := rfl
@[simp] theorem State.onCore_quarters (s : State) (c : CoreId) (f : Core → Core) : (s.onCore c f).quarters = s.quarters := rfl
@[simp] theorem State.onCore_piers (s : State) (c : CoreId) (f : Core → Core) : (s.onCore c f).piers = s.piers := rfl
@[simp] theorem State.onCore_barriers (s : State) (c : CoreId) (f : Core → Core) : (s.onCore c f).barriers = s.barriers := rfl
@[simp] theorem State.onCore_barOwner (s : State) (c : CoreId) (f : Core → Core) : (s.onCore c f).barOwner = s.barOwner := rfl
@[simp] theorem State.onCore_parts (s : State) (c : CoreId) (f : Core → Core) : (s.onCore c f).parts = s.parts := rfl
@[simp] theorem State.onCore_frames (s : State) (c : CoreId) (f : Core → Core) : (s.onCore c f).frames = s.frames := rfl
@[simp] theorem State.onCore_regions (s : State) (c : CoreId) (f : Core → Core) : (s.onCore c f).regions = s.regions := rfl
@[simp] theorem State.onCore_pwr (s : State) (c : CoreId) (f : Core → Core) : (s.onCore c f).pwr = s.pwr := rfl
@[simp] theorem State.onCore_sec (s : State) (c : CoreId) (f : Core → Core) : (s.onCore c f).sec = s.sec := rfl
@[simp] theorem State.onCore_boot (s : State) (c : CoreId) (f : Core → Core) : (s.onCore c f).boot = s.boot := rfl
@[simp] theorem State.onCore_snapg (s : State) (c : CoreId) (f : Core → Core) : (s.onCore c f).snapg = s.snapg := rfl
@[simp] theorem State.onCore_phases (s : State) (c : CoreId) (f : Core → Core) : (s.onCore c f).phases = s.phases := rfl
@[simp] theorem State.onCore_latches (s : State) (c : CoreId) (f : Core → Core) : (s.onCore c f).latches = s.latches := rfl
@[simp] theorem State.onCore_sbFault (s : State) (c : CoreId) (f : Core → Core) : (s.onCore c f).sbFault = s.sbFault := rfl
@[simp] theorem State.onCore_adaptQ (s : State) (c : CoreId) (f : Core → Core) : (s.onCore c f).adaptQ = s.adaptQ := rfl
@[simp] theorem State.onCore_spareRows (s : State) (c : CoreId) (f : Core → Core) : (s.onCore c f).spareRows = s.spareRows := rfl
@[simp] theorem State.onCore_jobs (s : State) (c : CoreId) (f : Core → Core) : (s.onCore c f).jobs = s.jobs := rfl
@[simp] theorem State.onCore_groups (s : State) (c : CoreId) (f : Core → Core) : (s.onCore c f).groups = s.groups := rfl
@[simp] theorem State.onCore_collIssues (s : State) (c : CoreId) (f : Core → Core) : (s.onCore c f).collIssues = s.collIssues := rfl
@[simp] theorem State.onCore_collRuns (s : State) (c : CoreId) (f : Core → Core) : (s.onCore c f).collRuns = s.collRuns := rfl
@[simp] theorem State.onCore_collNext (s : State) (c : CoreId) (f : Core → Core) : (s.onCore c f).collNext = s.collNext := rfl
@[simp] theorem State.onCore_deferred (s : State) (c : CoreId) (f : Core → Core) : (s.onCore c f).deferred = s.deferred := rfl
@[simp] theorem State.onCore_lateWait (s : State) (c : CoreId) (f : Core → Core) : (s.onCore c f).lateWait = s.lateWait := rfl
@[simp] theorem State.onCore_collEarly (s : State) (c : CoreId) (f : Core → Core) : (s.onCore c f).collEarly = s.collEarly := rfl
@[simp] theorem State.onCore_net (s : State) (c : CoreId) (f : Core → Core) : (s.onCore c f).net = s.net := rfl
@[simp] theorem State.onCore_flows (s : State) (c : CoreId) (f : Core → Core) : (s.onCore c f).flows = s.flows := rfl
@[simp] theorem State.onCore_heldFlows (s : State) (c : CoreId) (f : Core → Core) : (s.onCore c f).heldFlows = s.heldFlows := rfl
@[simp] theorem State.onCore_sentOps (s : State) (c : CoreId) (f : Core → Core) : (s.onCore c f).sentOps = s.sentOps := rfl
@[simp] theorem State.onCore_nextOp (s : State) (c : CoreId) (f : Core → Core) : (s.onCore c f).nextOp = s.nextOp := rfl
@[simp] theorem State.onCore_notices (s : State) (c : CoreId) (f : Core → Core) : (s.onCore c f).notices = s.notices := rfl
@[simp] theorem State.onCore_parked (s : State) (c : CoreId) (f : Core → Core) : (s.onCore c f).parked = s.parked := rfl
@[simp] theorem State.onCore_addGroups (s : State) (c : CoreId) (f : Core → Core) : (s.onCore c f).addGroups = s.addGroups := rfl
@[simp] theorem State.onCore_log (s : State) (c : CoreId) (f : Core → Core) : (s.onCore c f).log = s.log := rfl
@[simp] theorem State.onCore_repairUe (s : State) (c : CoreId) (f : Core → Core) : (s.onCore c f).repairUe = s.repairUe := rfl
@[simp] theorem State.onCore_repairCe (s : State) (c : CoreId) (f : Core → Core) : (s.onCore c f).repairCe = s.repairCe := rfl
@[simp] theorem State.onCore_badChannels (s : State) (c : CoreId) (f : Core → Core) : (s.onCore c f).badChannels = s.badChannels := rfl
@[simp] theorem State.onCore_badCores (s : State) (c : CoreId) (f : Core → Core) : (s.onCore c f).badCores = s.badCores := rfl
@[simp] theorem State.onCore_badBanks (s : State) (c : CoreId) (f : Core → Core) : (s.onCore c f).badBanks = s.badBanks := rfl
@[simp] theorem State.onCore_sbInt (s : State) (c : CoreId) (f : Core → Core) : (s.onCore c f).sbInt = s.sbInt := rfl
@[simp] theorem State.onCore_sbReply (s : State) (c : CoreId) (f : Core → Core) : (s.onCore c f).sbReply = s.sbReply := rfl
@[simp] theorem State.onCore_reply (s : State) (c : CoreId) (f : Core → Core) : (s.onCore c f).reply = s.reply := rfl
@[simp] theorem State.onCore_free (s : State) (c : CoreId) (f : Core → Core) : (s.onCore c f).free = s.free := rfl
@[simp] theorem State.onCore_viewer (s : State) (c : CoreId) (f : Core → Core) : (s.onCore c f).viewer = s.viewer := rfl

/-! ## `State.onGang` -/

@[simp] theorem State.onGang_pending (s : State) (c : CoreId) (g : GangId) (f : Gang → Gang) : (s.onGang c g f).pending = s.pending := rfl
@[simp] theorem State.onGang_now (s : State) (c : CoreId) (g : GangId) (f : Gang → Gang) : (s.onGang c g f).now = s.now := rfl
@[simp] theorem State.onGang_grade4810 (s : State) (c : CoreId) (g : GangId) (f : Gang → Gang) : (s.onGang c g f).grade4810 = s.grade4810 := rfl
@[simp] theorem State.onGang_dev (s : State) (c : CoreId) (g : GangId) (f : Gang → Gang) : (s.onGang c g f).dev = s.dev := rfl
@[simp] theorem State.onGang_fabricB (s : State) (c : CoreId) (g : GangId) (f : Gang → Gang) : (s.onGang c g f).fabricB = s.fabricB := rfl
@[simp] theorem State.onGang_mem (s : State) (c : CoreId) (g : GangId) (f : Gang → Gang) : (s.onGang c g f).mem = s.mem := rfl
@[simp] theorem State.onGang_poison (s : State) (c : CoreId) (g : GangId) (f : Gang → Gang) : (s.onGang c g f).poison = s.poison := rfl
@[simp] theorem State.onGang_upsets (s : State) (c : CoreId) (g : GangId) (f : Gang → Gang) : (s.onGang c g f).upsets = s.upsets := rfl
@[simp] theorem State.onGang_quarters (s : State) (c : CoreId) (g : GangId) (f : Gang → Gang) : (s.onGang c g f).quarters = s.quarters := rfl
@[simp] theorem State.onGang_piers (s : State) (c : CoreId) (g : GangId) (f : Gang → Gang) : (s.onGang c g f).piers = s.piers := rfl
@[simp] theorem State.onGang_barriers (s : State) (c : CoreId) (g : GangId) (f : Gang → Gang) : (s.onGang c g f).barriers = s.barriers := rfl
@[simp] theorem State.onGang_barOwner (s : State) (c : CoreId) (g : GangId) (f : Gang → Gang) : (s.onGang c g f).barOwner = s.barOwner := rfl
@[simp] theorem State.onGang_parts (s : State) (c : CoreId) (g : GangId) (f : Gang → Gang) : (s.onGang c g f).parts = s.parts := rfl
@[simp] theorem State.onGang_frames (s : State) (c : CoreId) (g : GangId) (f : Gang → Gang) : (s.onGang c g f).frames = s.frames := rfl
@[simp] theorem State.onGang_regions (s : State) (c : CoreId) (g : GangId) (f : Gang → Gang) : (s.onGang c g f).regions = s.regions := rfl
@[simp] theorem State.onGang_pwr (s : State) (c : CoreId) (g : GangId) (f : Gang → Gang) : (s.onGang c g f).pwr = s.pwr := rfl
@[simp] theorem State.onGang_sec (s : State) (c : CoreId) (g : GangId) (f : Gang → Gang) : (s.onGang c g f).sec = s.sec := rfl
@[simp] theorem State.onGang_boot (s : State) (c : CoreId) (g : GangId) (f : Gang → Gang) : (s.onGang c g f).boot = s.boot := rfl
@[simp] theorem State.onGang_snapg (s : State) (c : CoreId) (g : GangId) (f : Gang → Gang) : (s.onGang c g f).snapg = s.snapg := rfl
@[simp] theorem State.onGang_phases (s : State) (c : CoreId) (g : GangId) (f : Gang → Gang) : (s.onGang c g f).phases = s.phases := rfl
@[simp] theorem State.onGang_latches (s : State) (c : CoreId) (g : GangId) (f : Gang → Gang) : (s.onGang c g f).latches = s.latches := rfl
@[simp] theorem State.onGang_sbFault (s : State) (c : CoreId) (g : GangId) (f : Gang → Gang) : (s.onGang c g f).sbFault = s.sbFault := rfl
@[simp] theorem State.onGang_adaptQ (s : State) (c : CoreId) (g : GangId) (f : Gang → Gang) : (s.onGang c g f).adaptQ = s.adaptQ := rfl
@[simp] theorem State.onGang_spareRows (s : State) (c : CoreId) (g : GangId) (f : Gang → Gang) : (s.onGang c g f).spareRows = s.spareRows := rfl
@[simp] theorem State.onGang_jobs (s : State) (c : CoreId) (g : GangId) (f : Gang → Gang) : (s.onGang c g f).jobs = s.jobs := rfl
@[simp] theorem State.onGang_groups (s : State) (c : CoreId) (g : GangId) (f : Gang → Gang) : (s.onGang c g f).groups = s.groups := rfl
@[simp] theorem State.onGang_collIssues (s : State) (c : CoreId) (g : GangId) (f : Gang → Gang) : (s.onGang c g f).collIssues = s.collIssues := rfl
@[simp] theorem State.onGang_collRuns (s : State) (c : CoreId) (g : GangId) (f : Gang → Gang) : (s.onGang c g f).collRuns = s.collRuns := rfl
@[simp] theorem State.onGang_collNext (s : State) (c : CoreId) (g : GangId) (f : Gang → Gang) : (s.onGang c g f).collNext = s.collNext := rfl
@[simp] theorem State.onGang_deferred (s : State) (c : CoreId) (g : GangId) (f : Gang → Gang) : (s.onGang c g f).deferred = s.deferred := rfl
@[simp] theorem State.onGang_lateWait (s : State) (c : CoreId) (g : GangId) (f : Gang → Gang) : (s.onGang c g f).lateWait = s.lateWait := rfl
@[simp] theorem State.onGang_collEarly (s : State) (c : CoreId) (g : GangId) (f : Gang → Gang) : (s.onGang c g f).collEarly = s.collEarly := rfl
@[simp] theorem State.onGang_net (s : State) (c : CoreId) (g : GangId) (f : Gang → Gang) : (s.onGang c g f).net = s.net := rfl
@[simp] theorem State.onGang_flows (s : State) (c : CoreId) (g : GangId) (f : Gang → Gang) : (s.onGang c g f).flows = s.flows := rfl
@[simp] theorem State.onGang_heldFlows (s : State) (c : CoreId) (g : GangId) (f : Gang → Gang) : (s.onGang c g f).heldFlows = s.heldFlows := rfl
@[simp] theorem State.onGang_sentOps (s : State) (c : CoreId) (g : GangId) (f : Gang → Gang) : (s.onGang c g f).sentOps = s.sentOps := rfl
@[simp] theorem State.onGang_nextOp (s : State) (c : CoreId) (g : GangId) (f : Gang → Gang) : (s.onGang c g f).nextOp = s.nextOp := rfl
@[simp] theorem State.onGang_notices (s : State) (c : CoreId) (g : GangId) (f : Gang → Gang) : (s.onGang c g f).notices = s.notices := rfl
@[simp] theorem State.onGang_parked (s : State) (c : CoreId) (g : GangId) (f : Gang → Gang) : (s.onGang c g f).parked = s.parked := rfl
@[simp] theorem State.onGang_addGroups (s : State) (c : CoreId) (g : GangId) (f : Gang → Gang) : (s.onGang c g f).addGroups = s.addGroups := rfl
@[simp] theorem State.onGang_log (s : State) (c : CoreId) (g : GangId) (f : Gang → Gang) : (s.onGang c g f).log = s.log := rfl
@[simp] theorem State.onGang_repairUe (s : State) (c : CoreId) (g : GangId) (f : Gang → Gang) : (s.onGang c g f).repairUe = s.repairUe := rfl
@[simp] theorem State.onGang_repairCe (s : State) (c : CoreId) (g : GangId) (f : Gang → Gang) : (s.onGang c g f).repairCe = s.repairCe := rfl
@[simp] theorem State.onGang_badChannels (s : State) (c : CoreId) (g : GangId) (f : Gang → Gang) : (s.onGang c g f).badChannels = s.badChannels := rfl
@[simp] theorem State.onGang_badCores (s : State) (c : CoreId) (g : GangId) (f : Gang → Gang) : (s.onGang c g f).badCores = s.badCores := rfl
@[simp] theorem State.onGang_badBanks (s : State) (c : CoreId) (g : GangId) (f : Gang → Gang) : (s.onGang c g f).badBanks = s.badBanks := rfl
@[simp] theorem State.onGang_sbInt (s : State) (c : CoreId) (g : GangId) (f : Gang → Gang) : (s.onGang c g f).sbInt = s.sbInt := rfl
@[simp] theorem State.onGang_sbReply (s : State) (c : CoreId) (g : GangId) (f : Gang → Gang) : (s.onGang c g f).sbReply = s.sbReply := rfl
@[simp] theorem State.onGang_reply (s : State) (c : CoreId) (g : GangId) (f : Gang → Gang) : (s.onGang c g f).reply = s.reply := rfl
@[simp] theorem State.onGang_free (s : State) (c : CoreId) (g : GangId) (f : Gang → Gang) : (s.onGang c g f).free = s.free := rfl
@[simp] theorem State.onGang_viewer (s : State) (c : CoreId) (g : GangId) (f : Gang → Gang) : (s.onGang c g f).viewer = s.viewer := rfl

/-! ## `State.onQuarter` -/

@[simp] theorem State.onQuarter_pending (s : State) (q : QuarterId) (f : Quarter → Quarter) : (s.onQuarter q f).pending = s.pending := rfl
@[simp] theorem State.onQuarter_now (s : State) (q : QuarterId) (f : Quarter → Quarter) : (s.onQuarter q f).now = s.now := rfl
@[simp] theorem State.onQuarter_grade4810 (s : State) (q : QuarterId) (f : Quarter → Quarter) : (s.onQuarter q f).grade4810 = s.grade4810 := rfl
@[simp] theorem State.onQuarter_dev (s : State) (q : QuarterId) (f : Quarter → Quarter) : (s.onQuarter q f).dev = s.dev := rfl
@[simp] theorem State.onQuarter_fabricB (s : State) (q : QuarterId) (f : Quarter → Quarter) : (s.onQuarter q f).fabricB = s.fabricB := rfl
@[simp] theorem State.onQuarter_mem (s : State) (q : QuarterId) (f : Quarter → Quarter) : (s.onQuarter q f).mem = s.mem := rfl
@[simp] theorem State.onQuarter_poison (s : State) (q : QuarterId) (f : Quarter → Quarter) : (s.onQuarter q f).poison = s.poison := rfl
@[simp] theorem State.onQuarter_upsets (s : State) (q : QuarterId) (f : Quarter → Quarter) : (s.onQuarter q f).upsets = s.upsets := rfl
@[simp] theorem State.onQuarter_cores (s : State) (q : QuarterId) (f : Quarter → Quarter) : (s.onQuarter q f).cores = s.cores := rfl
@[simp] theorem State.onQuarter_piers (s : State) (q : QuarterId) (f : Quarter → Quarter) : (s.onQuarter q f).piers = s.piers := rfl
@[simp] theorem State.onQuarter_barriers (s : State) (q : QuarterId) (f : Quarter → Quarter) : (s.onQuarter q f).barriers = s.barriers := rfl
@[simp] theorem State.onQuarter_barOwner (s : State) (q : QuarterId) (f : Quarter → Quarter) : (s.onQuarter q f).barOwner = s.barOwner := rfl
@[simp] theorem State.onQuarter_parts (s : State) (q : QuarterId) (f : Quarter → Quarter) : (s.onQuarter q f).parts = s.parts := rfl
@[simp] theorem State.onQuarter_frames (s : State) (q : QuarterId) (f : Quarter → Quarter) : (s.onQuarter q f).frames = s.frames := rfl
@[simp] theorem State.onQuarter_regions (s : State) (q : QuarterId) (f : Quarter → Quarter) : (s.onQuarter q f).regions = s.regions := rfl
@[simp] theorem State.onQuarter_pwr (s : State) (q : QuarterId) (f : Quarter → Quarter) : (s.onQuarter q f).pwr = s.pwr := rfl
@[simp] theorem State.onQuarter_sec (s : State) (q : QuarterId) (f : Quarter → Quarter) : (s.onQuarter q f).sec = s.sec := rfl
@[simp] theorem State.onQuarter_boot (s : State) (q : QuarterId) (f : Quarter → Quarter) : (s.onQuarter q f).boot = s.boot := rfl
@[simp] theorem State.onQuarter_snapg (s : State) (q : QuarterId) (f : Quarter → Quarter) : (s.onQuarter q f).snapg = s.snapg := rfl
@[simp] theorem State.onQuarter_phases (s : State) (q : QuarterId) (f : Quarter → Quarter) : (s.onQuarter q f).phases = s.phases := rfl
@[simp] theorem State.onQuarter_latches (s : State) (q : QuarterId) (f : Quarter → Quarter) : (s.onQuarter q f).latches = s.latches := rfl
@[simp] theorem State.onQuarter_sbFault (s : State) (q : QuarterId) (f : Quarter → Quarter) : (s.onQuarter q f).sbFault = s.sbFault := rfl
@[simp] theorem State.onQuarter_adaptQ (s : State) (q : QuarterId) (f : Quarter → Quarter) : (s.onQuarter q f).adaptQ = s.adaptQ := rfl
@[simp] theorem State.onQuarter_spareRows (s : State) (q : QuarterId) (f : Quarter → Quarter) : (s.onQuarter q f).spareRows = s.spareRows := rfl
@[simp] theorem State.onQuarter_jobs (s : State) (q : QuarterId) (f : Quarter → Quarter) : (s.onQuarter q f).jobs = s.jobs := rfl
@[simp] theorem State.onQuarter_groups (s : State) (q : QuarterId) (f : Quarter → Quarter) : (s.onQuarter q f).groups = s.groups := rfl
@[simp] theorem State.onQuarter_collIssues (s : State) (q : QuarterId) (f : Quarter → Quarter) : (s.onQuarter q f).collIssues = s.collIssues := rfl
@[simp] theorem State.onQuarter_collRuns (s : State) (q : QuarterId) (f : Quarter → Quarter) : (s.onQuarter q f).collRuns = s.collRuns := rfl
@[simp] theorem State.onQuarter_collNext (s : State) (q : QuarterId) (f : Quarter → Quarter) : (s.onQuarter q f).collNext = s.collNext := rfl
@[simp] theorem State.onQuarter_deferred (s : State) (q : QuarterId) (f : Quarter → Quarter) : (s.onQuarter q f).deferred = s.deferred := rfl
@[simp] theorem State.onQuarter_lateWait (s : State) (q : QuarterId) (f : Quarter → Quarter) : (s.onQuarter q f).lateWait = s.lateWait := rfl
@[simp] theorem State.onQuarter_collEarly (s : State) (q : QuarterId) (f : Quarter → Quarter) : (s.onQuarter q f).collEarly = s.collEarly := rfl
@[simp] theorem State.onQuarter_net (s : State) (q : QuarterId) (f : Quarter → Quarter) : (s.onQuarter q f).net = s.net := rfl
@[simp] theorem State.onQuarter_flows (s : State) (q : QuarterId) (f : Quarter → Quarter) : (s.onQuarter q f).flows = s.flows := rfl
@[simp] theorem State.onQuarter_heldFlows (s : State) (q : QuarterId) (f : Quarter → Quarter) : (s.onQuarter q f).heldFlows = s.heldFlows := rfl
@[simp] theorem State.onQuarter_sentOps (s : State) (q : QuarterId) (f : Quarter → Quarter) : (s.onQuarter q f).sentOps = s.sentOps := rfl
@[simp] theorem State.onQuarter_nextOp (s : State) (q : QuarterId) (f : Quarter → Quarter) : (s.onQuarter q f).nextOp = s.nextOp := rfl
@[simp] theorem State.onQuarter_notices (s : State) (q : QuarterId) (f : Quarter → Quarter) : (s.onQuarter q f).notices = s.notices := rfl
@[simp] theorem State.onQuarter_parked (s : State) (q : QuarterId) (f : Quarter → Quarter) : (s.onQuarter q f).parked = s.parked := rfl
@[simp] theorem State.onQuarter_addGroups (s : State) (q : QuarterId) (f : Quarter → Quarter) : (s.onQuarter q f).addGroups = s.addGroups := rfl
@[simp] theorem State.onQuarter_log (s : State) (q : QuarterId) (f : Quarter → Quarter) : (s.onQuarter q f).log = s.log := rfl
@[simp] theorem State.onQuarter_repairUe (s : State) (q : QuarterId) (f : Quarter → Quarter) : (s.onQuarter q f).repairUe = s.repairUe := rfl
@[simp] theorem State.onQuarter_repairCe (s : State) (q : QuarterId) (f : Quarter → Quarter) : (s.onQuarter q f).repairCe = s.repairCe := rfl
@[simp] theorem State.onQuarter_badChannels (s : State) (q : QuarterId) (f : Quarter → Quarter) : (s.onQuarter q f).badChannels = s.badChannels := rfl
@[simp] theorem State.onQuarter_badCores (s : State) (q : QuarterId) (f : Quarter → Quarter) : (s.onQuarter q f).badCores = s.badCores := rfl
@[simp] theorem State.onQuarter_badBanks (s : State) (q : QuarterId) (f : Quarter → Quarter) : (s.onQuarter q f).badBanks = s.badBanks := rfl
@[simp] theorem State.onQuarter_sbInt (s : State) (q : QuarterId) (f : Quarter → Quarter) : (s.onQuarter q f).sbInt = s.sbInt := rfl
@[simp] theorem State.onQuarter_sbReply (s : State) (q : QuarterId) (f : Quarter → Quarter) : (s.onQuarter q f).sbReply = s.sbReply := rfl
@[simp] theorem State.onQuarter_reply (s : State) (q : QuarterId) (f : Quarter → Quarter) : (s.onQuarter q f).reply = s.reply := rfl
@[simp] theorem State.onQuarter_free (s : State) (q : QuarterId) (f : Quarter → Quarter) : (s.onQuarter q f).free = s.free := rfl
@[simp] theorem State.onQuarter_viewer (s : State) (q : QuarterId) (f : Quarter → Quarter) : (s.onQuarter q f).viewer = s.viewer := rfl

/-! ## `State.onPier` -/

@[simp] theorem State.onPier_pending (s : State) (p : PierId) (f : Pier → Pier) : (s.onPier p f).pending = s.pending := rfl
@[simp] theorem State.onPier_now (s : State) (p : PierId) (f : Pier → Pier) : (s.onPier p f).now = s.now := rfl
@[simp] theorem State.onPier_grade4810 (s : State) (p : PierId) (f : Pier → Pier) : (s.onPier p f).grade4810 = s.grade4810 := rfl
@[simp] theorem State.onPier_dev (s : State) (p : PierId) (f : Pier → Pier) : (s.onPier p f).dev = s.dev := rfl
@[simp] theorem State.onPier_fabricB (s : State) (p : PierId) (f : Pier → Pier) : (s.onPier p f).fabricB = s.fabricB := rfl
@[simp] theorem State.onPier_mem (s : State) (p : PierId) (f : Pier → Pier) : (s.onPier p f).mem = s.mem := rfl
@[simp] theorem State.onPier_poison (s : State) (p : PierId) (f : Pier → Pier) : (s.onPier p f).poison = s.poison := rfl
@[simp] theorem State.onPier_upsets (s : State) (p : PierId) (f : Pier → Pier) : (s.onPier p f).upsets = s.upsets := rfl
@[simp] theorem State.onPier_cores (s : State) (p : PierId) (f : Pier → Pier) : (s.onPier p f).cores = s.cores := rfl
@[simp] theorem State.onPier_quarters (s : State) (p : PierId) (f : Pier → Pier) : (s.onPier p f).quarters = s.quarters := rfl
@[simp] theorem State.onPier_barriers (s : State) (p : PierId) (f : Pier → Pier) : (s.onPier p f).barriers = s.barriers := rfl
@[simp] theorem State.onPier_barOwner (s : State) (p : PierId) (f : Pier → Pier) : (s.onPier p f).barOwner = s.barOwner := rfl
@[simp] theorem State.onPier_parts (s : State) (p : PierId) (f : Pier → Pier) : (s.onPier p f).parts = s.parts := rfl
@[simp] theorem State.onPier_frames (s : State) (p : PierId) (f : Pier → Pier) : (s.onPier p f).frames = s.frames := rfl
@[simp] theorem State.onPier_regions (s : State) (p : PierId) (f : Pier → Pier) : (s.onPier p f).regions = s.regions := rfl
@[simp] theorem State.onPier_pwr (s : State) (p : PierId) (f : Pier → Pier) : (s.onPier p f).pwr = s.pwr := rfl
@[simp] theorem State.onPier_sec (s : State) (p : PierId) (f : Pier → Pier) : (s.onPier p f).sec = s.sec := rfl
@[simp] theorem State.onPier_boot (s : State) (p : PierId) (f : Pier → Pier) : (s.onPier p f).boot = s.boot := rfl
@[simp] theorem State.onPier_snapg (s : State) (p : PierId) (f : Pier → Pier) : (s.onPier p f).snapg = s.snapg := rfl
@[simp] theorem State.onPier_phases (s : State) (p : PierId) (f : Pier → Pier) : (s.onPier p f).phases = s.phases := rfl
@[simp] theorem State.onPier_latches (s : State) (p : PierId) (f : Pier → Pier) : (s.onPier p f).latches = s.latches := rfl
@[simp] theorem State.onPier_sbFault (s : State) (p : PierId) (f : Pier → Pier) : (s.onPier p f).sbFault = s.sbFault := rfl
@[simp] theorem State.onPier_adaptQ (s : State) (p : PierId) (f : Pier → Pier) : (s.onPier p f).adaptQ = s.adaptQ := rfl
@[simp] theorem State.onPier_spareRows (s : State) (p : PierId) (f : Pier → Pier) : (s.onPier p f).spareRows = s.spareRows := rfl
@[simp] theorem State.onPier_jobs (s : State) (p : PierId) (f : Pier → Pier) : (s.onPier p f).jobs = s.jobs := rfl
@[simp] theorem State.onPier_groups (s : State) (p : PierId) (f : Pier → Pier) : (s.onPier p f).groups = s.groups := rfl
@[simp] theorem State.onPier_collIssues (s : State) (p : PierId) (f : Pier → Pier) : (s.onPier p f).collIssues = s.collIssues := rfl
@[simp] theorem State.onPier_collRuns (s : State) (p : PierId) (f : Pier → Pier) : (s.onPier p f).collRuns = s.collRuns := rfl
@[simp] theorem State.onPier_collNext (s : State) (p : PierId) (f : Pier → Pier) : (s.onPier p f).collNext = s.collNext := rfl
@[simp] theorem State.onPier_deferred (s : State) (p : PierId) (f : Pier → Pier) : (s.onPier p f).deferred = s.deferred := rfl
@[simp] theorem State.onPier_lateWait (s : State) (p : PierId) (f : Pier → Pier) : (s.onPier p f).lateWait = s.lateWait := rfl
@[simp] theorem State.onPier_collEarly (s : State) (p : PierId) (f : Pier → Pier) : (s.onPier p f).collEarly = s.collEarly := rfl
@[simp] theorem State.onPier_net (s : State) (p : PierId) (f : Pier → Pier) : (s.onPier p f).net = s.net := rfl
@[simp] theorem State.onPier_flows (s : State) (p : PierId) (f : Pier → Pier) : (s.onPier p f).flows = s.flows := rfl
@[simp] theorem State.onPier_heldFlows (s : State) (p : PierId) (f : Pier → Pier) : (s.onPier p f).heldFlows = s.heldFlows := rfl
@[simp] theorem State.onPier_sentOps (s : State) (p : PierId) (f : Pier → Pier) : (s.onPier p f).sentOps = s.sentOps := rfl
@[simp] theorem State.onPier_nextOp (s : State) (p : PierId) (f : Pier → Pier) : (s.onPier p f).nextOp = s.nextOp := rfl
@[simp] theorem State.onPier_notices (s : State) (p : PierId) (f : Pier → Pier) : (s.onPier p f).notices = s.notices := rfl
@[simp] theorem State.onPier_parked (s : State) (p : PierId) (f : Pier → Pier) : (s.onPier p f).parked = s.parked := rfl
@[simp] theorem State.onPier_addGroups (s : State) (p : PierId) (f : Pier → Pier) : (s.onPier p f).addGroups = s.addGroups := rfl
@[simp] theorem State.onPier_log (s : State) (p : PierId) (f : Pier → Pier) : (s.onPier p f).log = s.log := rfl
@[simp] theorem State.onPier_repairUe (s : State) (p : PierId) (f : Pier → Pier) : (s.onPier p f).repairUe = s.repairUe := rfl
@[simp] theorem State.onPier_repairCe (s : State) (p : PierId) (f : Pier → Pier) : (s.onPier p f).repairCe = s.repairCe := rfl
@[simp] theorem State.onPier_badChannels (s : State) (p : PierId) (f : Pier → Pier) : (s.onPier p f).badChannels = s.badChannels := rfl
@[simp] theorem State.onPier_badCores (s : State) (p : PierId) (f : Pier → Pier) : (s.onPier p f).badCores = s.badCores := rfl
@[simp] theorem State.onPier_badBanks (s : State) (p : PierId) (f : Pier → Pier) : (s.onPier p f).badBanks = s.badBanks := rfl
@[simp] theorem State.onPier_sbInt (s : State) (p : PierId) (f : Pier → Pier) : (s.onPier p f).sbInt = s.sbInt := rfl
@[simp] theorem State.onPier_sbReply (s : State) (p : PierId) (f : Pier → Pier) : (s.onPier p f).sbReply = s.sbReply := rfl
@[simp] theorem State.onPier_reply (s : State) (p : PierId) (f : Pier → Pier) : (s.onPier p f).reply = s.reply := rfl
@[simp] theorem State.onPier_free (s : State) (p : PierId) (f : Pier → Pier) : (s.onPier p f).free = s.free := rfl
@[simp] theorem State.onPier_viewer (s : State) (p : PierId) (f : Pier → Pier) : (s.onPier p f).viewer = s.viewer := rfl

/-! ## `State.onPart` -/

@[simp] theorem State.onPart_pending (s : State) (p : PartId) (f : Part → Part) : (s.onPart p f).pending = s.pending := rfl
@[simp] theorem State.onPart_now (s : State) (p : PartId) (f : Part → Part) : (s.onPart p f).now = s.now := rfl
@[simp] theorem State.onPart_grade4810 (s : State) (p : PartId) (f : Part → Part) : (s.onPart p f).grade4810 = s.grade4810 := rfl
@[simp] theorem State.onPart_dev (s : State) (p : PartId) (f : Part → Part) : (s.onPart p f).dev = s.dev := rfl
@[simp] theorem State.onPart_fabricB (s : State) (p : PartId) (f : Part → Part) : (s.onPart p f).fabricB = s.fabricB := rfl
@[simp] theorem State.onPart_mem (s : State) (p : PartId) (f : Part → Part) : (s.onPart p f).mem = s.mem := rfl
@[simp] theorem State.onPart_poison (s : State) (p : PartId) (f : Part → Part) : (s.onPart p f).poison = s.poison := rfl
@[simp] theorem State.onPart_upsets (s : State) (p : PartId) (f : Part → Part) : (s.onPart p f).upsets = s.upsets := rfl
@[simp] theorem State.onPart_cores (s : State) (p : PartId) (f : Part → Part) : (s.onPart p f).cores = s.cores := rfl
@[simp] theorem State.onPart_quarters (s : State) (p : PartId) (f : Part → Part) : (s.onPart p f).quarters = s.quarters := rfl
@[simp] theorem State.onPart_piers (s : State) (p : PartId) (f : Part → Part) : (s.onPart p f).piers = s.piers := rfl
@[simp] theorem State.onPart_barriers (s : State) (p : PartId) (f : Part → Part) : (s.onPart p f).barriers = s.barriers := rfl
@[simp] theorem State.onPart_barOwner (s : State) (p : PartId) (f : Part → Part) : (s.onPart p f).barOwner = s.barOwner := rfl
@[simp] theorem State.onPart_frames (s : State) (p : PartId) (f : Part → Part) : (s.onPart p f).frames = s.frames := rfl
@[simp] theorem State.onPart_regions (s : State) (p : PartId) (f : Part → Part) : (s.onPart p f).regions = s.regions := rfl
@[simp] theorem State.onPart_pwr (s : State) (p : PartId) (f : Part → Part) : (s.onPart p f).pwr = s.pwr := rfl
@[simp] theorem State.onPart_sec (s : State) (p : PartId) (f : Part → Part) : (s.onPart p f).sec = s.sec := rfl
@[simp] theorem State.onPart_boot (s : State) (p : PartId) (f : Part → Part) : (s.onPart p f).boot = s.boot := rfl
@[simp] theorem State.onPart_snapg (s : State) (p : PartId) (f : Part → Part) : (s.onPart p f).snapg = s.snapg := rfl
@[simp] theorem State.onPart_phases (s : State) (p : PartId) (f : Part → Part) : (s.onPart p f).phases = s.phases := rfl
@[simp] theorem State.onPart_latches (s : State) (p : PartId) (f : Part → Part) : (s.onPart p f).latches = s.latches := rfl
@[simp] theorem State.onPart_sbFault (s : State) (p : PartId) (f : Part → Part) : (s.onPart p f).sbFault = s.sbFault := rfl
@[simp] theorem State.onPart_adaptQ (s : State) (p : PartId) (f : Part → Part) : (s.onPart p f).adaptQ = s.adaptQ := rfl
@[simp] theorem State.onPart_spareRows (s : State) (p : PartId) (f : Part → Part) : (s.onPart p f).spareRows = s.spareRows := rfl
@[simp] theorem State.onPart_jobs (s : State) (p : PartId) (f : Part → Part) : (s.onPart p f).jobs = s.jobs := rfl
@[simp] theorem State.onPart_groups (s : State) (p : PartId) (f : Part → Part) : (s.onPart p f).groups = s.groups := rfl
@[simp] theorem State.onPart_collIssues (s : State) (p : PartId) (f : Part → Part) : (s.onPart p f).collIssues = s.collIssues := rfl
@[simp] theorem State.onPart_collRuns (s : State) (p : PartId) (f : Part → Part) : (s.onPart p f).collRuns = s.collRuns := rfl
@[simp] theorem State.onPart_collNext (s : State) (p : PartId) (f : Part → Part) : (s.onPart p f).collNext = s.collNext := rfl
@[simp] theorem State.onPart_deferred (s : State) (p : PartId) (f : Part → Part) : (s.onPart p f).deferred = s.deferred := rfl
@[simp] theorem State.onPart_lateWait (s : State) (p : PartId) (f : Part → Part) : (s.onPart p f).lateWait = s.lateWait := rfl
@[simp] theorem State.onPart_collEarly (s : State) (p : PartId) (f : Part → Part) : (s.onPart p f).collEarly = s.collEarly := rfl
@[simp] theorem State.onPart_net (s : State) (p : PartId) (f : Part → Part) : (s.onPart p f).net = s.net := rfl
@[simp] theorem State.onPart_flows (s : State) (p : PartId) (f : Part → Part) : (s.onPart p f).flows = s.flows := rfl
@[simp] theorem State.onPart_heldFlows (s : State) (p : PartId) (f : Part → Part) : (s.onPart p f).heldFlows = s.heldFlows := rfl
@[simp] theorem State.onPart_sentOps (s : State) (p : PartId) (f : Part → Part) : (s.onPart p f).sentOps = s.sentOps := rfl
@[simp] theorem State.onPart_nextOp (s : State) (p : PartId) (f : Part → Part) : (s.onPart p f).nextOp = s.nextOp := rfl
@[simp] theorem State.onPart_notices (s : State) (p : PartId) (f : Part → Part) : (s.onPart p f).notices = s.notices := rfl
@[simp] theorem State.onPart_parked (s : State) (p : PartId) (f : Part → Part) : (s.onPart p f).parked = s.parked := rfl
@[simp] theorem State.onPart_addGroups (s : State) (p : PartId) (f : Part → Part) : (s.onPart p f).addGroups = s.addGroups := rfl
@[simp] theorem State.onPart_log (s : State) (p : PartId) (f : Part → Part) : (s.onPart p f).log = s.log := rfl
@[simp] theorem State.onPart_repairUe (s : State) (p : PartId) (f : Part → Part) : (s.onPart p f).repairUe = s.repairUe := rfl
@[simp] theorem State.onPart_repairCe (s : State) (p : PartId) (f : Part → Part) : (s.onPart p f).repairCe = s.repairCe := rfl
@[simp] theorem State.onPart_badChannels (s : State) (p : PartId) (f : Part → Part) : (s.onPart p f).badChannels = s.badChannels := rfl
@[simp] theorem State.onPart_badCores (s : State) (p : PartId) (f : Part → Part) : (s.onPart p f).badCores = s.badCores := rfl
@[simp] theorem State.onPart_badBanks (s : State) (p : PartId) (f : Part → Part) : (s.onPart p f).badBanks = s.badBanks := rfl
@[simp] theorem State.onPart_sbInt (s : State) (p : PartId) (f : Part → Part) : (s.onPart p f).sbInt = s.sbInt := rfl
@[simp] theorem State.onPart_sbReply (s : State) (p : PartId) (f : Part → Part) : (s.onPart p f).sbReply = s.sbReply := rfl
@[simp] theorem State.onPart_reply (s : State) (p : PartId) (f : Part → Part) : (s.onPart p f).reply = s.reply := rfl
@[simp] theorem State.onPart_free (s : State) (p : PartId) (f : Part → Part) : (s.onPart p f).free = s.free := rfl
@[simp] theorem State.onPart_viewer (s : State) (p : PartId) (f : Part → Part) : (s.onPart p f).viewer = s.viewer := rfl

/-! ## `State.onPwr` -/

@[simp] theorem State.onPwr_pending (s : State) (f : Pwr → Pwr) : (s.onPwr f).pending = s.pending := rfl
@[simp] theorem State.onPwr_now (s : State) (f : Pwr → Pwr) : (s.onPwr f).now = s.now := rfl
@[simp] theorem State.onPwr_grade4810 (s : State) (f : Pwr → Pwr) : (s.onPwr f).grade4810 = s.grade4810 := rfl
@[simp] theorem State.onPwr_dev (s : State) (f : Pwr → Pwr) : (s.onPwr f).dev = s.dev := rfl
@[simp] theorem State.onPwr_fabricB (s : State) (f : Pwr → Pwr) : (s.onPwr f).fabricB = s.fabricB := rfl
@[simp] theorem State.onPwr_mem (s : State) (f : Pwr → Pwr) : (s.onPwr f).mem = s.mem := rfl
@[simp] theorem State.onPwr_poison (s : State) (f : Pwr → Pwr) : (s.onPwr f).poison = s.poison := rfl
@[simp] theorem State.onPwr_upsets (s : State) (f : Pwr → Pwr) : (s.onPwr f).upsets = s.upsets := rfl
@[simp] theorem State.onPwr_cores (s : State) (f : Pwr → Pwr) : (s.onPwr f).cores = s.cores := rfl
@[simp] theorem State.onPwr_quarters (s : State) (f : Pwr → Pwr) : (s.onPwr f).quarters = s.quarters := rfl
@[simp] theorem State.onPwr_piers (s : State) (f : Pwr → Pwr) : (s.onPwr f).piers = s.piers := rfl
@[simp] theorem State.onPwr_barriers (s : State) (f : Pwr → Pwr) : (s.onPwr f).barriers = s.barriers := rfl
@[simp] theorem State.onPwr_barOwner (s : State) (f : Pwr → Pwr) : (s.onPwr f).barOwner = s.barOwner := rfl
@[simp] theorem State.onPwr_parts (s : State) (f : Pwr → Pwr) : (s.onPwr f).parts = s.parts := rfl
@[simp] theorem State.onPwr_frames (s : State) (f : Pwr → Pwr) : (s.onPwr f).frames = s.frames := rfl
@[simp] theorem State.onPwr_regions (s : State) (f : Pwr → Pwr) : (s.onPwr f).regions = s.regions := rfl
@[simp] theorem State.onPwr_sec (s : State) (f : Pwr → Pwr) : (s.onPwr f).sec = s.sec := rfl
@[simp] theorem State.onPwr_boot (s : State) (f : Pwr → Pwr) : (s.onPwr f).boot = s.boot := rfl
@[simp] theorem State.onPwr_snapg (s : State) (f : Pwr → Pwr) : (s.onPwr f).snapg = s.snapg := rfl
@[simp] theorem State.onPwr_phases (s : State) (f : Pwr → Pwr) : (s.onPwr f).phases = s.phases := rfl
@[simp] theorem State.onPwr_latches (s : State) (f : Pwr → Pwr) : (s.onPwr f).latches = s.latches := rfl
@[simp] theorem State.onPwr_sbFault (s : State) (f : Pwr → Pwr) : (s.onPwr f).sbFault = s.sbFault := rfl
@[simp] theorem State.onPwr_adaptQ (s : State) (f : Pwr → Pwr) : (s.onPwr f).adaptQ = s.adaptQ := rfl
@[simp] theorem State.onPwr_spareRows (s : State) (f : Pwr → Pwr) : (s.onPwr f).spareRows = s.spareRows := rfl
@[simp] theorem State.onPwr_jobs (s : State) (f : Pwr → Pwr) : (s.onPwr f).jobs = s.jobs := rfl
@[simp] theorem State.onPwr_groups (s : State) (f : Pwr → Pwr) : (s.onPwr f).groups = s.groups := rfl
@[simp] theorem State.onPwr_collIssues (s : State) (f : Pwr → Pwr) : (s.onPwr f).collIssues = s.collIssues := rfl
@[simp] theorem State.onPwr_collRuns (s : State) (f : Pwr → Pwr) : (s.onPwr f).collRuns = s.collRuns := rfl
@[simp] theorem State.onPwr_collNext (s : State) (f : Pwr → Pwr) : (s.onPwr f).collNext = s.collNext := rfl
@[simp] theorem State.onPwr_deferred (s : State) (f : Pwr → Pwr) : (s.onPwr f).deferred = s.deferred := rfl
@[simp] theorem State.onPwr_lateWait (s : State) (f : Pwr → Pwr) : (s.onPwr f).lateWait = s.lateWait := rfl
@[simp] theorem State.onPwr_collEarly (s : State) (f : Pwr → Pwr) : (s.onPwr f).collEarly = s.collEarly := rfl
@[simp] theorem State.onPwr_net (s : State) (f : Pwr → Pwr) : (s.onPwr f).net = s.net := rfl
@[simp] theorem State.onPwr_flows (s : State) (f : Pwr → Pwr) : (s.onPwr f).flows = s.flows := rfl
@[simp] theorem State.onPwr_heldFlows (s : State) (f : Pwr → Pwr) : (s.onPwr f).heldFlows = s.heldFlows := rfl
@[simp] theorem State.onPwr_sentOps (s : State) (f : Pwr → Pwr) : (s.onPwr f).sentOps = s.sentOps := rfl
@[simp] theorem State.onPwr_nextOp (s : State) (f : Pwr → Pwr) : (s.onPwr f).nextOp = s.nextOp := rfl
@[simp] theorem State.onPwr_notices (s : State) (f : Pwr → Pwr) : (s.onPwr f).notices = s.notices := rfl
@[simp] theorem State.onPwr_parked (s : State) (f : Pwr → Pwr) : (s.onPwr f).parked = s.parked := rfl
@[simp] theorem State.onPwr_addGroups (s : State) (f : Pwr → Pwr) : (s.onPwr f).addGroups = s.addGroups := rfl
@[simp] theorem State.onPwr_log (s : State) (f : Pwr → Pwr) : (s.onPwr f).log = s.log := rfl
@[simp] theorem State.onPwr_repairUe (s : State) (f : Pwr → Pwr) : (s.onPwr f).repairUe = s.repairUe := rfl
@[simp] theorem State.onPwr_repairCe (s : State) (f : Pwr → Pwr) : (s.onPwr f).repairCe = s.repairCe := rfl
@[simp] theorem State.onPwr_badChannels (s : State) (f : Pwr → Pwr) : (s.onPwr f).badChannels = s.badChannels := rfl
@[simp] theorem State.onPwr_badCores (s : State) (f : Pwr → Pwr) : (s.onPwr f).badCores = s.badCores := rfl
@[simp] theorem State.onPwr_badBanks (s : State) (f : Pwr → Pwr) : (s.onPwr f).badBanks = s.badBanks := rfl
@[simp] theorem State.onPwr_sbInt (s : State) (f : Pwr → Pwr) : (s.onPwr f).sbInt = s.sbInt := rfl
@[simp] theorem State.onPwr_sbReply (s : State) (f : Pwr → Pwr) : (s.onPwr f).sbReply = s.sbReply := rfl
@[simp] theorem State.onPwr_reply (s : State) (f : Pwr → Pwr) : (s.onPwr f).reply = s.reply := rfl
@[simp] theorem State.onPwr_free (s : State) (f : Pwr → Pwr) : (s.onPwr f).free = s.free := rfl
@[simp] theorem State.onPwr_viewer (s : State) (f : Pwr → Pwr) : (s.onPwr f).viewer = s.viewer := rfl

/-! ## `State.onSec` -/

@[simp] theorem State.onSec_pending (s : State) (f : Sec → Sec) : (s.onSec f).pending = s.pending := rfl
@[simp] theorem State.onSec_now (s : State) (f : Sec → Sec) : (s.onSec f).now = s.now := rfl
@[simp] theorem State.onSec_grade4810 (s : State) (f : Sec → Sec) : (s.onSec f).grade4810 = s.grade4810 := rfl
@[simp] theorem State.onSec_dev (s : State) (f : Sec → Sec) : (s.onSec f).dev = s.dev := rfl
@[simp] theorem State.onSec_fabricB (s : State) (f : Sec → Sec) : (s.onSec f).fabricB = s.fabricB := rfl
@[simp] theorem State.onSec_mem (s : State) (f : Sec → Sec) : (s.onSec f).mem = s.mem := rfl
@[simp] theorem State.onSec_poison (s : State) (f : Sec → Sec) : (s.onSec f).poison = s.poison := rfl
@[simp] theorem State.onSec_upsets (s : State) (f : Sec → Sec) : (s.onSec f).upsets = s.upsets := rfl
@[simp] theorem State.onSec_cores (s : State) (f : Sec → Sec) : (s.onSec f).cores = s.cores := rfl
@[simp] theorem State.onSec_quarters (s : State) (f : Sec → Sec) : (s.onSec f).quarters = s.quarters := rfl
@[simp] theorem State.onSec_piers (s : State) (f : Sec → Sec) : (s.onSec f).piers = s.piers := rfl
@[simp] theorem State.onSec_barriers (s : State) (f : Sec → Sec) : (s.onSec f).barriers = s.barriers := rfl
@[simp] theorem State.onSec_barOwner (s : State) (f : Sec → Sec) : (s.onSec f).barOwner = s.barOwner := rfl
@[simp] theorem State.onSec_parts (s : State) (f : Sec → Sec) : (s.onSec f).parts = s.parts := rfl
@[simp] theorem State.onSec_frames (s : State) (f : Sec → Sec) : (s.onSec f).frames = s.frames := rfl
@[simp] theorem State.onSec_regions (s : State) (f : Sec → Sec) : (s.onSec f).regions = s.regions := rfl
@[simp] theorem State.onSec_pwr (s : State) (f : Sec → Sec) : (s.onSec f).pwr = s.pwr := rfl
@[simp] theorem State.onSec_boot (s : State) (f : Sec → Sec) : (s.onSec f).boot = s.boot := rfl
@[simp] theorem State.onSec_snapg (s : State) (f : Sec → Sec) : (s.onSec f).snapg = s.snapg := rfl
@[simp] theorem State.onSec_phases (s : State) (f : Sec → Sec) : (s.onSec f).phases = s.phases := rfl
@[simp] theorem State.onSec_latches (s : State) (f : Sec → Sec) : (s.onSec f).latches = s.latches := rfl
@[simp] theorem State.onSec_sbFault (s : State) (f : Sec → Sec) : (s.onSec f).sbFault = s.sbFault := rfl
@[simp] theorem State.onSec_adaptQ (s : State) (f : Sec → Sec) : (s.onSec f).adaptQ = s.adaptQ := rfl
@[simp] theorem State.onSec_spareRows (s : State) (f : Sec → Sec) : (s.onSec f).spareRows = s.spareRows := rfl
@[simp] theorem State.onSec_jobs (s : State) (f : Sec → Sec) : (s.onSec f).jobs = s.jobs := rfl
@[simp] theorem State.onSec_groups (s : State) (f : Sec → Sec) : (s.onSec f).groups = s.groups := rfl
@[simp] theorem State.onSec_collIssues (s : State) (f : Sec → Sec) : (s.onSec f).collIssues = s.collIssues := rfl
@[simp] theorem State.onSec_collRuns (s : State) (f : Sec → Sec) : (s.onSec f).collRuns = s.collRuns := rfl
@[simp] theorem State.onSec_collNext (s : State) (f : Sec → Sec) : (s.onSec f).collNext = s.collNext := rfl
@[simp] theorem State.onSec_deferred (s : State) (f : Sec → Sec) : (s.onSec f).deferred = s.deferred := rfl
@[simp] theorem State.onSec_lateWait (s : State) (f : Sec → Sec) : (s.onSec f).lateWait = s.lateWait := rfl
@[simp] theorem State.onSec_collEarly (s : State) (f : Sec → Sec) : (s.onSec f).collEarly = s.collEarly := rfl
@[simp] theorem State.onSec_net (s : State) (f : Sec → Sec) : (s.onSec f).net = s.net := rfl
@[simp] theorem State.onSec_flows (s : State) (f : Sec → Sec) : (s.onSec f).flows = s.flows := rfl
@[simp] theorem State.onSec_heldFlows (s : State) (f : Sec → Sec) : (s.onSec f).heldFlows = s.heldFlows := rfl
@[simp] theorem State.onSec_sentOps (s : State) (f : Sec → Sec) : (s.onSec f).sentOps = s.sentOps := rfl
@[simp] theorem State.onSec_nextOp (s : State) (f : Sec → Sec) : (s.onSec f).nextOp = s.nextOp := rfl
@[simp] theorem State.onSec_notices (s : State) (f : Sec → Sec) : (s.onSec f).notices = s.notices := rfl
@[simp] theorem State.onSec_parked (s : State) (f : Sec → Sec) : (s.onSec f).parked = s.parked := rfl
@[simp] theorem State.onSec_addGroups (s : State) (f : Sec → Sec) : (s.onSec f).addGroups = s.addGroups := rfl
@[simp] theorem State.onSec_log (s : State) (f : Sec → Sec) : (s.onSec f).log = s.log := rfl
@[simp] theorem State.onSec_repairUe (s : State) (f : Sec → Sec) : (s.onSec f).repairUe = s.repairUe := rfl
@[simp] theorem State.onSec_repairCe (s : State) (f : Sec → Sec) : (s.onSec f).repairCe = s.repairCe := rfl
@[simp] theorem State.onSec_badChannels (s : State) (f : Sec → Sec) : (s.onSec f).badChannels = s.badChannels := rfl
@[simp] theorem State.onSec_badCores (s : State) (f : Sec → Sec) : (s.onSec f).badCores = s.badCores := rfl
@[simp] theorem State.onSec_badBanks (s : State) (f : Sec → Sec) : (s.onSec f).badBanks = s.badBanks := rfl
@[simp] theorem State.onSec_sbInt (s : State) (f : Sec → Sec) : (s.onSec f).sbInt = s.sbInt := rfl
@[simp] theorem State.onSec_sbReply (s : State) (f : Sec → Sec) : (s.onSec f).sbReply = s.sbReply := rfl
@[simp] theorem State.onSec_reply (s : State) (f : Sec → Sec) : (s.onSec f).reply = s.reply := rfl
@[simp] theorem State.onSec_free (s : State) (f : Sec → Sec) : (s.onSec f).free = s.free := rfl
@[simp] theorem State.onSec_viewer (s : State) (f : Sec → Sec) : (s.onSec f).viewer = s.viewer := rfl

/-! ## `State.onBoot` -/

@[simp] theorem State.onBoot_pending (s : State) (f : Boot → Boot) : (s.onBoot f).pending = s.pending := rfl
@[simp] theorem State.onBoot_now (s : State) (f : Boot → Boot) : (s.onBoot f).now = s.now := rfl
@[simp] theorem State.onBoot_grade4810 (s : State) (f : Boot → Boot) : (s.onBoot f).grade4810 = s.grade4810 := rfl
@[simp] theorem State.onBoot_dev (s : State) (f : Boot → Boot) : (s.onBoot f).dev = s.dev := rfl
@[simp] theorem State.onBoot_fabricB (s : State) (f : Boot → Boot) : (s.onBoot f).fabricB = s.fabricB := rfl
@[simp] theorem State.onBoot_mem (s : State) (f : Boot → Boot) : (s.onBoot f).mem = s.mem := rfl
@[simp] theorem State.onBoot_poison (s : State) (f : Boot → Boot) : (s.onBoot f).poison = s.poison := rfl
@[simp] theorem State.onBoot_upsets (s : State) (f : Boot → Boot) : (s.onBoot f).upsets = s.upsets := rfl
@[simp] theorem State.onBoot_cores (s : State) (f : Boot → Boot) : (s.onBoot f).cores = s.cores := rfl
@[simp] theorem State.onBoot_quarters (s : State) (f : Boot → Boot) : (s.onBoot f).quarters = s.quarters := rfl
@[simp] theorem State.onBoot_piers (s : State) (f : Boot → Boot) : (s.onBoot f).piers = s.piers := rfl
@[simp] theorem State.onBoot_barriers (s : State) (f : Boot → Boot) : (s.onBoot f).barriers = s.barriers := rfl
@[simp] theorem State.onBoot_barOwner (s : State) (f : Boot → Boot) : (s.onBoot f).barOwner = s.barOwner := rfl
@[simp] theorem State.onBoot_parts (s : State) (f : Boot → Boot) : (s.onBoot f).parts = s.parts := rfl
@[simp] theorem State.onBoot_frames (s : State) (f : Boot → Boot) : (s.onBoot f).frames = s.frames := rfl
@[simp] theorem State.onBoot_regions (s : State) (f : Boot → Boot) : (s.onBoot f).regions = s.regions := rfl
@[simp] theorem State.onBoot_pwr (s : State) (f : Boot → Boot) : (s.onBoot f).pwr = s.pwr := rfl
@[simp] theorem State.onBoot_sec (s : State) (f : Boot → Boot) : (s.onBoot f).sec = s.sec := rfl
@[simp] theorem State.onBoot_snapg (s : State) (f : Boot → Boot) : (s.onBoot f).snapg = s.snapg := rfl
@[simp] theorem State.onBoot_phases (s : State) (f : Boot → Boot) : (s.onBoot f).phases = s.phases := rfl
@[simp] theorem State.onBoot_latches (s : State) (f : Boot → Boot) : (s.onBoot f).latches = s.latches := rfl
@[simp] theorem State.onBoot_sbFault (s : State) (f : Boot → Boot) : (s.onBoot f).sbFault = s.sbFault := rfl
@[simp] theorem State.onBoot_adaptQ (s : State) (f : Boot → Boot) : (s.onBoot f).adaptQ = s.adaptQ := rfl
@[simp] theorem State.onBoot_spareRows (s : State) (f : Boot → Boot) : (s.onBoot f).spareRows = s.spareRows := rfl
@[simp] theorem State.onBoot_jobs (s : State) (f : Boot → Boot) : (s.onBoot f).jobs = s.jobs := rfl
@[simp] theorem State.onBoot_groups (s : State) (f : Boot → Boot) : (s.onBoot f).groups = s.groups := rfl
@[simp] theorem State.onBoot_collIssues (s : State) (f : Boot → Boot) : (s.onBoot f).collIssues = s.collIssues := rfl
@[simp] theorem State.onBoot_collRuns (s : State) (f : Boot → Boot) : (s.onBoot f).collRuns = s.collRuns := rfl
@[simp] theorem State.onBoot_collNext (s : State) (f : Boot → Boot) : (s.onBoot f).collNext = s.collNext := rfl
@[simp] theorem State.onBoot_deferred (s : State) (f : Boot → Boot) : (s.onBoot f).deferred = s.deferred := rfl
@[simp] theorem State.onBoot_lateWait (s : State) (f : Boot → Boot) : (s.onBoot f).lateWait = s.lateWait := rfl
@[simp] theorem State.onBoot_collEarly (s : State) (f : Boot → Boot) : (s.onBoot f).collEarly = s.collEarly := rfl
@[simp] theorem State.onBoot_net (s : State) (f : Boot → Boot) : (s.onBoot f).net = s.net := rfl
@[simp] theorem State.onBoot_flows (s : State) (f : Boot → Boot) : (s.onBoot f).flows = s.flows := rfl
@[simp] theorem State.onBoot_heldFlows (s : State) (f : Boot → Boot) : (s.onBoot f).heldFlows = s.heldFlows := rfl
@[simp] theorem State.onBoot_sentOps (s : State) (f : Boot → Boot) : (s.onBoot f).sentOps = s.sentOps := rfl
@[simp] theorem State.onBoot_nextOp (s : State) (f : Boot → Boot) : (s.onBoot f).nextOp = s.nextOp := rfl
@[simp] theorem State.onBoot_notices (s : State) (f : Boot → Boot) : (s.onBoot f).notices = s.notices := rfl
@[simp] theorem State.onBoot_parked (s : State) (f : Boot → Boot) : (s.onBoot f).parked = s.parked := rfl
@[simp] theorem State.onBoot_addGroups (s : State) (f : Boot → Boot) : (s.onBoot f).addGroups = s.addGroups := rfl
@[simp] theorem State.onBoot_log (s : State) (f : Boot → Boot) : (s.onBoot f).log = s.log := rfl
@[simp] theorem State.onBoot_repairUe (s : State) (f : Boot → Boot) : (s.onBoot f).repairUe = s.repairUe := rfl
@[simp] theorem State.onBoot_repairCe (s : State) (f : Boot → Boot) : (s.onBoot f).repairCe = s.repairCe := rfl
@[simp] theorem State.onBoot_badChannels (s : State) (f : Boot → Boot) : (s.onBoot f).badChannels = s.badChannels := rfl
@[simp] theorem State.onBoot_badCores (s : State) (f : Boot → Boot) : (s.onBoot f).badCores = s.badCores := rfl
@[simp] theorem State.onBoot_badBanks (s : State) (f : Boot → Boot) : (s.onBoot f).badBanks = s.badBanks := rfl
@[simp] theorem State.onBoot_sbInt (s : State) (f : Boot → Boot) : (s.onBoot f).sbInt = s.sbInt := rfl
@[simp] theorem State.onBoot_sbReply (s : State) (f : Boot → Boot) : (s.onBoot f).sbReply = s.sbReply := rfl
@[simp] theorem State.onBoot_reply (s : State) (f : Boot → Boot) : (s.onBoot f).reply = s.reply := rfl
@[simp] theorem State.onBoot_free (s : State) (f : Boot → Boot) : (s.onBoot f).free = s.free := rfl
@[simp] theorem State.onBoot_viewer (s : State) (f : Boot → Boot) : (s.onBoot f).viewer = s.viewer := rfl

/-! ## `State.onSnapg` -/

@[simp] theorem State.onSnapg_pending (s : State) (f : Snapg → Snapg) : (s.onSnapg f).pending = s.pending := rfl
@[simp] theorem State.onSnapg_now (s : State) (f : Snapg → Snapg) : (s.onSnapg f).now = s.now := rfl
@[simp] theorem State.onSnapg_grade4810 (s : State) (f : Snapg → Snapg) : (s.onSnapg f).grade4810 = s.grade4810 := rfl
@[simp] theorem State.onSnapg_dev (s : State) (f : Snapg → Snapg) : (s.onSnapg f).dev = s.dev := rfl
@[simp] theorem State.onSnapg_fabricB (s : State) (f : Snapg → Snapg) : (s.onSnapg f).fabricB = s.fabricB := rfl
@[simp] theorem State.onSnapg_mem (s : State) (f : Snapg → Snapg) : (s.onSnapg f).mem = s.mem := rfl
@[simp] theorem State.onSnapg_poison (s : State) (f : Snapg → Snapg) : (s.onSnapg f).poison = s.poison := rfl
@[simp] theorem State.onSnapg_upsets (s : State) (f : Snapg → Snapg) : (s.onSnapg f).upsets = s.upsets := rfl
@[simp] theorem State.onSnapg_cores (s : State) (f : Snapg → Snapg) : (s.onSnapg f).cores = s.cores := rfl
@[simp] theorem State.onSnapg_quarters (s : State) (f : Snapg → Snapg) : (s.onSnapg f).quarters = s.quarters := rfl
@[simp] theorem State.onSnapg_piers (s : State) (f : Snapg → Snapg) : (s.onSnapg f).piers = s.piers := rfl
@[simp] theorem State.onSnapg_barriers (s : State) (f : Snapg → Snapg) : (s.onSnapg f).barriers = s.barriers := rfl
@[simp] theorem State.onSnapg_barOwner (s : State) (f : Snapg → Snapg) : (s.onSnapg f).barOwner = s.barOwner := rfl
@[simp] theorem State.onSnapg_parts (s : State) (f : Snapg → Snapg) : (s.onSnapg f).parts = s.parts := rfl
@[simp] theorem State.onSnapg_frames (s : State) (f : Snapg → Snapg) : (s.onSnapg f).frames = s.frames := rfl
@[simp] theorem State.onSnapg_regions (s : State) (f : Snapg → Snapg) : (s.onSnapg f).regions = s.regions := rfl
@[simp] theorem State.onSnapg_pwr (s : State) (f : Snapg → Snapg) : (s.onSnapg f).pwr = s.pwr := rfl
@[simp] theorem State.onSnapg_sec (s : State) (f : Snapg → Snapg) : (s.onSnapg f).sec = s.sec := rfl
@[simp] theorem State.onSnapg_boot (s : State) (f : Snapg → Snapg) : (s.onSnapg f).boot = s.boot := rfl
@[simp] theorem State.onSnapg_phases (s : State) (f : Snapg → Snapg) : (s.onSnapg f).phases = s.phases := rfl
@[simp] theorem State.onSnapg_latches (s : State) (f : Snapg → Snapg) : (s.onSnapg f).latches = s.latches := rfl
@[simp] theorem State.onSnapg_sbFault (s : State) (f : Snapg → Snapg) : (s.onSnapg f).sbFault = s.sbFault := rfl
@[simp] theorem State.onSnapg_adaptQ (s : State) (f : Snapg → Snapg) : (s.onSnapg f).adaptQ = s.adaptQ := rfl
@[simp] theorem State.onSnapg_spareRows (s : State) (f : Snapg → Snapg) : (s.onSnapg f).spareRows = s.spareRows := rfl
@[simp] theorem State.onSnapg_jobs (s : State) (f : Snapg → Snapg) : (s.onSnapg f).jobs = s.jobs := rfl
@[simp] theorem State.onSnapg_groups (s : State) (f : Snapg → Snapg) : (s.onSnapg f).groups = s.groups := rfl
@[simp] theorem State.onSnapg_collIssues (s : State) (f : Snapg → Snapg) : (s.onSnapg f).collIssues = s.collIssues := rfl
@[simp] theorem State.onSnapg_collRuns (s : State) (f : Snapg → Snapg) : (s.onSnapg f).collRuns = s.collRuns := rfl
@[simp] theorem State.onSnapg_collNext (s : State) (f : Snapg → Snapg) : (s.onSnapg f).collNext = s.collNext := rfl
@[simp] theorem State.onSnapg_deferred (s : State) (f : Snapg → Snapg) : (s.onSnapg f).deferred = s.deferred := rfl
@[simp] theorem State.onSnapg_lateWait (s : State) (f : Snapg → Snapg) : (s.onSnapg f).lateWait = s.lateWait := rfl
@[simp] theorem State.onSnapg_collEarly (s : State) (f : Snapg → Snapg) : (s.onSnapg f).collEarly = s.collEarly := rfl
@[simp] theorem State.onSnapg_net (s : State) (f : Snapg → Snapg) : (s.onSnapg f).net = s.net := rfl
@[simp] theorem State.onSnapg_flows (s : State) (f : Snapg → Snapg) : (s.onSnapg f).flows = s.flows := rfl
@[simp] theorem State.onSnapg_heldFlows (s : State) (f : Snapg → Snapg) : (s.onSnapg f).heldFlows = s.heldFlows := rfl
@[simp] theorem State.onSnapg_sentOps (s : State) (f : Snapg → Snapg) : (s.onSnapg f).sentOps = s.sentOps := rfl
@[simp] theorem State.onSnapg_nextOp (s : State) (f : Snapg → Snapg) : (s.onSnapg f).nextOp = s.nextOp := rfl
@[simp] theorem State.onSnapg_notices (s : State) (f : Snapg → Snapg) : (s.onSnapg f).notices = s.notices := rfl
@[simp] theorem State.onSnapg_parked (s : State) (f : Snapg → Snapg) : (s.onSnapg f).parked = s.parked := rfl
@[simp] theorem State.onSnapg_addGroups (s : State) (f : Snapg → Snapg) : (s.onSnapg f).addGroups = s.addGroups := rfl
@[simp] theorem State.onSnapg_log (s : State) (f : Snapg → Snapg) : (s.onSnapg f).log = s.log := rfl
@[simp] theorem State.onSnapg_repairUe (s : State) (f : Snapg → Snapg) : (s.onSnapg f).repairUe = s.repairUe := rfl
@[simp] theorem State.onSnapg_repairCe (s : State) (f : Snapg → Snapg) : (s.onSnapg f).repairCe = s.repairCe := rfl
@[simp] theorem State.onSnapg_badChannels (s : State) (f : Snapg → Snapg) : (s.onSnapg f).badChannels = s.badChannels := rfl
@[simp] theorem State.onSnapg_badCores (s : State) (f : Snapg → Snapg) : (s.onSnapg f).badCores = s.badCores := rfl
@[simp] theorem State.onSnapg_badBanks (s : State) (f : Snapg → Snapg) : (s.onSnapg f).badBanks = s.badBanks := rfl
@[simp] theorem State.onSnapg_sbInt (s : State) (f : Snapg → Snapg) : (s.onSnapg f).sbInt = s.sbInt := rfl
@[simp] theorem State.onSnapg_sbReply (s : State) (f : Snapg → Snapg) : (s.onSnapg f).sbReply = s.sbReply := rfl
@[simp] theorem State.onSnapg_reply (s : State) (f : Snapg → Snapg) : (s.onSnapg f).reply = s.reply := rfl
@[simp] theorem State.onSnapg_free (s : State) (f : Snapg → Snapg) : (s.onSnapg f).free = s.free := rfl
@[simp] theorem State.onSnapg_viewer (s : State) (f : Snapg → Snapg) : (s.onSnapg f).viewer = s.viewer := rfl

/-! ## `State.wr` -/

@[simp] theorem State.wr_pending (s : State) (a : Nat) (bs : List Byte) : (s.wr a bs).pending = s.pending := rfl
@[simp] theorem State.wr_now (s : State) (a : Nat) (bs : List Byte) : (s.wr a bs).now = s.now := rfl
@[simp] theorem State.wr_grade4810 (s : State) (a : Nat) (bs : List Byte) : (s.wr a bs).grade4810 = s.grade4810 := rfl
@[simp] theorem State.wr_dev (s : State) (a : Nat) (bs : List Byte) : (s.wr a bs).dev = s.dev := rfl
@[simp] theorem State.wr_fabricB (s : State) (a : Nat) (bs : List Byte) : (s.wr a bs).fabricB = s.fabricB := rfl
@[simp] theorem State.wr_poison (s : State) (a : Nat) (bs : List Byte) : (s.wr a bs).poison = s.poison := rfl
@[simp] theorem State.wr_upsets (s : State) (a : Nat) (bs : List Byte) : (s.wr a bs).upsets = s.upsets := rfl
@[simp] theorem State.wr_cores (s : State) (a : Nat) (bs : List Byte) : (s.wr a bs).cores = s.cores := rfl
@[simp] theorem State.wr_quarters (s : State) (a : Nat) (bs : List Byte) : (s.wr a bs).quarters = s.quarters := rfl
@[simp] theorem State.wr_piers (s : State) (a : Nat) (bs : List Byte) : (s.wr a bs).piers = s.piers := rfl
@[simp] theorem State.wr_barriers (s : State) (a : Nat) (bs : List Byte) : (s.wr a bs).barriers = s.barriers := rfl
@[simp] theorem State.wr_barOwner (s : State) (a : Nat) (bs : List Byte) : (s.wr a bs).barOwner = s.barOwner := rfl
@[simp] theorem State.wr_parts (s : State) (a : Nat) (bs : List Byte) : (s.wr a bs).parts = s.parts := rfl
@[simp] theorem State.wr_frames (s : State) (a : Nat) (bs : List Byte) : (s.wr a bs).frames = s.frames := rfl
@[simp] theorem State.wr_regions (s : State) (a : Nat) (bs : List Byte) : (s.wr a bs).regions = s.regions := rfl
@[simp] theorem State.wr_pwr (s : State) (a : Nat) (bs : List Byte) : (s.wr a bs).pwr = s.pwr := rfl
@[simp] theorem State.wr_sec (s : State) (a : Nat) (bs : List Byte) : (s.wr a bs).sec = s.sec := rfl
@[simp] theorem State.wr_boot (s : State) (a : Nat) (bs : List Byte) : (s.wr a bs).boot = s.boot := rfl
@[simp] theorem State.wr_snapg (s : State) (a : Nat) (bs : List Byte) : (s.wr a bs).snapg = s.snapg := rfl
@[simp] theorem State.wr_phases (s : State) (a : Nat) (bs : List Byte) : (s.wr a bs).phases = s.phases := rfl
@[simp] theorem State.wr_latches (s : State) (a : Nat) (bs : List Byte) : (s.wr a bs).latches = s.latches := rfl
@[simp] theorem State.wr_sbFault (s : State) (a : Nat) (bs : List Byte) : (s.wr a bs).sbFault = s.sbFault := rfl
@[simp] theorem State.wr_adaptQ (s : State) (a : Nat) (bs : List Byte) : (s.wr a bs).adaptQ = s.adaptQ := rfl
@[simp] theorem State.wr_spareRows (s : State) (a : Nat) (bs : List Byte) : (s.wr a bs).spareRows = s.spareRows := rfl
@[simp] theorem State.wr_jobs (s : State) (a : Nat) (bs : List Byte) : (s.wr a bs).jobs = s.jobs := rfl
@[simp] theorem State.wr_groups (s : State) (a : Nat) (bs : List Byte) : (s.wr a bs).groups = s.groups := rfl
@[simp] theorem State.wr_collIssues (s : State) (a : Nat) (bs : List Byte) : (s.wr a bs).collIssues = s.collIssues := rfl
@[simp] theorem State.wr_collRuns (s : State) (a : Nat) (bs : List Byte) : (s.wr a bs).collRuns = s.collRuns := rfl
@[simp] theorem State.wr_collNext (s : State) (a : Nat) (bs : List Byte) : (s.wr a bs).collNext = s.collNext := rfl
@[simp] theorem State.wr_deferred (s : State) (a : Nat) (bs : List Byte) : (s.wr a bs).deferred = s.deferred := rfl
@[simp] theorem State.wr_lateWait (s : State) (a : Nat) (bs : List Byte) : (s.wr a bs).lateWait = s.lateWait := rfl
@[simp] theorem State.wr_collEarly (s : State) (a : Nat) (bs : List Byte) : (s.wr a bs).collEarly = s.collEarly := rfl
@[simp] theorem State.wr_net (s : State) (a : Nat) (bs : List Byte) : (s.wr a bs).net = s.net := rfl
@[simp] theorem State.wr_flows (s : State) (a : Nat) (bs : List Byte) : (s.wr a bs).flows = s.flows := rfl
@[simp] theorem State.wr_heldFlows (s : State) (a : Nat) (bs : List Byte) : (s.wr a bs).heldFlows = s.heldFlows := rfl
@[simp] theorem State.wr_sentOps (s : State) (a : Nat) (bs : List Byte) : (s.wr a bs).sentOps = s.sentOps := rfl
@[simp] theorem State.wr_nextOp (s : State) (a : Nat) (bs : List Byte) : (s.wr a bs).nextOp = s.nextOp := rfl
@[simp] theorem State.wr_notices (s : State) (a : Nat) (bs : List Byte) : (s.wr a bs).notices = s.notices := rfl
@[simp] theorem State.wr_parked (s : State) (a : Nat) (bs : List Byte) : (s.wr a bs).parked = s.parked := rfl
@[simp] theorem State.wr_addGroups (s : State) (a : Nat) (bs : List Byte) : (s.wr a bs).addGroups = s.addGroups := rfl
@[simp] theorem State.wr_log (s : State) (a : Nat) (bs : List Byte) : (s.wr a bs).log = s.log := rfl
@[simp] theorem State.wr_repairUe (s : State) (a : Nat) (bs : List Byte) : (s.wr a bs).repairUe = s.repairUe := rfl
@[simp] theorem State.wr_repairCe (s : State) (a : Nat) (bs : List Byte) : (s.wr a bs).repairCe = s.repairCe := rfl
@[simp] theorem State.wr_badChannels (s : State) (a : Nat) (bs : List Byte) : (s.wr a bs).badChannels = s.badChannels := rfl
@[simp] theorem State.wr_badCores (s : State) (a : Nat) (bs : List Byte) : (s.wr a bs).badCores = s.badCores := rfl
@[simp] theorem State.wr_badBanks (s : State) (a : Nat) (bs : List Byte) : (s.wr a bs).badBanks = s.badBanks := rfl
@[simp] theorem State.wr_sbInt (s : State) (a : Nat) (bs : List Byte) : (s.wr a bs).sbInt = s.sbInt := rfl
@[simp] theorem State.wr_sbReply (s : State) (a : Nat) (bs : List Byte) : (s.wr a bs).sbReply = s.sbReply := rfl
@[simp] theorem State.wr_reply (s : State) (a : Nat) (bs : List Byte) : (s.wr a bs).reply = s.reply := rfl
@[simp] theorem State.wr_free (s : State) (a : Nat) (bs : List Byte) : (s.wr a bs).free = s.free := rfl
@[simp] theorem State.wr_viewer (s : State) (a : Nat) (bs : List Byte) : (s.wr a bs).viewer = s.viewer := rfl

/-! ## `State.advance` -/

@[simp] theorem State.advance_pending (s : State) (h : Th) : (s.advance h).pending = s.pending := rfl
@[simp] theorem State.advance_now (s : State) (h : Th) : (s.advance h).now = s.now := rfl
@[simp] theorem State.advance_grade4810 (s : State) (h : Th) : (s.advance h).grade4810 = s.grade4810 := rfl
@[simp] theorem State.advance_dev (s : State) (h : Th) : (s.advance h).dev = s.dev := rfl
@[simp] theorem State.advance_fabricB (s : State) (h : Th) : (s.advance h).fabricB = s.fabricB := rfl
@[simp] theorem State.advance_mem (s : State) (h : Th) : (s.advance h).mem = s.mem := rfl
@[simp] theorem State.advance_poison (s : State) (h : Th) : (s.advance h).poison = s.poison := rfl
@[simp] theorem State.advance_upsets (s : State) (h : Th) : (s.advance h).upsets = s.upsets := rfl
@[simp] theorem State.advance_quarters (s : State) (h : Th) : (s.advance h).quarters = s.quarters := rfl
@[simp] theorem State.advance_piers (s : State) (h : Th) : (s.advance h).piers = s.piers := rfl
@[simp] theorem State.advance_barriers (s : State) (h : Th) : (s.advance h).barriers = s.barriers := rfl
@[simp] theorem State.advance_barOwner (s : State) (h : Th) : (s.advance h).barOwner = s.barOwner := rfl
@[simp] theorem State.advance_parts (s : State) (h : Th) : (s.advance h).parts = s.parts := rfl
@[simp] theorem State.advance_frames (s : State) (h : Th) : (s.advance h).frames = s.frames := rfl
@[simp] theorem State.advance_regions (s : State) (h : Th) : (s.advance h).regions = s.regions := rfl
@[simp] theorem State.advance_pwr (s : State) (h : Th) : (s.advance h).pwr = s.pwr := rfl
@[simp] theorem State.advance_sec (s : State) (h : Th) : (s.advance h).sec = s.sec := rfl
@[simp] theorem State.advance_boot (s : State) (h : Th) : (s.advance h).boot = s.boot := rfl
@[simp] theorem State.advance_snapg (s : State) (h : Th) : (s.advance h).snapg = s.snapg := rfl
@[simp] theorem State.advance_phases (s : State) (h : Th) : (s.advance h).phases = s.phases := rfl
@[simp] theorem State.advance_latches (s : State) (h : Th) : (s.advance h).latches = s.latches := rfl
@[simp] theorem State.advance_sbFault (s : State) (h : Th) : (s.advance h).sbFault = s.sbFault := rfl
@[simp] theorem State.advance_adaptQ (s : State) (h : Th) : (s.advance h).adaptQ = s.adaptQ := rfl
@[simp] theorem State.advance_spareRows (s : State) (h : Th) : (s.advance h).spareRows = s.spareRows := rfl
@[simp] theorem State.advance_jobs (s : State) (h : Th) : (s.advance h).jobs = s.jobs := rfl
@[simp] theorem State.advance_groups (s : State) (h : Th) : (s.advance h).groups = s.groups := rfl
@[simp] theorem State.advance_collIssues (s : State) (h : Th) : (s.advance h).collIssues = s.collIssues := rfl
@[simp] theorem State.advance_collRuns (s : State) (h : Th) : (s.advance h).collRuns = s.collRuns := rfl
@[simp] theorem State.advance_collNext (s : State) (h : Th) : (s.advance h).collNext = s.collNext := rfl
@[simp] theorem State.advance_deferred (s : State) (h : Th) : (s.advance h).deferred = s.deferred := rfl
@[simp] theorem State.advance_lateWait (s : State) (h : Th) : (s.advance h).lateWait = s.lateWait := rfl
@[simp] theorem State.advance_collEarly (s : State) (h : Th) : (s.advance h).collEarly = s.collEarly := rfl
@[simp] theorem State.advance_net (s : State) (h : Th) : (s.advance h).net = s.net := rfl
@[simp] theorem State.advance_flows (s : State) (h : Th) : (s.advance h).flows = s.flows := rfl
@[simp] theorem State.advance_heldFlows (s : State) (h : Th) : (s.advance h).heldFlows = s.heldFlows := rfl
@[simp] theorem State.advance_sentOps (s : State) (h : Th) : (s.advance h).sentOps = s.sentOps := rfl
@[simp] theorem State.advance_nextOp (s : State) (h : Th) : (s.advance h).nextOp = s.nextOp := rfl
@[simp] theorem State.advance_notices (s : State) (h : Th) : (s.advance h).notices = s.notices := rfl
@[simp] theorem State.advance_parked (s : State) (h : Th) : (s.advance h).parked = s.parked := rfl
@[simp] theorem State.advance_addGroups (s : State) (h : Th) : (s.advance h).addGroups = s.addGroups := rfl
@[simp] theorem State.advance_log (s : State) (h : Th) : (s.advance h).log = s.log := rfl
@[simp] theorem State.advance_repairUe (s : State) (h : Th) : (s.advance h).repairUe = s.repairUe := rfl
@[simp] theorem State.advance_repairCe (s : State) (h : Th) : (s.advance h).repairCe = s.repairCe := rfl
@[simp] theorem State.advance_badChannels (s : State) (h : Th) : (s.advance h).badChannels = s.badChannels := rfl
@[simp] theorem State.advance_badCores (s : State) (h : Th) : (s.advance h).badCores = s.badCores := rfl
@[simp] theorem State.advance_badBanks (s : State) (h : Th) : (s.advance h).badBanks = s.badBanks := rfl
@[simp] theorem State.advance_sbInt (s : State) (h : Th) : (s.advance h).sbInt = s.sbInt := rfl
@[simp] theorem State.advance_sbReply (s : State) (h : Th) : (s.advance h).sbReply = s.sbReply := rfl
@[simp] theorem State.advance_reply (s : State) (h : Th) : (s.advance h).reply = s.reply := rfl
@[simp] theorem State.advance_free (s : State) (h : Th) : (s.advance h).free = s.free := rfl
@[simp] theorem State.advance_viewer (s : State) (h : Th) : (s.advance h).viewer = s.viewer := rfl

/-! ## `State.addLog` -/

@[simp] theorem State.addLog_pending (s : State) (r : LogRec) : (s.addLog r).pending = s.pending := rfl
@[simp] theorem State.addLog_now (s : State) (r : LogRec) : (s.addLog r).now = s.now := rfl
@[simp] theorem State.addLog_grade4810 (s : State) (r : LogRec) : (s.addLog r).grade4810 = s.grade4810 := rfl
@[simp] theorem State.addLog_dev (s : State) (r : LogRec) : (s.addLog r).dev = s.dev := rfl
@[simp] theorem State.addLog_fabricB (s : State) (r : LogRec) : (s.addLog r).fabricB = s.fabricB := rfl
@[simp] theorem State.addLog_mem (s : State) (r : LogRec) : (s.addLog r).mem = s.mem := rfl
@[simp] theorem State.addLog_poison (s : State) (r : LogRec) : (s.addLog r).poison = s.poison := rfl
@[simp] theorem State.addLog_upsets (s : State) (r : LogRec) : (s.addLog r).upsets = s.upsets := rfl
@[simp] theorem State.addLog_cores (s : State) (r : LogRec) : (s.addLog r).cores = s.cores := rfl
@[simp] theorem State.addLog_quarters (s : State) (r : LogRec) : (s.addLog r).quarters = s.quarters := rfl
@[simp] theorem State.addLog_piers (s : State) (r : LogRec) : (s.addLog r).piers = s.piers := rfl
@[simp] theorem State.addLog_barriers (s : State) (r : LogRec) : (s.addLog r).barriers = s.barriers := rfl
@[simp] theorem State.addLog_barOwner (s : State) (r : LogRec) : (s.addLog r).barOwner = s.barOwner := rfl
@[simp] theorem State.addLog_parts (s : State) (r : LogRec) : (s.addLog r).parts = s.parts := rfl
@[simp] theorem State.addLog_frames (s : State) (r : LogRec) : (s.addLog r).frames = s.frames := rfl
@[simp] theorem State.addLog_regions (s : State) (r : LogRec) : (s.addLog r).regions = s.regions := rfl
@[simp] theorem State.addLog_pwr (s : State) (r : LogRec) : (s.addLog r).pwr = s.pwr := rfl
@[simp] theorem State.addLog_sec (s : State) (r : LogRec) : (s.addLog r).sec = s.sec := rfl
@[simp] theorem State.addLog_boot (s : State) (r : LogRec) : (s.addLog r).boot = s.boot := rfl
@[simp] theorem State.addLog_snapg (s : State) (r : LogRec) : (s.addLog r).snapg = s.snapg := rfl
@[simp] theorem State.addLog_phases (s : State) (r : LogRec) : (s.addLog r).phases = s.phases := rfl
@[simp] theorem State.addLog_latches (s : State) (r : LogRec) : (s.addLog r).latches = s.latches := rfl
@[simp] theorem State.addLog_sbFault (s : State) (r : LogRec) : (s.addLog r).sbFault = s.sbFault := rfl
@[simp] theorem State.addLog_adaptQ (s : State) (r : LogRec) : (s.addLog r).adaptQ = s.adaptQ := rfl
@[simp] theorem State.addLog_spareRows (s : State) (r : LogRec) : (s.addLog r).spareRows = s.spareRows := rfl
@[simp] theorem State.addLog_jobs (s : State) (r : LogRec) : (s.addLog r).jobs = s.jobs := rfl
@[simp] theorem State.addLog_groups (s : State) (r : LogRec) : (s.addLog r).groups = s.groups := rfl
@[simp] theorem State.addLog_collIssues (s : State) (r : LogRec) : (s.addLog r).collIssues = s.collIssues := rfl
@[simp] theorem State.addLog_collRuns (s : State) (r : LogRec) : (s.addLog r).collRuns = s.collRuns := rfl
@[simp] theorem State.addLog_collNext (s : State) (r : LogRec) : (s.addLog r).collNext = s.collNext := rfl
@[simp] theorem State.addLog_deferred (s : State) (r : LogRec) : (s.addLog r).deferred = s.deferred := rfl
@[simp] theorem State.addLog_lateWait (s : State) (r : LogRec) : (s.addLog r).lateWait = s.lateWait := rfl
@[simp] theorem State.addLog_collEarly (s : State) (r : LogRec) : (s.addLog r).collEarly = s.collEarly := rfl
@[simp] theorem State.addLog_net (s : State) (r : LogRec) : (s.addLog r).net = s.net := rfl
@[simp] theorem State.addLog_flows (s : State) (r : LogRec) : (s.addLog r).flows = s.flows := rfl
@[simp] theorem State.addLog_heldFlows (s : State) (r : LogRec) : (s.addLog r).heldFlows = s.heldFlows := rfl
@[simp] theorem State.addLog_sentOps (s : State) (r : LogRec) : (s.addLog r).sentOps = s.sentOps := rfl
@[simp] theorem State.addLog_nextOp (s : State) (r : LogRec) : (s.addLog r).nextOp = s.nextOp := rfl
@[simp] theorem State.addLog_notices (s : State) (r : LogRec) : (s.addLog r).notices = s.notices := rfl
@[simp] theorem State.addLog_parked (s : State) (r : LogRec) : (s.addLog r).parked = s.parked := rfl
@[simp] theorem State.addLog_addGroups (s : State) (r : LogRec) : (s.addLog r).addGroups = s.addGroups := rfl
@[simp] theorem State.addLog_repairUe (s : State) (r : LogRec) : (s.addLog r).repairUe = s.repairUe := rfl
@[simp] theorem State.addLog_repairCe (s : State) (r : LogRec) : (s.addLog r).repairCe = s.repairCe := rfl
@[simp] theorem State.addLog_badChannels (s : State) (r : LogRec) : (s.addLog r).badChannels = s.badChannels := rfl
@[simp] theorem State.addLog_badCores (s : State) (r : LogRec) : (s.addLog r).badCores = s.badCores := rfl
@[simp] theorem State.addLog_badBanks (s : State) (r : LogRec) : (s.addLog r).badBanks = s.badBanks := rfl
@[simp] theorem State.addLog_sbInt (s : State) (r : LogRec) : (s.addLog r).sbInt = s.sbInt := rfl
@[simp] theorem State.addLog_sbReply (s : State) (r : LogRec) : (s.addLog r).sbReply = s.sbReply := rfl
@[simp] theorem State.addLog_reply (s : State) (r : LogRec) : (s.addLog r).reply = s.reply := rfl
@[simp] theorem State.addLog_free (s : State) (r : LogRec) : (s.addLog r).free = s.free := rfl
@[simp] theorem State.addLog_viewer (s : State) (r : LogRec) : (s.addLog r).viewer = s.viewer := rfl

/-! ## Reading a part back -/

@[simp] theorem State.core_setCore (s : State) (c : CoreId) (k : Core) : (s.setCore c k).core c = k := by
  simp [State.core, State.setCore]

theorem State.core_setCore_other (s : State) {c d : CoreId} (k : Core) (h : d ≠ c) : (s.setCore c k).core d = s.core d := by
  have : c.val ≠ d.val := fun e => h (Fin.ext e.symm)
  simp [State.core, State.setCore, this]

@[simp] theorem State.core_onCore (s : State) (c : CoreId) (f : Core → Core) : (s.onCore c f).core c = f (s.core c) := by
  simp [State.onCore]

theorem State.core_onCore_other (s : State) {c d : CoreId} (f : Core → Core) (h : d ≠ c) :
    (s.onCore c f).core d = s.core d := State.core_setCore_other s _ h

@[simp] theorem State.quarter_onQuarter (s : State) (q : QuarterId) (f : Quarter → Quarter) :
    (s.onQuarter q f).quarter q = f (s.quarter q) := by
  simp [State.quarter, State.onQuarter]

theorem State.quarter_onQuarter_other (s : State) {q r : QuarterId} (f : Quarter → Quarter) (h : r ≠ q) :
    (s.onQuarter q f).quarter r = s.quarter r := by
  have : q.val ≠ r.val := fun e => h (Fin.ext e.symm)
  simp [State.quarter, State.onQuarter, this]

@[simp] theorem State.pier_onPier (s : State) (p : PierId) (f : Pier → Pier) : (s.onPier p f).pier p = f (s.pier p) := by
  simp [State.pier, State.onPier]

theorem State.pier_onPier_other (s : State) {p r : PierId} (f : Pier → Pier) (h : r ≠ p) :
    (s.onPier p f).pier r = s.pier r := by
  have : p.val ≠ r.val := fun e => h (Fin.ext e.symm)
  simp [State.pier, State.onPier, this]

@[simp] theorem State.partOf_onPart (s : State) (p : PartId) (f : Part → Part) : (s.onPart p f).partOf p = f (s.partOf p) := by
  simp [State.partOf, State.onPart]

theorem State.partOf_onPart_other (s : State) {p r : PartId} (f : Part → Part) (h : r ≠ p) :
    (s.onPart p f).partOf r = s.partOf r := by
  have : p.val ≠ r.val := fun e => h (Fin.ext e.symm)
  simp [State.partOf, State.onPart, this]

@[simp] theorem State.gang_onGang (s : State) (c : CoreId) (g : GangId) (f : Gang → Gang) :
    (s.onGang c g f).gang c g = f (s.gang c g) := by
  simp [State.gang, State.onGang, vmod]

theorem State.gang_onGang_other (s : State) (c : CoreId) {g g' : GangId} (f : Gang → Gang) (h : g' ≠ g) :
    (s.onGang c g f).gang c g' = s.gang c g' := by
  have : g.val ≠ g'.val := fun e => h (Fin.ext e.symm)
  simp [State.gang, State.onGang, vmod, this]

theorem State.core_onGang_other (s : State) {c d : CoreId} (g : GangId) (f : Gang → Gang) (h : d ≠ c) :
    (s.onGang c g f).core d = s.core d := State.core_onCore_other s _ h

theorem State.onGang_core (s : State) (c : CoreId) (g : GangId) (f : Gang → Gang) :
    (s.onGang c g f).core c = { s.core c with gangs := vmod (s.core c).gangs g f } := by
  simp [State.onGang]

end Sys2Proof.Machine
end

