-- ==== Sys2Proof/Laws/Ops.lean ====
section
/-! SUPPORT. What the shared operations do: registers and predicates of gangs, issue, completion, and the writes of memory,
with the canonical form they keep. -/

namespace Sys2Proof.Machine

/-! ## Registers and predicates of a gang -/

theorem Gang.reg_setReg (k : Gang) (t t' : Nat) (r r' : Reg) (v : Word) :
    (k.setReg t r v).reg t' r' = if t' = t ∧ r' = r then v else k.reg t' r' := by
  have hr := r.isLt
  have hr' := r'.isLt
  simp only [Gang.reg, Gang.setReg, Tab.get_set]
  have : (128 * t' + r'.val = 128 * t + r.val) ↔ (t' = t ∧ r' = r) := by
    constructor
    · intro h
      exact ⟨by omega, Fin.ext (by omega)⟩
    · rintro ⟨rfl, rfl⟩
      rfl
  simp [this]

theorem Gang.pred_setPred (k : Gang) (t t' : Nat) (p p' : PReg) (v : Bool) :
    (k.setPred t p v).pred t' p' = if t' = t ∧ p' = p then v else k.pred t' p' := by
  have hr := p.isLt
  have hr' := p'.isLt
  simp only [Gang.pred, Gang.setPred, Tab.get_set]
  have : (8 * t' + p'.val = 8 * t + p.val) ↔ (t' = t ∧ p' = p) := by
    constructor
    · intro h
      exact ⟨by omega, Fin.ext (by omega)⟩
    · rintro ⟨rfl, rfl⟩
      rfl
  simp [this]

/-- Writing one register of several threads. -/
theorem Gang.reg_foldl_setReg (ts : List Nat) (r : Reg) (f : Nat → Word) (k : Gang) (t : Nat) (r' : Reg) :
    (ts.foldl (fun n t => n.setReg t r (f t)) k).reg t r' = if t ∈ ts ∧ r' = r then f t else k.reg t r' := by
  induction ts generalizing k with
  | nil => simp
  | cons x xs ih =>
    rw [List.foldl_cons, ih, Gang.reg_setReg]
    by_cases h1 : t ∈ xs ∧ r' = r
    · simp [h1]
    · by_cases h2 : t = x ∧ r' = r
      · obtain ⟨rfl, rfl⟩ := h2
        simp
      · have h3 : ¬ ((t = x ∨ t ∈ xs) ∧ r' = r) := by
          rintro ⟨hm, hr⟩
          rcases hm with rfl | hm
          · exact h2 ⟨rfl, hr⟩
          · exact h1 ⟨hm, hr⟩
        rw [if_neg h1, if_neg h2, if_neg (by simpa only [List.mem_cons] using h3)]

theorem Gang.pred_foldl_setPred (ts : List Nat) (p : PReg) (f : Nat → Bool) (k : Gang) (t : Nat) (p' : PReg) :
    (ts.foldl (fun n t => n.setPred t p (f t)) k).pred t p' = if t ∈ ts ∧ p' = p then f t else k.pred t p' := by
  induction ts generalizing k with
  | nil => simp
  | cons x xs ih =>
    rw [List.foldl_cons, ih, Gang.pred_setPred]
    by_cases h1 : t ∈ xs ∧ p' = p
    · simp [h1]
    · by_cases h2 : t = x ∧ p' = p
      · obtain ⟨rfl, rfl⟩ := h2
        simp
      · have h3 : ¬ ((t = x ∨ t ∈ xs) ∧ p' = p) := by
          rintro ⟨hm, hr⟩
          rcases hm with rfl | hm
          · exact h2 ⟨rfl, hr⟩
          · exact h1 ⟨hm, hr⟩
        rw [if_neg h1, if_neg h2, if_neg (by simpa only [List.mem_cons] using h3)]

/-- Register writes change nothing of a gang but its registers. -/
theorem Gang.foldl_setReg_rest (ts : List Nat) (r : Reg) (f : Nat → Word) (k : Gang) :
    ts.foldl (fun n t => n.setReg t r (f t)) k =
      { k with regs := (ts.foldl (fun n t => n.setReg t r (f t)) k).regs } := by
  induction ts generalizing k with
  | nil => rfl
  | cons x xs ih =>
    rw [List.foldl_cons, ih (k.setReg x r (f x))]
    rfl

theorem Gang.foldl_setPred_rest (ts : List Nat) (p : PReg) (f : Nat → Bool) (k : Gang) :
    ts.foldl (fun n t => n.setPred t p (f t)) k =
      { k with preds := (ts.foldl (fun n t => n.setPred t p (f t)) k).preds } := by
  induction ts generalizing k with
  | nil => rfl
  | cons x xs ih =>
    rw [List.foldl_cons, ih (k.setPred x p (f x))]
    rfl

/-! ## Issue (09 R193) -/

theorem State.issue_ready {s : State} {h : Th} {rs : List Reg} {ps : List PReg} (f : State → State)
    (hr : s.ready h rs ps = true) : s.issue h rs ps f = .next (f ((s.acquire h rs).advance h)) := by
  simp [State.issue, hr]

theorem State.issue_stalled {s : State} {h : Th} {rs : List Reg} {ps : List PReg} (f : State → State)
    (hr : s.ready h rs ps = false) : s.issue h rs ps f = .next s := by
  simp [State.issue, hr]

/-- The acquire of an issue adds at most one fence to the memory instructions of the gang. -/
theorem State.acquire_eq (s : State) (h : Th) (rs : List Reg) :
    s.acquire h rs = s ∨ s.acquire h rs = s.onGang h.core h.gang (fun k => { k with memops := pruneFences (k.memops ++ [.fence .acq 3]) }) := by
  unfold State.acquire
  dsimp only
  split
  · exact .inr rfl
  · exact .inl rfl

theorem State.advance_eq (s : State) (h : Th) : s.advance h = s.onGang h.core h.gang (fun k => { k with pc := k.pc + 8 }) := rfl

theorem State.onGang_onGang (s : State) (c : CoreId) (g : GangId) (f f' : Gang → Gang) :
    (s.onGang c g f).onGang c g f' = s.onGang c g (fun k => f' (f k)) := by
  simp [State.onGang, State.onCore, State.setCore, State.core, vmod]

/-! ## Memory (11 R250) -/

@[simp] theorem State.rdByte_wr (s : State) (a b : Nat) (bs : List Byte) :
    (s.wr a bs).rdByte b = if a ≤ b then (bs[b - a]?).getD (s.rdByte b) else s.rdByte b := by
  simp [State.rdByte, State.wr, Tab.get_setList]

/-- A write leaves every byte outside its range alone. -/
theorem State.rdByte_wr_outside (s : State) {a b : Nat} {bs : List Byte} (h : b < a ∨ a + bs.length ≤ b) :
    (s.wr a bs).rdByte b = s.rdByte b := by
  rw [State.rdByte_wr]
  split
  · rw [List.getElem?_eq_none (by omega)]
    rfl
  · rfl

theorem State.wf_wr {s : State} (h : Memory.wf s.mem = true) (a : Nat) (bs : List Byte) : Memory.wf (s.wr a bs).mem = true :=
  Tab.wf_setList h a bs

theorem State.wf_wipe {s : State} (h : Memory.wf s.mem = true) (lo n : Nat) : Memory.wf (s.wipe lo n).mem = true :=
  Tab.wf_filter h _

theorem State.wf_wipeZone {s : State} (h : Memory.wf s.mem = true) (q z : Nat) : Memory.wf (s.wipeZone q z).mem = true :=
  Tab.wf_filter h _

theorem State.wf_reset : Memory.wf State.reset.mem = true := rfl

@[simp] theorem State.mem_noteRow (s : State) (r : RepairRow) (l : Nat) (ue : Bool) : (s.noteRow r l ue).mem = s.mem := by
  unfold State.noteRow
  split
  · rfl
  · split <;> rfl

@[simp] theorem State.mem_noteErr (s : State) (l : Nat) (ue : Bool) : (s.noteErr l ue).mem = s.mem := by
  unfold State.noteErr
  split <;> simp

@[simp] theorem State.mem_countCrown (s : State) (q : QuarterId) (o : Nat) (ue : Bool) : (s.countCrown q o ue).mem = s.mem := rfl

@[simp] theorem State.mem_countErr (s : State) (l : Nat) (ue : Bool) : (s.countErr l ue).mem = s.mem := by
  have row := s.mem_noteErr l ue
  unfold State.countErr
  generalize s.noteErr l ue = u at row ⊢
  dsimp only
  split
  · exact row
  · exact row
  · exact row
  · split
    · split <;> exact row
    · exact row
  · exact row

@[simp] theorem State.mem_bufRead (s : State) (c : CoreId) (f : BufWord → Bool) : (s.bufRead c f).1.mem = s.mem := by
  unfold State.bufRead
  dsimp only
  split <;> rfl

@[simp] theorem State.mem_bufWrite (s : State) (c : CoreId) (f : BufWord → Bool) : (s.bufWrite c f).mem = s.mem := by
  unfold State.bufWrite
  split <;> rfl

@[simp] theorem State.mem_countDead (s : State) (l : Nat) : (s.countDead l).mem = s.mem := by
  unfold State.countDead
  split <;> (try split) <;> rfl

/-- Reading a line changes no byte. -/
@[simp] theorem State.mem_readLine (s : State) (l : Nat) : (s.readLine l).1.mem = s.mem := by
  unfold State.readLine
  split
  · simp
  · split
    · rfl
    · split
      · rfl
      · simp
      · simp

@[simp] theorem State.mem_readLines (s : State) (ls : List Nat) : (s.readLines ls).1.mem = s.mem := by
  induction ls generalizing s with
  | nil => rfl
  | cons l ls ih =>
    unfold State.readLines
    have h := State.mem_readLine s l
    split
    · rename_i t heq
      rw [heq] at h
      simpa [ih] using h
    · rename_i t c _ heq
      rw [heq] at h
      exact h

@[simp] theorem State.mem_readFirst (s : State) (a : Nat) (ls : List Nat) : (s.readFirst a ls).1.mem = s.mem := by
  unfold State.readFirst
  split
  · exact State.mem_readLines s ls
  · rfl

/-- The checks of a write change no byte. -/
@[simp] theorem State.mem_storeCheck (s : State) (a n : Nat) : (s.storeCheck a n).1.mem = s.mem := by
  unfold State.storeCheck
  split
  · simp
  · split
    · rfl
    · exact State.mem_readFirst s a (partLines a n)

/-- A checked write stores its bytes or changes none. -/
theorem State.mem_store (s : State) (a : Nat) (bs : List Byte) :
    ((s.store a bs).2 = .done ∧ (s.store a bs).1.mem = Tab.setList 0 s.mem a bs) ∨ (s.store a bs).1.mem = s.mem := by
  have key := s.mem_storeCheck a bs.length
  unfold State.store
  split
  · rename_i heq
    rw [heq] at key
    exact .inl ⟨rfl, by simp only [State.lay, State.wr]; rw [show _ = s.mem from key]⟩
  · rename_i heq
    rw [heq] at key
    exact .inr key

/-- Every operation that only stores keeps the canonical form of memory. -/
theorem State.wf_store {s : State} (h : Memory.wf s.mem = true) (a : Nat) (bs : List Byte) :
    Memory.wf (s.store a bs).1.mem = true := by
  rcases s.mem_store a bs with ⟨_, e⟩ | e <;> rw [e]
  · exact Tab.wf_setList h a bs
  · exact h

end Sys2Proof.Machine
end

