-- ==== Sys2Proof/Laws/Report.lean ====
section
/-! SUPPORT. What a completion code or a new flag can change beyond its own place: a MATCH trigger takes snapshots and may send
a fabric trigger, and some codes are logged (20 R435, R437, R443). -/

namespace Sys2Proof.Machine

/-- `t` is `s` but for the snapshots, the fabric's queues and counters, and the log. -/
def Noted (s t : State) : Prop :=
  ∃ sn pi pa fl he aq lg,
    t = { s with snapg := sn, piers := pi, parts := pa, flows := fl, heldFlows := he, adaptQ := aq, log := lg }

theorem Noted.refl (s : State) : Noted s s := ⟨_, _, _, _, _, _, _, rfl⟩

theorem Noted.trans {s t u : State} (h : Noted s t) (g : Noted t u) : Noted s u := by
  obtain ⟨_, _, _, _, _, _, _, rfl⟩ := h
  obtain ⟨_, _, _, _, _, _, _, rfl⟩ := g
  exact ⟨_, _, _, _, _, _, _, rfl⟩

theorem Noted.foldl {α : Type} {f : State → α → State} (h : ∀ s a, Noted s (f s a)) (l : List α) (s : State) :
    Noted s (l.foldl f s) := by
  induction l generalizing s with
  | nil => exact .refl s
  | cons a l ih => exact (h s a).trans (ih _)

theorem State.onSnapg_noted (s : State) (f : Snapg → Snapg) : Noted s (s.onSnapg f) := ⟨_, _, _, _, _, _, _, rfl⟩
theorem State.onPier_noted (s : State) (p : PierId) (f : Pier → Pier) : Noted s (s.onPier p f) := ⟨_, _, _, _, _, _, _, rfl⟩
theorem State.onPart_noted (s : State) (p : PartId) (f : Part → Part) : Noted s (s.onPart p f) := ⟨_, _, _, _, _, _, _, rfl⟩
theorem State.onPort_noted (s : State) (n : PortId) (f : Port → Port) : Noted s (s.onPort n f) := ⟨_, _, _, _, _, _, _, rfl⟩

theorem State.setCopy_noted (s : State) (b : SnapBlock) (p : Snap) : Noted s (s.setCopy b p) := by
  cases b <;> exact ⟨_, _, _, _, _, _, _, rfl⟩

theorem State.capture_noted (s : State) (b : SnapBlock) (x : BitVec 4) (l t : Bool) : Noted s (s.capture b x l t) := by
  unfold State.capture
  split
  · exact .refl s
  · exact s.setCopy_noted _ _

theorem State.moduleTrigger_noted (s : State) (x : BitVec 4) (l : Bool) : Noted s (s.moduleTrigger x l) := by
  unfold State.moduleTrigger
  refine Noted.trans ?_ (Noted.foldl (fun t b => t.capture_noted b x l false) _ _)
  split
  · exact s.onSnapg_noted _
  · exact .refl s

theorem State.trigger_noted (s : State) (b : Nat) : Noted s (s.trigger b) := by
  unfold State.trigger
  split
  · exact s.moduleTrigger_noted _ _
  · exact .refl s

theorem State.enqueue_noted {s t : State} {src dst : Nat} {vc : Fin 8} {fs : List TxFlit}
    (h : s.enqueue src dst vc fs = .ok t) : Noted s t := by
  unfold State.enqueue at h
  dsimp only at h
  split at h
  · cases h
    exact ⟨_, _, _, _, _, _, _, rfl⟩
  · split at h
    · cases h
    · split at h
      · cases h
      · cases h
        split <;> exact ⟨_, _, _, _, _, _, _, rfl⟩

theorem State.dispatch_noted {s t : State} {dst : Nat} {fb : Bool} {vc : Fin 8} {ad : Bool} {fs : List TxFlit}
    (h : s.dispatch dst fb vc ad fs = .ok t) : Noted s t := by
  unfold State.dispatch at h
  split at h
  · split at h
    · cases h
    · split at h
      · cases h
        exact s.onPort_noted _ _
      · cases h
  · split at h
    · cases h
      exact .refl s
    · split at h
      · cases h
      · split at h
        · cases h
          exact ⟨_, _, _, _, _, _, _, rfl⟩
        · exact State.enqueue_noted h

/-- Sending a message changes queues, counters and flows only. -/
theorem State.sendMsg_noted {s t : State} {dst : Nat} {fb : Bool} {vc : Fin 8} {p : PartId} {ad : Bool} {op : Nat}
    {ep : Option Nat} {data : List Byte} (h : s.sendMsg dst fb vc p ad op ep data = .ok t) : Noted s t :=
  (s.onPart_noted _ _).trans (State.dispatch_noted h)

theorem State.trySend_noted (s : State) (dst : Nat) (fb : Bool) (vc : Fin 8) (op : Nat) (data : List Byte) :
    Noted s (s.trySend dst fb vc op data) := by
  unfold State.trySend
  split
  · rename_i h
    exact State.sendMsg_noted h
  · exact .refl s

theorem State.sendTrigger_noted (s : State) (target : Nat) (both : Bool) : Noted s (s.sendTrigger target both) := by
  unfold State.sendTrigger
  dsimp only
  refine Noted.trans ?_ (State.onSnapg_noted _ _)
  have h := Noted.foldl (f := fun (u : State) d => u.trySend d u.fabricB 4 u.nextOp (leBytes 8 target))
    (fun u d => u.trySend_noted d _ 4 _ _) (s.net.members.filter (· != s.dev)) s
  refine h.trans ?_
  split
  · exact Noted.foldl (f := fun (u : State) d => u.trySend d (!u.fabricB) 4 u.nextOp (leBytes 8 target))
      (fun u d => u.trySend_noted d _ 4 _ _) _ _
  · exact .refl _

theorem State.matchTrigger_noted (s : State) : Noted s s.matchTrigger := by
  unfold State.matchTrigger
  split
  · dsimp only
    split
    · exact (s.moduleTrigger_noted _ _).trans (State.sendTrigger_noted _ _ _)
    · exact s.moduleTrigger_noted _ _
  · exact .refl s

theorem State.addLog_noted (s : State) (r : LogRec) : Noted s (s.addLog r) := ⟨_, _, _, _, _, _, _, rfl⟩

theorem State.report_noted (s : State) (c : Code) : Noted s (s.report c) := by
  unfold State.report
  dsimp only
  have h : Noted s (if codeLogged c then s.addLog (.code c s.now) else s) := by
    split
    · exact s.addLog_noted _
    · exact .refl s
  split
  · exact h.trans (State.matchTrigger_noted _)
  · exact h

theorem State.flagged_noted (s : State) (n : Nat) : Noted s (s.flagged n) := by
  unfold State.flagged
  split
  · exact .refl s
  · exact s.matchTrigger_noted

theorem Noted.cores {s t : State} (h : Noted s t) : t.cores = s.cores := by obtain ⟨_, _, _, _, _, _, _, rfl⟩ := h; rfl
theorem Noted.quarters {s t : State} (h : Noted s t) : t.quarters = s.quarters := by obtain ⟨_, _, _, _, _, _, _, rfl⟩ := h; rfl
theorem Noted.mem {s t : State} (h : Noted s t) : t.mem = s.mem := by obtain ⟨_, _, _, _, _, _, _, rfl⟩ := h; rfl
theorem Noted.pending {s t : State} (h : Noted s t) : t.pending = s.pending := by obtain ⟨_, _, _, _, _, _, _, rfl⟩ := h; rfl
theorem Noted.pwr {s t : State} (h : Noted s t) : t.pwr = s.pwr := by obtain ⟨_, _, _, _, _, _, _, rfl⟩ := h; rfl
theorem Noted.sec {s t : State} (h : Noted s t) : t.sec = s.sec := by obtain ⟨_, _, _, _, _, _, _, rfl⟩ := h; rfl
theorem Noted.boot {s t : State} (h : Noted s t) : t.boot = s.boot := by obtain ⟨_, _, _, _, _, _, _, rfl⟩ := h; rfl
theorem Noted.now {s t : State} (h : Noted s t) : t.now = s.now := by obtain ⟨_, _, _, _, _, _, _, rfl⟩ := h; rfl
theorem Noted.barriers {s t : State} (h : Noted s t) : t.barriers = s.barriers := by obtain ⟨_, _, _, _, _, _, _, rfl⟩ := h; rfl
theorem Noted.parked {s t : State} (h : Noted s t) : t.parked = s.parked := by obtain ⟨_, _, _, _, _, _, _, rfl⟩ := h; rfl
theorem Noted.viewer {s t : State} (h : Noted s t) : t.viewer = s.viewer := by obtain ⟨_, _, _, _, _, _, _, rfl⟩ := h; rfl

@[simp] theorem State.report_cores (s : State) (c : Code) : (s.report c).cores = s.cores := (s.report_noted c).cores
@[simp] theorem State.report_mem (s : State) (c : Code) : (s.report c).mem = s.mem := (s.report_noted c).mem
@[simp] theorem State.report_pending (s : State) (c : Code) : (s.report c).pending = s.pending := (s.report_noted c).pending
@[simp] theorem State.flagged_cores (s : State) (n : Nat) : (s.flagged n).cores = s.cores := (s.flagged_noted n).cores
@[simp] theorem State.flagged_mem (s : State) (n : Nat) : (s.flagged n).mem = s.mem := (s.flagged_noted n).mem

/-! ## Completion -/

@[simp] theorem State.writeCpl_mem (s : State) (c : Cpl) (e : Code) : (s.writeCpl c e).mem = s.mem := rfl

@[simp] theorem State.finishCpl_mem (s : State) (c : Cpl) (e : Code) : (s.finishCpl c e).mem = s.mem := by
  unfold State.finishCpl
  dsimp only
  split <;> rfl

/-- Completing an operation stores nothing. -/
@[simp] theorem State.finish_mem (s : State) (o : Owner) (e : Code) : (s.finish o e).mem = s.mem := by
  cases o <;> simp [State.finish, State.nestInner]

theorem State.finishCpl_rest (s : State) (c : Cpl) (e : Code) :
    (s.finishCpl c e).pending = s.pending ∧ (s.finishCpl c e).pwr = s.pwr ∧ (s.finishCpl c e).sec = s.sec
      ∧ (s.finishCpl c e).boot = s.boot ∧ (s.finishCpl c e).quarters = s.quarters := by
  unfold State.finishCpl
  dsimp only
  split <;> exact ⟨rfl, rfl, rfl, rfl, rfl⟩

/-- Completing an operation changes no quarter, no power, trust or start-up state and no waiting command. -/
theorem State.finish_rest (s : State) (o : Owner) (e : Code) :
    (s.finish o e).pending = s.pending ∧ (s.finish o e).pwr = s.pwr ∧ (s.finish o e).sec = s.sec
      ∧ (s.finish o e).boot = s.boot ∧ (s.finish o e).quarters = s.quarters := by
  have h := s.report_noted e
  cases o with
  | thread c =>
    have g := (s.report e).finishCpl_rest c e
    simp only [State.finish]
    exact ⟨g.1.trans h.pending, g.2.1.trans h.pwr, g.2.2.1.trans h.sec, g.2.2.2.1.trans h.boot, g.2.2.2.2.trans h.quarters⟩
  | nest c => exact ⟨rfl, rfl, rfl, rfl, rfl⟩
  | quiet => exact ⟨h.pending, h.pwr, h.sec, h.boot, h.quarters⟩

end Sys2Proof.Machine
end

