-- ==== Sys2Proof/Tests/Slice0.lean ====
section
/-! SUPPORT. Small tests of the model, each about one step or one operand list, and a witness for the hypotheses of every
statement. Expected values are the manual's or worked out by hand from it. -/

namespace Sys2Proof.Tests

set_option maxRecDepth 100000
set_option Elab.async false

open Sys2Proof.Machine Sys2Proof.Claims

/-! ## Operand lists -/

def flit (ty : BitVec 4) (n : Nat) : Flit := ⟨0, ty, 0, 0, true, 0, 0, List.replicate n 0, 0⟩

def cfg0 : CfgImage :=
  { coords := [], cuts := [], hbmIlv := 0, excluded := [], sideEth := [], ingestV4 := [], ingestV6 := [], udpPort := 0, members := []
    routes := [], pairMode := 0, pairWait := 1000, stateRegion := (0, 0), ckptRegion := (0x1000, 0x1000), parts := [], accepted := []
    successor := none, ownerKey := [1], partPad := 10000, pwrCap := 3600, idleMs := 1000, clkMax := 20, stallMs := 100, fill := true }

def img0 : SlotImage := ⟨0, 2, 0, [], [], cfg0, [], [], [], [], [], true⟩

/-- WellFormed refuses a flit whose payload is short, or whose type is not its row's, an operand of a wrong length, and an image
without its fixed fields. -/
theorem test_ill_formed :
    (Instr.dataFlit 0 (flit 0 243)).wellFormed = false ∧ (Instr.ackFlit 0 (flit 0 244)).wellFormed = false
      ∧ (Instr.nakFlit 0 (flit 1 244)).wellFormed = false ∧ (Instr.creditFlit 0 (flit 2 244)).wellFormed = false
      ∧ (Instr.controlFlit 0 (flit 3 244)).wellFormed = false ∧ (Instr.idleFlit 0 (flit 4 244)).wellFormed = false
      ∧ (Instr.forwardedWrite 0 (List.replicate 63 0)).wellFormed = false ∧ (Instr.pairCompare .a 0 []).wellFormed = false
      ∧ (Instr.quote 0 0 (List.replicate 47 0)).wellFormed = false ∧ (Instr.debugSignature [] [0]).wellFormed = false
      ∧ (Instr.image img0).wellFormed = false ∧ (Instr.fieldUpdate [] img0).wellFormed = false
      ∧ (Instr.thermalSample ⟨[0], [0, 0], []⟩).wellFormed = false ∧ (Instr.publish 0 0 0 1 none none [] []).wellFormed = false := by
  decide

theorem test_well_formed :
    (Instr.dataFlit 0 (flit 0 244)).wellFormed = true ∧ (Instr.idleFlit 0 (flit 5 244)).wellFormed = true
      ∧ (Instr.forwardedWrite 0 (List.replicate 64 0)).wellFormed = true ∧ (Instr.refresh 0 0).wellFormed = true := by decide

/-- The table gives no row any bits, so no word spells a command. -/
theorem test_no_words : decodeTableWord 16 0x1234 = none ∧ State.reset.withFetchWord 16 0x1234 = State.reset := by
  exact ⟨rfl, rfl⟩

/-! ## States for the tests -/

/-- A module that runs: every domain ON, every core bound, one channel in every stack, a small crown in Q0. -/
def up : State := { State.reset with
  pwr := { dom := Vector.replicate 80 .on }
  cores := Vector.replicate 192 { phys := some 0 }
  quarters := Vector.replicate 4 { cut := ⟨2, 2, 0, false, false⟩, chmap := [1, 1, 1] }
  boot := { mode := .running, cfg := some cfg0 }
  net := { version := 7, members := [0, 1], coordinator := some 0 } }

def th : Th := ⟨0, 0, 0, false, []⟩

/-- A gang of two threads with v0 = 5 and v1 = 7 in thread 0, v0 = 0xFFFFFFFF in thread 1. -/
def g2 : Gang := (({ status := .live, mask := 3 } : Gang).setReg 0 0 5).setReg 0 1 7 |>.setReg 1 0 0xFFFF_FFFF

def on (k : Gang) (s : State) : State := s.onGang 0 0 (fun _ => k)

def s0 : State := on g2 up

/-- A check of the next state. -/
def goes (o : Out) (f : State → Bool) : Bool :=
  match o with
  | .next t => f t
  | _ => false

/-- The state a command leads to, or the state before it. -/
def after (s : State) (c : Instr) : State :=
  match exec c s with
  | .next t => t
  | _ => s

def isOk {α : Type} (r : State × Except Code α) : Bool :=
  match r.2 with
  | .ok _ => true
  | .error _ => false

/-- v`r` of thread `n` of the gang of the tests. -/
def vreg (t : State) (n : Nat) (r : Reg) : Word := (t.gang 0 0).reg n r

/-! ## Threads (09 R193, R210) -/

theorem witness_ready : s0.ready th [0, 1] [] = true ∧ s0.ready th [0] [1] = true ∧ MayIssue s0 th ∧ AtInstr s0 0 0
    ∧ (s0.gang 0 0).execs th = [0, 1] := by
  unfold MayIssue AtInstr
  decide

theorem test_add_wraps : goes (exec (.add th false 2 0 (.reg 0)) s0) (fun t =>
    vreg t 0 2 == 10 && vreg t 1 2 == 0xFFFF_FFFE && (t.gang 0 0).pc == 8) = true := by decide
theorem test_mul_hi_signed : goes (exec (.mulHi th true 2 0 (.reg 0)) s0) (fun t => vreg t 1 2 == 0) = true := by decide
theorem test_mul_hi_unsigned : goes (exec (.mulHi th false 2 0 (.reg 0)) s0) (fun t => vreg t 1 2 == 0xFFFF_FFFE) = true := by decide
theorem test_sra : goes (exec (.sra th 2 0 1) s0) (fun t => vreg t 1 2 == 0xFFFF_FFFF && vreg t 0 2 == 0) = true := by decide
theorem test_clz_zero : goes (exec (.clz th 2 3) s0) (fun t => vreg t 0 2 == 32) = true := by decide
theorem test_cmp_signed : goes (exec (.cmpLt th .i32 1 0 1) s0) (fun t =>
    (t.gang 0 0).pred 0 1 && (t.gang 0 0).pred 1 1) = true := by decide
theorem test_cmp_unsigned : goes (exec (.cmpLt th .u32 1 0 1) s0) (fun t =>
    (t.gang 0 0).pred 0 1 && !(t.gang 0 0).pred 1 1) = true := by decide
/-- 1.0 + 2^-24 is a tie: to even it is 1.0 (RND 0b01), away from zero the next number (RND 0b00) (02 R40, R41). -/
theorem test_fadd_tie : goes (exec (.fadd th 1 2 0 1) (on ((g2.setReg 0 0 0x3F80_0000).setReg 0 1 0x3380_0000) up)) (fun t =>
    vreg t 0 2 == 0x3F80_0000) = true := by decide
theorem test_call_and_ret : goes (exec (.call th 64) s0) (fun t =>
    (t.gang 0 0).pc == 64 && goes (exec (.ret th) t) (fun u => (u.gang 0 0).pc == 8 && (u.gang 0 0).stack == [])) = true := by decide
/-- `br.any` in sense and against it. -/
theorem test_br_any : goes (exec (.brAny th 64) s0) (fun t => (t.gang 0 0).pc == 64) = true
    ∧ goes (exec (.brAny ⟨0, 0, 0, true, []⟩ 64) s0) (fun t => (t.gang 0 0).pc == 8) = true := by decide
theorem test_exit_ends : goes (exec (.exit th) s0) (fun t => (t.gang 0 0).mask == 0 && (t.gang 0 0).status == .ending) = true := by
  decide

def full : Gang := { g2 with stack := List.replicate 16 0 }

theorem witness_rows :
    (aluRow (.add th false 2 0 (.imm 1))).isSome ∧ (predRow (.cmpEq th .f32 1 0 1)).isSome ∧ (fpuRow (.fadd th 0 2 0 1)).isSome
      ∧ (branchRow (.br th 64)).isSome ∧ (stochRow (.fadd th 3 2 0 1)).isSome ∧ (memRow (.ld32 th 2 0 0 none)).isSome
      ∧ (fenceRow (.fenceSc th 0)).isSome := by decide

/-- IntegerResults, PredicateResults, FloatResults, BranchResults, StochasticFloatResults: all their premises together. -/
theorem witness_thread_results :
    (∃ f, aluRow (.add th false 2 0 (.reg 1)) = some (th, 2, [0, 1], [], f)) ∧ s0.ready th [0, 1] [] = true
      ∧ (∃ f, predRow (.cmpLt th .i32 1 0 1) = some (th, 1, [0, 1], [], f))
      ∧ (∃ f, fpuRow (.fadd th 0 2 0 1) = some (th, 2, [0, 1], f))
      ∧ (∃ g k, branchRow (.call th 64) = some (th, g) ∧ g (s0.gang 0 0) = some k) ∧ s0.ready th [] [] = true
      ∧ (∃ f, stochRow (.fadd th 3 2 0 1) = some (th, 2, [0, 1], f)) ∧ s0.rngFree 0 = true ∧ s0.det 0 = false := by
  refine ⟨⟨_, rfl⟩, by decide, ⟨_, rfl⟩, ⟨_, rfl⟩, ⟨_, _, rfl, rfl⟩, by decide, ⟨_, rfl⟩, by decide, by decide⟩

/-- A core whose partition is deterministic and whose lanes are FRESH. -/
def det : State := s0.onCore 0 (fun k => { k with det := true, rng := { k.rng with fresh := true } })

/-- StochasticFloatRefused; FloatAddRefused, whose addresses are 0x7_0000_0005. -/
theorem witness_refused : det.ready th [0, 1] [] = true ∧ det.rngFree 0 = true ∧ det.det 0 = true ∧ (det.core 0).rng.fresh = true
    ∧ det.ready th [0, 0 + 1, 1] [] = true ∧ ∃ n ∈ (det.gang 0 0).execs th, det.deviceKnown (det.part 0)
      (((det.gang 0 0).reg n (0 + 1)).setWidth 64 <<< 32 ||| ((det.gang 0 0).reg n 0).setWidth 64) = true := by decide
theorem test_varies : goes (exec (.fadd th 3 2 0 1) det) (fun t => (t.core 0).varies == 1 && vreg t 0 2 == 0) = true := by decide

/-- ConversionResults, GangReductionWinners and the four clauses of GangEndingFailures. -/
theorem witness_conversion : fmtReserved 0 = false ∧ s0.ready th [0] [] = true ∧ fmtReserved 15 = true ∧ s0.ready th [] [] = true
    ∧ AtInstr s0 0 0 ∧ 16 ≤ ((on full up).gang 0 0).stack.length ∧ (on full up).ready th [] [] = true := by
  unfold AtInstr
  decide
theorem test_reserved_encoding : goes (exec (.reservedEncoding 0 0) s0) (fun t =>
    (t.gang 0 0).status == .ending && (t.gang 0 0).gfault.code == .format && (t.gang 0 0).gfault.valid) = true := by decide
theorem test_call_17 : goes (exec (.call th 64) (on full up)) (fun t => (t.gang 0 0).gfault.code == .limit) = true := by decide
theorem test_gred_max : goes (exec (.gredMax th 2 3 0) (on ((g2.setReg 0 0 0x3F80_0000).setReg 1 0 0x4000_0000) up)) (fun t =>
    vreg t 0 2 == 0x4000_0000 && vreg t 0 3 == 1) = true := by decide

/-! ## Memory instructions (09 R198-R206) -/

/-- One thread's access of `w` bytes at `x`. -/
def acc (kind : AccKind) (w : Nat) (x : Addr) (v c : BitVec 64) : Access :=
  { kind, width := w, items := [⟨0, x, v, c⟩], vd := if kind = .store then none else some 2, ps := some 1, mask := 1, issued := 0
    answer := none }

def s1 (a : Access) : State := on { g2 with memops := [.acc a] } up

/-- A gang whose v0 and v1 hold the address 0x140 of core memory. -/
def sm : State := on ((((g2.setReg 0 0 0x140).setReg 0 1 0).setReg 1 0 0x140).setReg 1 1 0) up

theorem witness_memory_issue : memRow (.ld32 th 2 0 0 none) = some (th, .load, 4, 0, 0, none, none, some 2, none)
    ∧ sm.ready th ([0, 0 + 1] ++ opRegs 4 none ++ opRegs 4 none) [] = true ∧ (sm.gang 0 0).execs th ≠ []
    ∧ memRow (.atomAddF32 th 2 0 3 none) = some (th, .addF32, 4, 0, 0, some 3, none, some 2, none) ∧ sm.det 0 = false
    ∧ sm.ready th ([0, 0 + 1] ++ opRegs 4 none ++ opRegs 4 (some 3)) [] = true := by
  refine ⟨rfl, by decide, by decide, rfl, by decide, by decide⟩
theorem test_load_leaves : goes (exec (.ld32 th 2 0 4 none) sm) (fun t =>
    ((t.gang 0 0).memops.map (fun m => match m with | .acc a => a.items.map (·.addr) | _ => [])) == [[0x144, 0x144]]) = true := by decide

/-- FenceOrder: with a store in flight, which `fence.rel` waits for and `fence.acq` does not. -/
theorem witness_fence :
    let s := s1 (acc .store 4 0x140 7 0)
    s.ready th [] [] = true ∧ (s.gang 0 0).execs th ≠ [] ∧ fenceRow (.fenceAcq th 0) = some (th, .acq, 0)
      ∧ (∃ m ∈ (s.gang 0 0).memops, heldBy .rel m) ∧ (∀ m ∈ (s.gang 0 0).memops, ¬ heldBy .acq m) := by
  have h : ((s1 (acc .store 4 0x140 7 0)).gang 0 0).memops = [.acc (acc .store 4 0x140 7 0)] := by decide
  refine ⟨by decide, by decide, rfl, ?_, ?_⟩
  · rw [h]
    exact ⟨_, List.mem_singleton.mpr rfl, trivial⟩
  · rw [h]
    intro m hm
    rw [List.mem_singleton.mp hm]
    exact fun k => k rfl

theorem at_cmem (a : Access) (i : AccItem) (w : Nat) (r : Right)
    (h : (s1 a).deviceKnown ((s1 a).part 0) i.addr = true ∧ i.addr.toNat % w = 0
      ∧ (match ((s1 a).from_ 0).resolve ((s1 a).part 0) i.addr r with | .ok (.here x) => x == 0x140 | _ => false) = true)
    (hp : (s1 a).place 0x140 = .cmem 0 0x140) : AtMemory (s1 a) 0 i w r 0x140 := by
  refine ⟨h.1, h.2.1, ?_, by intro o; rw [hp]; exact Place.noConfusion⟩
  have := h.2.2
  split at this
  · rename_i x hx
    rw [hx, eq_of_beq this]
  · cases this

theorem witness_load :
    let a := acc .load 8 0x140 0 0
    MayPerform (s1 a) 0 0 0 a ∧ AtMemory (s1 a) 0 ⟨0, 0x140, 0, 0⟩ 8 .read 0x140 ∧ (((s1 a).from_ 0).readLine (0x140 / 64)).2 = .done := by
  refine ⟨by unfold MayPerform; decide, at_cmem _ _ _ _ (by decide) (by decide), by decide⟩
theorem witness_store :
    let a := acc .store 2 0x140 0x1234 0
    MayPerform (s1 a) 0 0 0 a ∧ a.vd = none ∧ AtMemory (s1 a) 0 ⟨0, 0x140, 0x1234, 0⟩ 2 .write 0x140
      ∧ ((s1 a).from_ 0).mayWrite 0 0x140 2 = true ∧ (s1 a).staleAt 0 0x140 = none
      ∧ (((s1 a).from_ 0).store 0x140 (leBytes 2 0x1234)).2 = .done := by
  refine ⟨by unfold MayPerform; decide, by decide, at_cmem _ _ _ _ (by decide) (by decide), by decide, by decide, by decide⟩
theorem test_store_little_endian : goes (exec (.threadAccessComplete 0 0 0 ⟨[]⟩) (s1 (acc .store 2 0x140 0x1234 0))) (fun t =>
    t.mem == [(0x140, 0x34), (0x141, 0x12)] && (t.gang 0 0).memops == []) = true := by decide
theorem witness_atomic :
    let a := acc .addF32 4 0x140 0x3F80_0000 0
    let b := acc .cas 8 0x140 9 0
    (MayPerform (s1 a) 0 0 0 a ∧ AtMemory (s1 a) 0 ⟨0, 0x140, 0x3F80_0000, 0⟩ 4 .write 0x140 ∧ (s1 a).det 0 = false
      ∧ (s1 a).isCmem 0x140 = true ∧ (s1 a).mayAtomic 0 0x140 = true ∧ (s1 a).staleAt 0 0x140 = none
      ∧ (((s1 a).from_ 0).readLine (0x140 / 64)).2 = .done)
    ∧ (MayPerform (s1 b) 0 0 0 b ∧ AtMemory (s1 b) 0 ⟨0, 0x140, 9, 0⟩ 8 .write 0x140 ∧ (s1 b).mayAtomic 0 0x140 = true
      ∧ (s1 b).staleAt 0 0x140 = none ∧ (((s1 b).from_ 0).readLine (0x140 / 64)).2 = .done) := by
  refine ⟨⟨by unfold MayPerform; decide, at_cmem _ _ _ _ (by decide) (by decide), by decide, by decide, by decide, by decide,
    by decide⟩, by unfold MayPerform; decide, at_cmem _ _ _ _ (by decide) (by decide), by decide, by decide, by decide⟩
theorem test_cas : goes (exec (.threadAccessComplete 0 0 0 ⟨[]⟩) (s1 (acc .cas 4 0x140 9 0))) (fun t =>
    t.mem == [(0x140, 9)] && vreg t 0 2 == 0) = true := by decide

/-- AccessFailures, clause by clause: no such device, a refused float add, a misaligned address, and a hole. -/
theorem witness_access_failures :
    let s := fun a => MayPerform (s1 a) 0 0 0 a
    (s (acc .load 4 0x7FFE_0000_0000_0000 0 0) ∧ s0.deviceKnown 0 0x7FFE_0000_0000_0000 = false)
      ∧ (s (acc .addF32 4 0x140 0 0) ∧ det.det 0 = true)
      ∧ (s (acc .load 4 0x142 0 0) ∧ (0x142 : Nat) % 4 ≠ 0)
      ∧ (s (acc .load 4 0x6000_0000 0 0)
        ∧ (match ((s1 (acc .load 4 0x6000_0000 0 0)).from_ 0).resolve 0 0x6000_0000 .read with | .error c => c == .unmapped | _ => false)
          = true) := by
  unfold MayPerform
  decide
theorem test_misaligned : goes (exec (.threadAccessComplete 0 0 0 ⟨[]⟩) (s1 (acc .load 4 0x142 0 0))) (fun t =>
    (t.gang 0 0).gfault == ⟨true, false, 0, .align, 0x142⟩ && (t.gang 0 0).pred 0 1 && vreg t 0 2 == 0) = true := by decide

/-! ## Barriers and gangs (09 R194-R196, R207) -/

/-- Core barrier 1 expects 2 arrivals and has had one. -/
def sb : State := s0.onCore 0 (fun k => { k with barriers := [(1, { count := 2, arrived := 1, phase := 0 })] })

/-- Gang 0 waits at it until 500 ns. -/
def sw : State := sb.onGang 0 0 (fun k => { k with wait := some ⟨.core 1, 0, some 500, some 4, 3⟩ })

/-- BarrierInit, BarrierArrive (below the count and at it), BarrierWait (its three clauses) and BarrierWaitExpiry. -/
theorem witness_barriers : s0.ready th [] [] = true ∧ (s0.cplOf th 0).mask ≠ 0 ∧ s0.barAllowed 0 (.core 1) = true ∧ MayIssue sb th
    ∧ sb.barAllowed 0 (.core 1) = true ∧ 0 < (sb.barrier 0 (.core 1)).count
    ∧ (sb.barrier 0 (.core 1)).passed 0 = false ∧ ({ sb.barrier 0 (.core 1) with phase := 1 } : Barrier).passed 0 = true ∧ (s0.barrier 0 (.core 1)).count = 0
    ∧ ({ sw with now := 500 }.gang 0 0).wait = some ⟨.core 1, 0, some 500, some 4, 3⟩
    ∧ (sb.barrier 0 (.core 1)).count ≤ (sb.barrier 0 (.core 1)).arrived + 1 ∧ (s0.barrier 0 (.core 1)).arrived = 0 := by
  unfold MayIssue
  decide
/-- BarrierArrive with a gang that waits for this phase and one for the next, and below the count; BarrierRefused. -/
theorem witness_barrier_waits :
    let s (p : Nat) : State := sb.onGang 0 1 (fun k => { k with status := .live, wait := some ⟨.core 1, p, none, some 4, 3⟩ })
    let f : State := { s0 with barOwner := Tab.set 0 s0.barOwner 3 1 }
    MayIssue (s 0) th ∧ ((s 0).gang 0 1).wait = some ⟨.core 1, 0, none, some 4, 3⟩ ∧ (0 : Nat) ≤ ((s 0).barrier 0 (.core 1)).phase
      ∧ ((s 1).barrier 0 (.core 1)).phase < 1 ∧ ((s 1).gang 0 1).wait = some ⟨.core 1, 1, none, some 4, 3⟩
      ∧ (let w := sb.onCore 0 (fun k => { k with barriers := [(1, { count := 3, arrived := 1, phase := 0 })] })
         MayIssue w th ∧ (w.barrier 0 (.core 1)).arrived + 1 < (w.barrier 0 (.core 1)).count)
      ∧ MayIssue f th ∧ f.barAllowed 0 (.device 3) = false ∧ f.part 0 = 0 := by
  unfold MayIssue
  decide +kernel
theorem test_arrive_completes : goes (exec (.barArrive th (.core 1) none) sb) (fun t =>
    t.barrier 0 (.core 1) == { count := 2, arrived := 0, phase := 1 }) = true := by decide
theorem test_wait_expires : goes (exec (.barWaitLimitExpiry 0 0) { sw with now := 500 }) (fun t =>
    (t.gang 0 0).wait == none && vreg t 0 4 == 0x301) = true := by decide

/-- SpawnRefused and SpawnStarts: a misaligned entry; a free gang 1 and an empty queue. -/
theorem witness_spawn : MayIssue s0 th ∧ (s0.gang 0 0).status = .live ∧ (12 : Nat) % 8 ≠ 0 ∧ s0.spawnCheck 0 0 16 4 = .done ∧ s0.coreOn 0 = true
    ∧ (s0.core 0).spawns = [] ∧ (s0.gang 0 1).status = .free ∧ (∀ g : GangId, g < 1 → (s0.gang 0 g).status ≠ .free) := by
  unfold MayIssue
  decide
theorem test_spawn_starts : goes (exec (.spawn th 0 16 9 4 5) s0) (fun t =>
    (t.gang 0 1).pc == 16 && (t.gang 0 1).mask == 15 && (t.gang 0 1).reg 3 0 == 9 && (t.gang 0 1).reg 3 2 == 3
      && vreg t 0 5 == 0) = true := by decide
theorem test_spawn_misaligned : goes (exec (.spawn th 0 12 9 4 5) s0) (fun t => (t.gang 0 1).status == .free && vreg t 1 5 == 0x101) = true := by
  decide

/-- A spawn of core 1 waits at core 0. -/
def sq : State := s0.onCore 0 (fun k => { k with spawns := [⟨⟨1, 0, 1, 5, 0⟩, 16, 9, 4, 0⟩] })

theorem witness_spawn_queue : (sq.core 0).spawns.length = 1 ∧ sq.coreOn 0 = true ∧ (sq.gang 0 1).status = .free
    ∧ (∀ g : GangId, g < 1 → (sq.gang 0 g).status ≠ .free) ∧ (sq.core 0).spawns.all (fun r => r.owner.core != 0) = true := by decide
theorem witness_gang_freed :
    let s := on { g2 with status := .ending, mask := 0 } up
    (s.gang 0 0).status = .ending ∧ (s.gang 0 0).outstanding = 0 ∧ (s.gang 0 0).memops = [] := by decide
theorem witness_special_numbers : s0.ready th [] [] = true ∧ s0.part 0 = 0 := by decide

/-- Window 0 of core 0: 64 KiB of its memory with all of it to give. -/
def win : State := (s0.onCore 1 (fun k => { k with
  wins := k.wins.set 0 { en := true, size := 1, base := 0, avail := 1024, gen := 1 } }))

/-- CreditRequests: an address in no window; one in a window with too little and with enough. -/
theorem witness_credit : MayIssue win th ∧ win.windowAt 0x140 = none ∧ win.windowAt 0x80_0140 = some (.cmem 1 0)
    ∧ (win.window (.cmem 1 0)).part = (win.part 0).val ∧ 0 < ceilDiv 64 64 ∧ ceilDiv 64 64 ≤ (win.window (.cmem 1 0)).avail
    ∧ (win.window (.cmem 1 0)).avail < ceilDiv 65600 64 ∧ (win.core 0).credits.length < 16
    ∧ (match (win.from_ 0).resolve (win.part 0) 0x7FFE_0000_0000_0000 .write with | .error e => e == .unmapped | _ => false) = true
    ∧ ceilDiv 0 64 = 0 ∧ (match (win.from_ 0).resolve (win.part 0) 0x80_0140 .write with | .ok (.here a) => a == 0x80_0140 | _ => false) = true
    ∧ (match (win.from_ 0).resolve (win.part 0) 0x140 .write with | .ok (.here a) => a == 0x140 | _ => false) = true := by
  unfold MayIssue
  decide
/-- CreditRequests: a full list, and a tenant refused. A request to another module: `witness_remote_credit`. -/
theorem witness_credit_more :
    let f : State := win.onCore 0 (fun k => { k with credits := List.replicate 16 ⟨.cmem 2 0, 1, 0⟩ })
    let p : State := win.onCore 0 (fun k => { k with part := 1 })
    MayIssue f th ∧ 16 ≤ (f.core 0).credits.length ∧ (∀ e ∈ (f.core 0).credits, e.win ≠ .cmem 1 0)
      ∧ MayIssue p th ∧ (p.window (.cmem 1 0)).part ≠ (p.part 0).val ∧ p.part 0 ≠ 0 := by
  unfold MayIssue
  decide +kernel
theorem test_credit : goes (exec (.credReq th 0x80_0140 128 5) win) (fun t =>
    (t.window (.cmem 1 0)).avail == 1022 && t.balance 0 (.cmem 1 0) == 128) = true := by decide

/-! ## The matrix array (02, 03) -/

def put (s : State) (a n v : Nat) : State := s.wr a (leBytes n v)

def lop : LoadwOp := ⟨0, 0x2000, false, 3, 3, 0⟩
def rop : RunOp := { group := 2, ktile := 5, whalf := 0, fmtA := 3, fmtW := 3, spo := 0, asrc := false, astrm := 0, aoff := 0, rows := 4, orow := 0, sstrm := 0 }
def cop : CloseOp := ⟨2, 1, 2, 1, 1, 0, none, 0, 0⟩

/-- Group 2 is open for 8 rows of 128, and WB0 holds load 0 of a dense 8-bit tile. -/
def sa : State := s0.onArr 0 (fun a => { a with
  seq := 1
  groups := vmod a.groups 2 (fun g => { g with state := .opened, rows := 8 })
  halves := vmod a.halves 0 (fun h => { h with state := .ready, key := some ⟨false, 3, 3, 0⟩, last := some .done }) })

/-- At 0x2000 the descriptor of a sparse tile whose first slot lies at 0x3000 and whose others are zero blocks (04 R96). -/
def ss : State := (List.range 7).foldl (fun s i => put s (0x2004 + 4 * i) 4 0xFFFF_FFFF) (put s0 0x2000 4 0xC0)

def rcmd : RunCmd :=
  { owner := .quiet, part := 0, seq := 7, op := rop, wide := false, load := 0, rlen := none, started := false, entered := 0
    written := 0, moved := false, weights := [], md := [], nhalf := false }

theorem witness_array_issue : MayIssue s0 th ∧ s0.nestBusy 0 = false ∧ (s0.core 0).arr.pending = none ∧ (s0.core 0).arr.wide = false
    ∧ (let u := Seen s0 th 5
       u.deviceBad 0 lop.src = false ∧ lop.src.toNat % 64 = 0 ∧ (u.localOf 0 lop.src).toOption = some 0x2000 ∧ pairOk 0 3 3 = true
        ∧ u.arrSource 0 0 0x2000 (tileBytes (geometry 0 false 3 3) 3) false = .done
        ∧ isOk (u.readDesc 0 0x2001 32 32 true) = false ∧ u.deviceBad 0 0x2001 = false ∧ (0x2001 : Nat) % 64 ≠ 0
        ∧ u.deviceBad 0 0x7FFE_0000_0000_0000 = true)
    ∧ MayIssue sa th ∧ sa.arrRoom th (some 2) = true ∧ (sa.core 0).arr.queued < 16 ∧ sa.runCheck 0 rop (sa.nestHolds 0 2) = .done
    ∧ s0.runCheck 0 rop (s0.nestHolds 0 2) = .shape := by
  unfold MayIssue Seen
  decide
/-- WeightLoadIssue of a sparse tile with one slot in use, and of one with none. -/
theorem witness_sparse_load :
    let u := Seen ss th 5
    let q := u.readDesc 0 0x2000 32 32 true
    let l := (parseTile (match q.2 with | .ok b => b | .error _ => [])).1
    MayIssue ss th ∧ isOk q = true ∧ tileSources { lop with spo := 1 } l 0 0 = [(0x3000, 2 * halfBytes 3)] ∧ pairOk 1 3 3 = true
      ∧ (∀ x ∈ tileSources { lop with spo := 1 } l 0 0, q.1.arrSource 0 0 x.1 x.2 false = .done)
      ∧ (q.1.core 0).arr.effWide = false ∧ pairOk 2 3 3 = true := by
  unfold MayIssue
  decide +kernel
theorem test_run_joins : goes (exec (.mmaRun th rop 5) sa) (fun t =>
    (t.group 0 2).lastk == 5 && !(t.group 0 2).empty && (t.core 0).arr.runs.length == 1) = true := by decide

/-- GroupOpen (a closed group, one of a bad shape, one that is open), GroupPreloadIssue and GroupClose. -/
theorem witness_groups : s0.arrRoom th (some 2) = true ∧ s0.nestHolds 0 2 = false ∧ (s0.group 0 2).state = .closed
    ∧ ((128 : Nat) = 128 ∧ 0 < 8 ∧ 8 * 128 ≤ 32768) ∧ ¬ (257 * 128 ≤ 32768) ∧ (sa.group 0 2).state ≠ .closed
    ∧ (Seen s0 th 5).deviceBad 0 0x2000 = false ∧ ((Seen s0 th 5).localOf 0 0x2000).toOption = some 0x2000
    ∧ s0.agOpenBad 0 2 false 128 8 (some 0) = none ∧ (Seen s0 th 5).arrSource 0 0 0x2000 (elemBytes 0 (7 * 128 + 128)) true = .done
    ∧ sa.nestHolds 0 2 = false ∧ (sa.group 0 2).state = .opened ∧ 0 < (sa.group 0 2).rows ∧ fmtReserved cop.fmt = false
    ∧ cop.ovf ≠ 3 ∧ fmtPaired cop.fmt = false ∧ cop.table.isSome = false ∧ cop.rnd ≠ 3 ∧ (s0.group 0 2).state ≠ .opened
    ∧ fmtReserved 7 = true ∧ sa.det 0 = false := by
  unfold Seen
  decide
theorem test_open_large : goes (exec (.agOpen th ⟨2, false, 128, 257, none⟩ 5) s0) (fun t =>
    (t.group 0 2).state == .closed && vreg t 0 5 == 0x103) = true := by decide

/-- A masked tile with no block of its own waits at the crown port. -/
def load0 : LoadCmd := ⟨.quiet, 0, 0, { lop with spo := 1 }, some (List.replicate 8 0xFFFF_FFFF, 0, false, 0), false, .done⟩

theorem witness_array_events :
    (let s := s0.onArr 0 (fun a => { a with loads := [load0] })
     (s.core 0).arr.loads = [load0] ∧ s.coreOn 0 = true ∧ (s.core 0).arr.loadFree load0 = true
      ∧ (∀ q : QuarterId, (s.upd q).run = none) ∧ ((s.from_ 0).readTile 0 load0).2.code = .done)
    ∧ (let l : LoadCmd := { load0 with op := lop, slots := none }
       let s : State := { s0.onArr 0 (fun a => { a with loads := [l] }) with poison := [0x80] }
       (s.core 0).arr.loads = [l] ∧ (s.core 0).arr.loadFree l = true ∧ ((s.from_ 0).readTile 0 l).2.code = .poisoned
        ∧ ((s.from_ 0).readTile 0 l).2.came < 1024)
    ∧ (let s := s0.onArr 0 (fun a => { a with loads := [{ load0 with started := true }] })
       (s.core 0).arr.loads = [{ load0 with started := true }] ∧ s.coreOn 0 = true ∧ (s.core 0).arr.halves[0].issued = load0.seq
        ∧ load0.code = .done ∧ { load0 with code := Code.poisoned }.code ≠ .done)
    ∧ (let s := s0.onArr 0 (fun a => { a with pending := some (.quiet, true, 1) })
       (s.core 0).arr.pending = some (.quiet, true, 1) ∧ s.coreOn 0 = true ∧ (∀ r ∈ (s.core 0).arr.runs, 1 < r.seq))
    ∧ (let s := { s0.onArr 0 (fun a => { a with warmth := .warm }) with now := 4000 }
       s.coreOn 0 = true ∧ (s.core 0).arr.warmth = .warm ∧ (s.core 0).arr.idleSince + 4000 ≤ s.now ∧ s.pwr.down.length < 1024) := by
  decide +kernel

/-- A preload of group 2 that has moved nothing. -/
def wait2 (b : Bool) : Xfer := .preload .quiet 0 2 0x2000 0 128 1 128 8 b 0 .done
def srow (w : Warmth) (x : List Xfer) (p : List RowInFlight) : State :=
  sa.onArr 0 (fun a => { a with runs := [{ rcmd with started := true }], warmth := w, xfers := x, pipe := p })

/-- RunStarts in a warm and in a cold array; CycleKinds: a freeze, a row that enters, one that meets a double error, one that waits for
its row on the way, one that waits for the grant, and an empty cycle; RowsWritten. -/
theorem witness_runs :
    (let s := sa.onArr 0 (fun a => { a with runs := [rcmd] })
     (s.core 0).arr.nextRun = some rcmd ∧ s.coreOn 0 = true ∧ s.runReady 0 rcmd = true ∧ (s.core 0).arr.warmth = .cold
      ∧ ((s.onArr 0 (fun a => { a with warmth := .warm })).core 0).arr.warmth = .warm
      ∧ s.pwr.up.length < 1024 ∧ (s.core 0).arr.nextRun.filter (·.started) = none ∧ s.cycleCauses 0 false = 0
      ∧ (∀ p ∈ (s.core 0).arr.pipe, (s.core 0).arr.cycle ≤ p.due))
    ∧ (let s := s0.onArr 0 (fun a => { a with warmth := .warm, fillEn := false, fedAt := some 0, cycle := 8 })
       (s.core 0).arr.nextRun = none ∧ (s.core 0).arr.fedAt = some 0 ∧ 0 + 8 ≤ (s.core 0).arr.cycle ∧ s.cycleCauses 0 false = 0
        ∧ s.pwr.down.length < 1024)
    ∧ (let r := { rcmd with started := true }
       let s := srow .warm [] []
       let w := srow .warm [wait2 false] []
       (s.core 0).arr.nextRun.filter (·.started) = some r ∧ (match s.feed 0 r 0 with | .ready _ _ _ _ => true | _ => false) = true
        ∧ s.cycleCauses 0 false = 0 ∧ s.pipeReady 0 r 0 = true ∧ (s.core 0).arr.warmth = .warm ∧ (s.core 0).bufErr = []
        ∧ s.rowWords 0 r 0 0 0 (.weight 0 3) = true ∧ s.portTaken 0 = none
        ∧ w.feed 0 r 0 ≠ .ended ∧ w.cycleCauses 0 false = 8 ∧ w.portTaken 0 = none)
    ∧ (let r := { rcmd with started := true }
       let p : RowInFlight := ⟨r.seq + 1, 2, 0, 10, [(3, 0x3F80_0000)], {}, none, false⟩
       let s := srow .warm [] [p]
       let u := srow .upWaiting [] []
       (s.core 0).arr.nextRun.filter (·.started) = some r ∧ (match s.feed 0 r 0 with | .ready _ _ _ _ => true | _ => false) = true
        ∧ s.cycleCauses 0 false = 0 ∧ s.pipeReady 0 r 0 = false ∧ s.coreOn 0 = true ∧ (∀ p ∈ (s.core 0).arr.pipe, (s.core 0).arr.cycle ≤ p.due)
        ∧ s.portTaken 0 = none ∧ (u.core 0).arr.warmth = .upWaiting ∧ u.pipeReady 0 r 0 = true ∧ u.cycleCauses 0 false = 0
        ∧ (match u.feed 0 r 0 with | .ready _ _ _ _ => true | _ => false) = true)
    ∧ (let p : RowInFlight := ⟨7, 2, 0, 10, [(3, 0x3F80_0000)], {}, none, true⟩
       let s := sa.onArr 0 (fun a => { a with pipe := [p], cycle := 11, runs := [rcmd] })
       s.coreOn 0 = true ∧ (s.core 0).arr.pipe.find? (fun p => decide (p.due < (s.core 0).arr.cycle)) = some p
        ∧ (s.core 0).arr.runs.find? (fun r => r.seq == p.run) = some rcmd ∧ p.lastRow = true ∧ (s.core 0).seq.run = none) := by
  decide +kernel
theorem test_cold_wait :
    let s := sa.onArr 0 (fun a => { a with runs := [rcmd], warmth := .upWaiting })
    goes (exec (.rowEntry 0 false) s) (fun t => (t.core 0).arr.coldWait == 1 && (t.core 0).arr.cycle == 1) = true := by decide +kernel

/-- TransferPath: a preload waiting, started, at its last move, and over, or failed; a drain waiting, started and ended. -/
theorem witness_transfer_path :
    let x (b : Bool) (n : Nat) : State := sa.onArr 0 (fun a => { a with xfers := [.preload .quiet 0 2 0x2000 0 128 1 128 1 b n .done] })
    let y (b : Bool) (e : Option Code) : State := sa.onArr 0 (fun a => { a with xfers := [.close .quiet 0 3 cop 1 128 8 b 0 e] })
    ((x false 0).core 0).arr.xfers = [.preload .quiet 0 2 0x2000 0 128 1 128 1 false 0 .done] ∧ (x false 0).coreOn 0 = true
      ∧ ((x true 64).core 0).arr.xfers = [.preload .quiet 0 2 0x2000 0 128 1 128 1 true 64 .done] ∧ (x true 64).coreOn 0 = true
      ∧ (64 / 128 + 1 = 1 ∧ 128 - 64 % 128 ≤ 64 ∧ (64 : Nat) < 128 * 1 ∧ 128 * 1 ≤ 128) ∧ preloadOk ((x true 64).group 0 2).acctInt 0 = true
      ∧ (((x true 64).from_ 0).readRange 0 (0x2000 + elemBytes 0 64) (elemBytes 0 64)).2.2 = .done
      ∧ (({ x true 64 with poison := [0x84] } : State).from_ 0 |>.readRange 0 (0x2000 + elemBytes 0 64) (elemBytes 0 64)).2 = ([], .poisoned)
      ∧ (∀ r ∈ ((y false none).core 0).arr.runs, r.op.group = cop.group → 3 ≤ r.seq) ∧ ((y false none).core 0).qnt.pass = none
      ∧ (∀ q ∈ ((y false none).core 0).qnt.queue, 3 ≤ q.seq) ∧ (y false none).coreOn 0 = true ∧ cop.rnd ≠ 3
      ∧ ((y true (some .done)).core 0).arr.xfers = [.close .quiet 0 3 cop 1 128 8 true 0 (some .done)] := by decide +kernel

def nd : NestDesc :=
  { wsrc := 0, pre := 0, wstrR := 0, wstrO := 0, abase := 0, fmtA := 3, fmtW := 3, spo := 0, wide := false, asrc := false, start := false
    bypass := true, cmode := 0, astrm := 0, sstrm := 0, ostrm := 1, pstrm := 2, fmtOut := 1, rnd := 1, ovf := 0, tab := 0, pfmt := 0
    cbase := 0, gbase := 0, ni := 1, nlev := 1, mrows := 4, levels := [] }
def nest : NestRun := ⟨.quiet, 0, nd, [.run 5 0 2 4 0 none], 0, [2], none, false⟩

/-- At 0x2800 a nest of one tile: 4 rows of 128 by 128, the length of level 0 given by register `l` of the nest lengths, or in place
where it is 0xFF (10 R217). -/
def sn (l : Nat) : State :=
  let s := put (put (put (put s0 0x2800 8 0x3000) 0x281C 2 0x2033) 0x281F 2 0x1111) 0x2825 2 0x403
  put (put (put (put (put (put s 0x2840 4 4) 0x2844 1 l) 0x2850 4 128) 0x2854 1 0xFF) 0x2860 4 128) 0x2864 1 0xFF

/-- The nest at the head of the queue, its descriptor at `a`, and what the read and the checks of it give. -/
def nestAt (s : State) (a : Addr) : State := s.onSeq 0 (fun q => { q with queue := [⟨.quiet, 0, a, none⟩] })
def nestRead (s : State) (a : Addr) : State × Except Code (List Byte) :=
  (((nestAt s a).from_ 0).onSeq 0 (fun q => { q with queue := [] })).readDesc 0 a 160 64 true
def nestOf (s : State) (a : Addr) : NestDesc := parseNest (match (nestRead s a).2 with | .ok b => b | .error _ => []) none

/-- NestStart: a descriptor that cannot be read, one refused, one that runs and one without a command. -/
theorem witness_nest_start :
    let lens (s : State) : List Nat := nestLens (s.core 0).seq (nestOf s 0x2800)
    let s := nestAt (sn 0xFF) 0x2800
    (s.core 0).seq.run = none ∧ (s.core 0).seq.queue = [⟨.quiet, 0, 0x2800, none⟩] ∧ s.coreOn 0 = true
      ∧ isOk (nestRead (sn 0xFF) 0x2801) = false ∧ isOk (nestRead (sn 0xFF) 0x2800) = true ∧ (nestOf (sn 0xFF) 0x2800).rnd ≠ 3
      ∧ (nestOf (sn 0xFF) 0x2800).spo = 0
      ∧ (nestRead (sn 0xFF) 0x2900).1.nestCheck 0 (nestOf (sn 0xFF) 0x2900) [] = .format
      ∧ (nestRead (sn 0xFF) 0x2800).1.nestCheck 0 (nestOf (sn 0xFF) 0x2800) (lens (sn 0xFF)) = .done
      ∧ (nestCut (nestOf (sn 0xFF) 0x2800) (lens (sn 0xFF))).lm = 4 ∧ (nestCut (nestOf (sn 0xFF) 0x2800) (lens (sn 0xFF))).lo = 128
      ∧ (outerIters ((lens (sn 0xFF)).drop 3)).length = 1
      ∧ iterOps (nestOf (sn 0xFF) 0x2800) (nestCut (nestOf (sn 0xFF) 0x2800) (lens (sn 0xFF))) none 0 0x3000 0 ≠ []
      ∧ (nestRead (sn 0) 0x2800).1.nestCheck 0 (nestOf (sn 0) 0x2800) (lens (sn 0)) = .done
      ∧ (nestCut (nestOf (sn 0) 0x2800) (lens (sn 0))).lm = 0 := by decide +kernel

/-- The running nest with more to do, and what it does next. -/
def going (s : State) (d : NestDesc) (o : SeqOp) : State :=
  s.onSeq 0 (fun q => { q with run := some ⟨.quiet, 0, d, [o, .run 5 0 2 4 0 none], 0, [2], none, false⟩ })

/-- NestCommands: each kind of command, the group to open CLOSED and not, 16 runs waiting and fewer. -/
theorem witness_nest_commands :
    let pre : NestDesc := { nd with start := true, pfmt := 0, pre := 0x2000, levels := [(8, 0xFF, 0, 0), (128, 0xFF, 0, 0), (128, 0xFF, 0, 0)] }
    let o (d : NestDesc) : State := going s0 d (.opn 2 8 128 0x2000)
    (o nd).coreOn 0 = true ∧ ((o nd).group 0 2).state = .closed ∧ ((going sa nd (.opn 2 8 128 0)).group 0 2).state ≠ .closed
      ∧ 1 * 8 * 128 ≤ 32768 ∧ nd.start = false ∧ pre.start = true ∧ preloadOk (fmtIsInt pre.fmtA) pre.pfmt = true
      ∧ ((o pre).from_ 0).arrSource 0 0 0x2000 (elemBytes pre.pfmt ((8 - 1) * 128 + 128)) true = .done
      ∧ pairOk nd.spo nd.fmtA nd.fmtW = true
      ∧ ((going s0 nd (.tile 0 0 0x2000 none)).from_ 0).arrSource 0 0 0x2000 (tileBytes (geometry 0 false 3 3) 3) false = .done
      ∧ (let h : SparseHdr := ⟨0x3000, 0x3100, 4, 4, 3⟩
         let r := ((going s0 { nd with spo := 1 } (.tile 0 0 0 (some h))).from_ 0).slotsOf 0 h (tileBlocks 1 false 8 0 0 0)
         (match r.2 with | .ok l => l.all (· == 0xFFFF_FFFF) | .error _ => false) = true
          ∧ dropRuns [.run 0 0 2 4 0 none, .close 2 8 128 0] ≠ [])
      ∧ (let w := (going sa nd (.run 5 0 2 4 0 none)).onSeq 0 (fun q => { q with half := 1 })
         (w.core 0).arr.queued < 16 ∧ w.runCheck 0 rop false = .done)
      ∧ 16 ≤ ((sa.onArr 0 (fun a => { a with runs := List.replicate 16 rcmd })).core 0).arr.queued
      ∧ ((going sa nd (.close 2 8 128 0)).group 0 2).state = .opened ∧ fmtReserved nd.fmtOut = false ∧ nd.ovf ≠ 3 ∧ nd.rnd ≠ 3
      ∧ fmtPaired nd.fmtOut = false ∧ nd.bypass = true := by decide +kernel

/-- NestIssue below a full queue and at one; NestAbort with nothing and with something open. -/
theorem witness_nests : MayIssue s0 th ∧ (s0.core 0).seq.queue.length + (if (s0.core 0).seq.run.isSome then 1 else 0) < 5
    ∧ (let s := s0.onSeq 0 (fun q => { q with queue := List.replicate 5 ⟨.quiet, 0, 0x2000, none⟩ })
       MayIssue s th ∧ 5 ≤ (s.core 0).seq.queue.length)
    ∧ (let s := s0.onSeq 0 (fun q => { q with queue := [⟨.quiet, 0, 0x2000, none⟩] })
       (s.core 0).seq.run = none ∧ (s.core 0).seq.queue = [⟨.quiet, 0, 0x2000, none⟩] ∧ s.coreOn 0 = true)
    ∧ (let s := sa.onSeq 0 (fun q => { q with run := some nest, half := 1 })
       (s.core 0).seq.run = some nest ∧ s.coreOn 0 = true ∧ nest.failed = none ∧ (s.core 0).arr.queued < 16
        ∧ s.runCheck 0 rop false = .done ∧ s.regLive 0x2_0008 = true) := by
  unfold MayIssue
  decide
theorem test_nest_abort : goes (exec (.seqCtlAbort 0 true) (sa.onSeq 0 (fun q => { q with run := some { nest with open_ := 1 } }))) (fun t =>
    ((t.core 0).seq.run.map (fun r => (r.aborted, r.failed))) == some (true, some .staleEpoch)) = true := by decide

/-! ## Structures in core memory -/

/-- At 0x2000 a sparse header of one empty block row, at 0x2040 a row descriptor of one row of 8 FP32, at 0x2080 an optimizer
descriptor (06 R135, 05 R106, 16 R354). -/
def sd : State :=
  let s := put (put (put (put (put s0 0x2000 8 0x3000) 0x2008 8 0x3100) 0x2010 2 1) 0x2012 2 1) 0x2014 1 3
  let s := put (put (put s 0x2040 8 0x4000) 0x204C 4 1) 0x2050 4 8
  let s := put (put (put (put s 0x2080 8 0x2000) 0x2088 8 0x4000) 0x2090 8 0x5000) 0x2098 8 0x6000
  let s := put (put (put (put s 0x20A0 8 0x7000) 0x20A8 8 0x8000) 0x20B0 8 0x9000) 0x20BC 4 1
  put (put (put s 0x20C0 1 1) 0x20C1 1 1) 0x20C3 1 0xFF

/-- At 0x2100 a stream descriptor of one row of 64 bytes, at 0x2180 a layout descriptor of one element, at 0x2200 an IN stream's
(13 R278, R288). -/
def se : State :=
  let s := put (put (put (put (put s0 0x2100 8 0x4000) 0x2108 8 0x5000) 0x2110 4 64) 0x2114 4 1) 0x2121 2 0xFFFF
  let s := put (put s 0x2180 8 0x4000) 0x2188 8 0x6000
  (List.range 4).foldl (fun s i => put (put s (0x21A0 + 24 * i) 4 1) (0x21A4 + 24 * i) 4 1) s

/-! ## Mask commands and the update engine (06, 16) -/

def mrange : BlockRange := ⟨0x2000, 0, 1⟩
def score : MskScoreOp := ⟨mrange, 0x4000, none, 0x3F80_0000, 0x3F80_0000, 0x5000⟩
def select (b : Bool) (t : Word) : MskSelectOp := ⟨mrange, 0x5000, b, t, 0xFFFF, 0, 0x6000, 0x7000⟩
def apply1 : MskApplyOp := ⟨mrange, 0x6000, 0x4000, none, none, false⟩
def tiles : MskTilesOp := ⟨0x2000, 0x2000, 0x4000, 0x5000, none, none, false, 0x8000, 4, 0x2040, 1, 1, 0, 0, 0, 0x9000⟩

/-- The premises a mask command's descriptors meet in `sd`, with what they lead to. -/
def descs (g : Option Addr) : State × Except Code (List Byte) := (Seen sd th 5).readMskDescs 0 0x2000 g
def descBytes (g : Option Addr) : List Byte := match (descs g).2 with | .ok b => b | .error _ => []

theorem witness_mask : MayIssue sd th ∧ (scoreAddrs score).all (fun g => !(Seen sd th 5).deviceBad 0 g) = true ∧ isOk (descs none) = true
    ∧ (0x4000 : Nat) % 64 = 0 ∧ fmtSparse (parseHdr (descBytes none)).fmtW = true
    ∧ (descs none).1.gradCheck 0 (parseHdr (descBytes none)) (gradOf 32 (descBytes none)) = .done
    ∧ ((descs none).1.locals 0 [score.master, score.score]).toOption = some [0x4000, 0x5000]
    ∧ sd.rngFree 0 = true ∧ (descs none).1.rngVaries 0 = false ∧ f32Positive (select true 0).temp = false
    ∧ f32Positive (select true 0x3F80_0000).temp = true
    ∧ ¬ ((0x4004 : Nat) % 64 = 0) ∧ fmtSparse (0xE : BitVec 4) = false
    ∧ ((select true 0).range.hdr :: [(select true 0).score, (select true 0).proposal, (select true 0).summary, (select true 0).scratch]).all
        (fun g => !(Seen sd th 5).deviceBad 0 g && g.toNat % 64 == 0) = true
    ∧ (let w := sd.onRng 0 (fun r => { r with busy := some .irregular }); w.rngFree 0 = false)
    ∧ ((descs none).1.locals 0 [(select true 0).score, (select true 0).proposal, (select true 0).summary]).toOption.isSome = true := by
  unfold MayIssue
  decide +kernel
theorem witness_mask_queue : (apply1.range.hdr :: ([apply1.proposal, apply1.master] ++ apply1.mom1.toList ++ apply1.mom2.toList)).all (fun g =>
      !(Seen sd th 5).deviceBad 0 g) = true
    ∧ [apply1.proposal, apply1.master].all (fun g => g.toNat % 64 == 0) = true
    ∧ ((descs none).1.locals 0 [apply1.proposal, apply1.master]).toOption = some [0x6000, 0x4000]
    ∧ ([tiles.oldHdr, tiles.newHdr, tiles.grad] ++ tilesAddrs tiles).all (fun g => !(Seen sd th 5).deviceBad 0 g) = true
    ∧ isOk (descs (some tiles.grad)) = true ∧ (tilesAddrs tiles).all (fun g => g.toNat % 64 == 0) = true
    ∧ ((gradOf 32 (descBytes (some tiles.grad))).map (fun d => fmtGrad d.fmt)) = some true
    ∧ ((descs (some tiles.grad)).1.locals 0 (tilesAddrs tiles)).toOption.isSome = true := by decide +kernel
theorem test_mask_misaligned : goes (exec (.mskScore th { score with master := 0x4004 } 5) sd) (fun t => vreg t 0 5 == 0x101) = true := by
  decide +kernel

/-- UpdateIssue with and without random roundings (the descriptor's WRND in bits 1:0 of byte 66), UpdateArrives. -/
theorem witness_update_issue : MayIssue sd th ∧ (Seen sd th 5).deviceBad 0 0x2080 = false ∧ isOk (sd.readOpt 0 0x2080) = true
    ∧ (match (sd.readOpt 0 0x2080).2 with | .ok b => (parseOpt b).draws | .error _ => 1) = 0
    ∧ (match ((put sd 0x20C2 1 3).readOpt 0 0x2080).2 with | .ok b => (parseOpt b).draws | .error _ => 0) ≠ 0
    ∧ (put sd 0x20C2 1 3).rngFree 0 = true := by
  unfold MayIssue
  decide +kernel
def arrived (d : Addr) : State :=
  { sd with viewer := some (.quarter 0) }.onUpd 0 (fun k => { k with arrivals := [(.quiet, 0, 0, d, [])] })
theorem witness_update_arrives : ((arrived 0x2080).upd 0).arrivals = [(.quiet, 0, 0, 0x2080, [])] ∧ (arrived 0x2080).fabricOn 0 = true
    ∧ isOk (sd.readOpt 0 0x2081) = false
    ∧ (let u := (arrived 0x2080).onUpd 0 (fun k => { k with arrivals := [] })
       let bs := match (u.readOpt 0 0x2080).2 with | .ok b => b | .error _ => []
       let w := (u.readOpt 0 0x2080).1
       isOk (u.readOpt 0 0x2080) = true ∧ isOk (w.optGrad 0 (parseOpt bs)) = true
        ∧ w.optCheck 0 0 (parseOpt bs) (optHdr bs) (gradOf 160 (bs ++ [])) = .done
        ∧ w.optCheck 0 0 { parseOpt bs with master := 4 } (optHdr bs) (gradOf 160 (bs ++ [])) = .align
        ∧ (match w.optLocal 0 (parseOpt bs) with
           | .ok d => ((Run.alone w 0 0).judge d (optHdr bs) (gradOf 160 (bs ++ []))).1.ok
           | .error _ => false) = true) := by decide +kernel

/-- UpdateEngineStarts and UpdateEngineEnds, kind by kind. -/
def upd1 (op : UpdOp) : UpdCmd := ⟨.quiet, none, 0, op⟩
theorem witness_update_engine :
    (let s (op : UpdOp) (v : Bool) : State := sd.onUpd 0 (fun k => { k with queue := [upd1 op], vValid := v, vStep := 5 })
     ((s (.opt [] 5 [] 0) false).upd 0).run = none ∧ (s (.opt [] 5 [] 0) false).fabricOn 0 = true
      ∧ ((s (.opt [] 5 [] 0) false).upd 0).vValid = false
      ∧ ((s (.opt [] 5 [] 0) true).upd 0).vValid = true ∧ ((s (.opt [] 5 [] 0) true).upd 0).vSkip = false
      ∧ ((s (.opt [] 5 [] 0) true).upd 0).vStep = 5 ∧ ((s (.apply apply1 []) true).upd 0).queue = [upd1 (.apply apply1 [])]
      ∧ ((s (.tiles tiles []) true).upd 0).queue = [upd1 (.tiles tiles [])])
    ∧ (let s (op : UpdOp) : State := sd.onUpd 0 (fun k => { k with run := some (upd1 op) })
       ((s (.apply apply1 [])).upd 0).run = some (upd1 (.apply apply1 [])) ∧ ((s (.opt [] 5 [] 0)).upd 0).run = some (upd1 (.opt [] 5 [] 0))
        ∧ ((s (.tiles tiles [])).locals 0 (tilesAddrs tiles)).toOption.isSome = true) := by decide +kernel
theorem test_verdict_skips : goes (exec (.updateEngineCommandStart 0) (sd.onUpd 0 (fun k =>
    { k with queue := [upd1 (.opt [] 5 [] 0)], vValid := true, vSkip := true, vStep := 5 }))) (fun t =>
      (t.upd 0).run == none && (t.upd 0).queue == [] && t.rdByte 0 == 1) = true := by decide +kernel

/-! ## Irregular, random, quantiser, layout and stream commands (05, 07, 08, 13) -/

def gat (rnd : BitVec 2) : RowsOp := ⟨0x2400, 1, 0x2040, 0x2040, rnd, 0, 0⟩
def sadd (src : Addr) (path : Bool) : SctAddOp := ⟨0x2400, 1, src, 0x2040, path, 0, 0, 1, 0, 0⟩

def iop (o : IrrOp) (b : Option Consumer) : State :=
  (sd.onMtch 0 (fun m => { m with queue := [(⟨0, 0, 3, 5, 0⟩, 0, o, 4)] })).onRng 0 (fun r => { r with busy := b })

/-- IrregularIssue: a bad address, a draw refused, a float add refused, a descriptor that cannot be read for that, and one that joins;
IrregularCompletes with and without a draw, and one that waits for its paired stream. -/
theorem witness_irregular : irrRow (.gatRows th (gat 1) 5) = some (th, .gatRows (gat 1), 5) ∧ MayIssue sd th
    ∧ ((IrrOp.gatRows (gat 1)).shape.2.2.1.map structAddr ++ (IrrOp.gatRows (gat 1)).shape.2.2.2).all (fun g =>
      !(Seen sd th 5).deviceBad 0 g) = true
    ∧ (Seen sd th 5).deviceBad 0 0x7FFE_0000_0000_0000 = true
    ∧ sd.det 0 = false ∧ (match ((Seen sd th 5).addVaries 0 0 (.gatRows (gat 1))).2 with | .ok b => !b | .error _ => false) = true
    ∧ (IrrOp.gatRows (gat 3)).shape.1 = 3 ∧ det.det 0 = true ∧ (det.core 0).rng.fresh = true ∧ MayIssue det th
    ∧ (let w := sd.onCore 0 (fun k => { k with det := true })
       (match ((Seen w th 5).addVaries 0 0 (.sctAdd (sadd 0x2040 true))).2 with | .ok b => b | .error _ => false) = true
        ∧ (match ((Seen w th 5).addVaries 0 0 (.sctAdd (sadd 0x2041 true))).2 with | .ok _ => false | .error _ => true) = true)
    ∧ (let s := iop .mtchClear none
       (s.core 0).mtch.queue = [(⟨0, 0, 3, 5, 0⟩, 0, .mtchClear, 4)] ∧ s.coreOn 0 = true ∧ (IrrOp.mtchClear).shape.1 ≠ 3
        ∧ ((s.from_ 0).runIrr 0 0 .mtchClear 4).wait = false)
    ∧ (let s := iop (.gatRows (gat 3)) none
       (s.core 0).rng.busy ≠ some .irregular ∧ ((iop (.gatRows (gat 3)) (some .irregular)).core 0).rng.busy = some .irregular) := by
  unfold MayIssue
  decide +kernel
theorem test_gather_holds : goes (exec (.gatRows th (gat 1) 5) sd) (fun t => (t.gang 0 0).held && (t.core 0).mtch.queue.length == 1) = true := by
  decide +kernel

def seed0 (f : Bool) : RngSeedOp := ⟨3, f, 9, 1⟩
def fill0 : RngFillOp := ⟨0, 4, 0x4000, 0, 0, 0, 0, 0, 0⟩
def cat0 : RngCatOp := ⟨0x2040, 0x5000, 0x3F80_0000, 0⟩

/-- RandomIssue: every clause; RandomUnit; EntropyEvents. -/
theorem witness_random : MayIssue sd th ∧ sd.det 0 = false ∧ MayIssue det th ∧ det.det 0 = true
    ∧ (Seen sd th 5).deviceBad 0 fill0.addr = false ∧ (Seen sd th 5).fillCheck 0 fill0 = .done
    ∧ (Seen sd th 5).deviceBad 0 cat0.scores = false ∧ (Seen sd th 5).deviceBad 0 cat0.out = false
    ∧ (let q := (Seen sd th 5).readDesc 0 cat0.scores 32 32 false
       isOk q = true ∧ q.1.rngVaries 0 = false ∧ q.1.catCheck 0 cat0 (parseRows (match q.2 with | .ok b => b | .error _ => [])) = .done) := by
  unfold MayIssue
  decide +kernel
theorem witness_random_unit :
    (let s := s0.onRng 0 (fun r => { r with queue := [.irregular] })
     (s.core 0).rng.queue = [.irregular] ∧ s.coreOn 0 = true ∧ (s.core 0).rng.busy = none)
    ∧ (let b (x : Consumer) : State := s0.onRng 0 (fun r => { r with busy := some x })
       ((b (.seed ⟨0, 0, 3, 5, 0⟩ (seed0 false))).core 0).rng.busy = some (.seed ⟨0, 0, 3, 5, 0⟩ (seed0 false))
        ∧ (seed0 false).fresh = false ∧ (seed0 true).fresh = true ∧ (b (.seed ⟨0, 0, 3, 5, 0⟩ (seed0 true))).sec.retest = none
        ∧ ((b (.fill ⟨0, 0, 3, 5, 0⟩ 0 fill0)).core 0).rng.busy = some (.fill ⟨0, 0, 3, 5, 0⟩ 0 fill0)
        ∧ (((b (.fill ⟨0, 0, 3, 5, 0⟩ 0 fill0)).from_ 0).localOf 0 fill0.addr).toOption = some 0x4000
        ∧ ((b (.cat ⟨0, 0, 3, 5, 0⟩ 0 cat0 [])).core 0).rng.busy = some (.cat ⟨0, 0, 3, 5, 0⟩ 0 cat0 []))
    ∧ s0.coreOn 0 = true ∧ (s0.core 0).rng.lanes[5].s = 0
    ∧ ((s0.onRng 0 (fun r => { r with lanes := r.lanes.set 5 ⟨1, 0⟩ })).core 0).rng.lanes[5].s ≠ 0 := by decide +kernel
theorem witness_entropy : s0.sec.retest = none ∧ s0.sec.drbgCount < 1_048_576 ∧ (∀ c, DrbgUse.tls ≠ .seedFresh c)
    ∧ 1_048_576 ≤ { s0.sec with drbgCount := 1_048_576 }.drbgCount
    ∧ (let s (l : List (DrbgUse × Nat)) (n : Nat) : State := { s0.onRng 0 (fun r => { r with busy := some (.seed ⟨0, 0, 3, 5, 0⟩ (seed0 true)) }) with
         sec := { s0.sec with retest := some 0, drbgWait := l }, now := n }
       (s [] 0).freshSeed 0 = some (⟨0, 0, 3, 5, 0⟩, seed0 true) ∧ (s [] 0).sec.retest = some 0 ∧ (s [] 0).sec.drbgWait = []
        ∧ (s [] 0).sec.keyWait = []
        ∧ (∀ w ∈ (s [(.seedFresh 0, 0)] 5).sec.drbgWait, (s [(.seedFresh 0, 0)] 5).now < w.2 + 10_000_000)
        ∧ (s [(.seedFresh 0, 0)] 10_000_000).sec.drbgWait = [(.seedFresh 0, 0)]
        ∧ (s [(.seedFresh 0, 0)] 10_000_000).freshSeed 0 = some (⟨0, 0, 3, 5, 0⟩, seed0 true)
        ∧ 0 + 10_000_000 ≤ (s [(.seedFresh 0, 0)] 10_000_000).now) := by
  refine ⟨by decide +kernel, by decide +kernel, fun c => DrbgUse.noConfusion, by decide +kernel, by decide +kernel⟩
/-- A FRESH seed that has waited 10 ms for the retest ends with HEALTH and frees the unit. -/
theorem test_retest_times_out :
    let s : State := { s0.onRng 0 (fun r => { r with busy := some (.seed ⟨0, 0, 3, 5, 0⟩ (seed0 true)) }) with
      sec := { s0.sec with retest := some 0, drbgWait := [(.seedFresh 0, 0)] }, now := 10_000_000 }
    goes (exec (.retestExpiry false) s) (fun t => t.sec.drbgWait == [] && (t.core 0).rng.busy == none && vreg t 0 5 == 0x501) = true := by
  decide +kernel

def tab0 : QntTabOp := ⟨0, 0, 2, 0x4000⟩
def pass0 : QntPassOp := ⟨0, 1, 2, 3, 1, 1, 1, 0, 128, 128, .none, .none, none, false, false, 0⟩

theorem witness_quantiser : MayIssue s0 th ∧ (s0.core 0).qnt.queue.length < 16
    ∧ tabRow (.qntLdtab th tab0 5) = some (th, tab0, 5, true) ∧ ((Seen s0 th 5).tabCheck 0 tab0 true).toOption = some 0x4000
    ∧ chanDeviceBad (Seen s0 th 5) 0 pass0.iscale = false ∧ s0.passCheck 0 pass0 = .done
    ∧ ((Seen s0 th 5).readChan 0 pass0.iscale pass0.width).2.2 = .done
    ∧ (let s := s0.onCore 0 (fun k => { k with qnt := { k.qnt with queue := List.replicate 16 ⟨.quiet, 0, 0, .step⟩ } })
       MayIssue s th ∧ 16 ≤ (s.core 0).qnt.queue.length)
    ∧ (let s := s0.onCore 0 (fun k => { k with qnt := { k.qnt with queue := [⟨.quiet, 0, 0, .step⟩] } })
       (s.core 0).qnt.queue = [⟨.quiet, 0, 0, .step⟩] ∧ (s.core 0).qnt.pass = none ∧ s.coreOn 0 = true ∧ (s.core 0).arr.xfers = [])
    ∧ (match (Seen s0 th 5).tabCheck 0 { tab0 with addr := 0x4001 } true with | .ok _ => false | .error _ => true) = true
    ∧ s0.passCheck 0 { pass0 with ovf := 3 } ≠ .done
    ∧ (let s (o : QntOp) (x : List Xfer) : State := s0.onCore 0 (fun k => { k with
         qnt := { k.qnt with queue := [⟨.quiet, 0, 5, o⟩] }, arr := { k.arr with xfers := x } })
       let early (w : State) : Bool := (w.core 0).arr.xfers.any (fun x => match x with
         | .close _ _ n _ _ _ _ _ _ _ => decide (n < 5) | _ => false)
       early (s .step []) = false ∧ early (s .step [.close .quiet 0 3 cop 1 128 8 false 0 none]) = true
        ∧ ((s (.ldtab tab0) []).core 0).qnt.queue = [⟨.quiet, 0, 5, .ldtab tab0⟩]
        ∧ ((s (.sttab tab0) []).core 0).qnt.queue = [⟨.quiet, 0, 5, .sttab tab0⟩]
        ∧ ((s (.pass pass0 [] [] 0) []).core 0).qnt.queue = [⟨.quiet, 0, 5, .pass pass0 [] [] 0⟩] ∧ pass0.rnd ≠ 3)
    ∧ (let r : PassRun := ⟨⟨.quiet, 0, 0, .pass pass0 [] [] 0⟩, 0, 128, [], some .done⟩
       let s := s0.onCore 0 (fun k => { k with qnt := { k.qnt with pass := some r } })
       (s.core 0).qnt.pass = some r ∧ s.coreOn 0 = true) := by
  unfold MayIssue
  decide +kernel

theorem witness_layout : MayIssue se th ∧ (se.core 0).lay.room = true ∧ (Seen se th 5).deviceBad 0 0x2180 = false
    ∧ (Seen se th 5).deviceBad 0 0x7FFE_0000_0000_0000 = true
    ∧ (let k : LayCmd := ⟨⟨0, 0, 3, 5, 0⟩, 0, 0x2180⟩
       let s := s0.onLay 0 (fun l => { l with run := some (k, []), queue := List.replicate 8 k })
       MayIssue s th ∧ (s.core 0).lay.room = false)
    ∧ (let s := se.onLay 0 (fun l => { l with queue := [⟨⟨0, 0, 3, 5, 0⟩, 0, 0x2181⟩] })
       isOk (((s.from_ 0).onLay 0 (fun l => { l with queue := [] })).readDesc 0 0x2181 128 64 false) = false)
    ∧ (let s := se.onLay 0 (fun l => { l with queue := [⟨⟨0, 0, 3, 5, 0⟩, 0, 0x2180⟩] })
       let q := ((s.from_ 0).onLay 0 (fun l => { l with queue := [] })).readDesc 0 0x2180 128 64 false
       (s.core 0).lay.run = none ∧ s.coreOn 0 = true ∧ isOk q = true
        ∧ q.1.layCheck 0 0 (parseLay (match q.2 with | .ok b => b | .error _ => [])) = .done)
    ∧ (let s := s0.onLay 0 (fun l => { l with queue := [⟨⟨0, 0, 3, 5, 0⟩, 0, 0x2180⟩] })
       let q := ((s.from_ 0).onLay 0 (fun l => { l with queue := [] })).readDesc 0 0x2180 128 64 false
       isOk q = true ∧ q.1.layCheck 0 0 (parseLay (match q.2 with | .ok b => b | .error _ => [])) = .shape)
    ∧ (let s := se.onLay 0 (fun l => { l with run := some (⟨⟨0, 0, 3, 5, 0⟩, 0, 0x2180⟩, []) })
       (s.core 0).lay.run = some (⟨⟨0, 0, 3, 5, 0⟩, 0, 0x2180⟩, []) ∧ s.coreOn 0 = true) := by
  unfold MayIssue
  decide +kernel
/-- One byte is copied from 0x4000 to 0x6000. -/
theorem test_layout_copies :
    let s := after ((put se 0x4000 1 0x5A).onLay 0 (fun l => { l with queue := [⟨⟨0, 0, 3, 5, 0⟩, 0, 0x2180⟩] })) (.layCopyStart 0)
    goes (exec (.layCopyComplete 0) s) (fun t => t.rdByte 0x6000 == 0x5A && (t.core 0).lay.run == none) = true := by decide +kernel

/-- An IN stream of 64 bytes that is open, as its request goes out and comes back. -/
def sin : State := s0.onStrm 0 3 (fun x => { x with
  state := .opened, desc := { saddr := 0x4000, rowb := 64, nrows := 1, kind := .inp, iblen := 64, sbar := some (.core 1) } })

theorem witness_streams : MayIssue se th ∧ isOk ((Seen se th 5).readDesc 0 0x2100 64 64 true) = true
    ∧ (let q := (Seen se th 5).readDesc 0 0x2100 64 64 true
       q.1.strmCheck 0 3 (match q.2 with | .ok b => b | .error _ => []) = .done)
    ∧ (s0.strm 0 3).state = .idle ∧ (sin.strm 0 3).state ≠ .idle ∧ MayIssue sin th ∧ (sin.pump 0).strmWinner 0 = some 3
    ∧ (let s := sin.onStrm 0 3 (fun x => { x with landed := 64 })
       s.coreOn 0 = true ∧ (s.strm 0 3).desc.sbar = some (.core 1) ∧ (s.strm 0 3).signalled < (s.strm 0 3).chunksDone)
    ∧ (let s := sin.onStrm 0 3 (fun x => { x with reqs := [(0, 64)], asked := 64 })
       (s.strm 0 3).desc.kind = .inp ∧ (s.strm 0 3).reqs = [(0, 64)]
        ∧ (s.strm 0 3).state ≠ .idle ∧ ((s.from_ 0).strmReadGo 0 false ⟨[]⟩ 10 ((s.strm 0 3).desc.srcRow 0 + 0) 64).2.2 = .done)
    ∧ (let x : State := s0.onStrm 0 3 (fun x => { x with
         state := .opened, desc := { saddr := 0x4000, daddr := 0x5000, rowb := 64, nrows := 1, kind := .mem }, reqs := [(0, 64)], asked := 64 })
       (x.strm 0 3).desc.kind ≠ .inp ∧ (x.strm 0 3).reqs = [(0, 64)])
    ∧ isOk ((Seen se th 5).readDesc 0 0x2101 64 64 true) = false
    ∧ (let q := (Seen se th 5).readDesc 0 0x2140 64 64 true
       isOk q = true ∧ q.1.strmCheck 0 3 (match q.2 with | .ok b => b | .error _ => []) ≠ .done)
    ∧ (let s := sin.onStrm 0 3 (fun x => { x with landed := 64, signalled := 1 })
       (s.strm 0 3).ending = some .done ∧ s.coreOn 0 = true) := by
  unfold MayIssue
  decide +kernel
theorem test_stream_request : goes (exec (.streamRequest 0) sin) (fun t =>
    (t.strm 0 3).reqs == [(0, 64)] && (t.strm 0 3).asked == 64) = true := by decide +kernel

/-! ## Collectives (15) -/

def grp (l : List Nat) (tree : Bool) : GroupSpec := ⟨1, [⟨0, false, l⟩], [1], tree, none, []⟩

/-- A module whose group 1 is itself alone, a staging window in core 0 and, at 0x2400, the descriptor of a barrier (15 R333). -/
def sc : State :=
  let s := s0.onCore 0 (fun k => { k with wins := k.wins.set 0 { en := true, size := 1, base := 0, avail := 1024, gen := 1 } })
  let s := { s with groups := [grp [0] false] }
  put (put (put (put (put s 0x2428 8 0x4000) 0x2438 8 0x9000) 0x2448 1 1) 0x244C 1 12) 0x244D 1 1

def cdesc : CollDesc := { parseColl [] with group := 1 }
def issue (c : CoreId) (n : Nat) : CollIssue := ⟨⟨c, 0, 1, 5, 0⟩, 0, .barrier, { cdesc with count := n }, c⟩
def crun : CollRun :=
  { num := 3, issues := [issue 0 0], local_ := [], blocks := [], got := [], outs := [], fwd := 0, bwd := 0, result := [], late := []
    lateSeen := [], lateSelf := false, phase := 2, counts := [], staged := none }
def chunk (num : Nat) (e : BitVec 16) : Chunk := ⟨4, 1, num, 0, e, 0, 0, 0, 0, false, true, [], 0⟩

/-- CollectiveIssue: no descriptor at an address that is not aligned, one that may not be deterministic, one for a group that is not
there, one whose sharding descriptors are empty, and one that is good. -/
theorem witness_collective_issue : collRow (.collBarrier th 0x2400 5) = some (.barrier, th, 0x2400, 5) ∧ MayIssue sc th
    ∧ isOk ((Seen sc th 5).readDesc 0 0x2401 128 64 false) = false
    ∧ (let r (s : State) := (Seen s th 5).readDesc 0 0x2400 128 64 false
       let q := r sc
       let d := parseColl (match q.2 with | .ok b => b | .error _ => [])
       isOk q = true ∧ d.group = 1 ∧ q.1.det 0 = false ∧ q.1.collCheck 0 0 .barrier d = .done ∧ (q.1.shardCheck 0 d).2 = .done
        ∧ q.1.collCheck 0 0 .barrier { d with group := 2 } = .refused
        ∧ (let v := r (put (sc.onCore 0 (fun k => { k with det := true })) 0x2449 1 8)
           v.1.det 0 = true ∧ (parseColl (match v.2 with | .ok b => b | .error _ => [])).policy = 1)
        ∧ (let v := r (put sc 0x2449 1 64)
           let e := parseColl (match v.2 with | .ok b => b | .error _ => [])
           v.1.det 0 = false ∧ v.1.collCheck 0 0 .barrier e = .done ∧ (v.1.shardCheck 0 e).2 ≠ .done)) := by
  unfold MayIssue
  decide +kernel
theorem witness_collective_start :
    let s (l : List Nat) : State := { sc with groups := [grp l false], collIssues := [(1, issue 0 0), (1, issue 1 4)] }
    (s [0]).groupOf 1 = some (grp [0] false) ∧ (s [0]).pierOn ((s [0]).homePier 1) = true ∧ (s [0]).collOf 1 = none
      ∧ (s [0]).collLoad ((s [0]).homePier 1) < 64 ∧ (s [0]).nextIssues 1 ((s [0]).myLocals (grp [0] false)) = some [issue 0 0]
      ∧ (s [0, 1]).nextIssues 1 ((s [0, 1]).myLocals (grp [0, 1] false)) = some [issue 0 0, issue 1 4]
      ∧ sameIssue (issue 0 0) (issue 1 4) = false ∧ sc.nextIssues 1 (sc.myLocals (grp [0] false)) = none := by decide +kernel

def run1 : State := { sc with collRuns := [(1, crun)] }

/-- ChunkArrives: of a stale epoch, of the collective that runs, signed as it and not, of a later and an earlier one, of a late child,
and with none that runs. -/
def late1 : LateWait := ⟨1, 3, 0, false, false, 0, none, []⟩
theorem witness_chunks : run1.groupOf 1 = some (grp [0] false) ∧ run1.pierOn (run1.homePier 1) = true ∧ run1.collOf 1 = some crun
    ∧ (run1.myLocals (grp [0] false)).headD 0 = 0 ∧ (chunk 3 9).epoch ≠ (run1.core 0).seq.epoch ∧ (chunk 3 0).epoch = (run1.core 0).seq.epoch
    ∧ (chunk 3 0).num = crun.num ∧ (chunk 3 0).sigOp.toNat = crun.head.desc.opByte ∧ (chunk 3 0).sigFmt.toNat = crun.head.desc.fmtByte
    ∧ (chunk 3 0).sigCount.toNat = crun.head.desc.count ∧ ({ chunk 3 0 with sigCount := 9 }).sigCount.toNat ≠ crun.head.desc.count
    ∧ crun.num < (chunk 4 0).num ∧ (chunk 2 0).num < crun.num
    ∧ run1.lateWait.find? (fun w => w.group == 1 && w.num == 3 && w.child == 0) = none
    ∧ { sc with lateWait := [late1] }.lateWait.find? (fun w => w.group == 1 && w.num == 3 && w.child == 0) = some late1
    ∧ sc.collOf 1 = none ∧ Tab.get 0 sc.collNext 1 ≤ 0 ∧ 0 < Tab.get 0 { sc with collNext := [(1, 1)] }.collNext 1 := by decide +kernel

theorem crcBit_lt {p c : Nat} (h : p < 2 ^ 32) (hc : c < 2 ^ 32) : crcBit p c < 2 ^ 32 := by
  unfold crcBit
  split
  · exact Nat.xor_lt_two_pow (by omega) h
  · omega

theorem crc32c_lt (bs : List Byte) : crc32c bs < 2 ^ 32 := by
  refine Nat.xor_lt_two_pow ?_ (by decide)
  have bits (l : List Nat) : ∀ c, c < 2 ^ 32 → l.foldl (fun x _ => crcBit 0x82F6_3B78 x) c < 2 ^ 32 := by
    induction l with
    | nil => exact fun c h => h
    | cons a l ih => exact fun c h => ih _ (crcBit_lt (by decide) h)
  have all : ∀ (l : List Byte) (c : Nat), c < 2 ^ 32 →
      l.foldl (fun c b => (List.range 8).foldl (fun x _ => crcBit 0x82F6_3B78 x) (c ^^^ b.toNat)) c < 2 ^ 32 := by
    intro l
    induction l with
    | nil => exact fun c h => h
    | cons b l ih => exact fun c h => ih _ (bits _ _ (Nat.xor_lt_two_pow h (by omega)))
  exact all bs _ (by decide)

/-- A chunk whose CRC is good, and one whose CRC is not, whatever bytes the tag of 15 R341 is. -/
theorem witness_chunk_crc : (∃ v, chunkOk { chunk 3 0 with crc := v } = true) ∧ (∃ v, chunkOk { chunk 3 0 with crc := v } = false) := by
  have h := crc32c_lt (Config.chunkTag 1 3 0 0 0 0 0 ++ [])
  constructor
  · refine ⟨BitVec.ofNat 32 (crc32c (Config.chunkTag 1 3 0 0 0 0 0 ++ [])), beq_iff_eq.mpr ?_⟩
    exact (Nat.mod_eq_of_lt h).symm
  · refine ⟨BitVec.ofNat 32 (crc32c (Config.chunkTag 1 3 0 0 0 0 0 ++ []) + 1), beq_eq_false_iff_ne.mpr ?_⟩
    intro e
    have e' : crc32c (Config.chunkTag 1 3 0 0 0 0 0 ++ []) = (crc32c (Config.chunkTag 1 3 0 0 0 0 0 ++ []) + 1) % 2 ^ 32 := e
    omega

theorem witness_due :
    let x := grp [0] true
    let r := { crun with issues := [{ issue 0 0 with kind := .allreduce, desc := { cdesc with policy := 1, due := 7 } }] }
    let s : State := { sc with groups := [x], collRuns := [(1, r)], now := 7 }
    s.groupOf 1 = some x ∧ s.collOf 1 = some r ∧ x.tree = true ∧ r.head.desc.policy ≠ 0 ∧ r.head.desc.due ≠ 0
      ∧ r.head.desc.due ≤ s.now ∧ r.fwd = 0 ∧ r.phase = 2 ∧ { s with now := 6 }.now < r.head.desc.due := by decide

/-! ## Ports (14) -/

/-- The check values of CRC-32 and CRC-32C for the nine digits (IEEE 802.3 and RFC 3720). -/
theorem test_crc : crc32 [0x31, 0x32, 0x33, 0x34, 0x35, 0x36, 0x37, 0x38, 0x39] = 0xCBF4_3926
    ∧ crc32c [0x31, 0x32, 0x33, 0x34, 0x35, 0x36, 0x37, 0x38, 0x39] = 0xE306_9283 := by decide +kernel

def good (f : Flit) : Flit := { f with crc := BitVec.ofNat 32 (crc32 (flitBody f)) }

/-- Port 0 is up and has sent flits 0 and 1, with f waiting. -/
def tx (v : Fin 8) : TxFlit := ⟨v, true, [], 0, 1, false, 0, 0⟩
def sp : State := s0.onPort 0 (fun p => { p with
  en := true, width := 3, txSeq := 2, replay := [(0, tx 0), (1, tx 0)], credit := Vector.replicate 8 1, txq := [tx 2] })

/-- FlitArrives: each type, in sequence and out of it, a type the protocol does not have, a bad CRC, a port that is down, and
operands that are ill-formed. -/
theorem witness_flits : (flit 0 243).wfAs 0 = false ∧ s0.portLive 0 = false ∧ sp.portLive 0 = true ∧ (sp.port 0).retraining = false
    ∧ (sp.port 0).burst.length ≤ 16 ∧ (flit 0 244).wfAs 0 = true ∧ flitCrcOk (flit 0 244) = false
    ∧ ([0, 1, 2, 3, 4, 5].all (fun t => (good (flit (BitVec.ofNat 4 t) 244)).wfAs t && flitCrcOk (good (flit (BitVec.ofNat 4 t) 244)))) = true
    ∧ (good (flit 6 244)).wfAs 5 = true ∧ flitCrcOk (good (flit 6 244)) = true ∧ 5 < (flit 6 244).ftype.toNat
    ∧ (good (flit 0 244)).seq.toNat = (sp.port 0).rxSeq ∧ ({ flit 0 244 with seq := 7 }).seq.toNat ≠ (sp.port 0).rxSeq
    ∧ sp.rouses 0 (flit 0 244) = false ∧ sp.pwrState ≠ 2 := by decide +kernel
/-- An ack of number 1 leaves flit 1 alone unacknowledged. -/
theorem test_ack : goes (exec (.ackFlit 0 (good { flit 1 244 with ack := 1 })) sp) (fun t =>
    (t.port 0).replay.map (·.1) == [1] && (t.port 0).txq.length == 1) = true := by decide +kernel

/-- The port of a state as FlitLeaves sees it, once the switch has taken what it handed on. -/
def drained (s : State) : Port := ((atPier s (pierOf 0)).drainRx 0).port 0
/-- FlitLeaves, clause by clause, and the ack timeout. -/
theorem witness_flit_leaves : sp.portLive 0 = true ∧ (sp.port 0).retraining = false
    ∧ (drained (sp.onPort 0 (fun p => { p with nakOwed := true }))).nakOwed = true
    ∧ (let p := drained (sp.onPort 0 (fun p => { p with resend := [0, 1] }))
       p.nakOwed = false ∧ p.resend = [0, 1] ∧ p.replay.find? (fun r => r.1 == 0) = some (0, tx 0))
    ∧ (let p := drained (sp.onPort 0 (fun p => { p with replay := List.replicate 1024 (0, tx 0) }))
       p.nakOwed = false ∧ p.resend = [] ∧ 1024 ≤ p.replay.length)
    ∧ (drained sp).nakOwed = false ∧ (drained sp).resend = [] ∧ (drained sp).replay.length < 1024
    ∧ ((((atPier sp 0).drainRx 0).chooseFlit 0).1.map (·.1)) = some (tx 2)
    ∧ (let u := (atPier (sp.onPort 0 (fun p => { p with txq := [tx 2, tx 4] })) 0).drainRx 0
       (u.port 0).first (u.offers 0) 4 = some (tx 4))
    ∧ (let u := (atPier (sp.onPort 0 (fun p => { p with txq := [] })) 0).drainRx 0
       (u.port 0).nakOwed = false ∧ (u.port 0).resend = [] ∧ (u.port 0).replay.length < 1024 ∧ (u.chooseFlit 0).1 = none)
    ∧ (sp.port 0).replay ≠ [] ∧ sp.now < (sp.port 0).lastAck + 100_000
    ∧ ({ sp with now := 100_000 }.port 0).lastAck + 100_000 ≤ { sp with now := 100_000 }.now := by decide +kernel

def lane (x : LaneRx) : State := sp.onPort 0 (fun p => { p with lanes := p.lanes.set 2 x })

/-- LaneLock: its five kinds of marker; TrainingEnds. -/
theorem witness_lanes : (sp.port 0).en = true ∧ sp.pierOn (pierOf 0) = true
    ∧ (let x := ((lane { cands := [(5, 3)] }).port 0).lanes[2]
       x.locked = false ∧ x.cands.find? (fun c => c.1 + markerPeriod == 11_141_245) = some (5, 3) ∧ 3 ≤ 3)
    ∧ (let x := ((lane { locked := true, due := 40, misses := 2 }).port 0).lanes[2]
       x.locked = true ∧ x.due = 40 ∧ 2 ≤ x.misses)
    ∧ (let x := ((lane { locked := true, due := 40, misses := 1 }).port 0).lanes[2]
       x.locked = true ∧ x.due = 40 ∧ x.misses < 2)
    ∧ (let s := sp.onPort 0 (fun p => { p with retraining := true }); (s.port 0).retraining = true ∧ s.pierOn (pierOf 0) = true) := by
  decide +kernel
theorem test_third_miss : goes (exec (.alignmentMarker 0 2 40 4 2) (lane { locked := true, due := 40, misses := 2 })) (fun t =>
    (t.port 0).lanes[2].lost && !(t.port 0).lanes[2].locked && (t.port 0).retraining) = true := by decide +kernel

/-- Port 0 leads to module 1, and a flow to it is held. -/
def spr : State := sp.onPier 0 (fun p => { p with routes := [(1, some 0)] })
def sf : State := { spr with heldFlows := [((0, 1, 0), [tx 0])], now := 2000 }
/-- CreditRequests' request to another module, which a live port leads to. -/
theorem witness_remote_credit : MayIssue spr th
    ∧ (let u := Seen spr th 5
       (match u.resolve 0 0x2_0000_0000_0140 .write with | .ok (.remote d fb a) => d == 1 && !fb && a == 0x140 | _ => false) = true
        ∧ (match u.askCredit 0 1 false 0x140 2 none with | .ok _ => true | .error _ => false) = true
        ∧ (u.core 0).credits = []) := by
  unfold MayIssue
  decide +kernel

/-- FlowsMove: a held flow that goes on, one that waits for its last flit to be acknowledged, one with no way, none held, and an
adaptive flit that waits without a credit. -/
theorem witness_flows : sf.heldFlows.find? (fun h => h.1 == (0, 1, 0)) = some ((0, 1, 0), [tx 0])
    ∧ (sf.flowPort 0 1).toOption = some 0 ∧ sf.flows.find? (fun f => f.1 == (0, 1, 0)) = none ∧ (∀ h ∈ sp.heldFlows, h.1 ≠ (0, 1, 0))
    ∧ (let s : State := { sf with flows := [((0, 1, 0), 0)] }
       s.flows.find? (fun f => f.1 == (0, 1, 0)) = some ((0, 1, 0), 0) ∧ (∃ r ∈ (s.port 0).replay, r.2.flow = (0, 1, 0)))
    ∧ (let s : State := { sf with heldFlows := [((3, 9, 0), [])] }
       s.heldFlows.find? (fun h => h.1 == (3, 9, 0)) = some ((3, 9, 0), []) ∧ (s.flowPort 3 9).toOption = none ∧ 3 ≠ s.dev)
    ∧ (let f : TxFlit := { tx 2 with adaptive := true }
       let s : State := { (sf.onPort 0 (fun p => { p with credit := Vector.replicate 8 0 })) with adaptQ := [f] }
       s.adaptQ = [f] ∧ f.since + 2000 ≤ s.now ∧ s.bestPort f = none ∧ (s.flowPort f.src f.dst).toOption = some 0
        ∧ { s with now := 5 }.now < f.since + 2000) := by decide +kernel

/-! ## Messages, membership, ingest (14) -/

def msg (dst : Nat) (e : BitVec 16) (first last : Bool) : Msg :=
  { pier := 0, src := 1, fabricB := false, dst, vc := 0, adaptive := false, part := 0, kind := .write, op := 4, epoch := e, core := 0
    addr := 0x4000, len := 64, data := [], aad := [], counter := 5, tag := [], first, last }

/-- MessageArrives: each clause but the landing of a piece, which rests on the cipher. -/
theorem witness_messages : s0.pierOn 0 = true ∧ (msg 1 0 true true).dst ≠ s0.dev ∧ (msg 0 0 true true).dst = s0.dev
    ∧ (msg 0 3 true true).epoch ≠ (s0.core (s0.msgCore (msg 0 3 true true))).seq.epoch
    ∧ (msg 0 0 true true).epoch = (s0.core (s0.msgCore (msg 0 0 true true))).seq.epoch ∧ (s0.pier 0).msgs = []
    ∧ tagged (msg 0 0 true true).kind = true
    ∧ (let s := s0.onPier 0 (fun p => { p with marks := [((1, 0, 0), 9, [])] })
       counterOk ((s.pier 0).mark (1, 0, 0)) false 5 = false) := by decide +kernel
theorem test_stale_message : goes (exec (.message (msg 0 3 true true)) s0) (fun t =>
    t.notices == [(1, 4, .staleEpoch)] && (t.core 0).seq.stale == 1) = true := by decide +kernel
/-- The last piece of a message whose counter is new is good where the cipher says so. -/
theorem witness_message_good (g : Config.gcmOpen = fun _ _ _ _ _ => some [1]) :
    counterOk ((s0.pier 0).mark (1, 0, 0)) false 5 = true ∧ Config.gcmOpen (s0.fabricKey 0) (gcmNonce 1 false 0 5) [] [] [] = some [1] := by
  rw [g]
  exact ⟨by decide +kernel, rfl⟩

/-- An operation sent to module 1 at time 0: a write, a request of `n` bytes of credit, and a chunk of group 1. -/
def op1 : SentOp := ⟨4, .thread ⟨0, 0, 3, 5, 0⟩, 0, 1, false, none, none⟩
def opCredit (n : Nat) : SentOp := { op1 with credit := some (0, 0x4000, n) }
def opChunk : SentOp := { op1 with coll := some (1, 0, false) }

/-- MessageTimers, clause by clause: the stall of pier 1, none, the sender's, and a chunk's. -/
theorem witness_timers :
    (let e : OpenMsg := ⟨1, 4, 0, 0, 0, 0⟩
     let s : State := { s0.onPier 1 (fun p => { p with msgs := [e] }) with now := 50_000_000 }
     (s.pier 0).msgs = [] ∧ (s.pier 1).msgs.find? (fun e => e.src == 1 && e.op == 4 && decide (e.at_ + (s.pier 1).stallMs * 1_000_000 ≤ s.now))
       = some e)
    ∧ (∀ i : PierId, (s0.pier i).msgs = [])
    ∧ (let s : State := { s0 with sentOps := [op1], now := 100_000_000 }
       s.sentOps.find? (fun o => o.id == 4) = some op1 ∧ op1.at_ + 2 * (s.pier (s.opPier op1)).stallMs * 1_000_000 ≤ s.now
        ∧ { s with now := 5 }.now < op1.at_ + 2 * (s.pier (s.opPier op1)).stallMs * 1_000_000 ∧ (s.gang 0 0).status = .live
        ∧ (∀ o ∈ s0.sentOps, o.id ≠ 4))
    ∧ (let s : State := { run1 with sentOps := [opChunk], now := 100_000_000 }
       s.sentOps.find? (fun o => o.id == 4) = some opChunk ∧ opChunk.coll = some (1, 0, false) ∧ s.groupOf 1 = some (grp [0] false)
        ∧ s.collOf 1 = some crun ∧ opChunk.at_ + 2 * (s.pier (s.opPier opChunk)).stallMs * 1_000_000 ≤ s.now) := by decide +kernel
theorem test_notice : goes (exec (.abortNotice 4 ⟨.incomplete, none⟩) { s0 with sentOps := [op1] }) (fun t =>
    vreg t 1 5 == 0x301 && t.sentOps == []) = true := by decide +kernel
/-- Notices, clause by clause: an operation, a request of credit with and without what it asked, a chunk, and a collective by name. -/
theorem witness_notices : run1.groupOf 1 = some (grp [0] false) ∧ run1.collOf 1 = some crun ∧ crun.num = 3
    ∧ ([op1, opCredit 0, opCredit 64, opChunk].all (fun o => ({ run1 with sentOps := [o] } : State).sentOps.find? (fun o => o.id == 4) == some o)) = true
    ∧ op1.coll = none ∧ op1.credit = none ∧ (opCredit 0).coll = none ∧ (opCredit 0).credit = some (0, 0x4000, 0)
    ∧ (opCredit 64).credit = some (0, 0x4000, 64) ∧ opChunk.coll = some (1, 0, false) ∧ opChunk.credit = none := by decide +kernel
theorem test_credit_granted : goes (exec (.abortNotice 4 ⟨.done, some ⟨0x4000, 1024, 7⟩⟩) { s0 with sentOps := [opCredit 64] }) (fun t =>
    (t.core 0).credits == [⟨.remote 1 false 0x4000 1024, 7, 64⟩] && t.sentOps == []) = true := by decide +kernel

/-- Module 1 announces that it leaves. -/
def leave1 : Leave := ⟨1, true, []⟩
theorem witness_membership : sp.portLive 0 = true ∧ sp.now < (sp.port 0).beatOut + 1_000_000
    ∧ ({ sp with now := 10_000_000 }.port 0).beatOut + 1_000_000 ≤ 10_000_000
    ∧ ({ sp with now := 10_000_000 }.port 0).beatIn + 10_000_000 ≤ 10_000_000
    ∧ sp.now < (sp.port 0).beatIn + 10_000_000 ∧ sp.pierOn (pierOf 0) = true ∧ (sp.port 0).en = true
    ∧ s0.boot.mode = .running ∧ 7 ≤ s0.net.version ∧ s0.net.version < 8
    ∧ (([leave1].filter (s0.mayLeave [1])).map (·.dev)) = [1] ∧ 1 ∈ s0.net.members
    ∧ (nextRoles s0.net (s0.net.members.filter (fun d => !([1] : List Nat).contains d && decide (d < 12288)))).1 = some s0.dev
    ∧ (nextRoles { s0.net with coordinator := some 1 } [0, 1]).1 ≠ some s0.dev := by decide +kernel
theorem test_member_leaves : goes (exec (.membershipChange [leave1] []) s0) (fun t => t.net.version == 8 && t.net.members == [0]) = true := by
  decide +kernel

def jspec : JobSpec :=
  { id := 5, part := 0, cores := [0], gangs := [], stages := [1], seed := 0, epoch := 1, dramBytes := 0, crownBanks := 0, seqLen := 1
    updPerQuarter := [0, 0, 0, 0], lossAddr := none, cleanLimit := 2, alpha := 0, threshold := 0, warmup := 0, spikeAct := false
    trust := [[7]], groups := [] }
def job : Job :=
  { spec := jspec, state := .running, epoch := 1, l := 16, clean := 0, floor := 0, reports := [], avg := none, losses := 0, spikes := 0
    committed := 0, placing := false, past := [], log := [] }
def sess : Session := { sid := 9, job := 5, port := 24, keyIn := [], saltIn := [], keyOut := [], saltOut := [], highest := 3, seen := [3], msgs := [], newest := none }

/-- Port 24 is an ETH port with its first link up, and session 9 is open there. -/
def si : State :=
  let s := (s0.onPort 24 (fun p => { p with en := true, eth := true, width := 3, links := (true, false) }))
  { s.onPier 0 (fun p => { p with sessions := [sess] }) with jobs := [job] }

/-- IngestRules: a handshake that opens a session, an untrusted one, one too many, and one with the DRBG at its end; a datagram of no
session, of an old number, and one that is good where the cipher says so. -/
theorem witness_ingest : si.isEth 24 = true ∧ si.pierOn (pierOf 24) = true ∧ si.boot.mode = .running ∧ si.sec.locked = false
    ∧ (si.pier 0).sessions.length + (si.pier 1).sessions.length < 4096 ∧ (∃ j ∈ si.jobs, j.spec.id = 5 ∧ [7] ∈ j.spec.trust)
    ∧ (∀ j ∈ si.jobs, j.spec.id = 5 → [8] ∉ j.spec.trust) ∧ si.sec.drbgCount < 1_048_576
    ∧ (let k : Sec := { si.sec with drbgCount := 1_048_576, retest := some 0 }; 1_048_576 ≤ k.drbgCount ∧ k.retest ≠ none)
    ∧ 4096 ≤ ((si.onPier 0 (fun p => { p with sessions := List.replicate 4096 sess })).pier 0).sessions.length
    ∧ si.boot.cfg = some cfg0 ∧ (si.port 24).en = true ∧ (si.port 24).links.1 = true ∧ (64 : Nat) ≤ 9216 ∧ ingestPort cfg0 = 4710
    ∧ (si.pier (pierOf 24)).sessions.find? (fun x => x.sid == 8) = none
    ∧ (si.pier (pierOf 24)).sessions.find? (fun x => x.sid == 9) = some sess ∧ seqOk sess 3 = false ∧ seqOk sess 4 = true := by
  decide +kernel
/-- A session is new where none is open: the premise on its number holds of whatever number it gets. -/
theorem witness_new_session (n : Nat) : ∀ (i : PierId), ∀ x ∈ (s0.pier i).sessions, x.sid ≠ n := by
  have h : ∀ i : PierId, (s0.pier i).sessions = [] := by decide +kernel
  intro i x hx
  rw [h i] at hx
  cases hx
theorem test_unknown_session : goes (exec (.ethernetFrame 24 0 ⟨64, .ingest true 4710 8 0 0 0 0 [] []⟩) si) (fun t =>
    (t.pier 0).drop == 1) = true := by decide +kernel

/-! ## The redundant pair (15) -/

def line64 : List Byte := List.replicate 64 0x5A
/-- PAIR port 24 is up, in pair mode `m`. -/
def pr (m : Nat) (b twin : Bool) (held : List PairLine) : State :=
  let s := s0.onPort 24 (fun p => { p with en := true, width := 3 })
  let s := s.onColl 0 (fun c => { c with pairMode := m, held })
  { s with net := { s.net with twin }, fabricB := b }

theorem witness_standby : line64.length = 64 ∧ ([] : List Byte).length ≠ 64 ∧ (pr 0 false true []).pairMode ≠ 1
    ∧ (pr 1 false true []).pairMode = 1 ∧ (pr 1 false true []).net.twin = true ∧ (pr 1 false true []).inCkpt 0x1000 = true
    ∧ (pr 1 false true []).fabricB = false ∧ (pr 1 true true []).fabricB = true ∧ 0x1000 % 64 = 0
    ∧ (pr 1 true true []).deadLine (0x1000 / 64) = false ∧ (pr 1 true true []).inCkpt 0x1000 = true := by decide +kernel
theorem witness_mirror :
    let l : PairLine := ⟨.a, 0x1000, line64, 0⟩
    (pr 2 false false []).net.twin = false ∧ (pr 2 false false []).dev ∈ (pr 2 false false []).net.members ∧ (pr 2 false false []).pairMode = 2
      ∧ MirrorAt (pr 2 false true []) 0 ∧ (PairSide.b, 0x1000) ∉ (pairOf (pr 2 false true []) 0).missed
      ∧ (pairOf (pr 2 false true []) 0).held.find? (fun l => l.addr == 0x1000 && l.side != .b) = none
      ∧ MirrorAt (pr 2 false true [l]) 0
      ∧ (pairOf (pr 2 false true [l]) 0).held.find? (fun l => l.addr == 0x1000 && l.side != .b) = some l ∧ l.data = line64
      ∧ l.data ≠ List.replicate 64 0
      ∧ (let s : State := { pr 2 false true [l] with now := 1_000_000 }
         (pairOf s 0).held.find? (fun l => l.addr == 0x1000 && decide (l.since + 1000 * (pairOf s 0).pairWait ≤ s.now)) = some l)
      ∧ (∀ p : PierId, (pairOf (pr 2 false true []) p).held = []) ∧ (pairOf (pr 2 false true [l]) 0).stalled = []
      ∧ (let s : State := (pr 2 false true []).onColl 0 (fun c => { c with missed := [(.b, 0x1000)] })
         MirrorAt s 0 ∧ (pairOf s 0).stalled = [] ∧ (PairSide.b, 0x1000) ∈ (pairOf s 0).missed)
      ∧ (let s : State := pr 2 false true (List.replicate 4096 { l with addr := 0x1040 })
         MirrorAt s 0 ∧ (pairOf s 0).held.find? (fun l => l.addr == 0x1000 && l.side != .b) = none ∧ 4096 ≤ (pairOf s 0).held.length) := by
  unfold MirrorAt
  decide +kernel
theorem test_pair_agrees : goes (exec (.pairCompare .b 0x1000 line64) (pr 2 false true [⟨.a, 0x1000, line64, 0⟩])) (fun t =>
    t.rdByte 0x103F == 0x5A && (pairOf t 0).held == [] && (pairOf t 0).diverge == 0) = true := by decide +kernel

/-! ## Failures and memory events (01, 10, 11, 12) -/

/-- A tenant partition 1 with core 4, banks 0 and 1 of Q0's weight store, and nothing published. -/
def pspec (n : PartId) : PartSpec := ⟨n, [1], [(0, 0), (0, 1)], [0], [], [], [], 1, false, false, [], []⟩
def st1 : State := (s0.onPart 1 (fun p => { p with live := true, spec := some (pspec 1) })).onCore 4 (fun k => { k with part := 1 })
def reg1 (m : Option Nat) (cp : Option Nat) : Region := ⟨3, 1, 0, 0, 1, m, cp, [2], List.replicate 48 0⟩

/-- PlacementChanges: an epoch that is fresh, one that is not the next, one left less than 10 s ago, and a change confirmed. -/
theorem witness_placement : si.jobs.find? (fun j => j.spec.id == 5) = some job ∧ si.boot.mode = .running ∧ (2 : BitVec 16) = job.epoch + 1
    ∧ (∀ p ∈ job.past, p.1 = 2 → p.2 + 10_000_000_000 ≤ si.now) ∧ (3 : BitVec 16) ≠ job.epoch + 1
    ∧ (let j : Job := { job with past := [(2, 0)] }
       let s : State := { si with jobs := [j] }
       s.jobs.find? (fun j => j.spec.id == 5) = some j ∧ ¬ (∀ p ∈ j.past, p.1 = 2 → p.2 + 10_000_000_000 ≤ s.now))
    ∧ job.placing = false ∧ (let j : Job := { job with placing := true }
       ({ si with jobs := [j] } : State).jobs.find? (fun j => j.spec.id == 5) = some j ∧ j.placing = true)
    ∧ si.jobs.find? (fun j => j.spec.id == 9) = none := by decide +kernel
theorem test_placement : goes (exec (.placementChange 5 (.epoch 2 [])) si) (fun t =>
    (t.core 0).seq.epoch == 2 && (t.jobs.map (fun j => (j.epoch, j.placing, j.past))) == [(2, true, [(1, 0)])]) = true := by decide +kernel
/-- PartsFail: a core unbound and bound, a pier that fails first and last, spans. -/
theorem witness_parts_fail : (State.reset.core 0).phys = none ∧ (s0.core 0).phys ≠ none ∧ (0 : CoreId).val < s0.coreCount
    ∧ (s0.pier 0).alive = true ∧ (s0.pier (0 + 1)).alive = true
    ∧ (let s := s0.onPier 1 (fun p => { p with alive := false })
       (s.pier 0).alive = true ∧ (s.pier (0 + 1)).alive = false ∧ (s.pier 1).alive = false)
    ∧ (s0.quarter (s0.quarterOf 0)).spares = [] ∧ ringPair 0 1 = true := by decide +kernel
theorem test_core_fails : goes (exec (.coreFailure 0) (put s0 0x140 1 7)) (fun t =>
    t.mem == [] && (t.core 0).phys == none && (t.gang 0 0).status == .free) = true := by decide +kernel
/-- MemoryEvents, event by event: a bank of the weight store, of the shared cache, beyond the cut, and not ON. -/
theorem witness_memory_events : s0.dom (domZone 0 (zoneOfBank ((s0.quarter 0).physBank 0))) = .on
    ∧ s0.crownLine 0 0 (Tab.get 0 (s0.quarter 0).patrol 0) = some 0x1_0000_0000
    ∧ State.reset.dom (domZone 0 (zoneOfBank ((State.reset.quarter 0).physBank 0))) ≠ .on
    ∧ (let s := s0.onQuarter 0 (fun k => { k with cut := ⟨2, 2, 2, false, false⟩ })
       s.dom (domZone 0 (zoneOfBank ((s.quarter 0).physBank 4))) = .on ∧ s.crownLine 0 4 0 = none ∧ 4 < 2 + 2 + (s.quarter 0).cut.sc)
    ∧ s0.dom (domZone 0 (zoneOfBank ((s0.quarter 0).physBank 4))) = .on ∧ s0.crownLine 0 4 0 = none ∧ 2 + 2 + (s0.quarter 0).cut.sc ≤ 4
    ∧ s0.upsets = [] ∧ s0.fabricOn 0 = true ∧ (0, 0) ∉ (s0.quarter 0).dead
    ∧ s0.channelAddr 0 0 0 = some 0x100_0000_0000 ∧ (nth 0 (s0.quarter 0).chmap 0).getLsbD 0 = true
    ∧ (s0.quarter 0).hbmLatch.valid = false
    ∧ ((s0.onQuarter 0 (fun k => { k with hbmLatch := { k.hbmLatch with valid := true } })).quarter 0).hbmLatch.valid = true
    ∧ (let s (m : Option Nat) : State := { s0 with regions := [reg1 m none], poison := [0x400_0000] }
       (s (some 0x2000)).regions.find? (fun r => r.id == 3) = some (reg1 (some 0x2000) none)
        ∧ (s (some 0x2000)).place (0x400_0000 * 64) = .weight 0 0 ∧ (s (some 0x2000)).weightBank 0 0 = 0
        ∧ 0x400_0000 ∈ (s (some 0x2000)).poison ∧ (s none).regions.find? (fun r => r.id == 3) = some (reg1 none none)) := by
  decide +kernel
theorem test_patrol_poisons : goes (exec (.crownPatrol 0 0 (some .double)) s0) (fun t =>
    t.poison == [0x400_0000] && (t.quarter 0).crownUe == 1) = true := by decide +kernel
theorem witness_pages : (st1.partOf 1).live = true ∧ (1 : PartId) ≠ 0 ∧ (5 : Nat) < 2 ^ 28 := by decide +kernel

/-! ## Power (17) and pins (22) -/

def ask (up down : List StepReq) : State := { s0 with pwr := { s0.pwr with up, down } }

/-- Governor: a shutdown, an upward step that fits and one that does not, and the same downward. -/
theorem witness_governor : { s0.pwr with shut := some (.reset, []) }.shut ≠ none
    ∧ (let s := ask [⟨.array 0, 0⟩] [⟨.clock 0, 0⟩]
       let f := { s with pwr := { s.pwr with upUsed := [(0, 128)], downUsed := [(0, 128)] } }
       s.pwr.shut = none ∧ s.pwr.up = [⟨.array 0, 0⟩] ∧ s.pwr.down = [⟨.clock 0, 0⟩]
        ∧ ((s.pwr.upUsed.filter (fun g => decide (s.now < g.1 + 10000))).map (·.2)).sum + stepUnits (.array 0) ≤ 128
        ∧ 128 < ((f.pwr.upUsed.filter (fun g => decide (f.now < g.1 + 10000))).map (·.2)).sum + stepUnits (.array 0)
        ∧ ((s.pwr.downUsed.filter (fun g => decide (s.now < g.1 + 10000))).map (·.2)).sum + stepUnits (.clock 0) ≤ 128
        ∧ 128 < ((f.pwr.downUsed.filter (fun g => decide (f.now < g.1 + 10000))).map (·.2)).sum + stepUnits (.clock 0)
        ∧ s.mayGoDown (.clock 0) = true ∧ s.ramping (.array 0) = false
        ∧ ({ s with pwr := { s.pwr with ramps := [(.array 0, 0)] } } : State).ramping (.array 0) = true) := by decide +kernel
/-- 17 R382: a wake asked for while the core group ramps down is queued. -/
theorem test_wake_in_ramp :
    let s : State := { s0 with pwr := { s0.pwr with ramps := [(.domain (domGroup 0 0) true, 0)] } }
    (s.wakeGroup (domGroup 0 0)).pwr.up.map (·.target) = [.domain (domGroup 0 0) false]
      ∧ (s0.wakeGroup (domGroup 0 0)).pwr.up = [] := by decide +kernel
theorem test_clock_steps_down : goes (exec (.stepGrant false) (ask [] [⟨.clock 0, 0⟩])) (fun t => (t.quarter 0).freq == 39 && t.pwr.down == []) = true := by
  decide +kernel
theorem witness_ramps :
    let s (x : StepTarget) : State := { s0 with pwr := { s0.pwr with ramps := [(x, 0)], wakes := [(x, true)] }, now := 1000 }
    let d : StepTarget := .domain 0 false
    (s d).pwr.ramps.find? (fun r => r.1 == d && decide (r.2 + 1000 ≤ (s d).now)) = some (d, 0)
      ∧ (s (.array 0)).pwr.ramps.find? (fun r => r.1 == .array 0 && decide (r.2 + 1000 ≤ (s (.array 0)).now)) = some (.array 0, 0)
      ∧ (((s (.array 0)).onArr 0 (fun a => { a with warmth := .rampDown })).core 0).arr.warmth = .rampDown
      ∧ (s (.stack 0)).pwr.ramps.find? (fun r => r.1 == .stack 0 && decide (r.2 + 1000 ≤ (s (.stack 0)).now)) = some (.stack 0, 0)
      ∧ (let e : StepTarget := .domain 0 true
         (s e).pwr.ramps.find? (fun r => r.1 == e && decide (r.2 + 1000 ≤ (s e).now)) = some (e, 0))
      ∧ DomKind.of 0 = .group 0 0 ∧ 0 ∈ s0.groupCores 0 0 ∧ s0.pwr.ramps = [] ∧ (s d).pwr.wakes.find? (fun w => w.1 == d) = some (d, true)
      ∧ (s (.stack 0)).pwr.wakes.find? (fun w => w.1 == .stack 0) = some (.stack 0, true) ∧ s0.pwr.wakes = [] := by decide +kernel

/-- A running module whose gangs are all free. -/
def idle : State := up
/-- Every core group GATED since time 0: S1. -/
def sleepy : State := { up with
  pwr := { up.pwr with
    dom := Vector.ofFn (fun d : Fin 80 => if d.val < 72 ∧ d.val % 18 < 13 then .gated else .on), s1Since := some 0 }
  now := 1_000_000_000 }
theorem witness_idle : (idle.stewardUp = true ∧ idle.pwr.shut = none ∧ idle.pwr.down = [] ∧ idle.pwr.up = []
      ∧ (s0.gang 0 0).status ≠ .free ∧ (0 : CoreId) ∈ s0.allCores)
    ∧ (sleepy.pwr.s1Since = some 0 ∧ 0 + sleepy.pwr.idleMs * 1_000_000 ≤ sleepy.now ∧ { sleepy with now := 5 }.now < 0 + sleepy.pwr.idleMs * 1_000_000
      ∧ sleepy.stewardUp = true ∧ sleepy.pwrState = 1 ∧ sleepy.pwr.shut = none ∧ sleepy.jobs = [] ∧ sleepy.pwr.down = []
      ∧ sleepy.pwr.up = [])
    ∧ ∀ c : CoreId, (idle.core c).spawns = [] ∧ (sleepy.core c).spawns = [] ∧ ∀ g : GangId, (idle.gang c g).status = .free :=
  ⟨by decide +kernel, by decide +kernel, fun c => by simp [idle, sleepy, up, State.gang, State.core, State.reset]⟩

def temps (q p : Int) : Temps := ⟨[q, 50, 50, 50], [p, 50], List.replicate 12 50⟩
theorem witness_heat : s0.stewardUp = true ∧ s0.pwr.cap < 3700 ∧ (3550 ≤ s0.pwr.cap ∧ s0.pwr.cap ≤ 3550 + 100) ∧ 1000 + 100 < s0.pwr.cap
    ∧ (temps 96 50).quarters.length = 4 ∧ (temps 96 50).piers.length = 2 ∧ (temps 96 50).hbms.length = 12 ∧ s0.boot.mode = .running
    ∧ s0.pwrState ≠ 3 ∧ s0.pwr.shut = none ∧ (∀ y ∈ (temps 96 50).piers, y < 105) ∧ (∀ y ∈ (temps 96 50).quarters, y < 105)
    ∧ (∀ q : QuarterId, (s0.quarter q).tripped = false) ∧ 105 ≤ nth 0 (temps 105 50).quarters 0
    ∧ (∀ r : QuarterId, r ≠ 0 → nth 0 (temps 105 50).quarters r.val < 105) ∧ (∃ y ∈ (temps 50 105).piers, 105 ≤ y)
    ∧ (let x : Temps := ⟨[105, 105, 50, 50], [50, 50], List.replicate 12 50⟩
       (∀ y ∈ x.piers, y < 105) ∧ 105 ≤ nth 0 x.quarters 0 ∧ 105 ≤ nth 0 x.quarters 1) := by decide +kernel
theorem test_quarter_trips : goes (exec (.thermalSample (temps 105 50)) s0) (fun t =>
    (t.quarter 0).tripped && t.pwr.throttle.getLsbD 0) = true := by decide +kernel

def ending (l : List DomainId) (now : Nat) : State := { s0 with pwr := { s0.pwr with shut := some (.thermal, l) }, now }
/-- A module in S3: every domain OFF and the always-on domain running. -/
def s3 : State := { State.reset with boot := { State.reset.boot with mode := .running } }

theorem witness_shutdown : s0.pwrState ≠ 3 ∧ s0.pwr.alwaysOn = true ∧ s3.pwrState = 3 ∧ s0.pwr.shut = none
    ∧ (ending [0, 1] 5).pwr.shut = some (.thermal, [0, 1]) ∧ (ending [1] 5).pwr.shut = some (.thermal, [1])
    ∧ (ending [1] 5).now < (ending [1] 5).pwr.shutAt + 2_000_000 ∧ (ending [1] 2_000_000).pwr.shutAt + 2_000_000 ≤ (ending [1] 2_000_000).now
    ∧ (ending [1] 5).boot.resetPending = false := by decide +kernel
theorem test_shutdown_ends : goes (exec .shutdownStep (ending [1] 2_000_000)) (fun t =>
    t.pwrState == 3 && t.pwr.shut == none && t.boot.mode == .running) = true := by decide +kernel
theorem witness_pins : s0.pwrState ≠ 3 ∧ s0.pwr.alwaysOn = true ∧ (39_999 : Nat) < 40_000 ∧ (100 : Nat) ≤ 100
    ∧ { s0.pwr with alwaysOn := false }.alwaysOn = false ∧ (42_000 : Nat) < 42_001 ∧ (ending [1] 5).pwr.shut ≠ none
    ∧ s3.pwr.shut = none ∧ s3.pwrState = 3 ∧ s3.pwr.alwaysOn = true ∧ s0.pwr.shut = none ∧ s0.sec.locked = false ∧ s0.boot.mode = .running
    ∧ { s0.sec with locked := true }.locked = true ∧ s3.sec.locked = false ∧ s3.boot.mode = .running := by decide +kernel
theorem test_status : goes (exec .status s0) (fun t => (t.sbReply.map (·.2)) == some .done && !t.sbInt) = true := by decide +kernel

/-! ## Trust (18), start-up and update (19) -/

def srun (m : RunMode) : State := { State.reset with boot := { State.reset.boot with mode := m } }

theorem witness_alarms : s0.pwr.alwaysOn = true ∧ s0.sec.eventAt = none ∧ s0.boot.mode = .running ∧ s0.sec.locked = false ∧ s0.pwrState ≠ 3
    ∧ { s0.sec with eventAt := some 5 }.eventAt = some 5 ∧ s0.now ≤ 5 + 1_000_000 ∧ s3.sec.eventAt = none ∧ s3.pwrState = 3
    ∧ s3.boot.mode = .running ∧ State.reset.boot.mode ≠ .running ∧ State.reset.pwr.alwaysOn = true := by decide +kernel
theorem test_alarm : goes (exec (.gauntletAlarm .light) (srun .recovery)) (fun t => t.sec.locked && t.sec.tcount == 1) = true := by
  decide +kernel
theorem witness_debug_and_quotes : s0.serves = true ∧ (List.replicate 48 (0 : Byte)).length = 48 ∧ st1.serves = true ∧ (st1.partOf 1).live = true
    ∧ { st1.sec with akey := some [1] }.akey = some [1] ∧ (1 : PartId) ≠ 2 ∧ s0.sec.akey = none := by decide +kernel
/-- DebugPort's two cases exclude each other and cover all; the first is met where the ciphers say so. -/
theorem witness_debug_good (h : Config.debugKeys = [[1]]) (g : Config.ecdsaVerify = fun _ _ _ => true) :
    (Config.debugKeys.contains [1] && Config.ecdsaVerify [1] (sha384 s0.sec.challenge) [2]) = true := by
  rw [h, g]
  rfl

/-- A boot image of one coordinate, whose digests are its bodies' own. -/
def img1 (seq : BitVec 32) : SlotImage :=
  let c : CfgImage := { cfg0 with coords := [⟨1, 2, false, 0, 0, 0, 0⟩], cuts := List.replicate 4 ⟨2, 2, 0, false, false⟩, members := [0, 1] }
  ⟨0x4B52_5A31, seq, 0, [], [], c, [], [sha384 [], sha384 [], sha384 []], List.replicate 96 0, List.replicate 96 0, sha384 [1], true⟩

/-- StartUp: not from reset; with no image in a slot. -/
theorem witness_start_up : (srun .running).boot.mode ≠ .reset ∧ State.reset.boot.mode = .reset ∧ State.reset.sec.locked = false
    ∧ State.reset.pwr.alwaysOn = true ∧ State.reset.slotFirm State.reset.boot.flash[0] = false
    ∧ State.reset.slotFirm State.reset.boot.flash[1] = false := by decide +kernel
def booted : State := { State.reset with boot := { State.reset.boot with flash := #v[{ img := some (img1 3) }, {}] } }
theorem img1_cfg (n : BitVec 32) : cfgOk (img1 n).config 1 2 = true ∧ coordOf (img1 n).config 1 2 = some ⟨1, 2, false, 0, 0, 0, 0⟩ := by
  have h : (img1 n).config = (img1 0).config := rfl
  rw [h]
  decide +kernel
/-- StartUp's other two cases and the updates of Updates, where signatures verify. -/
theorem witness_signed (g : Config.ecdsaVerify = fun _ _ _ => true) (k : Config.failsTraining = fun _ _ _ => false) :
    booted.slotFirm booted.boot.flash[0] = true ∧ (chooseSlot (passing booted 0 1 2) (passing booted 1 1 2)).isSome = true
      ∧ (∀ q, q < 4 → booted.perQuarter ≤ (booted.healthyCores (img1 3).config q).length) ∧ (∃ n, n < 12 ∧ booted.channelMap n ≠ 0)
      ∧ (booted.pier 0).alive = true ∧ fwSigOk (img1 4) = true ∧ s0.cfgSigOk (img1 4) = true ∧ (img1 4).blocksOk = true
      ∧ (img1 3).seq.toNat < (img1 4).seq.toNat ∧ s0.slotValid { img := some (img1 4) } 1 2 = true := by
  have firm (s : State) (n : BitVec 32) (hs : s.boot.svn = 0) : s.slotFirm { img := some (img1 n) } = true := by
    simp [State.slotFirm, img1, fwSigOk, g, hs]
  have cfg (s : State) (n : BitVec 32) (hs : s.sec.owners = []) : s.cfgSigOk (img1 n) = true := by
    simp [State.cfgSigOk, img1, g, hs, cfg0]
  have valid (s : State) (n : BitVec 32) (h1 : s.boot.svn = 0) (h2 : s.sec.owners = []) :
      s.slotValid { img := some (img1 n) } 1 2 = true := by
    simp [State.slotValid, firm s n h1, cfg s n h2, (img1_cfg n).1]
  have first : passing booted 0 1 2 = some (img1 3) := by
    have h : booted.slotValid booted.boot.flash[(0 : Fin 2).val] 1 2 = true := valid booted 3 rfl rfl
    unfold passing
    rw [h]
    rfl
  refine ⟨firm booted 3 rfl, ?_, ?_, ⟨0, by decide, ?_⟩, rfl, by simp [fwSigOk, g], cfg s0 4 rfl, rfl, by decide, valid s0 4 rfl rfl⟩
  · rw [first]
    have h2 : passing booted 1 1 2 = none := rfl
    rw [h2]
    rfl
  · intro q hq
    have h (q : Nat) : booted.healthyCores (img1 3).config q = List.range 52 := rfl
    rw [h]
    decide
  · simp only [State.channelMap, k]
    decide +kernel
/-- StartUp's two faults: a quarter of 47 healthy cores, and no channel that trains. -/
theorem witness_start_faults :
    ({ booted with badCores := [(0, 0), (0, 1), (0, 2), (0, 3), (0, 4)] } : State).healthyCores cfg0 0 = (List.range 52).drop 5
      ∧ ((List.range 52).drop 5).length < booted.perQuarter
      ∧ (∀ k, k < 12 → ({ booted with badChannels := (List.range 384).map (fun i => (i / 32, i % 32)) } : State).channelMap k = 0) := by
  refine ⟨by decide +kernel, by decide +kernel, fun k hk => ?_⟩
  have h : (List.range 32).filter (fun c => !((List.range 384).map (fun i => (i / 32, i % 32))).contains (k, c)
      && !Config.failsTraining booted.now k c) = [] := by
    refine List.filter_eq_nil_iff.mpr fun c hc => ?_
    have : ((List.range 384).map (fun i => (i / 32, i % 32))).contains (k, c) = true := by
      refine List.contains_iff_mem.mpr (List.mem_map.mpr ⟨32 * k + c, ?_⟩)
      have := List.mem_range.mp hc
      refine ⟨List.mem_range.mpr (by omega), by ext <;> simp <;> omega⟩
    rw [this]
    simp
  show maskOf _ = 0
  exact (congrArg maskOf h).trans rfl
theorem witness_updates : (srun .reset).sec.locked = false ∧ ((srun .reset).pier 0).alive = true ∧ (srun .reset).pwr.alwaysOn = true
    ∧ (srun .reset).boot.resetAt + 500_000_000 ≤ { srun .reset with now := 500_000_000 }.now
    ∧ (srun .recovery).boot.mode = .recovery ∧ (srun .recovery).sec.locked = false ∧ img0.blocksOk = true ∧ { img0 with blocksOk := false }.blocksOk = false
    ∧ s0.serves = true ∧ s0.boot.cfg = some cfg0 ∧ [2] ≠ cfg0.ownerKey ∧ [1] = cfg0.ownerKey ∧ s0.boot.updBusy = false
    ∧ (s0.pier (s0.boot.steward + 1)).alive = true ∧ s0.dom (domSteward (s0.boot.steward + 1).val) = .on ∧ 4 % 65536 ≠ s0.boot.seq := by
  decide +kernel
theorem test_image_in_recovery : goes (exec (.image { img1 3 with blocksOk := false }) (srun .recovery)) (fun t =>
    (t.sbReply.map (·.2)) == some .uncorrectable && t.boot.mode == .recovery) = true := by decide +kernel

/-! ## Jobs (16), partitions and regions (18) -/

/-- The job, with its one stage's report of step 3. -/
def sj (r : List (Nat × Nat)) : State := { s0 with jobs := [{ job with reports := r }] }

/-- Jobs: a job refused for its length, one accepted, a report new and old, a boundary ready and not. -/
theorem witness_jobs : s0.serves = true ∧ up.serves = true ∧ up.jobCheck { jspec with seqLen := 4_194_305 } = .limit ∧ up.jobCheck jspec = .done
    ∧ up.jobCheck { jspec with part := 1 } = .refused ∧ st1.serves = true ∧ st1.jobCheck { jspec with cores := [4] } = .refused
    ∧ (sj []).jobs.find? (fun j => j.spec.id == 5) = some { job with reports := [] } ∧ (sj []).serves = true ∧ job.state = .running
    ∧ 1 ∈ job.spec.stages ∧ (1, 3) ∈ ({ job with reports := [(1, 3)] } : Job).reports ∧ (1, 3) ∉ job.reports
    ∧ (sj [(1, 3)]).stepReady { job with reports := [(1, 3)] } = some 3 ∧ (∀ c ∈ job.spec.cores, (sj [(1, 3)]).qntRoom c = true)
    ∧ (sj []).stepReady job = none ∧ s0.dom (domFabric 0) = .on := by decide +kernel
theorem test_boundary_clean : goes (exec (.stepBoundary 5 false ⟨[0], []⟩) (sj [(1, 3)])) (fun t =>
    (t.upd 2).vValid && (t.upd 2).vStep == 3 && !(t.upd 2).vSkip && (t.upd 2).vLs == 16 && (t.jobs.map (·.clean)) == [1]) = true := by
  decide +kernel
/-- The second clean step in a row reaches the job's limit of 2, and L rises. -/
theorem test_loss_scale_rises : goes (exec (.stepBoundary 5 false ⟨[0], []⟩) { s0 with jobs := [{ job with reports := [(1, 3)], clean := 1 }] })
    (fun t => (t.jobs.map (fun j => (j.l, j.clean))) == [(17, 0)]) = true := by decide +kernel

/-- PartitionLife: an owner and a stranger, a request that can be met, one that cannot, and after four tamper events; Regions. -/
theorem witness_partitions : up.serves = true ∧ up.boot.cfg = some cfg0 ∧ [2] ≠ cfg0.ownerKey ∧ [1] = cfg0.ownerKey ∧ up.sec.tcount < 4
    ∧ 4 ≤ { up.sec with tcount := 4 }.tcount ∧ up.canCreate (pspec 2) = true ∧ up.canCreate { pspec 2 with quads := [48] } = false
    ∧ (up.drbgGen 6).isSome = true
    ∧ ({ up with sec := { up.sec with drbgCount := 1_048_576, retest := some 0 } } : State).drbgGen 6 = none ∧ st1.serves = true ∧ (st1.partOf 1).live = true ∧ (st1.partOf 1).spec = some (pspec 1)
    ∧ (st1.partOf 2).live = false := by decide +kernel
theorem test_partition_of_stranger : goes (exec (.partitionCreate [2] (pspec 2)) up) (fun t =>
    t.reply == some (.refused, []) && !(t.partOf 2).live) = true := by decide +kernel
def st2 : State := st1.onPart 2 (fun p => { p with live := true })
theorem witness_regions : (List.replicate 48 (0 : Byte)).length = 48 ∧ st2.serves = true ∧ (st2.partOf 1).live = true
    ∧ st2.holdsBanks 1 0 0 1 = true ∧ st2.regions = [] ∧ ((2 : PartId) ≠ 1 ∧ (st2.partOf 2).live = true) ∧ ([2] : List PartId).Nodup
    ∧ st2.holdsBanks 2 0 0 1 = false ∧ st2.holdsBanks 0 0 0 1 = false
    ∧ (let m : Region := reg1 (some 0x2000) none
       let s : State := { st2 with regions := [m] }
       s.regions.find? (fun r => r.id == 3) = some m ∧ m.owner = 1 ∧ s.reloading m = false
        ∧ (s.onUpd 0 (fun u => { u with queue := [⟨.quiet, none, 0, .reload 3 5⟩] })).reloading m = true
        ∧ m.owner ≠ 2 ∧ m.owner ≠ 0)
    ∧ (let s : State := { s0 with parked := [.cpl ⟨0, 0, 3, 5, 0⟩], now := 10_000 }
       s.parked[0]? = some (.cpl ⟨0, 0, 3, 5, 0⟩) ∧ 0 + s.sec.pad ≤ s.now ∧ { s with now := 9_999 }.now < 0 + s.sec.pad
        ∧ (s.gang 0 0).status = .live) := by decide +kernel
theorem test_publish : goes (exec (.publish 1 0 0 1 (some 0x2000) none [2] (List.replicate 48 0)) st2) (fun t =>
    t.regions.length == 1 && (t.partOf 2).weights.length == 1) = true := by decide +kernel

/-! ## Snapshots (20) -/

theorem witness_snapshots : s0.pwr.alwaysOn = true ∧ s0.snapg.srcen.getLsbD 0 = true ∧ { s0.snapg with srcen := 0 }.srcen.getLsbD 0 = false
    ∧ s0.ready th [] [] = true ∧ (s0.cplOf th 0).mask ≠ 0 ∧ s0.part 0 = 0 ∧ (s0.onCore 0 (fun k => { k with part := 1 })).part 0 ≠ 0
    ∧ s0.boot.mode = .running ∧ s0.sec.locked = false ∧ s0.pwrState ≠ 3 ∧ s0.snapg.srcen.getLsbD 3 = true ∧ s0.snapg.waiting = none
    ∧ s0.now + 1_000_000_000 < (1_000_000_001 : BitVec 64).toNat ∧ s0.now < (5 : BitVec 64).toNat ∧ (0 : BitVec 64).toNat ≤ s0.now
    ∧ { s0.snapg with waiting := some 5 }.waiting = some 5 ∧ s0.regLive (snapHeader .pwr) = true ∧ s0.regLive (snapHeader (.core 3)) = true := by
  decide +kernel
theorem test_early_trigger : goes (exec (.fabricTrigger 1_000_000_001) s0) (fun t => t.snapg.missed == 1 && t.snapg.waiting == none) = true := by
  decide +kernel

/-! ## Registers (00, 03, 11, 16) -/

/-- FreezeCounter, PhaseTag, WritesAllowed, OwnWrites and WindowWrites: registers whose domain is ON, and one whose is not. -/
theorem witness_registers : (0 : CoreId).val < s0.coreCount ∧ s0.regLive 0x1_0010 = true ∧ s0.regLive 0x30 = true ∧ State.reset.regLive 0x30 = false
    ∧ (0 : PartId) = s0.part 0 ∧ (1 : PartId) ≠ 0 ∧ s0.part 0 ≠ 1 ∧ { s0.boot with lock := true }.lock = true
    ∧ s0.regLive 0x1_0028 = true ∧ s0.regLive 0x1_0030 = true ∧ s0.regLive 0x3_000C = true ∧ s0.regLive 0x3_0010 = true
    ∧ s0.regLive (0x5_1000 + 0x20 * 63) = true ∧ s0.regLive (0x3_0040_0100 + 8 * 6) = true
    ∧ (s0.window (.scratch 0 63)).gen ≠ 0xFFFF_FFFF ∧ s0.regLive (0x1_0000_0000 + (0x1000 + 0x20 * 63)) = true
    ∧ s0.regLive (0x1_0000_0000 + (0x1004 + 0x20 * 63)) = true ∧ s0.regLive (0x1_0000_0000 + (0x1008 + 0x20 * 63)) = true
    ∧ s0.regLive (0x1_0000_0000 + (0x1010 + 0x20 * 63)) = true
    ∧ ((s0.onWindow (.scratch 0 63) (fun w => { w with gen := 0xFFFF_FFFF })).window (.scratch 0 63)).gen = 0xFFFF_FFFF
    ∧ (s0.window (.cmem 0 7)).gen ≠ 0xFFFF_FFFF ∧ s0.regLive (0x9_0100 + 0x10 * 7) = true ∧ s0.regLive (0x9_0108 + 0x10 * 7) = true := by
  decide +kernel
/-- The freeze cycle of FreezeCounter is that of `witness_runs`: a started run whose group's preload has moved nothing. -/
theorem test_freeze_counts :
    let s := (srow .warm [wait2 false] []).onArr 0 (fun a => { a with freezes := 0xFFFF_FFFF })
    goes (exec (.rowEntry 0 false) s) (fun t => t.regRead 0x1_0010 == 0 && goes (exec (.loReadLatch 0x1_0010) t) (fun u => u.regRead 0x1_0014 == 1))
      = true := by decide +kernel
theorem test_phase_seven : goes (exec (.registerWrite 0 0x30 7) s0) (fun t => t.regRead 0x30 == 5) = true := by decide +kernel
theorem test_tenant_writes_nothing : goes (exec (.registerWrite 1 0x30 3) s0) (fun t => t.regRead 0x30 == 5) = true := by decide +kernel
/-- A window of 4 units at unit 0 of Q0's scratchpad, generation by generation. -/
theorem test_window : goes (exec (.crwnRxwinSize 0 0 4) (after s0 (.crwnRxwinCfg 0 0 0x8000_0000))) (fun t =>
    (t.window (.scratch 0 0)).gen == 2 && (t.window (.scratch 0 0)).avail == 4 && !(t.window (.scratch 0 0)).en) = true := by decide +kernel

/-! ## The queue -/

theorem witness_queue : { s0 with pending := [.bootLock, .release] }.pending = .bootLock :: [.release] ∧ s0.pending = []
    ∧ s0.pwr.alwaysOn = true ∧ { s0.pwr with alwaysOn := false }.alwaysOn = false ∧ Memory.wf sd.mem = true := by decide +kernel
theorem witness_step : goes (step { s0 with pending := [.bootLock, .release] }) (fun t => t.pending == [.release] && t.boot.lock) = true := by
  decide +kernel
theorem test_idle_tick : goes (step s0) (fun t => t.now == 1) = true := by decide +kernel
theorem test_reset_queue : State.reset.pending = [] := rfl

end Sys2Proof.Tests
end

section
/-! SUPPORT. Register writes (00 R6-R10): what the shared operations behind them change of the state, the fields that the boot
lock holds, and the values at reset. -/

namespace Sys2Proof.Machine

open Sys2Proof.Claims

/-! ## Reading a part back, at every index -/

theorem State.core_onCore_eq (s : State) (c d : CoreId) (f : Core → Core) :
    (s.onCore c f).core d = if d = c then f (s.core d) else s.core d := by
  split
  case isTrue h => rw [h, State.core_onCore]
  case isFalse h => exact s.core_onCore_other f h

theorem State.quarter_onQuarter_eq (s : State) (q r : QuarterId) (f : Quarter → Quarter) :
    (s.onQuarter q f).quarter r = if r = q then f (s.quarter r) else s.quarter r := by
  split
  case isTrue h => rw [h, State.quarter_onQuarter]
  case isFalse h => exact s.quarter_onQuarter_other f h

theorem State.pier_onPier_eq (s : State) (p r : PierId) (f : Pier → Pier) :
    (s.onPier p f).pier r = if r = p then f (s.pier r) else s.pier r := by
  split
  case isTrue h => rw [h, State.pier_onPier]
  case isFalse h => exact s.pier_onPier_other f h

/-- A change of one element keeps, of every element, what the change keeps of it. -/
theorem getD_vmod_congr {α β : Type} {n : Nat} (g : α → β) (v : Vector α n) (i : Fin n) {f : α → α} (hf : ∀ x, g (f x) = g x)
    (j : Nat) (d : α) : g ((vmod v i f).toList.getD j d) = g (v.toList.getD j d) := by
  by_cases h : i.val = j
  · subst h
    simp [vmod, hf]
  · simp [vmod, Vector.toList_set, List.getElem?_set_ne h]

/-! ## What an access to memory changes besides its bytes (11 R249-R251, 12 R264-R267) -/

/-- `t` is `s` but for memory with its errors, the repair log, and the error counts and latches of cores and quarters. -/
structure Counted (s t : State) : Prop where
  rest : ∃ cs qs mem po up ue ce bad, t = { s with
    cores := cs, quarters := qs, mem := mem, poison := po, upsets := up, repairUe := ue, repairCe := ce, badChannels := bad }
  core : ∀ c, ∃ ce ue, t.core c = { s.core c with eccCe := ce, eccUe := ue }
  quarter : ∀ q, ∃ cc cu cl hc hu hl td, t.quarter q = { s.quarter q with
    crownCe := cc, crownUe := cu, crownLatch := cl, hbmCe := hc, hbmUe := hu, hbmLatch := hl, timedOut := td }

theorem Counted.mk_rest (s : State) (mem po up ue ce bad) : Counted s { s with
    mem := mem, poison := po, upsets := up, repairUe := ue, repairCe := ce, badChannels := bad } :=
  ⟨⟨_, _, _, _, _, _, _, _, rfl⟩, fun _ => ⟨_, _, rfl⟩, fun _ => ⟨_, _, _, _, _, _, _, rfl⟩⟩

theorem Counted.refl (s : State) : Counted s s := .mk_rest s _ _ _ _ _ _

theorem Counted.trans {s t u : State} (h : Counted s t) (g : Counted t u) : Counted s u where
  rest := by
    obtain ⟨_, _, _, _, _, _, _, _, rfl⟩ := h.rest
    obtain ⟨_, _, _, _, _, _, _, _, rfl⟩ := g.rest
    exact ⟨_, _, _, _, _, _, _, _, rfl⟩
  core c := by
    obtain ⟨_, _, e⟩ := h.core c
    obtain ⟨_, _, e'⟩ := g.core c
    exact ⟨_, _, by rw [e', e]⟩
  quarter q := by
    obtain ⟨_, _, _, _, _, _, _, e⟩ := h.quarter q
    obtain ⟨_, _, _, _, _, _, _, e'⟩ := g.quarter q
    exact ⟨_, _, _, _, _, _, _, by rw [e', e]⟩

theorem Counted.onCore (s : State) (c : CoreId) {f : Core → Core} (hf : ∀ k, ∃ ce ue, f k = { k with eccCe := ce, eccUe := ue }) :
    Counted s (s.onCore c f) where
  rest := ⟨_, _, _, _, _, _, _, _, rfl⟩
  core d := by
    rw [State.core_onCore_eq]
    split
    · exact hf _
    · exact ⟨_, _, rfl⟩
  quarter _ := ⟨_, _, _, _, _, _, _, rfl⟩

theorem Counted.onQuarter (s : State) (q : QuarterId) {f : Quarter → Quarter}
    (hf : ∀ k, ∃ cc cu cl hc hu hl td, f k = { k with
      crownCe := cc, crownUe := cu, crownLatch := cl, hbmCe := hc, hbmUe := hu, hbmLatch := hl, timedOut := td }) :
    Counted s (s.onQuarter q f) where
  rest := ⟨_, _, _, _, _, _, _, _, rfl⟩
  core _ := ⟨_, _, rfl⟩
  quarter r := by
    rw [State.quarter_onQuarter_eq]
    split
    · exact hf _
    · exact ⟨_, _, _, _, _, _, _, rfl⟩

theorem State.noteErr_counted (s : State) (line : Nat) (ue : Bool) : Counted s (s.noteErr line ue) := by
  unfold State.noteErr
  split
  · unfold State.noteRow
    split
    · exact .mk_rest s _ _ _ _ _ _
    · split
      · exact .refl s
      · exact .mk_rest s _ _ _ _ _ _
  · exact .refl s

theorem State.countCrown_counted (s : State) (q : QuarterId) (o : Nat) (ue : Bool) : Counted s (s.countCrown q o ue) :=
  .onQuarter s q fun _ => ⟨_, _, _, _, _, _, _, rfl⟩

theorem State.countErr_counted (s : State) (line : Nat) (ue : Bool) : Counted s (s.countErr line ue) := by
  unfold State.countErr
  refine (s.noteErr_counted line ue).trans ?_
  generalize s.noteErr line ue = u
  dsimp only
  split
  · exact .onCore u _ fun _ => ⟨_, _, rfl⟩
  · exact u.countCrown_counted _ _ _
  · exact u.countCrown_counted _ _ _
  · split
    next k _ _ _ =>
      have latched (ce ue : Quarter → Nat) (l : Quarter → EccLatch) : Counted u (u.onQuarter (Fin.ofNat 4 (k / 3))
          (fun x => { x with hbmCe := ce x, hbmUe := ue x, hbmLatch := l x })) :=
        .onQuarter u _ fun _ => ⟨_, _, _, _, _, _, _, rfl⟩
      split
      · exact (latched _ _ _).trans (.mk_rest _ _ _ _ _ _ _)
      · exact latched _ _ _
    · exact .refl u
  · exact .refl u

theorem State.countDead_counted (s : State) (line : Nat) : Counted s (s.countDead line) := by
  unfold State.countDead
  split
  · split
    · refine .onQuarter s _ fun k => ?_
      split <;> exact ⟨_, _, _, _, _, _, _, rfl⟩
    · exact .refl s
  · exact .refl s

theorem State.readLine_counted (s : State) (line : Nat) : Counted s (s.readLine line).1 := by
  unfold State.readLine
  split
  · exact s.countDead_counted line
  · split
    · exact .refl s
    · split
      · exact .refl s
      · exact (Counted.mk_rest s _ _ _ _ _ _).trans (State.countErr_counted _ _ _)
      · exact (Counted.mk_rest s _ _ _ _ _ _).trans (State.countErr_counted _ _ _)

theorem State.readLines_counted (s : State) (ls : List Nat) : Counted s (s.readLines ls).1 := by
  induction ls generalizing s with
  | nil => exact .refl s
  | cons l ls ih =>
    have first := s.readLine_counted l
    unfold State.readLines
    split
    next heq =>
      rw [heq] at first
      exact first.trans (ih _)
    next heq =>
      rw [heq] at first
      exact first

theorem State.storeCheck_counted (s : State) (a n : Nat) : Counted s (s.storeCheck a n).1 := by
  unfold State.storeCheck
  split
  · exact s.countDead_counted _
  · split
    · exact .refl s
    · unfold State.readFirst
      split
      · exact s.readLines_counted _
      · exact .refl s

/-- A write, performed or not, changes nothing but memory and the records of its errors. -/
theorem State.store_counted (s : State) (a : Nat) (bs : List Byte) : Counted s (s.store a bs).1 := by
  have checked := s.storeCheck_counted a bs.length
  unfold State.store
  split
  next heq =>
    rw [heq] at checked
    exact checked.trans (.mk_rest _ _ _ _ _ _ _)
  next heq =>
    rw [heq] at checked
    exact checked

/-- Counting errors leaves the matcher as it was. -/
theorem Counted.mtch {s t : State} (h : Counted s t) (c : CoreId) : (t.core c).mtch = (s.core c).mtch := by
  obtain ⟨_, _, e⟩ := h.core c
  rw [e]

/-! ## The matcher's clear (05 R120) -/

@[simp] theorem State.mtch_store (s : State) (a : Nat) (bs : List Byte) (c : CoreId) :
    ((s.store a bs).1.core c).mtch = (s.core c).mtch := (s.store_counted a bs).mtch c

@[simp] theorem State.mtch_bufWrite (s : State) (c : CoreId) (f : BufWord → Bool) :
    ((s.bufWrite c f).core c).mtch = (s.core c).mtch := by
  unfold State.bufWrite
  split
  · rfl
  · rw [State.core_onCore]

/-- The matcher after a clear: no entry, no spilled entry and no duplicate; its configuration and its queue stay. -/
theorem State.mtch_clearMtch (s : State) (c : CoreId) :
    ((s.clearMtch c).1.core c).mtch = { (s.core c).mtch with slots := [], spillCount := 0, dup := 0 } := by
  unfold State.clearMtch
  cases s.spill c with
  | none => simp [State.onMtch]
  | some x => simp [State.onMtch]

theorem State.mtch_onMtch (s : State) (c : CoreId) (f : Mtch → Mtch) : ((s.onMtch c f).core c).mtch = f (s.core c).mtch := by
  simp [State.onMtch]

theorem State.mtch_writeSeed (s : State) (c : CoreId) (v : Word) :
    ((s.writeSeed c v).core c).mtch = { (s.core c).mtch with seed := v, slots := [], spillCount := 0, dup := 0 } := by
  unfold State.writeSeed
  rw [State.mtch_clearMtch, State.mtch_onMtch]

theorem State.mtch_writeSpill (s : State) (c : CoreId) (v : Word) :
    ((s.writeSpill c v).core c).mtch = { (s.core c).mtch with
      spillBase := bitsOf v.toNat 24 8, spillLog := bitsOf v.toNat 4 0, slots := [], spillCount := 0, dup := 0 } := by
  unfold State.writeSpill
  rw [State.mtch_clearMtch, State.mtch_onMtch]

/-! ## The quantiser's slots (07 R171) -/

theorem State.slots_writeSlotCfg (s : State) (c : CoreId) (i : Nat) (v : Word) (j : Nat) :
    Tab.get {} ((s.writeSlotCfg c i v).core c).qnt.slots j =
      if j = i then { static_ := v.getLsbD 31, hlen := bitsOf v.toNat 13 8, margin := bitsOf v.toNat 5 4, fmt := v.setWidth 4
                      exp := (Tab.get {} (s.core c).qnt.slots i).exp }
      else Tab.get {} (s.core c).qnt.slots j := by
  simp [State.writeSlotCfg, State.onSlot, State.onQnt, Tab.mod, Tab.get_set]

/-! ## Sending on the fabric (14 R308-R312) -/

/-- A message that leaves joins the queue of one port at most; beside it only the switch's own tables of flows change. -/
theorem State.dispatch_ok {s t : State} {dst : Nat} {fb : Bool} {vc : Fin 8} {ad : Bool} {fs : List TxFlit}
    (h : s.dispatch dst fb vc ad fs = .ok t) :
    ∃ u, (u = s ∨ ∃ n, u = s.onPort n (fun p => { p with txq := p.txq ++ fs }))
      ∧ ∃ fl he aq, t = { u with flows := fl, heldFlows := he, adaptQ := aq } := by
  unfold State.dispatch at h
  split at h
  · split at h
    · cases h
    · split at h
      · cases h
        exact ⟨_, .inr ⟨_, rfl⟩, _, _, _, rfl⟩
      · cases h
  · split at h
    · cases h
      exact ⟨_, .inl rfl, _, _, _, rfl⟩
    · split at h
      · cases h
      · split at h
        · cases h
          exact ⟨s, .inl rfl, _, _, _, rfl⟩
        · unfold State.enqueue at h
          dsimp only at h
          split at h
          · cases h
            exact ⟨s, .inl rfl, _, _, _, rfl⟩
          · split at h
            · cases h
            next n _ =>
              split at h
              · cases h
              · cases h
                refine ⟨_, .inr ⟨n, rfl⟩, ?_⟩
                split <;> exact ⟨_, _, _, rfl⟩

end Sys2Proof.Machine

namespace Sys2Proof.Claims

open Sys2Proof.Machine

/-! ## What keeps the fields of the boot lock (00 R7) -/

theorem LockedAlike.refl (s : State) : LockedAlike s s :=
  ⟨rfl, rfl, rfl, rfl, fun _ => rfl, fun _ => ⟨rfl, rfl, rfl⟩, fun _ => ⟨rfl, rfl⟩, fun _ => ⟨rfl, rfl⟩⟩

theorem LockedAlike.trans {s t u : State} (h : LockedAlike s t) (g : LockedAlike t u) : LockedAlike s u := by
  obtain ⟨lock, idle, cap, pad, fill, quarter, pair, port⟩ := h
  obtain ⟨lock', idle', cap', pad', fill', quarter', pair', port'⟩ := g
  refine ⟨lock'.trans lock, idle'.trans idle, cap'.trans cap, pad'.trans pad, fun c => (fill' c).trans (fill c),
    fun q => ?_, fun p => ?_, fun n => ?_⟩
  · obtain ⟨cut, ilv, clk⟩ := quarter q
    obtain ⟨cut', ilv', clk'⟩ := quarter' q
    exact ⟨cut'.trans cut, ilv'.trans ilv, clk'.trans clk⟩
  · obtain ⟨mode, wait⟩ := pair p
    obtain ⟨mode', wait'⟩ := pair' p
    exact ⟨mode'.trans mode, wait'.trans wait⟩
  · obtain ⟨en, eth⟩ := port n
    obtain ⟨en', eth'⟩ := port' n
    exact ⟨en'.trans en, eth'.trans eth⟩

/-- Fields beside the parts that hold locked configuration may change. -/
theorem LockedAlike.of_eq {s t : State} (boot : t.boot = s.boot) (pwr : t.pwr = s.pwr) (sec : t.sec = s.sec)
    (cores : t.cores = s.cores) (quarters : t.quarters = s.quarters) (piers : t.piers = s.piers) : LockedAlike s t := by
  simp [LockedAlike, State.core, State.quarter, State.pier, State.port, boot, pwr, sec, cores, quarters, piers]

theorem LockedAlike.ite {s t u : State} {p : Prop} [Decidable p] (h : LockedAlike s t) (g : LockedAlike s u) :
    LockedAlike s (if p then t else u) := by
  split
  · exact h
  · exact g

/-- A write that the lock bars. -/
theorem LockedAlike.barred {s : State} (hl : s.boot.lock = true) (t : State) :
    LockedAlike s (if s.boot.lock then s else t) := by
  rw [if_pos hl]
  exact .refl s

theorem LockedAlike.foldl {α : Type} {f : State → α → State} (h : ∀ s a, LockedAlike s (f s a)) (l : List α) (s : State) :
    LockedAlike s (l.foldl f s) := by
  induction l generalizing s with
  | nil => exact .refl s
  | cons a l ih => exact (h s a).trans (ih _)

theorem LockedAlike.onCore {s : State} {c : CoreId} {f : Core → Core} (hf : ∀ k, (f k).arr.fillEn = k.arr.fillEn) :
    LockedAlike s (s.onCore c f) := by
  refine ⟨rfl, rfl, rfl, rfl, fun d => ?_, fun _ => ⟨rfl, rfl, rfl⟩, fun _ => ⟨rfl, rfl⟩, fun _ => ⟨rfl, rfl⟩⟩
  rw [State.core_onCore_eq]
  split
  · exact hf _
  · rfl

theorem LockedAlike.onQuarter {s : State} {q : QuarterId} {f : Quarter → Quarter}
    (hf : ∀ k, (f k).cut = k.cut ∧ (f k).ilv = k.ilv ∧ (f k).clkMax = k.clkMax) : LockedAlike s (s.onQuarter q f) := by
  refine ⟨rfl, rfl, rfl, rfl, fun _ => rfl, fun r => ?_, fun _ => ⟨rfl, rfl⟩, fun _ => ⟨rfl, rfl⟩⟩
  rw [State.quarter_onQuarter_eq]
  split
  · exact hf _
  · exact ⟨rfl, rfl, rfl⟩

/-- A change of a pier keeps its locked fields if it keeps those of the pair and those of each of its ports. -/
theorem LockedAlike.onPier {s : State} {p : PierId} {f : Pier → Pier}
    (pair : ∀ k, (f k).coll.pairMode = k.coll.pairMode ∧ (f k).coll.pairWait = k.coll.pairWait)
    (ports : ∀ k (i : Nat), ((f k).ports.toList.getD i {}).en = (k.ports.toList.getD i {}).en
      ∧ ((f k).ports.toList.getD i {}).eth = (k.ports.toList.getD i {}).eth) :
    LockedAlike s (s.onPier p f) := by
  refine ⟨rfl, rfl, rfl, rfl, fun _ => rfl, fun _ => ⟨rfl, rfl, rfl⟩, fun r => ?_, fun n => ?_⟩
  · rw [State.pier_onPier_eq]
    split
    · exact pair _
    · exact ⟨rfl, rfl⟩
  · unfold State.port
    rw [State.pier_onPier_eq]
    split
    · exact ports _ _
    · exact ⟨rfl, rfl⟩

/-- A change of a pier beside its ports. -/
theorem LockedAlike.onPier_rest {s : State} {p : PierId} {f : Pier → Pier}
    (hf : ∀ k, (f k).coll.pairMode = k.coll.pairMode ∧ (f k).coll.pairWait = k.coll.pairWait ∧ (f k).ports = k.ports) :
    LockedAlike s (s.onPier p f) :=
  .onPier (fun k => ⟨(hf k).1, (hf k).2.1⟩) fun k _ => by simp [(hf k).2.2]

/-- A change of one port that keeps EN and ETH. -/
theorem LockedAlike.onPier_port {s : State} {p : PierId} {i : Fin 26} {f : Port → Port}
    (hf : ∀ x, (f x).en = x.en ∧ (f x).eth = x.eth) :
    LockedAlike s (s.onPier p (fun k => { k with ports := vmod k.ports i f })) :=
  .onPier (fun _ => ⟨rfl, rfl⟩) fun k j =>
    ⟨getD_vmod_congr Port.en k.ports i (fun x => (hf x).1) j {}, getD_vmod_congr Port.eth k.ports i (fun x => (hf x).2) j {}⟩

/-- An access to memory keeps the locked fields. -/
theorem LockedAlike.of_counted {s t : State} (h : Counted s t) : LockedAlike s t := by
  have fill (c : CoreId) : (t.core c).arr.fillEn = (s.core c).arr.fillEn := by
    obtain ⟨_, _, e⟩ := h.core c
    rw [e]
  have config (q : QuarterId) : (t.quarter q).cut = (s.quarter q).cut ∧ (t.quarter q).ilv = (s.quarter q).ilv
      ∧ (t.quarter q).clkMax = (s.quarter q).clkMax := by
    obtain ⟨_, _, _, _, _, _, _, e⟩ := h.quarter q
    rw [e]
    exact ⟨rfl, rfl, rfl⟩
  obtain ⟨_, _, _, _, _, _, _, _, rfl⟩ := h.rest
  exact ⟨rfl, rfl, rfl, rfl, fill, config, fun _ => ⟨rfl, rfl⟩, fun _ => ⟨rfl, rfl⟩⟩

end Sys2Proof.Claims

namespace Sys2Proof.Machine

open Sys2Proof.Claims

/-! ## Triggers and completions keep the locked fields (20 R434-R437) -/

theorem State.onSnapg_lockedAlike (s : State) (f : Snapg → Snapg) : LockedAlike s (s.onSnapg f) :=
  .of_eq rfl rfl rfl rfl rfl rfl

theorem State.setCopy_lockedAlike (s : State) (b : SnapBlock) (x : Snap) : LockedAlike s (s.setCopy b x) := by
  cases b <;> exact s.onSnapg_lockedAlike _

theorem State.releaseCopy_lockedAlike (s : State) (b : SnapBlock) : LockedAlike s (s.releaseCopy b) :=
  .ite (s.setCopy_lockedAlike _ _) (.refl s)

theorem State.moduleTrigger_lockedAlike (s : State) (x : BitVec 4) (l : Bool) : LockedAlike s (s.moduleTrigger x l) := by
  have captured (t : State) (b : SnapBlock) : LockedAlike t (t.capture b x l false) :=
    .ite (.refl t) (t.setCopy_lockedAlike _ _)
  have missed : LockedAlike s (if s.snapg.pwr.valid then s.onSnapg (fun g => { g with missed := satInc 32 g.missed }) else s) :=
    .ite (s.onSnapg_lockedAlike _) (.refl s)
  exact missed.trans (.foldl captured _ _)

theorem State.dispatch_lockedAlike {s t : State} {dst : Nat} {fb : Bool} {vc : Fin 8} {ad : Bool} {fs : List TxFlit}
    (h : s.dispatch dst fb vc ad fs = .ok t) : LockedAlike s t := by
  obtain ⟨u, queued, _, _, _, rfl⟩ := State.dispatch_ok h
  refine .trans ?_ (.of_eq (s := u) rfl rfl rfl rfl rfl rfl)
  obtain rfl | ⟨n, rfl⟩ := queued
  · exact .refl _
  · exact .onPier_port fun _ => ⟨rfl, rfl⟩

theorem State.onPart_lockedAlike (s : State) (p : PartId) (f : Part → Part) : LockedAlike s (s.onPart p f) :=
  .of_eq rfl rfl rfl rfl rfl rfl

theorem State.trySend_lockedAlike (s : State) (dst : Nat) (fb : Bool) (vc : Fin 8) (op : Nat) (data : List Byte) :
    LockedAlike s (s.trySend dst fb vc op data) := by
  unfold State.trySend
  split
  next sent => exact (s.onPart_lockedAlike 0 _).trans (State.dispatch_lockedAlike sent)
  · exact .refl s

theorem State.sendTrigger_lockedAlike (s : State) (target : Nat) (both : Bool) : LockedAlike s (s.sendTrigger target both) := by
  have sent (fb : State → Bool) (l : List Nat) (t : State) :
      LockedAlike t (l.foldl (fun u d => u.trySend d (fb u) 4 u.nextOp (leBytes 8 target)) t) :=
    .foldl (fun u d => u.trySend_lockedAlike d _ 4 _ _) l t
  unfold State.sendTrigger
  refine .trans ?_ (State.onSnapg_lockedAlike _ _)
  split
  · exact (sent (·.fabricB) _ s).trans (sent (!·.fabricB) _ _)
  · exact sent (·.fabricB) _ s

theorem State.matchTrigger_lockedAlike (s : State) : LockedAlike s s.matchTrigger :=
  have taken := s.moduleTrigger_lockedAlike 2 false
  .ite (.ite (taken.trans (State.sendTrigger_lockedAlike _ _ _)) taken) (.refl s)

theorem State.addLog_lockedAlike (s : State) (r : LogRec) : LockedAlike s (s.addLog r) := .of_eq rfl rfl rfl rfl rfl rfl

theorem State.report_lockedAlike (s : State) (e : Code) : LockedAlike s (s.report e) :=
  have logged : LockedAlike s (if codeLogged e then s.addLog (.code e s.now) else s) := .ite (s.addLog_lockedAlike _) (.refl s)
  .ite (logged.trans (State.matchTrigger_lockedAlike _)) logged

theorem State.finishCpl_lockedAlike (s : State) (c : Cpl) (e : Code) : LockedAlike s (s.finishCpl c e) :=
  .ite (.of_eq rfl rfl rfl rfl rfl rfl) (.onCore fun _ => rfl)

/-- Completing an operation keeps the locked fields. -/
theorem State.finish_lockedAlike (s : State) (o : Owner) (e : Code) : LockedAlike s (s.finish o e) := by
  cases o with
  | thread c => exact (s.report_lockedAlike e).trans (State.finishCpl_lockedAlike _ _ _)
  | nest c => exact .onCore fun _ => rfl
  | quiet => exact s.report_lockedAlike e

theorem State.onSeq_lockedAlike (s : State) (c : CoreId) (f : Seq → Seq) : LockedAlike s (s.onSeq c f) := .onCore fun _ => rfl

theorem State.nestSettle_lockedAlike (s : State) (c : CoreId) : LockedAlike s (s.nestSettle c) := by
  unfold State.nestSettle
  split
  · exact .ite ((s.onSeq_lockedAlike c _).trans (State.finish_lockedAlike _ _ _)) (.refl s)
  · exact .refl s

theorem State.seqAbort_lockedAlike (s : State) (c : CoreId) (stale : Bool) : LockedAlike s (s.seqAbort c stale) :=
  ((s.onSeq_lockedAlike c _).trans (State.nestSettle_lockedAlike _ c)).trans
    (.foldl (fun t (n : NestCmd) => t.finish_lockedAlike n.owner _) _ _)

/-! ## Windows and the matcher keep the locked fields -/

theorem State.onWindow_lockedAlike (s : State) (r : WinRef) (f : Window → Window) : LockedAlike s (s.onWindow r f) := by
  cases r with
  | scratch q w => exact .onQuarter fun _ => ⟨rfl, rfl, rfl⟩
  | cmem c w => exact .onCore fun _ => rfl
  | remote => exact .refl s

theorem State.configWindow_lockedAlike (s : State) (r : WinRef) (f : Window → Window) : LockedAlike s (s.configWindow r f) :=
  .ite (.refl s) (.ite (s.onWindow_lockedAlike r _)
    (.ite ((s.onWindow_lockedAlike r _).trans (State.addLog_lockedAlike _ _)) (s.onWindow_lockedAlike r _)))

theorem State.onMtch_lockedAlike (s : State) (c : CoreId) (f : Mtch → Mtch) : LockedAlike s (s.onMtch c f) :=
  .onCore fun _ => rfl

theorem State.bufWrite_lockedAlike (s : State) (c : CoreId) (f : BufWord → Bool) : LockedAlike s (s.bufWrite c f) :=
  .ite (.refl s) (.onCore fun _ => rfl)

theorem State.clearMtch_lockedAlike (s : State) (c : CoreId) : LockedAlike s (s.clearMtch c).1 := by
  unfold State.clearMtch
  refine .trans ?_ (State.bufWrite_lockedAlike _ _ _)
  refine .trans ?_ (State.onMtch_lockedAlike _ _ _)
  cases s.spill c with
  | none => exact .refl s
  | some _ => exact .of_counted (s.store_counted _ _)

/-! ## A register write under the boot lock (00 R7)

One lemma for each sub-block, a branch for each of its registers: the write is barred, or it changes no locked field. -/

section
variable {s : State} (hl : s.boot.lock = true)

theorem State.writeCore_lockedAlike (s : State) (c : CoreId) (o : Nat) (v : Word) : LockedAlike s (s.writeCore c o v) :=
  .ite (.onCore fun _ => rfl) (.ite (.onCore fun _ => rfl) (.ite (.onCore fun _ => rfl) (.ite (.onCore fun _ => rfl)
    (.ite (.onCore fun _ => rfl) (.refl s)))))

include hl in
theorem State.writeArr_lockedAlike (c : CoreId) (o : Nat) (v : Word) : LockedAlike s (s.writeArr c o v) :=
  .ite (.onCore fun _ => rfl) (.ite (.onCore fun _ => rfl) (.ite (.barred hl _) (.ite (.onCore fun _ => rfl)
    (.ite (.onCore fun _ => rfl) (.ite (.onCore fun _ => rfl) (.refl s))))))

theorem State.writeSeq_lockedAlike (s : State) (p : PartId) (c : CoreId) (o : Nat) (v : Word) :
    LockedAlike s (s.writeSeq p c o v) :=
  .ite (.ite (s.seqAbort_lockedAlike c _) (.refl s)) (.ite (.ite (.onCore fun _ => rfl) (.refl s))
    (.ite (.onCore fun _ => rfl) (.ite (.onCore fun _ => rfl) (.ite (.onCore fun _ => rfl) (.refl s)))))

theorem State.writeMtch_lockedAlike (s : State) (c : CoreId) (o : Nat) (v : Word) : LockedAlike s (s.writeMtch c o v) :=
  .ite ((s.onMtch_lockedAlike c _).trans (State.clearMtch_lockedAlike _ c))
    (.ite ((s.onMtch_lockedAlike c _).trans (State.clearMtch_lockedAlike _ c)) (.refl s))

theorem State.writeRng_lockedAlike (s : State) (c : CoreId) (o : Nat) (v : Word) : LockedAlike s (s.writeRng c o v) :=
  .ite (.onCore fun _ => rfl) (.ite (.onCore fun _ => rfl) (.ite (.onCore fun _ => rfl) (.refl s)))

theorem State.onSlot_lockedAlike (s : State) (c : CoreId) (i : Nat) (f : Slot → Slot) : LockedAlike s (s.onSlot c i f) :=
  .onCore fun _ => rfl

theorem State.writeQnt_lockedAlike (s : State) (c : CoreId) (o : Nat) (v : Word) : LockedAlike s (s.writeQnt c o v) := by
  refine .ite ?_ (.refl s)
  split
  · exact s.onSlot_lockedAlike _ _ _
  · exact s.onSlot_lockedAlike _ _ _
  · exact s.onSlot_lockedAlike _ _ _
  · exact s.onSlot_lockedAlike _ _ _
  · exact .refl s

theorem State.writeCmem_lockedAlike (s : State) (p : PartId) (c : CoreId) (o : Nat) (v : Word) :
    LockedAlike s (s.writeCmem p c o v) := by
  refine .ite (.onCore fun _ => rfl) (.ite ?_ (.refl s))
  split
  · exact .ite (.refl s) (s.configWindow_lockedAlike _ _)
  · exact s.onWindow_lockedAlike _ _
  · exact .refl s

include hl in
theorem State.writeSub_lockedAlike (p : PartId) (c : CoreId) (sub o : Nat) (v : Word) : LockedAlike s (s.writeSub p c sub o v) := by
  unfold State.writeSub
  split
  · exact s.writeCore_lockedAlike c o v
  · exact State.writeArr_lockedAlike hl c o v
  · exact s.writeSeq_lockedAlike p c o v
  · exact s.writeMtch_lockedAlike c o v
  · exact s.writeRng_lockedAlike c o v
  · exact s.writeQnt_lockedAlike c o v
  · exact .ite (.onCore fun _ => rfl) (.refl s)
  · exact .ite (s.releaseCopy_lockedAlike _) (.refl s)
  · exact s.writeCmem_lockedAlike p c o v
  · exact .refl s

include hl in
theorem State.writeCrwn_lockedAlike (q : QuarterId) (o : Nat) (v : Word) : LockedAlike s (s.writeCrwn q o v) := by
  refine .ite (.barred hl _) (.ite (.onQuarter fun _ => ⟨rfl, rfl, rfl⟩) (.ite (.onQuarter fun _ => ⟨rfl, rfl, rfl⟩)
    (.ite (.onQuarter fun _ => ⟨rfl, rfl, rfl⟩) (.ite ?_ (.refl s)))))
  split
  · exact s.configWindow_lockedAlike _ _
  · exact s.configWindow_lockedAlike _ _
  · exact s.configWindow_lockedAlike _ _
  · exact s.onWindow_lockedAlike _ _
  · exact .refl s

include hl in
theorem State.writeHbm_lockedAlike (q : QuarterId) (o : Nat) (v : Word) : LockedAlike s (s.writeHbm q o v) :=
  .ite (.barred hl _) (.ite (.onQuarter fun _ => ⟨rfl, rfl, rfl⟩) (.ite (.onQuarter fun _ => ⟨rfl, rfl, rfl⟩)
    (.ite (.onQuarter fun _ => ⟨rfl, rfl, rfl⟩) (.refl s))))

include hl in
theorem State.writeQuarterSub_lockedAlike (q : QuarterId) (sub o : Nat) (v : Word) :
    LockedAlike s (s.writeQuarterSub q sub o v) := by
  refine .ite (.ite (s.releaseCopy_lockedAlike _) (.refl s)) ?_
  split
  · exact State.writeCrwn_lockedAlike hl q o v
  · exact State.writeHbm_lockedAlike hl q o v
  · exact .ite (.onQuarter fun _ => ⟨rfl, rfl, rfl⟩) (.refl s)
  · rw [if_neg (by simp [hl])]
    exact .refl s

include hl in
theorem State.writePort_lockedAlike (p : PierId) (o : Nat) (v : Word) : LockedAlike s (s.writePort p o v) := by
  refine .ite ?_ (.refl s)
  split
  · exact .barred hl _
  · exact .onPier_port fun _ => ⟨rfl, rfl⟩
  · exact .onPier_port fun _ => ⟨rfl, rfl⟩
  · exact .onPier_port fun _ => ⟨rfl, rfl⟩
  · exact .refl s

theorem State.writeSwt_lockedAlike (s : State) (p : PierId) (o : Nat) (v : Word) : LockedAlike s (s.writeSwt p o v) := by
  unfold State.writeSwt
  split
  · exact .onPier_rest fun _ => ⟨rfl, rfl, rfl⟩
  · exact .onPier_rest fun _ => ⟨rfl, rfl, rfl⟩
  · exact .onPier_rest fun _ => ⟨rfl, rfl, rfl⟩
  · exact .refl s

include hl in
theorem State.writeColl_lockedAlike (p : PierId) (o : Nat) (v : Word) : LockedAlike s (s.writeColl p o v) := by
  unfold State.writeColl
  dsimp only
  split
  · exact .onPier_rest fun _ => ⟨rfl, rfl, rfl⟩
  · exact .onPier_rest fun _ => ⟨rfl, rfl, rfl⟩
  · exact .onPier_rest fun _ => ⟨rfl, rfl, rfl⟩
  · exact .barred hl _
  · exact .onPier_rest fun _ => ⟨rfl, rfl, rfl⟩
  · exact .onPier_rest fun _ => ⟨rfl, rfl, rfl⟩
  · exact .onPier_rest fun _ => ⟨rfl, rfl, rfl⟩
  · exact .refl s

include hl in
theorem State.writePierSub_lockedAlike (p : PierId) (sub o : Nat) (v : Word) : LockedAlike s (s.writePierSub p sub o v) := by
  refine .ite (.ite (s.releaseCopy_lockedAlike _) (.refl s)) ?_
  split
  · exact State.writePort_lockedAlike hl p o v
  · exact s.writeSwt_lockedAlike p o v
  · exact State.writeColl_lockedAlike hl p o v
  · exact .ite (.onPier_rest fun _ => ⟨rfl, rfl, rfl⟩) (.refl s)

theorem State.onPwr_lockedAlike (s : State) {f : Pwr → Pwr} (hf : ∀ p, (f p).idleMs = p.idleMs ∧ (f p).cap = p.cap) :
    LockedAlike s (s.onPwr f) :=
  ⟨rfl, (hf _).1, (hf _).2, rfl, fun _ => rfl, fun _ => ⟨rfl, rfl, rfl⟩, fun _ => ⟨rfl, rfl⟩, fun _ => ⟨rfl, rfl⟩⟩

theorem State.onSec_lockedAlike (s : State) {f : Sec → Sec} (hf : ∀ k, (f k).pad = k.pad) : LockedAlike s (s.onSec f) :=
  ⟨rfl, rfl, rfl, hf _, fun _ => rfl, fun _ => ⟨rfl, rfl, rfl⟩, fun _ => ⟨rfl, rfl⟩, fun _ => ⟨rfl, rfl⟩⟩

theorem State.onBoot_lockedAlike (s : State) {f : Boot → Boot} (hf : (f s.boot).lock = s.boot.lock) : LockedAlike s (s.onBoot f) :=
  ⟨hf, rfl, rfl, rfl, fun _ => rfl, fun _ => ⟨rfl, rfl, rfl⟩, fun _ => ⟨rfl, rfl⟩, fun _ => ⟨rfl, rfl⟩⟩

include hl in
theorem State.writePwr_lockedAlike (o : Nat) (v : Word) : LockedAlike s (s.writePwr o v) :=
  .ite (.barred hl _) (.ite (s.onPwr_lockedAlike fun _ => ⟨rfl, rfl⟩) (.ite (.barred hl _)
    (.ite (s.onPwr_lockedAlike fun _ => ⟨rfl, rfl⟩) (.refl s))))

theorem State.writeSec_lockedAlike (s : State) (o : Nat) (v : Word) : LockedAlike s (s.writeSec o v) :=
  .ite (s.onSec_lockedAlike fun _ => rfl) (.ite (s.onSec_lockedAlike fun _ => rfl) (.refl s))

theorem State.writeSnapCtl_lockedAlike (s : State) (v : Word) : LockedAlike s (s.writeSnapCtl v) := by
  unfold State.writeSnapCtl
  refine (s.onSnapg_lockedAlike _).trans (.trans (.ite (State.onSnapg_lockedAlike _ _) (.refl _)) (.trans (.ite ?_ (.refl _))
    (.ite (State.sendTrigger_lockedAlike _ _ _) (.refl _))))
  exact .ite (State.moduleTrigger_lockedAlike _ _ _) (.refl _)

theorem State.writeSnapg_lockedAlike (s : State) (o : Nat) (v : Word) : LockedAlike s (s.writeSnapg o v) :=
  .ite (s.writeSnapCtl_lockedAlike v) (.ite (s.onSnapg_lockedAlike _) (.ite (.ite (s.releaseCopy_lockedAlike _) (.refl s))
    (.ite (s.onSnapg_lockedAlike _) (.ite (s.onSnapg_lockedAlike _) (.ite (.of_eq rfl rfl rfl rfl rfl rfl) (.refl s))))))

include hl in
theorem State.writeModule_lockedAlike (blk o : Nat) (v : Word) : LockedAlike s (s.writeModule blk o v) := by
  unfold State.writeModule
  split
  · exact State.writePwr_lockedAlike hl o v
  · exact s.writeSec_lockedAlike o v
  · exact .ite (s.onBoot_lockedAlike hl.symm) (.refl s)
  · exact s.writeSnapg_lockedAlike o v
  · exact .ite (.of_eq rfl rfl rfl rfl rfl rfl) (.refl s)
  · rw [if_neg (by simp [hl])]
    exact .refl s
  · exact .refl s

include hl in
/-- No write of any register changes a field that the lock protects. -/
theorem State.regWrite_lockedAlike (p : PartId) (off : Nat) (v : Word) : LockedAlike s (s.regWrite p off v) := by
  refine .ite ?_ (.ite (State.writeQuarterSub_lockedAlike hl _ _ _ v) (.ite (State.writePierSub_lockedAlike hl _ _ _ v)
    (.ite (State.writeModule_lockedAlike hl _ _ v) (.refl s))))
  split
  · exact .ite (State.writeSub_lockedAlike hl p _ _ _ v) (.refl s)
  · exact .refl s

end

/-! ## Who may write, and where (18 R400, 00 R10) -/

theorem State.regAllowed_of_beyond_cores (s : State) {p : PartId} {off : Nat} (hp : p ≠ 0) (ho : 0xC00_0000 ≤ off) :
    s.regAllowed p off = false := by
  have : ¬ off / 0x10_0000 < 192 := by omega
  simp [State.regAllowed, hp, this]

theorem State.regAllowed_of_other_core (s : State) {p : PartId} {c : CoreId} {o : Nat} (hp : p ≠ 0) (hc : s.part c ≠ p)
    (ho : o < 0x10_0000) : s.regAllowed p (c.val * 0x10_0000 + o) = false := by
  have block : (c.val * 0x10_0000 + o) / 0x10_0000 = c.val := by omega
  simp [State.regAllowed, hp, block, hc]

theorem State.writeReg_of_not_allowed {s : State} {p : PartId} {off : Nat} (h : s.regAllowed p off = false) (v : Word) :
    s.writeReg p off v = s := by
  simp [State.writeReg, h]

theorem State.writeReg_of_not_live {s : State} {off : Nat} (h : s.regLive off = false) (p : PartId) (v : Word) :
    s.writeReg p off v = s := by
  simp [State.writeReg, h]

theorem exec_registerWrite (p : PartId) (off : Nat) (v : Word) (s : State) :
    exec (.registerWrite p off v) s = .next (s.writeReg p off v) := rfl

theorem exec_arrFillLo (c : CoreId) (v : Word) (s : State) :
    exec (.arrFillLo c v) s = s.atReg (coreReg c 0x1_0028) (fun s => s.clearFills c) := rfl

theorem exec_arrColdWait (c : CoreId) (v : Word) (s : State) :
    exec (.arrColdWait c v) s = s.atReg (coreReg c 0x1_0030) (fun s => s.clearColdWait c) := rfl

theorem exec_mtchSeed (c : CoreId) (v : Word) (s : State) :
    exec (.mtchSeed c v) s = s.atReg (coreReg c 0x3_000C) (fun s => s.writeSeed c v) := rfl

theorem exec_mtchSpill (c : CoreId) (v : Word) (s : State) :
    exec (.mtchSpill c v) s = s.atReg (coreReg c 0x3_0010) (fun s => s.writeSpill c v) := rfl

theorem exec_qntSlotCfg (c : CoreId) (i : Fin 64) (v : Word) (s : State) :
    exec (.qntSlotCfg c i v) s = s.atReg (coreReg c (0x5_1000 + 0x20 * i.val)) (fun s => s.writeSlotCfg c i.val v) := rfl

theorem exec_timePhaseLo (p : Fin 7) (v : Word) (s : State) :
    exec (.timePhaseLo p v) s = s.atReg (0x3_0040_0100 + 8 * p.val) (fun s => s.clearPhase p) := rfl

theorem State.atReg_live {s : State} {off : Nat} (h : s.regLive off = true) (f : State → State) :
    s.atReg off f = .next (f s) := if_pos h

end Sys2Proof.Machine

namespace Sys2Proof.Claims

open Sys2Proof.Machine

theorem writesAllowed : WritesAllowed := by
  refine ⟨fun s p off v hp ho => ?_, fun s p c o v hp hc ho => ?_, fun s p off v hoff => ?_, fun s p off v hl => ?_⟩
  · rw [exec_registerWrite, State.writeReg_of_not_allowed (s.regAllowed_of_beyond_cores hp ho)]
  · rw [exec_registerWrite, State.writeReg_of_not_allowed (s.regAllowed_of_other_core hp hc ho)]
  · rw [exec_registerWrite, State.writeReg_of_not_live hoff]
  · exact ⟨_, exec_registerWrite p off v s, .ite (State.regWrite_lockedAlike hl p off v) (.refl s)⟩

theorem ownWrites : OwnWrites := by
  refine ⟨fun s c v => ⟨fun h => ?_, fun h => ?_, fun h => ⟨s.writeSeed c v, ?_, ?_⟩, fun h => ⟨s.writeSpill c v, ?_, ?_⟩,
    fun i h => ⟨s.writeSlotCfg c i.val v, ?_, ?_, fun j hj => ?_⟩⟩, fun s p v h => ⟨s.clearPhase p, ?_, ?_, fun q hq => ?_, rfl, rfl⟩⟩
  · rw [exec_arrFillLo, coreReg, State.atReg_live h, State.clearFills]
  · rw [exec_arrColdWait, coreReg, State.atReg_live h, State.clearColdWait]
  · rw [exec_mtchSeed, coreReg, State.atReg_live h]
  · simp [State.mtch_writeSeed]
  · rw [exec_mtchSpill, coreReg, State.atReg_live h]
  · simp [State.mtch_writeSpill, bitsOf]
  · rw [exec_qntSlotCfg, coreReg, State.atReg_live h]
  · rw [State.slots_writeSlotCfg, if_pos rfl]
    exact ⟨rfl, rfl, rfl, rfl, rfl, rfl, rfl, rfl, rfl⟩
  · rw [State.slots_writeSlotCfg, if_neg (Fin.val_ne_of_ne hj)]
  · rw [exec_timePhaseLo, State.atReg_live h]
  · simp [State.clearPhase]
  · have other : p.val ≠ q.val := Fin.val_ne_of_ne hq.symm
    simp [State.clearPhase, other]

/-- Settles O52: who may write which register, what the boot lock keeps, and the writes with commands of their own. -/
theorem registerWrites : Obligations.RegisterWrites := ⟨writesAllowed, ownWrites⟩

/-! ## Reset (00 R10) -/

theorem core_reset (c : CoreId) : State.reset.core c = Core.start c.val := by
  simp [State.core, State.reset]

theorem port_reset (n : PortId) : State.reset.port n = {} := by
  have inside : n.val % 26 < 26 := Nat.mod_lt _ (by decide)
  simp [State.port, State.pier, State.reset, -List.reduceReplicate, inside]

theorem start_pad_locked (inputs : Nat) : (Sec.start inputs).pad = 10_000 ∧ (Sec.start inputs).locked = false := ⟨rfl, rfl⟩

/-- Settles O60: each field is at its default, or is one that the start of a core or of the trust state leaves so. -/
theorem resetValues : Obligations.ResetValues := by
  obtain ⟨pad, locked⟩ := start_pad_locked 0
  refine ⟨rfl, rfl, rfl, rfl, locked, pad, rfl, rfl, fun d => ?_, rfl, fun c => ⟨?_, ?_, ?_, fun g => ?_, fun g => ?_⟩, fun n => ?_⟩
  · simp [State.dom, State.reset]
  · rw [core_reset, Core.start]
  · rw [core_reset, Core.start]
  · rw [core_reset, Core.start]
  · simp [State.gang, core_reset, Core.start]
  · simp [State.group, core_reset, Core.start]
  · simp [port_reset]

end Sys2Proof.Claims
end

section
/-! SUPPORT. Irregular and matcher commands (05 R110-R112, 09 R204): the issue of an engine command, what a completion leaves in
its gang and keeps of its core, and the outcomes of the two events. -/

namespace Sys2Proof.Machine

open Sys2Proof.Claims

/-! ## What a change of one core keeps -/

/-- A change of one core keeps, of every core, what the change keeps of it. -/
theorem State.core_onCore_congr {α : Type} (g : Core → α) {f : Core → Core} (s : State) (c d : CoreId)
    (hf : ∀ k, g (f k) = g k := by intros; rfl) : g ((s.onCore c f).core d) = g (s.core d) := by
  rw [State.core_onCore_eq]
  split
  · exact hf _
  · rfl

theorem State.gang_onCore_congr {f : Core → Core} (s : State) (c d : CoreId) (g : GangId)
    (hf : ∀ k, (f k).gangs = k.gangs := by intros; rfl) : (s.onCore c f).gang d g = s.gang d g :=
  State.core_onCore_congr (fun k => k.gangs[g.val]) s c d (fun k => by rw [hf])

theorem satInc_eq_min (w n : Nat) : satInc w n = min (2 ^ w - 1) (n + 1) := by
  unfold satInc
  split <;> omega

/-! ## The requester at hand -/

@[simp] theorem State.core_back (t s : State) (c : CoreId) : (t.back s).core c = t.core c := rfl
@[simp] theorem State.gang_back (t s : State) (c : CoreId) (g : GangId) : (t.back s).gang c g = t.gang c g := rfl
@[simp] theorem State.mem_back (t s : State) : (t.back s).mem = t.mem := rfl
@[simp] theorem State.core_from (s : State) (c d : CoreId) : (s.from_ c).core d = s.core d := rfl
theorem State.back_onCore (t s : State) (c : CoreId) (f : Core → Core) : (t.onCore c f).back s = (t.back s).onCore c f := rfl
@[simp] theorem State.from_back (s : State) (c : CoreId) : (s.from_ c).back s = s := rfl

/-- An event of a core's engine that goes on leaves no requester at hand. -/
theorem asCore_of_next {c : CoreId} {f : State → Out} {s t : State} (h : f (s.from_ c) = .next t) :
    asCore c f s = .next (t.back s) := by
  rw [asCore, h]

/-! ## The issue of an engine command (09 R192-R197) -/

theorem State.status_live_of_mayIssue {s : State} {h : Th} (hm : MayIssue s h) : (s.gang h.core h.gang).status = .live := by
  obtain ⟨ready, -⟩ := hm
  simp only [State.readyEngine, State.ready, Bool.and_eq_true, beq_iff_eq, and_assoc] at ready
  obtain ⟨-, live, -⟩ := ready
  exact live

/-- An engine command that may issue runs as its core's engine sees the state. -/
theorem State.engine_of_mayIssue {s : State} {h : Th} (hm : MayIssue s h) (cpl : Reg) (f : Cpl → State → State) :
    s.engine h cpl true f = .next ((f (s.cplOf h cpl) (Seen s h cpl)).back s) := by
  obtain ⟨ready, executed⟩ := hm
  have issued : (s.advance h).await h cpl = Issued s h cpl := State.onGang_onGang s h.core h.gang _ _
  have mask : (s.cplOf h cpl).mask ≠ 0 := executed
  simp only [State.engine, ready, Bool.and_self, if_true, if_neg mask, issued]
  rfl

/-! ## Completion (09 R194, R197) -/

theorem mem_threadsOf (m : BitVec 32) (n : Fin 32) : n.val ∈ threadsOf m ↔ m.getLsbD n.val = true := by
  simp [threadsOf]

@[simp] theorem State.core_report (s : State) (e : Code) (c : CoreId) : (s.report e).core c = s.core c := by
  rw [State.core, State.report_cores, State.core]

@[simp] theorem State.gang_report (s : State) (e : Code) (c : CoreId) (g : GangId) : (s.report e).gang c g = s.gang c g := by
  rw [State.gang, State.core_report, State.gang]

/-- Writing a code changes of its gang the registers and the record of what it awaits. -/
theorem State.gang_writeCpl (s : State) (k : Cpl) (e : Code) : ∃ wait done regs,
    (s.writeCpl k e).gang k.core k.gang = { s.gang k.core k.gang with
      outstanding := (s.gang k.core k.gang).outstanding - 1, cplWait := wait, cplDone := done, regs := regs } := by
  rw [State.writeCpl, State.gang_onGang]
  by_cases live : (s.gang k.core k.gang).status = .live
  · rw [if_pos live, Gang.foldl_setReg_rest]
    exact ⟨_, _, _, rfl⟩
  · rw [if_neg live]
    exact ⟨_, _, _, rfl⟩

theorem State.codeIn_writeCpl {s : State} {k : Cpl} (live : (s.gang k.core k.gang).status = .live) (e : Code) :
    CodeIn (s.writeCpl k e) k.core k.gang k.mask k.reg e := by
  intro n hn
  rw [State.writeCpl, State.gang_onGang, if_pos live, Gang.reg_foldl_setReg, if_pos ⟨(mem_threadsOf _ n).2 hn, rfl⟩, w32]

/-- A code that does not wait for the latency of a refusal (18 R404) reaches its thread. -/
theorem State.finish_thread_eq {s : State} {k : Cpl} {e : Code} (h : e ≠ .refused ∨ s.part k.core = 0) :
    s.finish (.thread k) e = (s.report e).writeCpl k e := by
  refine if_neg ?_
  rw [State.core_report]
  rintro ⟨refused, tenant⟩
  exact h.elim (· refused) tenant

/-- What a completion can do to the cores: nothing, or write its code. -/
theorem State.finish_thread_core (s : State) (k : Cpl) (e : Code) :
    (∀ c, (s.finish (.thread k) e).core c = s.core c) ∨ (∀ c, (s.finish (.thread k) e).core c = (s.writeCpl k e).core c) := by
  rw [State.finish, State.finishCpl]
  split
  · exact .inl (s.core_report e)
  · right
    intro c
    simp only [State.writeCpl, State.onGang, State.core_onCore_eq, State.core_report]

/-- A completion changes nothing of a core but its gangs. -/
theorem State.finish_thread_core_congr {α : Type} (g : Core → α) (s : State) (k : Cpl) (e : Code) (c : CoreId)
    (hg : ∀ k gs, g { k with gangs := gs } = g k := by intros; rfl) : g ((s.finish (.thread k) e).core c) = g (s.core c) := by
  obtain same | written := s.finish_thread_core k e
  · rw [same]
  · rw [written]
    exact State.core_onCore_congr g s k.core c fun x => hg x _

theorem State.finish_thread_core_other (s : State) (k : Cpl) (e : Code) {c : CoreId} (h : c ≠ k.core) :
    (s.finish (.thread k) e).core c = s.core c := by
  obtain same | written := s.finish_thread_core k e
  · exact same c
  · rw [written]
    exact s.core_onGang_other _ _ h

theorem State.finish_thread_held (s : State) (k : Cpl) (e : Code) :
    ((s.finish (.thread k) e).gang k.core k.gang).held = (s.gang k.core k.gang).held := by
  obtain same | written := s.finish_thread_core k e
  · rw [State.gang, same, State.gang]
  · obtain ⟨_, _, _, gang⟩ := s.gang_writeCpl k e
    rw [State.gang, written, ← State.gang, gang]

/-- A refusal under R208 is counted (09 R213). -/
theorem State.varies_varies (s : State) (c : CoreId) (k : Cpl) :
    ((s.varies c (.thread k)).core c).varies = min (2 ^ 32 - 1) ((s.core c).varies + 1) := by
  rw [State.varies, State.finish_thread_core_congr Core.varies, State.core_onCore]
  exact satInc_eq_min 32 _

theorem State.mtch_varies (s : State) (c : CoreId) (k : Cpl) : ((s.varies c (.thread k)).core c).mtch = (s.core c).mtch := by
  rw [State.varies, State.finish_thread_core_congr Core.mtch, State.core_onCore]

end Sys2Proof.Machine

namespace Sys2Proof.Claims

open Sys2Proof.Machine

/-! ## The state in which an engine runs -/

theorem seen_gang (s : State) (h : Th) (cpl : Reg) : (Seen s h cpl).gang h.core h.gang =
    { s.gang h.core h.gang with
      pc := (s.gang h.core h.gang).pc + 8
      outstanding := (s.gang h.core h.gang).outstanding + 1
      cplWait := (s.gang h.core h.gang).cplWait ++ [cpl] } := s.gang_onGang _ _ _

/-- Issue changes nothing of a core but its gangs. -/
theorem seen_core_congr {α : Type} (g : Core → α) (s : State) (h : Th) (cpl : Reg) (c : CoreId)
    (hg : ∀ k gs, g { k with gangs := gs } = g k := by intros; rfl) : g ((Seen s h cpl).core c) = g (s.core c) :=
  State.core_onCore_congr g s h.core c fun k => hg k _

/-! ## Codes that are reported -/

/-- A command that ends in a state where its gang lives and its core belongs as in `v` has reported since `v`. -/
theorem Reports.of_finish {v w : State} {k : Cpl} (status : (w.gang k.core k.gang).status = (v.gang k.core k.gang).status)
    (part : w.part k.core = v.part k.core) (s : State) (e : Code) :
    Reports v ((w.finish (.thread k) e).back s) (.thread k) e := by
  intro j hj live answers
  obtain rfl := Owner.thread.inj hj
  rw [← part] at answers
  rw [State.finish_thread_eq answers]
  exact State.codeIn_writeCpl (by rw [State.gang_report, status, live]) e

/-- A command refused as it issues answers at once. -/
theorem Answered.of_finish {s w : State} {h : Th} {cpl : Reg} {e : Code} (hm : MayIssue s h) (he : e ≠ .refused)
    (gang : w.gang h.core h.gang = (Seen s h cpl).gang h.core h.gang) :
    Answered s ((w.finish (.thread (s.cplOf h cpl)) e).back s) h cpl e := by
  have before : (w.report e).gang h.core h.gang = _ := (w.gang_report e h.core h.gang).trans (gang.trans (seen_gang s h cpl))
  have live := (congrArg Gang.status before).trans (State.status_live_of_mayIssue hm)
  obtain ⟨_, _, _, written⟩ := (w.report e).gang_writeCpl (s.cplOf h cpl) e
  rw [State.finish_thread_eq (.inl he)]
  refine ⟨State.codeIn_writeCpl (k := s.cplOf h cpl) live e, ?_, ?_⟩
  · exact (congrArg Gang.outstanding written).trans (congrArg (Gang.outstanding · - 1) before)
  · exact (congrArg Gang.pc written).trans (congrArg Gang.pc before)

/-! ## What moves elsewhere -/

theorem Elsewhere.trans {s t u : State} {c : CoreId} (h : Elsewhere s t c) (g : Elsewhere t u c) : Elsewhere s u c := by
  obtain ⟨core, bytes, quarters, pwr, sec, boot, pending⟩ := h
  obtain ⟨core', bytes', quarters', pwr', sec', boot', pending'⟩ := g
  exact ⟨fun d hd => (core' d hd).trans (core d hd), fun a => (bytes' a).trans (bytes a), quarters'.trans quarters, pwr'.trans pwr,
    sec'.trans sec, boot'.trans boot, pending'.trans pending⟩

theorem Elsewhere.onCore (s : State) (c : CoreId) (f : Core → Core) : Elsewhere s (s.onCore c f) c :=
  ⟨fun _ hd => s.core_onCore_other f hd, fun _ => rfl, rfl, rfl, rfl, rfl, rfl⟩

theorem Elsewhere.seen (s : State) (h : Th) (cpl : Reg) : Elsewhere s (Seen s h cpl) h.core :=
  show Elsewhere s (Issued s h cpl) h.core from .onCore s h.core _

theorem Elsewhere.finish (w : State) (k : Cpl) (e : Code) (s : State) :
    Elsewhere w ((w.finish (.thread k) e).back s) k.core := by
  obtain ⟨pending, pwr, sec, boot, quarters⟩ := w.finish_rest (.thread k) e
  exact ⟨fun _ hd => w.finish_thread_core_other k e hd, fun a => congrArg (Tab.get 0 · a) (w.finish_mem _ e),
    quarters, pwr, sec, boot, pending⟩

end Sys2Proof.Claims

namespace Sys2Proof.Machine

open Sys2Proof.Claims

/-! ## The issue of an irregular command (05 R111, 09 R208, 21 R453) -/

theorem exec_irrRow {i : Instr} {h : Th} {op : IrrOp} {cpl : Reg} (hi : irrRow i = some (h, op, cpl)) (s : State) :
    exec i s = irrIssue h op cpl s := by
  unfold irrRow at hi
  split at hi <;> cases hi <;> rfl

/-- The command of `k` at the end of its core's queue with the next issue number, and its gang held. -/
def irrQueued (h : Th) (op : IrrOp) (k : Cpl) (p : PartId) (v : State) : State :=
  ((v.onArr h.core (fun a => { a with seq := a.seq + 1 })).onMtch h.core (fun m => { m with
    queue := m.queue ++ [(k, p, op, (v.core h.core).arr.seq)] })).onGang h.core h.gang (fun g => { g with held := true })

/-- What becomes of a command with good devices and no FRESH draw, by what the read of its descriptors says (09 R208). -/
def irrAnswer (h : Th) (op : IrrOp) (k : Cpl) (p : PartId) : State × Except Code Bool → State
  | (v, .error e) => v.finish (.thread k) e
  | (v, .ok true) => v.varies h.core (.thread k)
  | (v, .ok false) =>
    if op.shape.1 = 3 then (irrQueued h op k p v).pushConsumer h.core .irregular else irrQueued h op k p v

/-- The checks of an irregular command at its issue, in their order. -/
theorem irrIssue_eq {s : State} {h : Th} (hm : MayIssue s h) (op : IrrOp) (cpl : Reg) :
    irrIssue h op cpl s = .next (State.back (
      if (op.shape.2.2.1.map structAddr ++ op.shape.2.2.2).any ((Seen s h cpl).deviceBad (s.part h.core)) then
        (Seen s h cpl).finish (.thread (s.cplOf h cpl)) .unmapped
      else if op.shape.1 = 3 ∧ s.det h.core = true ∧ (s.core h.core).rng.fresh = true then
        (Seen s h cpl).varies h.core (.thread (s.cplOf h cpl))
      else irrAnswer h op (s.cplOf h cpl) (s.part h.core) ((Seen s h cpl).addVaries h.core (s.part h.core) op)) s) := by
  have part : (Seen s h cpl).part h.core = s.part h.core := seen_core_congr Core.part s h cpl h.core
  have det : (Seen s h cpl).det h.core = s.det h.core := seen_core_congr Core.det s h cpl h.core
  have rng : ((Seen s h cpl).core h.core).rng = (s.core h.core).rng := seen_core_congr Core.rng s h cpl h.core
  rw [irrIssue, State.engine_of_mayIssue hm, part, det, rng]
  rfl

theorem irrQueued_held (h : Th) (op : IrrOp) (k : Cpl) (p : PartId) (v : State) :
    ((irrQueued h op k p v).gang h.core h.gang).held = true := by
  rw [irrQueued, State.gang_onGang]

theorem State.gang_pushConsumer (s : State) (c d : CoreId) (x : Consumer) (g : GangId) :
    (s.pushConsumer c x).gang d g = s.gang d g :=
  State.gang_onCore_congr s c d g

/-! ## The completion of an irregular command (05 R110-R112) -/

/-- What the command of `k` that has run leaves: the queue without it, its gang let go, and the random unit freed. -/
def irrEnded (c : CoreId) (k : Cpl) (rnd : BitVec 2) (rest : List (Cpl × PartId × IrrOp × Nat)) (r : Run) : State :=
  ((r.s.onMtch c (fun m => { m with queue := rest, sideIn := [], sideOut := 0 })).onGang k.core k.gang
    (fun g => { g with held := false })).endDraw c rnd r.j

/-- The end of a command's draws changes nothing of a core but its random unit. -/
theorem State.endDraw_core_congr {α : Type} (g : Core → α) (s : State) (c d : CoreId) (rnd : BitVec 2) (n : Nat)
    (hg : ∀ k x, g { k with rng := x } = g k := by intros; rfl) : g ((s.endDraw c rnd n).core d) = g (s.core d) := by
  unfold State.endDraw
  split
  · exact State.core_onCore_congr g s c d fun k => hg k _
  · rfl

theorem State.gang_endDraw (s : State) (c d : CoreId) (rnd : BitVec 2) (n : Nat) (g : GangId) :
    (s.endDraw c rnd n).gang d g = s.gang d g :=
  State.endDraw_core_congr (fun k => k.gangs[g.val]) s c d rnd n

theorem State.busy_endDraw (s : State) (c : CoreId) (n : Nat) : ((s.endDraw c 3 n).core c).rng.busy = none := by
  rw [State.endDraw, if_pos rfl, State.core_onCore]

theorem State.mem_endDraw (s : State) (c : CoreId) (rnd : BitVec 2) (n : Nat) : (s.endDraw c rnd n).mem = s.mem := by
  unfold State.endDraw
  split <;> rfl

theorem State.gang_onMtch (s : State) (c d : CoreId) (f : Mtch → Mtch) (g : GangId) : (s.onMtch c f).gang d g = s.gang d g :=
  State.gang_onCore_congr s c d g

theorem irrEnded_gang (c : CoreId) (k : Cpl) (rnd : BitVec 2) (rest : List (Cpl × PartId × IrrOp × Nat)) (r : Run) :
    (irrEnded c k rnd rest r).gang k.core k.gang = { r.s.gang k.core k.gang with held := false } := by
  rw [irrEnded, State.gang_endDraw, State.gang_onGang, State.gang_onMtch]

theorem irrEnded_part (c d : CoreId) (k : Cpl) (rnd : BitVec 2) (rest : List (Cpl × PartId × IrrOp × Nat)) (r : Run) :
    (irrEnded c k rnd rest r).part d = r.s.part d := by
  rw [irrEnded, State.part, State.endDraw_core_congr Core.part]
  exact (State.core_onCore_congr Core.part _ k.core d).trans (State.core_onCore_congr Core.part r.s c d)

theorem irrEnded_queue (c : CoreId) (k : Cpl) (rnd : BitVec 2) (rest : List (Cpl × PartId × IrrOp × Nat)) (r : Run) :
    ((irrEnded c k rnd rest r).core c).mtch.queue = rest := by
  rw [irrEnded, State.endDraw_core_congr Core.mtch]
  refine (State.core_onCore_congr (·.mtch.queue) _ k.core c).trans ?_
  rw [State.mtch_onMtch]

theorem State.queue_keepTry (s : State) (c : CoreId) (op : IrrOp) (r : Run) :
    ((s.keepTry c op r).core c).mtch.queue = (s.core c).mtch.queue := by
  unfold State.keepTry
  split
  · rfl
  · rw [State.mtch_onMtch, State.onStrm, State.core_onCore]

/-- The command at the head of the matcher queue waits for its turn at the random unit or for its paired stream, or ends. -/
theorem irregularCompleteAt_eq {s : State} {c : CoreId} {k : Cpl} {p : PartId} {op : IrrOp} {n : Nat}
    {rest : List (Cpl × PartId × IrrOp × Nat)} (head : (s.core c).mtch.queue = (k, p, op, n) :: rest) (on : s.coreOn c = true) :
    irregularCompleteAt c s = .next (
      let r := s.runIrr c p op n
      if op.shape.1 = 3 ∧ (s.core c).rng.busy ≠ some .irregular then s
      else if r.wait then s.keepTry c op r
      else (irrEnded c k op.shape.1 rest r).finish (.thread k) r.code) := by
  rw [irregularCompleteAt, head]
  simp only [on, Bool.not_true, Bool.false_eq_true, false_or]
  split
  · rfl
  · split <;> rfl

theorem exec_irregularComplete (c : CoreId) (s : State) : exec (.irregularComplete c) s = asCore c (irregularCompleteAt c) s := rfl

end Sys2Proof.Machine

namespace Sys2Proof.Claims

open Sys2Proof.Machine

theorem irregularIssue : IrregularIssue := by
  intro i s h op cpl hi hm
  have run := irrIssue_eq hm op cpl
  rw [← exec_irrRow hi] at run
  have device := List.any_eq_true (l := op.shape.2.2.1.map structAddr ++ op.shape.2.2.2)
    (p := (Seen s h cpl).deviceBad (s.part h.core))
  have mtch : ((Seen s h cpl).core h.core).mtch = (s.core h.core).mtch := seen_core_congr Core.mtch s h cpl h.core
  have count : ((Seen s h cpl).core h.core).varies = (s.core h.core).varies := seen_core_congr Core.varies s h cpl h.core
  have sameGang (u : State) :
      (u.onCore h.core (fun k => { k with varies := satInc 32 k.varies })).gang h.core h.gang = u.gang h.core h.gang :=
    State.gang_onCore_congr u h.core h.core h.gang
  refine ⟨fun bad => ?_, fun known fresh => ?_, fun v e known calm read => ?_, fun v known calm read => ?_,
    fun v known calm read => ?_⟩
  · rw [if_pos (device.2 bad)] at run
    refine ⟨_, run, .of_finish hm (by decide) rfl, ?_, (Elsewhere.seen s h cpl).trans (.finish _ (s.cplOf h cpl) _ s)⟩
    rw [State.core_back, State.finish_thread_core_congr Core.mtch, mtch]
  · rw [if_neg (known ∘ device.1), if_pos fresh] at run
    refine ⟨_, run, .of_finish hm (by decide) (sameGang _), ?_, ?_,
      ((Elsewhere.seen s h cpl).trans (.onCore _ _ _)).trans (.finish _ (s.cplOf h cpl) _ s)⟩
    · rw [State.core_back, State.mtch_varies, mtch]
    · rw [State.core_back, State.varies_varies, count]
  all_goals rw [if_neg (known ∘ device.1), if_neg calm, read, irrAnswer] at run
  · refine ⟨_, run, .of_finish rfl rfl s e, ?_, ?_⟩
    · rw [State.core_back, State.finish_thread_core_congr Core.mtch]
    · rw [State.mem_back, State.finish_mem]
  · refine ⟨_, run, .of_finish (congrArg Gang.status (sameGang v)) ?_ s _, ?_, ?_, ?_⟩
    · exact State.core_onCore_congr Core.part v _ _
    · rw [State.core_back, State.mtch_varies]
    · rw [State.core_back, State.varies_varies]
    · rw [State.mem_back, State.varies, State.finish_mem, State.onCore_mem]
  · refine ⟨_, (irrQueued h op (s.cplOf h cpl) (s.part h.core) v).back s, run, rfl, fun steady => ?_, fun drawing => ?_, ?_, ?_⟩
    · rw [if_neg steady]
    · rw [if_pos drawing]
      exact State.back_onCore _ s h.core _
    · rw [State.gang_back]
      split
      · rw [State.gang_pushConsumer, irrQueued_held]
      · rw [irrQueued_held]
    · rw [State.mem_back]
      split <;> rfl

theorem irregularCompletes : IrregularCompletes := by
  intro s c k p op n rest head on
  have run := asCore_of_next (irregularCompleteAt_eq (s := s.from_ c) head on)
  rw [← exec_irregularComplete, State.core_from] at run
  refine ⟨fun draws busy => ?_, fun turn => ⟨fun ends => ?_, fun waits => ⟨?_, State.queue_keepTry _ _ _ _⟩⟩⟩
  · rwa [if_pos ⟨draws, busy⟩, State.from_back] at run
  all_goals rw [if_neg fun late => late.2 (turn late.1)] at run
  · rw [if_neg (by simp [ends])] at run
    refine ⟨_, run, ?_, ?_, .of_finish ?_ (irrEnded_part _ _ _ _ _ _) _ _, fun draws => ?_, ?_⟩
    · rw [State.core_back, State.finish_thread_core_congr (·.mtch.queue), irrEnded_queue]
    · rw [State.gang_back, State.finish_thread_held, irrEnded_gang]
    · rw [irrEnded_gang]
    · rw [State.core_back, State.finish_thread_core_congr (·.rng.busy), irrEnded, draws, State.busy_endDraw]
    · rw [State.mem_back, State.finish_mem, irrEnded, State.mem_endDraw]
      rfl
  · rwa [if_pos waits] at run

/-- Settles O31: an irregular command from its checks at issue to its end at the head of the matcher queue. -/
theorem irregularCommands : Obligations.IrregularCommands := ⟨irregularIssue, irregularCompletes⟩

end Sys2Proof.Claims
end


section
/-! SUPPORT. Mask commands and the update engine (06 R135-R148, 16 R353-R360): what a change of an update engine keeps, the
commands that run at issue, the ways into an engine's queue, and the start and the end of its command. -/

namespace Sys2Proof.Machine

open Sys2Proof.Claims

/-! ## Reading an update engine back -/

@[simp] theorem State.upd_onUpd (s : State) (q : QuarterId) (f : Upd → Upd) : (s.onUpd q f).upd q = f (s.upd q) := by
  simp [State.upd, State.onUpd]

theorem State.quarter_onUpd_other (s : State) {q r : QuarterId} (f : Upd → Upd) (h : r ≠ q) :
    (s.onUpd q f).quarter r = s.quarter r :=
  s.quarter_onQuarter_other _ h

theorem State.upd_onUpd_other (s : State) {q r : QuarterId} (f : Upd → Upd) (h : r ≠ q) : (s.onUpd q f).upd r = s.upd r :=
  congrArg Quarter.upd (s.quarter_onUpd_other f h)

@[simp] theorem State.quarter_back (t s : State) (q : QuarterId) : (t.back s).quarter q = t.quarter q := rfl

@[simp] theorem State.upd_back (t s : State) (q : QuarterId) : (t.back s).upd q = t.upd q := rfl

@[simp] theorem State.quarters_finish (s : State) (o : Owner) (e : Code) : (s.finish o e).quarters = s.quarters := by
  obtain ⟨-, -, -, -, quarters⟩ := s.finish_rest o e
  exact quarters

@[simp] theorem State.upd_finish (s : State) (o : Owner) (e : Code) (q : QuarterId) : (s.finish o e).upd q = s.upd q := by
  rw [State.upd, State.quarter, State.quarters_finish, State.upd, State.quarter]

theorem State.mem_finish_back (w : State) (o : Owner) (e : Code) (s : State) : ((w.finish o e).back s).mem = w.mem :=
  w.finish_mem o e

@[simp] theorem State.upd_updEnd (s : State) (q : QuarterId) (u : UpdCmd) (e : Code) :
    (s.updEnd q u e).upd q = { s.upd q with run := none } := by
  rw [State.updEnd, State.upd_finish, State.upd_onUpd]

@[simp] theorem State.mem_updEnd (s : State) (q : QuarterId) (u : UpdCmd) (e : Code) : (s.updEnd q u e).mem = s.mem :=
  State.finish_mem _ _ e

/-- The state in which a quarter's update engine looks up addresses. -/
def State.fromQuarter (s : State) (q : QuarterId) : State := { s with viewer := some (.quarter q) }

/-- An event of a quarter's engine that goes on leaves no requester at hand. -/
theorem asQuarter_of_next {q : QuarterId} {f : State → Out} {s t : State} (h : f (s.fromQuarter q) = .next t) :
    asQuarter q f s = .next (t.back s) := by
  rw [asQuarter, ← State.fromQuarter, h]

/-! ## Issue -/

/-- An engine command waits while its engine has no room for it (09 R193). -/
theorem State.engine_of_no_room (s : State) (h : Th) (cpl : Reg) (f : Cpl → State → State) :
    s.engine h cpl false f = .next s := by
  rw [State.engine, Bool.and_false, if_neg (by decide)]

theorem not_aligned64_iff (l : List Addr) : (!aligned64 l) = true ↔ ¬ ∀ g ∈ l, g.toNat % 64 = 0 := by
  simp [aligned64]

theorem any_deviceBad_of_known {s : State} {p : PartId} {l : List Addr} (h : ∀ g ∈ l, s.deviceBad p g = false) :
    l.any (s.deviceBad p) = false := by
  simpa using h

/-! ## The commands and events of this family -/

theorem exec_mskScore (h : Th) (op : MskScoreOp) (cpl : Reg) (s : State) :
    exec (.mskScore h op cpl) s = execMskScore h op cpl s := rfl
theorem exec_mskSelect (h : Th) (op : MskSelectOp) (cpl : Reg) (s : State) :
    exec (.mskSelect h op cpl) s = execMskSelect h op cpl s := rfl
theorem exec_mskApply (h : Th) (op : MskApplyOp) (cpl : Reg) (s : State) :
    exec (.mskApply h op cpl) s = execMskApply h op cpl s := rfl
theorem exec_mskTiles (h : Th) (op : MskTilesOp) (cpl : Reg) (s : State) :
    exec (.mskTiles h op cpl) s = execMskTiles h op cpl s := rfl
theorem exec_updOpt (h : Th) (desc : Addr) (cpl : Reg) (s : State) : exec (.updOpt h desc cpl) s = execUpdOpt h desc cpl s := rfl
theorem exec_updAccept (q : QuarterId) (s : State) : exec (.updAccept q) s = asQuarter q (updAcceptAt q) s := rfl
theorem exec_updateEngineCommandStart (q : QuarterId) (s : State) :
    exec (.updateEngineCommandStart q) s = asQuarter q (updateEngineCommandStartAt q) s := rfl
theorem exec_mskApplyComplete (q : QuarterId) (s : State) :
    exec (.mskApplyComplete q) s = asQuarter q (mskApplyCompleteAt q) s := rfl
theorem exec_mskTilesComplete (q : QuarterId) (s : State) :
    exec (.mskTilesComplete q) s = asQuarter q (mskTilesCompleteAt q) s := rfl
theorem exec_updComplete (q : QuarterId) (s : State) : exec (.updComplete q) s = asQuarter q (updCompleteAt q) s := rfl

end Sys2Proof.Machine

namespace Sys2Proof.Claims

open Sys2Proof.Machine

theorem seen_part (s : State) (h : Th) (cpl : Reg) (c : CoreId) : (Seen s h cpl).part c = s.part c :=
  seen_core_congr Core.part s h cpl c

/-- A command that ends in a state with the cores of `v` has reported since `v`. -/
theorem Reports.of_finish_cores {v w : State} (cores : w.cores = v.cores) (o : Owner) (e : Code) (s : State) :
    Reports v ((w.finish o e).back s) o e := by
  have core (c : CoreId) : w.core c = v.core c := by rw [State.core, cores, State.core]
  rintro k rfl
  refine Reports.of_finish ?_ ?_ s e k rfl
  · rw [State.gang, core, State.gang]
  · rw [State.part, core, State.part]

theorem Reports.of_updEnd (w : State) (q : QuarterId) (u : UpdCmd) (e : Code) (s : State) :
    Reports w ((w.updEnd q u e).back s) u.owner e :=
  .of_finish_cores (w := w.onUpd q _) rfl u.owner e s

/-! ## The commands that run at issue (06 R136-R140) -/

theorem maskScore : MaskScore := by
  intro s v h op cpl bs hm known read
  have run := (exec_mskScore h op cpl s).trans (State.engine_of_mayIssue hm cpl _)
  have known' := any_deviceBad_of_known known
  have aligned : (∀ g ∈ [op.master, op.score], g.toNat % 64 = 0) ↔ op.master.toNat % 64 = 0 ∧ op.score.toNat % 64 = 0 := by
    simp
  rw [scoreAddrs] at known'
  simp only [seen_part, read, known', not_aligned64_iff, aligned, Bool.false_eq_true, if_false] at run
  refine ⟨fun unaligned => ?_, fun master score dense => ?_, fun a b master score sparse grad here => ?_⟩
  · rw [if_pos unaligned] at run
    exact ⟨_, run, rfl, State.mem_finish_back _ _ _ s⟩
  all_goals rw [if_neg (Classical.not_not.2 ⟨master, score⟩)] at run
  · rw [if_pos (by rw [dense, Bool.not_false])] at run
    exact ⟨_, run, rfl, State.mem_finish_back _ _ _ s⟩
  · rw [if_neg (by simp [sparse]), grad, here] at run
    exact ⟨_, run, rfl, State.mem_finish_back _ _ _ s⟩

theorem maskSelect : MaskSelect := by
  refine ⟨fun s v h op cpl bs hm turn known read fixed => ?_, fun s h op cpl sampled busy => ?_⟩
  · have room : (!op.sampled || s.rngFree h.core) = true := by
      cases sampled : op.sampled
      · rfl
      · exact turn sampled
    have steady : ¬ (op.sampled = true ∧ v.rngVaries h.core = true) := fun ⟨sampled, varies⟩ => by
      simp [fixed sampled] at varies
    have run := exec_mskSelect h op cpl s
    rw [execMskSelect, room, State.engine_of_mayIssue hm] at run
    simp only [seen_part, read, any_deviceBad_of_known known, not_aligned64_iff, steady, Bool.false_eq_true, if_false] at run
    refine ⟨fun unaligned => ?_, fun aligned sparse sampled low => ?_, fun ls aligned sparse positive here scratch => ?_⟩
    · rw [if_pos unaligned] at run
      exact ⟨_, run, .of_finish_cores rfl _ _ s, State.mem_finish_back _ _ _ s⟩
    all_goals rw [if_neg (Classical.not_not.2 aligned), if_neg (by simp [sparse])] at run
    · rw [if_pos (by simp [sampled, low])] at run
      exact ⟨_, run, .of_finish_cores rfl _ _ s, State.mem_finish_back _ _ _ s⟩
    · have warm : ¬ (op.sampled = true ∧ (!f32Positive op.temp) = true) := fun ⟨sampled, low⟩ => by
        simp [positive sampled] at low
      have placed : ¬ (op.drop ≠ 0xFFFF ∧ (!v.scratchOk (s.part h.core) (nth 0 ls 3)) = true) := fun ⟨two, out⟩ => by
        simp [scratch two] at out
      rw [if_neg warm, here] at run
      simp only [if_neg placed] at run
      exact ⟨_, run, .of_finish_cores rfl _ _ s, State.mem_finish_back _ _ _ s⟩
  · rw [exec_mskSelect, execMskSelect, sampled, busy]
    exact s.engine_of_no_room h cpl _

/-- Settles O28: both commands answer with the code of a failed check, or with that of their run. -/
theorem maskScores : Obligations.MaskScores := ⟨maskScore, maskSelect⟩

/-! ## Into the queue of an update engine (06 R135, R143, 16 R353-R356) -/

theorem updPush_upd (s t : State) (h : Th) (k : Cpl) (op : UpdOp) :
    (((s.updPush h k op).back t).upd (s.quarterOf h.core)).queue =
      (s.upd (s.quarterOf h.core)).queue ++ [⟨.thread k, some h.core, s.part h.core, op⟩] := by
  rw [State.upd_back, State.updPush, State.upd_onUpd]

theorem updPush_upd_other (s t : State) (h : Th) (k : Cpl) (op : UpdOp) {q : QuarterId} (hq : q ≠ s.quarterOf h.core) :
    ((s.updPush h k op).back t).upd q = s.upd q := by
  rw [State.upd_back, State.updPush, State.upd_onUpd_other _ _ hq]

theorem maskCommandsQueue : MaskCommandsQueue := by
  refine ⟨fun s v h op cpl bs hm known read => ?_, fun s v h op cpl bs hm known read => ?_⟩
  · have run := (exec_mskApply h op cpl s).trans (State.engine_of_mayIssue hm cpl _)
    simp only [seen_part, read, any_deviceBad_of_known known, not_aligned64_iff, Bool.false_eq_true, if_false] at run
    refine ⟨fun unaligned => ?_, fun aligned dense => ?_, fun ls aligned sparse here => ?_⟩
    · rw [if_pos unaligned] at run
      exact ⟨_, run, .of_finish_cores rfl _ _ s, State.quarters_finish _ _ _, State.mem_finish_back _ _ _ s⟩
    all_goals rw [if_neg (Classical.not_not.2 aligned)] at run
    · rw [if_pos (by rw [dense, Bool.not_false])] at run
      exact ⟨_, run, .of_finish_cores rfl _ _ s, State.quarters_finish _ _ _, State.mem_finish_back _ _ _ s⟩
    · rw [if_neg (by simp [sparse]), here] at run
      exact ⟨_, run, updPush_upd _ _ _ _ _, fun q hq => updPush_upd_other _ _ _ _ _ hq, rfl, rfl⟩
  · have run := (exec_mskTiles h op cpl s).trans (State.engine_of_mayIssue hm cpl _)
    simp only [seen_part, read, any_deviceBad_of_known known, not_aligned64_iff, List.contains_iff_mem, Bool.false_eq_true,
      if_false] at run
    refine ⟨fun unaligned => ?_, fun ls aligned rowAligned shape sparse grad here => ?_⟩
    · rw [if_pos (.inl unaligned)] at run
      exact ⟨_, run, .of_finish_cores rfl _ _ s, State.quarters_finish _ _ _, State.mem_finish_back _ _ _ s⟩
    · rw [if_neg (not_or.2 ⟨Classical.not_not.2 aligned, rowAligned⟩), if_neg shape, if_neg (by simp [sparse, grad]), here] at run
      exact ⟨_, run, updPush_upd _ _ _ _ _, fun q hq => updPush_upd_other _ _ _ _ _ hq, rfl, rfl⟩

end Sys2Proof.Claims

namespace Sys2Proof.Machine

open Sys2Proof.Claims

/-- What the roundings of an update take of the random unit (08 R175): draws for each element, and stored blocks; nothing while its
descriptor cannot be read. -/
def optShare (s : State) (h : Th) (desc : Addr) : Nat × Nat :=
  match (s.readOpt (s.part h.core) desc).2 with
  | .ok bs => ((parseOpt bs).draws,
      ((Run.plain s h.core (s.part h.core)).blocks (optHdr bs) (parseOpt bs).kb0 (parseOpt bs).nkb).2.length)
  | .error _ => (0, 0)

/-- The lanes handed over by an update of `d` draws for each element of `n` blocks, if it draws at all. -/
def optReserved (u : State) (c : CoreId) (d n : Nat) : State × List (BitVec 128) :=
  if d = 0 then (u, []) else u.reserve c (8192 * n * d)

/-- The command of `k` on its way to the update engine of its core's quarter. -/
def optSent (h : Th) (k : Cpl) (p : PartId) (desc : Addr) (x : State × List (BitVec 128)) : State :=
  x.1.onUpd (x.1.quarterOf h.core) (fun u => { u with arrivals := u.arrivals ++ [(.thread k, h.core, p, desc, x.2)] })

theorem execUpdOpt_eq {s : State} {h : Th} {desc : Addr} {cpl : Reg} {d n : Nat} (hm : MayIssue s h)
    (share : optShare s h desc = (d, n)) (known : (Seen s h cpl).deviceBad (s.part h.core) desc = false)
    (free : d ≠ 0 → s.rngFree h.core = true ∧ ¬ (s.det h.core = true ∧ (s.core h.core).rng.fresh = true)) :
    execUpdOpt h desc cpl s = .next
      ((optSent h (s.cplOf h cpl) (s.part h.core) desc (optReserved (Seen s h cpl) h.core d n)).back s) := by
  have room : (d == 0 || s.rngFree h.core) = true := by
    by_cases undrawn : d = 0
    · simp [undrawn]
    · simp [free undrawn]
  have varies : (Seen s h cpl).rngVaries h.core = s.rngVaries h.core :=
    seen_core_congr (fun k => k.det && k.rng.fresh) s h cpl h.core
  have steady : ¬ (d ≠ 0 ∧ s.rngVaries h.core = true) := fun ⟨drawn, varies⟩ =>
    (free drawn).2 (by simpa [State.rngVaries] using varies)
  rcases read : s.readOpt (s.part h.core) desc with ⟨v, e | bs⟩
  all_goals
    simp only [optShare, read, Prod.mk.injEq] at share
    obtain ⟨rfl, rfl⟩ := share
    simp only [execUpdOpt, read]
    rw [room, State.engine_of_mayIssue hm, known, varies, if_neg steady]
    rfl

theorem rng_reserve (u : State) (c : CoreId) (r : Nat) : ((u.reserve c r).1.core c).rng = { (u.core c).rng with
    lanes := Vector.ofFn (fun i => { s := jumpBits (32 * ((r + 63) / 64)) (u.core c).rng.lanes[i.val].s
                                     pos := ((u.core c).rng.lanes[i.val].pos + (r + 63) / 64) % 2 ^ 64 }) } := by
  simp [State.reserve, State.onRng, ceilDiv]

/-- A reservation moves the lanes of one core only. -/
theorem optReserved_keeps {u t : State} {c : CoreId} {d n : Nat} {ls : List (BitVec 128)} (h : optReserved u c d n = (t, ls)) :
    t.quarters = u.quarters ∧ t.quarterOf c = u.quarterOf c ∧ t.mem = u.mem ∧ ∀ g, t.gang c g = u.gang c g := by
  unfold optReserved at h
  split at h
  · cases h
    exact ⟨rfl, rfl, rfl, fun _ => rfl⟩
  · cases h
    exact ⟨rfl, rfl, rfl, u.gang_onCore_congr c c⟩

end Sys2Proof.Machine

namespace Sys2Proof.Claims

open Sys2Proof.Machine

theorem updateIssue : UpdateIssue := by
  intro s h desc cpl hm q
  split
  next d n share =>
    intro known free
    have run := (exec_updOpt h desc cpl s).trans (execUpdOpt_eq hm share known free)
    obtain ⟨u, ls, reserved⟩ : ∃ u ls, optReserved (Seen s h cpl) h.core d n = (u, ls) := ⟨_, _, rfl⟩
    obtain ⟨quarters, home, mem, gang⟩ := optReserved_keeps reserved
    have quarter (r : QuarterId) : u.quarter r = s.quarter r := by
      rw [State.quarter, quarters, State.quarter]
      rfl
    have rng : ((Seen s h cpl).core h.core).rng = (s.core h.core).rng := seen_core_congr Core.rng s h cpl h.core
    rw [reserved, optSent, show u.quarterOf h.core = q from home] at run
    refine ⟨_, ls, run, ?_, fun undrawn => ?_, fun drawn => ?_, ?_, fun r hr => ?_, fun a => congrArg (Tab.get 0 · a) mem⟩
    · rw [State.upd_back, State.upd_onUpd, State.upd, quarter, State.upd]
    · rw [optReserved, if_pos undrawn] at reserved
      cases reserved
      exact ⟨rfl, rng⟩
    · rw [optReserved, if_neg drawn] at reserved
      cases reserved
      have moved := rng_reserve (Seen s h cpl) h.core (8192 * n * d)
      refine ⟨by rw [← rng], fun l => (congrArg (fun x : Rng => x.lanes[l.val]) moved).trans ?_⟩
      simp [rng]
    · refine (congrArg Gang.pc (gang h.gang)).trans ?_
      rw [seen_gang]
    · rw [State.quarter_back, State.quarter_onUpd_other _ _ hr, quarter]

end Sys2Proof.Claims

namespace Sys2Proof.Machine

open Sys2Proof.Claims

/-! ## An update arrives (16 R355-R356, R371) -/

section
variable {s : State} {q : QuarterId} {o : Owner} {c : CoreId} {p : PartId} {desc : Addr} {ls : List (BitVec 128)}
  {rest : List (Owner × CoreId × PartId × Addr × List (BitVec 128))}
  (arrivals : (s.upd q).arrivals = (o, c, p, desc, ls) :: rest) (on : s.fabricOn q = true)

include arrivals on

theorem updAcceptAt_unread {v : State} {e : Code}
    (read : (s.onUpd q (fun k => { k with arrivals := rest })).readOpt p desc = (v, .error e)) :
    updAcceptAt q s = .next (v.finish o e) := by
  simp [updAcceptAt, arrivals, on, read]

section
variable {v w : State} {bs gb : List Byte}
  (read : (s.onUpd q (fun k => { k with arrivals := rest })).readOpt p desc = (v, .ok bs))
  (dense : v.optGrad p (parseOpt bs) = (w, .ok gb))

include read dense

theorem updAcceptAt_failed (bad : w.optCheck c p (parseOpt bs) (optHdr bs) (gradOf 160 (bs ++ gb)) ≠ .done) :
    updAcceptAt q s = .next (w.finish o (w.optCheck c p (parseOpt bs) (optHdr bs) (gradOf 160 (bs ++ gb)))) := by
  simp only [updAcceptAt, arrivals, on, read, dense, Bool.not_true, Bool.false_eq_true, if_false]
  split
  next done _ => exact absurd done bad
  next done _ => exact absurd done bad
  next => rfl

theorem updAcceptAt_held {d : OptDesc} {r : Run} {nf : Bool}
    (check : w.optCheck c p (parseOpt bs) (optHdr bs) (gradOf 160 (bs ++ gb)) = .done) (here : w.optLocal p (parseOpt bs) = .ok d)
    (judged : (Run.alone w c p).judge d (optHdr bs) (gradOf 160 (bs ++ gb)) = (r, nf)) (ok : r.ok = true) :
    updAcceptAt q s = .next (r.s.onUpd q (fun u => { u.record d.step nf with
      queue := u.queue ++ [⟨o, some c, p, .opt (bs ++ gb) d.step ls 0⟩] })) := by
  simp only [updAcceptAt, arrivals, on, read, dense, check, here, judged, ok, Bool.not_true, Bool.false_eq_true, if_false, if_true]

end

end

/-- UPD_NF after a command of `step` is accepted (16 R371). -/
theorem Upd.record_eq (u : Upd) (step : Nat) (nf : Bool) : u.record step nf = { u with
    nstep := step
    nf := if u.nstep = step then u.nf || nf else nf
    acc := if u.nstep = step then min (2 ^ 15 - 1) (u.acc + 1) else 1 } := by
  unfold Upd.record
  split
  next same => simp only [satInc_eq_min, ← same]
  next => rfl

/-! ## The engine takes its next command (06 R143, 16 R357, R359-R360) -/

/-- How many steps the verdict held is ahead of `step`, of 65,536. -/
def Upd.ahead (k : Upd) (step : Nat) : Nat := (k.vStep + 65536 - step) % 65536

/-- An update whose record is written and that names no fence completes with DONE. -/
theorem State.optDone_of_written {s w : State} {u : UpdCmd} {d : OptDesc} {skipped nonfin : Bool} {blocks : Nat}
    (fence : d.fence = 0xFF)
    (written : s.writeRange (u.core.getD 0) u.part d.record (optRecord skipped nonfin blocks d.step) = (w, .done)) (q : QuarterId) :
    s.optDone q u d skipped nonfin blocks = w.updEnd q u .done := by
  simp only [State.optDone, written, State.fenceArrive, fence, if_true]

section
variable {s : State} {q : QuarterId} {u : UpdCmd} {rest : List UpdCmd} (idle : (s.upd q).run = none) (on : s.fabricOn q = true)
  (waits : (s.upd q).queue = u :: rest)

include idle on waits

theorem startAt_apply {o : MskApplyOp} {b : List Byte} (op : u.op = .apply o b) :
    updateEngineCommandStartAt q s = .next (s.onUpd q (fun k => { k with
      tiles := false, mskBlocks := 0, chg := 0, queue := rest, run := some u })) := by
  obtain ⟨owner, core, part, _⟩ := u
  obtain rfl := op
  simp [updateEngineCommandStartAt, idle, on, waits]

theorem startAt_tiles {o : MskTilesOp} {b : List Byte} (op : u.op = .tiles o b) :
    updateEngineCommandStartAt q s = .next (s.onUpd q (fun k => { k with
      tiles := true, mskBlocks := 0, queue := rest, run := some u })) := by
  obtain ⟨owner, core, part, _⟩ := u
  obtain rfl := op
  simp [updateEngineCommandStartAt, idle, on, waits]

section
variable {bs : List Byte} {step l0 : Nat} {ls : List (BitVec 128)} (op : u.op = .opt bs step ls l0)

include op

/-- The verdict of its step has not come. -/
theorem startAt_waits (early : (s.upd q).vValid = false ∨ 32768 ≤ (s.upd q).ahead step) :
    updateEngineCommandStartAt q s = .next s := by
  simp only [updateEngineCommandStartAt, idle, on, waits, op, Option.isSome_none, Bool.not_true, Bool.false_eq_true, or_self,
    if_false]
  rw [if_pos (by simpa [Upd.ahead] using early)]

variable (valid : (s.upd q).vValid = true)

include valid

/-- The verdict is of a later step. -/
theorem startAt_late (later : 0 < (s.upd q).ahead step) (near : (s.upd q).ahead step < 32768) :
    updateEngineCommandStartAt q s = .next ((s.onUpd q (fun k => { k with queue := rest })).updEnd q u .limit) := by
  simp only [updateEngineCommandStartAt, idle, on, waits, op, valid, Option.isSome_none, Bool.not_true, Bool.false_eq_true,
    or_self, false_or, if_false]
  rw [Upd.ahead] at later near
  rw [if_neg (by omega), if_pos (by omega)]

variable (same : (s.upd q).ahead step = 0)

include same

theorem startAt_runs (go : (s.upd q).vSkip = false) :
    updateEngineCommandStartAt q s = .next (s.onUpd q (fun k => { k with
      blocks := 0, queue := rest, run := some { u with op := .opt bs step ls (s.upd q).vLs } })) := by
  rw [Upd.ahead] at same
  simp [updateEngineCommandStartAt, idle, on, waits, op, valid, same, go]

theorem startAt_skips {d : OptDesc} (skip : (s.upd q).vSkip = true) (here : s.optLocal u.part (parseOpt bs) = .ok d) :
    updateEngineCommandStartAt q s =
      .next ((s.onUpd q (fun k => { k with queue := rest, blocks := 0 })).optDone q u d true false 0) := by
  rw [Upd.ahead] at same
  simp [updateEngineCommandStartAt, idle, on, waits, op, valid, same, skip, here]

end

end

/-! ## The engine's command ends (06 R142-R146, 16 R358-R360) -/

section
variable {s : State} {q : QuarterId} {u : UpdCmd} (runs : (s.upd q).run = some u)

include runs

theorem mskApplyCompleteAt_of_run {o : MskApplyOp} {b : List Byte} {t : State} {e : Code} (op : u.op = .apply o b)
    (applied : s.runApply q u o (parseHdr b) = (t, e)) : mskApplyCompleteAt q s = .next (t.updEnd q u e) := by
  simp only [mskApplyCompleteAt, runs, op, applied]

theorem mskTilesCompleteAt_of_run {o : MskTilesOp} {b : List Byte} {ls : List Nat} (op : u.op = .tiles o b)
    (here : s.locals u.part (tilesAddrs o) = .ok ls) :
    let r := (s.updRun u).tiles q o (parseHdr b) (parseHdr (b.drop 32)) (parseRows (b.drop 64)) (tilesAt o ls)
    mskTilesCompleteAt q s = .next (r.s.updEnd q u r.code) := by
  simp only [mskTilesCompleteAt, runs, op, here]

theorem updCompleteAt_of_run {b : List Byte} {step l : Nat} {ls : List (BitVec 128)} {d : OptDesc} {r : Run} {nf : Bool}
    (op : u.op = .opt b step ls l) (here : s.optLocal u.part (parseOpt b) = .ok d) (ran : s.runOpt q u b ls l = (r, nf)) :
    updCompleteAt q s = .next (if r.ok then r.s.optDone q u d false nf (r.s.upd q).blocks else r.s.updEnd q u r.code) := by
  simp only [updCompleteAt, runs, op, here, ran]

end

end Sys2Proof.Machine

namespace Sys2Proof.Claims

open Sys2Proof.Machine

theorem updateArrives : UpdateArrives := by
  intro s q o c p desc ls rest arrivals on
  have step {t : State} (next : updAcceptAt q (s.fromQuarter q) = .next t) : exec (.updAccept q) s = .next (t.back s) :=
    (exec_updAccept q s).trans (asQuarter_of_next next)
  have arrivals' : ((s.fromQuarter q).upd q).arrivals = (o, c, p, desc, ls) :: rest := arrivals
  have on' : (s.fromQuarter q).fabricOn q = true := on
  refine ⟨fun v e read => ?_, fun v w bs gb read dense => ⟨?_, fun d r nf check here judged ok => ?_⟩⟩
  · have run := step (updAcceptAt_unread arrivals' on' read)
    exact ⟨_, run, by simp, by simp, .of_finish_cores rfl _ _ s, State.mem_finish_back _ _ _ s⟩
  · rintro e rfl bad
    have run := step (updAcceptAt_failed arrivals' on' read dense bad)
    exact ⟨_, run, by simp, .of_finish_cores rfl _ _ s, State.mem_finish_back _ _ _ s⟩
  · refine ⟨_, step (updAcceptAt_held arrivals' on' read dense check here judged ok), ?_, ?_, ?_, ?_, rfl⟩
    all_goals rw [State.upd_back, State.upd_onUpd, Upd.record_eq]

/-- Settles O29: what `msk.apply`, `msk.tiles` and `upd.opt` leave with the update engine of their quarter, and its checks as an
update arrives. -/
theorem updateEngineFed : Obligations.UpdateEngineFed := ⟨maskCommandsQueue, updateIssue, updateArrives⟩

/-! ## The engine's command, from its start to its end -/

/-- What the end of a command leaves. -/
theorem updEnd_leaves (w s : State) (q : QuarterId) (u : UpdCmd) (e : Code) : let t := (w.updEnd q u e).back s
    (t.upd q).run = none ∧ Reports w t u.owner e ∧ t.mem = w.mem :=
  ⟨by simp, .of_updEnd w q u e s, State.mem_updEnd w q u e⟩

theorem updateEngineStarts : UpdateEngineStarts := by
  intro s q u rest idle on waits v
  have step {t : State} (next : updateEngineCommandStartAt q (s.fromQuarter q) = .next t) :
      exec (.updateEngineCommandStart q) s = .next (t.back s) :=
    (exec_updateEngineCommandStart q s).trans (asQuarter_of_next next)
  have idle' : ((s.fromQuarter q).upd q).run = none := idle
  have on' : (s.fromQuarter q).fabricOn q = true := on
  have waits' : ((s.fromQuarter q).upd q).queue = u :: rest := waits
  refine ⟨fun bs n ls l0 op => ⟨fun early => ?_, fun valid later near => ?_, fun valid same go => ?_,
    fun d w valid same skip here fence written => ?_⟩, fun o b op => ?_, fun o b op => ?_⟩
  · have run := step (startAt_waits idle' on' waits' op early)
    exact run
  · exact ⟨_, step (startAt_late idle' on' waits' op valid later near), by simp, updEnd_leaves _ s q u .limit⟩
  · exact step (startAt_runs idle' on' waits' op valid same go)
  · have run := step (startAt_skips idle' on' waits' op valid same skip here)
    have record : optRecord true false 0 d.step = leBytes 4 1 ++ leBytes 4 0 ++ leBytes 2 d.step ++ List.replicate 6 0 := rfl
    rw [← record, show v = s.fromQuarter q from rfl] at written
    rw [State.optDone_of_written fence written] at run
    exact ⟨_, run, by simp, updEnd_leaves w s q u .done⟩
  · exact step (startAt_apply idle' on' waits' op)
  · exact step (startAt_tiles idle' on' waits' op)

theorem updateEngineEnds : UpdateEngineEnds := by
  intro s q u runs v
  have runs' : ((s.fromQuarter q).upd q).run = some u := runs
  refine ⟨fun o b r e op applied => ?_, fun o b ls op here => ?_, fun b n ls l d r nf op here ran => ?_⟩
  · have run := asQuarter_of_next (mskApplyCompleteAt_of_run runs' op applied)
    exact ⟨_, (exec_mskApplyComplete q s).trans run, updEnd_leaves r s q u e⟩
  · have run := asQuarter_of_next (mskTilesCompleteAt_of_run runs' op here)
    exact ⟨_, (exec_mskTilesComplete q s).trans run, updEnd_leaves _ s q u _⟩
  · have run := (exec_updComplete q s).trans (asQuarter_of_next (updCompleteAt_of_run runs' op here ran))
    refine ⟨fun stopped => ?_, fun w ok fence written => ?_⟩
    · rw [if_neg (by simp [stopped])] at run
      exact ⟨_, run, updEnd_leaves r.s s q u r.code⟩
    · have record : optRecord false nf (r.s.upd q).blocks d.step =
          leBytes 4 (if nf then 4 else 0) ++ leBytes 4 (r.s.upd q).blocks ++ leBytes 2 d.step ++ List.replicate 6 0 := by
        cases nf <;> rfl
      rw [if_pos ok, State.optDone_of_written fence (record ▸ written)] at run
      exact ⟨_, run, updEnd_leaves w s q u .done⟩

/-- Settles O30: the verdict decides how a waiting update starts; a command ends with the code of its run. -/
theorem updateEngineRuns : Obligations.UpdateEngineRuns := ⟨updateEngineStarts, updateEngineEnds⟩

end Sys2Proof.Claims
end

section
/-! SUPPORT. Quantiser commands (07 R152-R165): the queue a command joins, the step fence, the start of the next command, and the
end of a pass. -/

namespace Sys2Proof.Machine

open Sys2Proof.Claims

/-! ## Reading the quantiser back -/

@[simp] theorem State.qnt_onQnt (s : State) (c : CoreId) (f : Qnt → Qnt) : ((s.onQnt c f).core c).qnt = f (s.core c).qnt := by
  rw [State.onQnt, State.core_onCore]

theorem State.gang_onQnt (s : State) (c d : CoreId) (f : Qnt → Qnt) (g : GangId) : (s.onQnt c f).gang d g = s.gang d g :=
  State.gang_onCore_congr s c d g

theorem State.part_onQnt (s : State) (c d : CoreId) (f : Qnt → Qnt) : (s.onQnt c f).part d = s.part d :=
  State.core_onCore_congr Core.part s c d

/-- A completion changes nothing of a core but its gangs and its sequencer, whose nest the command may belong to. -/
theorem State.finish_core_congr {α : Type} (g : Core → α) (s : State) (o : Owner) (e : Code) (c : CoreId)
    (gangs : ∀ k x, g { k with gangs := x } = g k := by intros; rfl)
    (seq : ∀ k x, g { k with seq := x } = g k := by intros; rfl) : g ((s.finish o e).core c) = g (s.core c) := by
  cases o with
  | thread k => exact s.finish_thread_core_congr g k e c gangs
  | nest d => exact State.core_onCore_congr g s d c fun k => seq k _
  | quiet => exact congrArg g (s.core_report e c)

/-! ## Issue (07 R152, R154, R157-R159, R165) -/

theorem exec_tabRow {i : Instr} {h : Th} {o : QntTabOp} {cpl : Reg} {l : Bool} (row : tabRow i = some (h, o, cpl, l)) (s : State) :
    exec i s = tabIssue h o cpl l s := by
  unfold tabRow at row
  split at row <;> cases row <;> rfl

theorem exec_qntStep (h : Th) (cpl : Reg) (s : State) : exec (.qntStep h cpl) s = execQntStep h cpl s := rfl
theorem exec_qntPass (h : Th) (o : QntPassOp) (cpl : Reg) (s : State) : exec (.qntPass h o cpl) s = execQntPass h o cpl s := rfl

/-- A queued command takes the next number of the order it shares with the closes. -/
theorem State.qntPush_eq (s : State) (c : CoreId) (o : Owner) (p : PartId) (op : QntOp) :
    s.qntPush c o p op = ((s.core c).arr.seq, s.onCore c (fun k => { k with
      arr := { k.arr with seq := k.arr.seq + 1 }
      qnt := { k.qnt with queue := k.qnt.queue ++ [⟨o, p, k.arr.seq, op⟩] } })) := by
  simp [State.qntPush, State.nextSeq, State.onArr, State.onQnt, State.onCore, State.setCore, State.core]

theorem toQuantiser_of_qntPush (s : State) (h : Th) (cpl : Reg) (op : QntOp) : ToQuantiser s
    (((Seen s h cpl).qntPush h.core (.thread (s.cplOf h cpl)) (s.part h.core) op).2.back s) h cpl op := by
  rw [State.qntPush_eq]
  rfl

theorem State.passCheck_congr {s t : State} {c : CoreId} (same : (t.core c).qnt = (s.core c).qnt) (o : QntPassOp) :
    t.passCheck c o = s.passCheck c o := by
  rw [State.passCheck, same, State.passCheck]

theorem State.passCheck_ne_refused (s : State) (c : CoreId) (o : QntPassOp) : s.passCheck c o ≠ .refused := by
  rw [State.passCheck]
  exact iteInduction (motive := (· ≠ Code.refused)) (fun _ => by decide)
    fun _ => iteInduction (motive := (· ≠ Code.refused)) (fun _ => by decide) fun _ => by decide

/-- The accepted pass of `k` in the quantiser's queue of `w`, and with stochastic rounding among the consumers of the random unit. -/
def passQueued (c : CoreId) (k : Cpl) (p : PartId) (o : QntPassOp) (ci co : List Word) (w : State) : State :=
  let x := w.qntPush c (.thread k) p (.pass o ci co (slotNow (w.core c).qnt.slots o.oscale))
  if o.rnd = 3 then x.2.pushConsumer c (.quantiser x.1) else x.2

section
variable (c : CoreId) (k : Cpl) (p : PartId) (o : QntPassOp) (ci co : List Word) (w : State)

theorem passQueued_queue :
    ((passQueued c k p o ci co w).core c).qnt.queue = (w.core c).qnt.queue
      ++ [⟨.thread k, p, (w.core c).arr.seq, .pass o ci co (slotNow (w.core c).qnt.slots o.oscale)⟩] := by
  rw [passQueued, State.qntPush_eq]
  split <;> simp [State.pushConsumer]

theorem passQueued_consumers :
    ((passQueued c k p o ci co w).core c).rng.queue =
      (w.core c).rng.queue ++ (if o.rnd = 3 then [.quantiser (w.core c).arr.seq] else []) := by
  rw [passQueued, State.qntPush_eq]
  split <;> simp [State.pushConsumer]

theorem passQueued_mem :
    (passQueued c k p o ci co w).mem = w.mem := by
  rw [passQueued, State.qntPush_eq]
  split <;> rfl

end

section
variable {s : State} {h : Th} (hm : MayIssue s h) (room : s.qntRoom h.core = true)

include hm room

theorem execQntStep_queues (cpl : Reg) : execQntStep h cpl s =
    .next (((Seen s h cpl).qntPush h.core (.thread (s.cplOf h cpl)) (s.part h.core) .step).2.back s) := by
  rw [execQntStep, room, State.engine_of_mayIssue hm, seen_part]

theorem tabIssue_accepted {o : QntTabOp} {cpl : Reg} {l : Bool} {a : Nat}
    (check : (Seen s h cpl).tabCheck (s.part h.core) o l = .ok a) : tabIssue h o cpl l s =
      .next (((Seen s h cpl).qntPush h.core (.thread (s.cplOf h cpl)) (s.part h.core)
        (if l then .ldtab { o with addr := BitVec.ofNat 64 a } else .sttab { o with addr := BitVec.ofNat 64 a })).2.back s) := by
  rw [tabIssue, room, State.engine_of_mayIssue hm, seen_part, check]

theorem tabIssue_refused {o : QntTabOp} {cpl : Reg} {l : Bool} {e : Code}
    (check : (Seen s h cpl).tabCheck (s.part h.core) o l = .error e) :
    tabIssue h o cpl l s = .next (((Seen s h cpl).finish (.thread (s.cplOf h cpl)) e).back s) := by
  rw [tabIssue, room, State.engine_of_mayIssue hm, seen_part, check]

section
variable {o : QntPassOp} {cpl : Reg}
  (inKnown : chanDeviceBad (Seen s h cpl) (s.part h.core) o.iscale = false)
  (outKnown : chanDeviceBad (Seen s h cpl) (s.part h.core) o.oscale = false)
  (calm : ¬ (o.rnd = 3 ∧ s.det h.core = true ∧ (s.core h.core).rng.fresh = true))

include inKnown outKnown calm

/-- A pass whose devices are known and whose draws its partition allows answers by its check. -/
theorem execQntPass_eq : execQntPass h o cpl s = .next (State.back (
    match s.passCheck h.core o with
    | .done =>
      let (v, ci, e) := (Seen s h cpl).readChan (s.part h.core) o.iscale o.width
      if e ≠ .done then v.finish (.thread (s.cplOf h cpl)) e
      else
        let (w, co, e) := v.readChan (s.part h.core) o.oscale o.width
        if e ≠ .done then w.finish (.thread (s.cplOf h cpl)) e
        else passQueued h.core (s.cplOf h cpl) (s.part h.core) o ci co w
    | e => (Seen s h cpl).finish (.thread (s.cplOf h cpl)) e) s) := by
  have det : (Seen s h cpl).det h.core = s.det h.core := seen_core_congr Core.det s h cpl h.core
  have rng : ((Seen s h cpl).core h.core).rng = (s.core h.core).rng := seen_core_congr Core.rng s h cpl h.core
  have check := State.passCheck_congr (seen_core_congr Core.qnt s h cpl h.core) o
  rw [execQntPass, room, State.engine_of_mayIssue hm]
  simp only [seen_part, inKnown, outKnown, det, rng, check, Bool.or_self, Bool.false_eq_true, if_false]
  rw [if_neg calm]
  rfl

end

end

/-! ## Table entries under one change after another -/

/-- Changing the entries of distinct keys changes each once. -/
theorem Tab.get_foldl_mod {α : Type} [DecidableEq α] (d : α) (f : α → α) {l : List Nat} (once : l.Nodup) (t : Tab α) (j : Nat) :
    Tab.get d (l.foldl (fun t i => Tab.mod d t i f) t) j = if j ∈ l then f (Tab.get d t j) else Tab.get d t j := by
  induction l generalizing t with
  | nil => simp
  | cons i l ih =>
    obtain ⟨fresh, once⟩ := List.nodup_cons.1 once
    rw [List.foldl_cons, ih once, Tab.mod, Tab.get_set]
    by_cases h : j = i
    · simp [h, fresh]
    · simp [h]

/-! ## The step fence (07 R165, R166) -/

theorem State.slots_runStep (s : State) (c : CoreId) (i : Fin 64) :
    Tab.get {} ((s.runStep c).core c).qnt.slots i.val = (Tab.get {} (s.core c).qnt.slots i.val).advance := by
  simp only [State.runStep, State.qnt_onQnt, Tab.get_foldl_mod _ _ List.nodup_range, List.mem_range, i.isLt, if_true]

theorem State.queue_runStep (s : State) (c : CoreId) :
    ((s.runStep c).core c).qnt.queue = (s.core c).qnt.queue.map (QntCmd.afterFence ((s.runStep c).core c).qnt.slots) := by
  rw [State.runStep, State.qnt_onQnt]

theorem State.tables_runStep (s : State) (c : CoreId) : ((s.runStep c).core c).qnt.tables = (s.core c).qnt.tables := by
  rw [State.runStep, State.qnt_onQnt]

/-! ## The start of the next command (07 R154) -/

theorem exec_quantiserCommandStart (c : CoreId) (s : State) :
    exec (.quantiserCommandStart c) s = asCore c (quantiserCommandStartAt c) s := rfl

/-- A close issued before number `n` is still on the transfer path. -/
def State.closeBefore (s : State) (c : CoreId) (n : Nat) : Bool :=
  (s.core c).arr.xfers.any (fun x => match x with | .close _ _ k _ _ _ _ _ _ _ => decide (k < n) | _ => false)

section
variable {s : State} {c : CoreId} {q : QntCmd} {rest : List QntCmd} (head : (s.core c).qnt.queue = q :: rest)
  (idle : (s.core c).qnt.pass = none)

include head idle

theorem quantiserStartAt_waits (early : s.closeBefore c q.seq = true) : quantiserCommandStartAt c s = .next s := by
  simp only [quantiserCommandStartAt, head, idle]
  exact if_pos (.inr early)

variable (on : s.coreOn c = true) (turn : s.closeBefore c q.seq = false)

include on turn

/-- The command whose turn has come leaves the queue and is done, or begins. -/
theorem quantiserStartAt_turn : quantiserCommandStartAt c s =
    let t := s.onQnt c (fun x => { x with queue := rest })
    match q.op with
    | .ldtab o => .next ((t.runLdtab c q.part o).1.finish q.owner (t.runLdtab c q.part o).2)
    | .sttab o => .next ((t.runSttab c q.part o).1.finish q.owner (t.runSttab c q.part o).2)
    | .step => .next ((t.runStep c).finish q.owner .done)
    | .pass o _ _ e =>
      if o.rnd = 3 ∧ (s.core c).rng.busy ≠ some (.quantiser q.seq) then .next s
      else .next ((t.onQnt c (fun x => { x with pass := some ⟨q, e, 0, [], none⟩ })).pump c) := by
  have go : ¬ ((!s.coreOn c) = true ∨ s.closeBefore c q.seq = true) := by simp [on, turn]
  simp only [quantiserCommandStartAt, head, idle]
  refine (if_neg go).trans ?_
  cases q.op <;> rfl

end

/-! ## The end of a pass (07 R160) -/

/-- The rounding of a pass. -/
def QntOp.rnd : QntOp → BitVec 2
  | .pass o _ _ _ => o.rnd
  | _ => 0

theorem exec_qntPassComplete_ended {s : State} {c : CoreId} {r : PassRun} {e : Code} (runs : (s.core c).qnt.pass = some r)
    (ended : r.ended = some e) (on : s.coreOn c = true) : exec (.qntPassComplete c) s =
      .next (((s.onQnt c (fun q => { q with pass := none })).endDraw c r.cmd.op.rnd r.done).finish r.cmd.owner e) := by
  have run : exec (.qntPassComplete c) s = execQntPassComplete c s := rfl
  rw [run, execQntPassComplete, runs]
  simp only [ended, on, if_true]
  cases r.cmd.op <;> rfl

end Sys2Proof.Machine

namespace Sys2Proof.Claims

open Sys2Proof.Machine

theorem quantiserIssue : QuantiserIssue := by
  intro s h cpl hm
  refine ⟨fun space => ?_, fun full => ?_⟩
  · have room : s.qntRoom h.core = true := decide_eq_true space
    have qnt : ((Seen s h cpl).core h.core).qnt = (s.core h.core).qnt := seen_core_congr Core.qnt s h cpl h.core
    have status : ((Seen s h cpl).gang h.core h.gang).status = (s.gang h.core h.gang).status := by rw [seen_gang]
    refine ⟨?_, fun i o l row => ⟨fun a check => ?_, fun e check => ?_⟩, fun o inKnown outKnown calm => ?_⟩
    · exact ⟨_, (exec_qntStep h cpl s).trans (execQntStep_queues hm room cpl), toQuantiser_of_qntPush s h cpl _⟩
    · exact ⟨_, (exec_tabRow row s).trans (tabIssue_accepted hm room check), toQuantiser_of_qntPush s h cpl _⟩
    · refine ⟨_, (exec_tabRow row s).trans (tabIssue_refused hm room check), .of_finish status (seen_part s h cpl _) s e, ?_,
        State.mem_finish_back _ _ _ s⟩
      rw [State.core_back, State.finish_core_congr Core.qnt, qnt]
    · have run := (exec_qntPass h o cpl s).trans (execQntPass_eq hm room inKnown outKnown calm)
      refine ⟨fun e check bad => ?_, fun v w ci co check input output => ?_⟩
      · subst check
        split at run
        next good => exact absurd good bad
        next =>
          refine ⟨_, run, .of_finish hm (s.passCheck_ne_refused h.core o) rfl, ?_,
            (Elsewhere.seen s h cpl).trans (.finish _ (s.cplOf h cpl) _ s)⟩
          rw [State.core_back, State.finish_core_congr Core.qnt, qnt]
      · rw [check] at run
        simp only [input, output, ne_eq, not_true_eq_false, if_false] at run
        exact ⟨_, run, passQueued_queue _ _ _ _ _ _ w, passQueued_consumers _ _ _ _ _ _ w, passQueued_mem _ _ _ _ _ _ w⟩
  · have room : s.qntRoom h.core = false := decide_eq_false (Nat.not_lt.2 full)
    refine ⟨?_, fun o => ?_, fun i o l row => ?_⟩
    · rw [exec_qntStep, execQntStep, room, State.engine_of_no_room]
    · rw [exec_qntPass, execQntPass, room, State.engine_of_no_room]
    · rw [exec_tabRow row, tabIssue, room, State.engine_of_no_room]

/-- A command that ends in a state where every gang lives and every core belongs as in `v` has reported since `v`, whoever gave it. -/
theorem Reports.of_finish_owner {v w : State} (status : ∀ c g, (w.gang c g).status = (v.gang c g).status)
    (part : ∀ c, w.part c = v.part c) (o : Owner) (e : Code) (s : State) : Reports v ((w.finish o e).back s) o e := by
  rintro k rfl
  exact Reports.of_finish (status k.core k.gang) (part k.core) s e k rfl

theorem SameBytes.of_mem {s t : State} (h : t.mem = s.mem) : SameBytes s t := fun a => congrArg (Tab.get 0 · a) h

/-- What the end of a table command leaves. -/
theorem tableEnd_leaves (w s : State) (c : CoreId) (o : Owner) (e : Code) : let t := (w.finish o e).back s
    (t.core c).qnt = (w.core c).qnt ∧ Reports w t o e ∧ t.mem = w.mem :=
  ⟨w.finish_core_congr Core.qnt o e c, .of_finish_cores rfl o e s, w.mem_finish_back o e s⟩

/-- What a step fence leaves when `rest` waits behind it. -/
theorem fence_leaves (s : State) (c : CoreId) (rest : List QntCmd) (o : Owner) :
    let t := ((((s.from_ c).onQnt c (fun x => { x with queue := rest })).runStep c).finish o .done).back s
    (t.core c).qnt.queue = rest.map (QntCmd.afterFence (t.core c).qnt.slots)
      ∧ (∀ i : Fin 64, Tab.get {} (t.core c).qnt.slots i.val = (Tab.get {} (s.core c).qnt.slots i.val).advance)
      ∧ (t.core c).qnt.tables = (s.core c).qnt.tables ∧ Reports s t o .done ∧ SameBytes s t := by
  intro t
  obtain ⟨w, hw⟩ : ∃ w, w = (s.from_ c).onQnt c (fun x => { x with queue := rest }) := ⟨_, rfl⟩
  have before : (w.core c).qnt = { (s.core c).qnt with queue := rest } := by rw [hw, State.qnt_onQnt, State.core_from]
  have after : (t.core c).qnt = ((w.runStep c).core c).qnt := by
    rw [hw]
    exact State.finish_core_congr Core.qnt _ _ _ c
  refine ⟨?_, fun i => ?_, ?_, .of_finish_owner (fun d g => ?_) (fun d => ?_) o _ s,
    .of_mem (State.mem_finish_back _ _ _ s)⟩
  · rw [after, State.queue_runStep, before]
  · rw [after, State.slots_runStep, before]
  · rw [after, State.tables_runStep, before]
  · rw [State.runStep, State.gang_onQnt, State.gang_onQnt]
    rfl
  · rw [State.runStep, State.part_onQnt, State.part_onQnt]
    rfl

/-- What the completion of a pass leaves. -/
theorem passEnd_leaves (s : State) (c : CoreId) (r : PassRun) (e : Code) :
    let t := ((s.onQnt c (fun q => { q with pass := none })).endDraw c r.cmd.op.rnd r.done).finish r.cmd.owner e
    (t.core c).qnt = { (s.core c).qnt with pass := none }
      ∧ (∀ o ci co x, r.cmd.op = .pass o ci co x → o.rnd = 3 → (t.core c).rng.busy = none)
      ∧ Reports s t r.cmd.owner e ∧ SameBytes s t := by
  refine ⟨?_, fun o ci co x op draws => ?_, .of_finish_owner (fun d g => ?_) (fun d => ?_) r.cmd.owner e s,
    .of_mem ((State.finish_mem _ _ _).trans (State.mem_endDraw _ _ _ _))⟩
  · rw [State.finish_core_congr Core.qnt, State.endDraw_core_congr Core.qnt, State.qnt_onQnt]
  · rw [State.finish_core_congr (·.rng.busy), op, QntOp.rnd, draws, State.busy_endDraw]
  · rw [State.gang_endDraw, State.gang_onQnt]
  · rw [State.part, State.endDraw_core_congr Core.part, ← State.part, State.part_onQnt]

theorem quantiserEvents : QuantiserEvents := by
  refine ⟨?_, fun s c r e runs ended on => ?_⟩
  · intro s c q rest head idle on earlier u
    have step {t : State} (next : quantiserCommandStartAt c (s.from_ c) = .next t) :
        exec (.quantiserCommandStart c) s = .next (t.back s) :=
      (exec_quantiserCommandStart c s).trans (asCore_of_next next)
    have head' : ((s.from_ c).core c).qnt.queue = q :: rest := head
    have idle' : ((s.from_ c).core c).qnt.pass = none := idle
    refine ⟨fun early => ?_, fun turn op => ?_, fun o turn op => ?_, fun o turn op => ?_, fun o ci co e turn op => ?_⟩
    · have run := step (quantiserStartAt_waits head' idle' early)
      exact run
    all_goals
      have next := quantiserStartAt_turn head' idle' on turn
      simp only [op] at next
    · exact ⟨_, step next, fence_leaves s c rest q.owner⟩
    · exact ⟨_, step next, tableEnd_leaves _ s c q.owner _⟩
    · exact ⟨_, step next, tableEnd_leaves _ s c q.owner _⟩
    · refine ⟨fun draws busy => ?_, fun unit => ?_⟩
      · rw [if_pos ⟨draws, busy⟩] at next
        have run := step next
        exact run
      · rw [if_neg (fun late => late.2 (unit late.1))] at next
        exact step next
  · exact ⟨_, exec_qntPassComplete_ended runs ended on, passEnd_leaves s c r e⟩

/-- Settles O33: a quantiser command from its checks at issue, through the queue, to its end. -/
theorem quantiserCommands : Obligations.QuantiserCommands := ⟨quantiserIssue, quantiserEvents⟩

end Sys2Proof.Claims
end

section
/-! SUPPORT. The random unit (08 R173-R182) and the steward's entropy source (08 R184-R185): the place a consumer takes, seeding,
the end of a consumer, and how a request for fresh entropy is served, waits, or fails. -/

namespace Sys2Proof.Machine

open Sys2Proof.Claims

/-! ## Reading the random unit back -/

@[simp] theorem State.rng_onRng (s : State) (c : CoreId) (f : Rng → Rng) : ((s.onRng c f).core c).rng = f (s.core c).rng := by
  rw [State.onRng, State.core_onCore]

theorem State.gang_onRng (s : State) (c d : CoreId) (f : Rng → Rng) (g : GangId) : (s.onRng c f).gang d g = s.gang d g :=
  State.gang_onCore_congr s c d g

theorem State.part_onRng (s : State) (c d : CoreId) (f : Rng → Rng) : (s.onRng c f).part d = s.part d :=
  State.core_onCore_congr Core.part s c d

theorem State.rng_varies (s : State) (c : CoreId) (k : Cpl) : ((s.varies c (.thread k)).core c).rng = (s.core c).rng := by
  rw [State.varies, State.finish_thread_core_congr Core.rng, State.core_onCore]

@[simp] theorem State.sec_onSec (s : State) (f : Sec → Sec) : (s.onSec f).sec = f s.sec := rfl
@[simp] theorem State.core_onSec (s : State) (f : Sec → Sec) (c : CoreId) : (s.onSec f).core c = s.core c := rfl
@[simp] theorem State.sec_drbgCode (s : State) (e : Code) : (s.drbgCode e).sec = { s.sec with drbgLast := e } := rfl
@[simp] theorem State.core_drbgCode (s : State) (e : Code) (c : CoreId) : (s.drbgCode e).core c = s.core c := rfl

/-- A request of the DRBG changes the trust state only. -/
theorem State.core_drbgTake (s : State) (n : Nat) (reseed : Bool) (c : CoreId) : (s.drbgTake n reseed).1.core c = s.core c := rfl

/-! ## The end of a consumer (08 R174) -/

@[simp] theorem State.rng_endConsumer (s : State) (c : CoreId) (k : Cpl) (e : Code) :
    ((s.endConsumer c k e).core c).rng = { (s.core c).rng with busy := none } := by
  rw [State.endConsumer, State.finish_thread_core_congr Core.rng, State.rng_onRng]

@[simp] theorem State.mem_endConsumer (s : State) (c : CoreId) (k : Cpl) (e : Code) : (s.endConsumer c k e).mem = s.mem :=
  State.finish_mem _ _ e

@[simp] theorem State.sec_endConsumer (s : State) (c : CoreId) (k : Cpl) (e : Code) : (s.endConsumer c k e).sec = s.sec := by
  obtain ⟨-, -, sec, -, -⟩ := (s.onRng c (fun r => { r with busy := none })).finish_rest (.thread k) e
  exact sec

/-! ## Seeding (08 R177) -/

theorem State.rng_seedJob (s : State) (c : CoreId) (o : RngSeedOp) : ((s.seedJob c o).core c).rng = { (s.core c).rng with
    seed := o.seed, fresh := false
    lanes := Vector.ofFn (fun i =>
      if o.mask.getLsbD i.val then laneAt s.dev c.val i.val o.seed o.pos.toNat else (s.core c).rng.lanes[i.val]) } := by
  rw [State.seedJob, State.rng_onRng]

theorem State.gang_seedJob (s : State) (c d : CoreId) (o : RngSeedOp) (g : GangId) : (s.seedJob c o).gang d g = s.gang d g := by
  rw [State.seedJob, State.gang_onRng]

theorem State.part_seedJob (s : State) (c d : CoreId) (o : RngSeedOp) : (s.seedJob c o).part d = s.part d := by
  rw [State.seedJob, State.part_onRng]

/-- The DRBG as a FRESH seed leaves it, and its output: a block for each lane the seed names. -/
def State.freshOutput (s : State) (o : RngSeedOp) : Drbg × List (BitVec 128) :=
  s.sec.drbg.reseed.generate (threadsOf o.mask).length

theorem State.rng_seedFresh (s : State) (c : CoreId) (o : RngSeedOp) : ((s.seedFresh c o).core c).rng = { (s.core c).rng with
    fresh := true
    lanes := Vector.ofFn (fun i =>
      if o.mask.getLsbD i.val then
        let v := nth 0 (s.freshOutput o).2 ((threadsOf o.mask).idxOf i.val)
        { s := if v = 0 then baseState (s.core c).rng.seed else v, pos := 0 }
      else (s.core c).rng.lanes[i.val]) } := by
  rw [State.seedFresh, State.rng_onRng, State.core_drbgTake]
  rfl

theorem State.sec_seedFresh (s : State) (c : CoreId) (o : RngSeedOp) :
    (s.seedFresh c o).sec = { s.sec with drbg := (s.freshOutput o).1, drbgCount := 1 } := rfl

theorem State.gang_seedFresh (s : State) (c d : CoreId) (o : RngSeedOp) (g : GangId) : (s.seedFresh c o).gang d g = s.gang d g := by
  rw [State.seedFresh, State.gang_onRng]
  rfl

theorem State.part_seedFresh (s : State) (c d : CoreId) (o : RngSeedOp) : (s.seedFresh c o).part d = s.part d := by
  rw [State.seedFresh, State.part_onRng]
  rfl

/-! ## The consumer that holds the unit (08 R174, R185) -/

section
variable {s : State} {c : CoreId} {k : Cpl}

theorem randomStartAt_takes {x : Consumer} {rest : List Consumer} (head : (s.core c).rng.queue = x :: rest)
    (on : s.coreOn c = true) (idle : (s.core c).rng.busy = none) :
    randomConsumerStartAt c s = .next (s.onRng c (fun r => { r with queue := rest, busy := some x })) := by
  simp only [randomConsumerStartAt, head]
  exact if_pos ⟨on, idle⟩

section
variable {o : RngSeedOp} (busy : (s.core c).rng.busy = some (.seed k o))

include busy

theorem randomCompleteAt_jobSeed (job : o.fresh = false) :
    randomConsumerCompleteAt c s = .next ((s.seedJob c o).endConsumer c k .done) := by
  simp [randomConsumerCompleteAt, busy, job]

theorem randomCompleteAt_freshSeed (fresh : o.fresh = true) (works : s.sec.retest = none) :
    randomConsumerCompleteAt c s = .next ((s.seedFresh c o).endConsumer c k .done) := by
  simp [randomConsumerCompleteAt, busy, fresh, works]

theorem randomCompleteAt_waits (fresh : o.fresh = true) (failed : s.sec.retest ≠ none)
    (new : ∀ w ∈ s.sec.drbgWait, w.1 ≠ .seedFresh c) : randomConsumerCompleteAt c s =
      .next (s.onSec (fun x => { x with drbgWait := x.drbgWait ++ [(.seedFresh c, s.now)] })) := by
  have first : s.sec.drbgWait.any (fun w => w.1 == .seedFresh c) = false := by simpa using new
  simp [randomConsumerCompleteAt, busy, fresh, failed, first]

end

theorem randomCompleteAt_fill {p : PartId} {o : RngFillOp} {a : Nat} (busy : (s.core c).rng.busy = some (.fill k p o))
    (place : s.localOf p o.addr = .ok a) : randomConsumerCompleteAt c s =
      let r := fillLines o c p a (o.count / 16 + 1) 0 s
      .next (r.1.endConsumer c k r.2) := by
  simp only [randomConsumerCompleteAt, busy, place]

theorem randomCompleteAt_cat {p : PartId} {o : RngCatOp} {bs : List Byte} (busy : (s.core c).rng.busy = some (.cat k p o bs)) :
    randomConsumerCompleteAt c s =
      let r := s.runCat c p o bs
      .next (r.1.endConsumer c k r.2) := by
  simp only [randomConsumerCompleteAt, busy]

end

/-! ## The commands and events of this family -/

theorem exec_rngSeed (h : Th) (o : RngSeedOp) (cpl : Reg) (s : State) : exec (.rngSeed h o cpl) s = execRngSeed h o cpl s := rfl
theorem exec_rngFill (h : Th) (o : RngFillOp) (cpl : Reg) (s : State) : exec (.rngFill h o cpl) s = execRngFill h o cpl s := rfl
theorem exec_rngCat (h : Th) (o : RngCatOp) (cpl : Reg) (s : State) : exec (.rngCat h o cpl) s = execRngCat h o cpl s := rfl
theorem exec_randomConsumerStart (c : CoreId) (s : State) :
    exec (.randomConsumerStart c) s = asCore c (randomConsumerStartAt c) s := rfl
theorem exec_randomConsumerComplete (c : CoreId) (s : State) :
    exec (.randomConsumerComplete c) s = asCore c (randomConsumerCompleteAt c) s := rfl
theorem exec_stuckDetector (c : CoreId) (l : ThreadId) (s : State) : exec (.stuckDetector c l) s = execStuckDetector c l s := rfl
theorem exec_drbgRequest (u : DrbgUse) (resist : Bool) (s : State) :
    exec (.drbgRequest u resist) s = execDrbgRequest u resist s := rfl
theorem exec_retestExpiry (pass : Bool) (s : State) : exec (.retestExpiry pass) s = execRetestExpiry pass s := rfl

/-! ## Issue (08 R174, 09 R208) -/

/-- An `rng.seed` is refused where it or the core's earlier seed is FRESH in a deterministic partition, or takes its place. -/
theorem execRngSeed_eq {s : State} {h : Th} (hm : MayIssue s h) (o : RngSeedOp) (cpl : Reg) :
    execRngSeed h o cpl s = .next (State.back (
      if s.det h.core = true ∧ (o.fresh = true ∨ (s.core h.core).rng.fresh = true) then
        (Seen s h cpl).varies h.core (.thread (s.cplOf h cpl))
      else (Seen s h cpl).pushConsumer h.core (.seed (s.cplOf h cpl) o)) s) := by
  have det : (Seen s h cpl).det h.core = s.det h.core := seen_core_congr Core.det s h cpl h.core
  have rng : ((Seen s h cpl).core h.core).rng = (s.core h.core).rng := seen_core_congr Core.rng s h cpl h.core
  rw [execRngSeed, State.engine_of_mayIssue hm, det, rng]
  rfl

theorem execRngFill_accepted {s : State} {h : Th} (hm : MayIssue s h) {o : RngFillOp} {cpl : Reg}
    (known : (Seen s h cpl).deviceBad (s.part h.core) o.addr = false)
    (calm : ¬ (s.det h.core = true ∧ (s.core h.core).rng.fresh = true))
    (check : (Seen s h cpl).fillCheck (s.part h.core) o = .done) : execRngFill h o cpl s =
      .next (((Seen s h cpl).pushConsumer h.core (.fill (s.cplOf h cpl) (s.part h.core) o)).back s) := by
  have steady : (Seen s h cpl).rngVaries h.core = false :=
    (seen_core_congr (fun k => k.det && k.rng.fresh) s h cpl h.core).trans (by simpa [State.det] using calm)
  rw [execRngFill, State.engine_of_mayIssue hm]
  simp only [seen_part, known, steady, check, Bool.false_eq_true, if_false]
  rfl

theorem execRngCat_accepted {s v : State} {h : Th} (hm : MayIssue s h) {o : RngCatOp} {cpl : Reg} {bs : List Byte}
    (scores : (Seen s h cpl).deviceBad (s.part h.core) o.scores = false)
    (out : (Seen s h cpl).deviceBad (s.part h.core) o.out = false)
    (read : (Seen s h cpl).readDesc (s.part h.core) o.scores 32 32 false = (v, .ok bs)) (steady : v.rngVaries h.core = false)
    (check : v.catCheck (s.part h.core) o (parseRows bs) = .done) : execRngCat h o cpl s =
      .next ((v.pushConsumer h.core (.cat (s.cplOf h cpl) (s.part h.core) o bs)).back s) := by
  rw [execRngCat, State.engine_of_mayIssue hm]
  simp only [seen_part, scores, out, read, steady, check, Bool.false_eq_true, or_self, if_false]
  rfl

/-! ## Requests of the DRBG (08 R184-R185) -/

section
variable {u : DrbgUse} (plain : ∀ c, u ≠ .seedFresh c)

include plain

/-- A request other than a FRESH seed's that demands prediction resistance is served afresh or fails. -/
theorem execDrbgRequest_resists (s : State) : execDrbgRequest u true s =
    if s.sec.retest.isNone then .next ((s.drbgTake 1 true).1.drbgCode .done) else .next ((s.report .health).drbgCode .health) := by
  cases u with
  | seedFresh c => exact absurd rfl (plain c)
  | keygen | tls | nonce => rfl

/-- One that does not is served from the DRBG's state, reseeded when the interval has run out, or waits. -/
theorem execDrbgRequest_steady {s t : State} {bits : List (BitVec 128)} (given : s.drbgGen 1 = some (t, bits)) :
    execDrbgRequest u false s = .next (t.drbgCode .done) := by
  cases u with
  | seedFresh c => exact absurd rfl (plain c)
  | keygen | tls | nonce =>
    simp only [execDrbgRequest, given]
    rfl

end

theorem State.drbgGen_within {s : State} (n : Nat) (within : s.sec.drbgCount < reseedInterval) :
    s.drbgGen n = some (s.drbgTake n false) := by
  simp [State.drbgGen, Nat.not_le.2 within]

theorem State.drbgGen_due {s : State} (n : Nat) (due : reseedInterval ≤ s.sec.drbgCount) (works : s.sec.retest = none) :
    s.drbgGen n = some (s.drbgTake n true) := by
  simp [State.drbgGen, due, works]

theorem execDrbgRequest_freshWaits {s : State} {c : CoreId} {x : Cpl × RngSeedOp} (holds : s.freshSeed c = some x)
    (failed : s.sec.retest ≠ none) (new : ∀ w ∈ s.sec.drbgWait, w.1 ≠ .seedFresh c) :
    execDrbgRequest (.seedFresh c) false s =
      .next (s.onSec (fun k => { k with drbgWait := k.drbgWait ++ [(.seedFresh c, s.now)] })) := by
  have first : s.sec.drbgWait.any (fun w => w.1 == .seedFresh c) = false := by simpa using new
  simp [execDrbgRequest, holds, failed, first]

/-! ## The end of a retest (08 R185) -/

theorem State.not_waited_of_lt {s : State} {n : Nat} (h : s.now < n + 10_000_000) : s.waited n = false :=
  decide_eq_false (Nat.not_le.2 h)

/-- Requests none of which has waited 10 ms all go on waiting. -/
theorem State.filter_waited_of_lt {α : Type} {s : State} {l : List (α × Nat)} (h : ∀ w ∈ l, s.now < w.2 + 10_000_000) :
    l.filter (fun w => s.waited w.2) = [] ∧ l.filter (fun w => !s.waited w.2) = l := by
  refine ⟨List.filter_eq_nil_iff.2 fun w hw => ?_, List.filter_eq_self.2 fun w hw => ?_⟩
  · simp [State.not_waited_of_lt (h w hw)]
  · simp [State.not_waited_of_lt (h w hw)]

theorem execRetestExpiry_idle {s : State} (works : s.sec.retest = none) (pass : Bool) : execRetestExpiry pass s = .next s := by
  rw [execRetestExpiry, works]
  rfl

section
variable {s : State} {t0 : Nat} (failed : s.sec.retest = some t0)

include failed

theorem execRetestExpiry_pass (noKeys : s.sec.keyWait = []) :
    execRetestExpiry true s = .next ((s.endRetest true).onSec (fun k => { k with keyWait := [] })) := by
  simp [execRetestExpiry, failed, noKeys]

theorem execRetestExpiry_fail (noKeys : s.sec.keyWait.filter (fun w => s.waited w.2) = []) : execRetestExpiry false s =
    .next ((s.endRetest false).onSec (fun k => { k with keyWait := k.keyWait.filter (fun w => !s.waited w.2) })) := by
  simp [execRetestExpiry, failed, noKeys]

/-- A retest that fails before anything has waited 10 ms changes nothing. -/
theorem execRetestExpiry_early (requests : ∀ w ∈ s.sec.drbgWait, s.now < w.2 + 10_000_000)
    (keys : ∀ w ∈ s.sec.keyWait, s.now < w.2 + 10_000_000) : execRetestExpiry false s = .next s := by
  obtain ⟨noneLate, allStay⟩ := State.filter_waited_of_lt requests
  obtain ⟨noKeyLate, allKeysStay⟩ := State.filter_waited_of_lt keys
  rw [execRetestExpiry_fail failed noKeyLate]
  simp [State.endRetest, State.onSec, noneLate, allStay, allKeysStay]

/-- A retest that passes while nothing waits ends. -/
theorem execRetestExpiry_alone (noRequests : s.sec.drbgWait = []) (noKeys : s.sec.keyWait = []) :
    execRetestExpiry true s = .next { s with sec := { s.sec with retest := none } } := by
  rw [execRetestExpiry_pass failed noKeys]
  simp [State.endRetest, State.onSec, noRequests, noKeys]

end

section
variable {s : State} {c : CoreId} {k : Cpl} {o : RngSeedOp} {t1 : Nat} (holds : s.freshSeed c = some (k, o))
  (waiting : s.sec.drbgWait = [(.seedFresh c, t1)])

include holds waiting

/-- The one FRESH seed that waits is served when the retest passes. -/
theorem State.endRetest_serves : s.endRetest true =
    (((s.onSec (fun k => { k with retest := none, drbgWait := [] })).seedFresh c o).endConsumer c k .done).drbgCode .done := by
  have holds' : (s.onSec (fun k => { k with retest := none, drbgWait := [] })).freshSeed c = some (k, o) := holds
  rw [State.endRetest, if_pos rfl, waiting, List.foldl_cons, List.foldl_nil, State.drbgServe, holds']

/-- The one FRESH seed that waits fails when it has waited 10 ms. -/
theorem State.endRetest_fails (late : s.waited t1 = true) : s.endRetest false =
    ((s.onSec (fun k => { k with drbgWait := [] })).endConsumer c k .health).drbgCode .health := by
  have holds' : (s.onSec (fun k => { k with drbgWait := [] })).freshSeed c = some (k, o) := holds
  have ends : s.sec.drbgWait.filter (fun w => s.waited w.2) = [(.seedFresh c, t1)] := by simp [waiting, late]
  have empty : s.onSec (fun k => { k with drbgWait := k.drbgWait.filter (fun w => !s.waited w.2) }) =
      s.onSec (fun k => { k with drbgWait := [] }) := by simp [State.onSec, waiting, late]
  rw [State.endRetest, if_neg (by decide), ends, empty, List.foldl_cons, List.foldl_nil, State.drbgFail, holds']

end

end Sys2Proof.Machine

namespace Sys2Proof.Claims

open Sys2Proof.Machine

/-- A consumer that ends in a state where every gang lives and every core belongs as in `v` has reported since `v`, whatever changes
after it outside the cores. -/
theorem Reports.of_endConsumer {v w t : State} {c : CoreId} {k : Cpl} {e : Code}
    (status : ∀ d g, (w.gang d g).status = (v.gang d g).status) (part : ∀ d, w.part d = v.part d)
    (cores : t.cores = (w.endConsumer c k e).cores) : Reports v t (.thread k) e := by
  have ended : Reports v ((w.endConsumer c k e).back v) (.thread k) e :=
    .of_finish_owner (fun d g => by rw [State.gang_onRng, status]) (fun d => by rw [State.part_onRng, part]) (.thread k) e v
  intro j hj live answers n hn
  rw [State.gang, State.core, cores]
  exact ended j hj live answers n hn

/-- What the end of a consumer leaves. -/
theorem endConsumer_leaves (w s : State) (c : CoreId) (k : Cpl) (e : Code) : let t := (w.endConsumer c k e).back s
    (t.core c).rng = { (w.core c).rng with busy := none } ∧ Reports w t (.thread k) e ∧ t.mem = w.mem :=
  ⟨w.rng_endConsumer c k e, .of_endConsumer (fun _ _ => rfl) (fun _ => rfl) rfl, w.mem_endConsumer c k e⟩

theorem randomIssue : RandomIssue := by
  intro s h cpl hm
  refine ⟨fun o calm => ?_, fun o det fresh => ?_, fun o known calm check => ?_, fun o v bs scores out read steady check => ?_⟩
  · have run := (exec_rngSeed h o cpl s).trans (execRngSeed_eq hm o cpl)
    rw [if_neg calm] at run
    exact ⟨_, run, rfl⟩
  · have run := (exec_rngSeed h o cpl s).trans (execRngSeed_eq hm o cpl)
    rw [if_pos ⟨det, fresh⟩] at run
    refine ⟨_, run, ?_, ?_, .of_finish hm (by decide) (State.gang_onCore_congr _ h.core h.core h.gang)⟩
    · rw [State.core_back, State.rng_varies, seen_core_congr Core.rng]
    · rw [State.core_back, State.varies_varies, seen_core_congr Core.varies]
  · exact ⟨_, (exec_rngFill h o cpl s).trans (execRngFill_accepted hm known calm check), rfl⟩
  · exact ⟨_, (exec_rngCat h o cpl s).trans (execRngCat_accepted hm scores out read steady check), rfl⟩

/-- What the end of a JOB seed leaves. -/
theorem jobSeed_leaves (s : State) (c : CoreId) (k : Cpl) (o : RngSeedOp) :
    let t := (((s.from_ c).seedJob c o).endConsumer c k .done).back s
    (t.core c).rng.busy = none ∧ (t.core c).rng.seed = o.seed
      ∧ (t.core c).rng.fresh = false ∧ (t.core c).rng.queue = (s.core c).rng.queue
      ∧ (∀ l : Fin 32, (t.core c).rng.lanes[l.val] =
          if o.mask.getLsbD l.val then laneAt s.dev c.val l.val o.seed o.pos.toNat else (s.core c).rng.lanes[l.val])
      ∧ Reports s t (.thread k) .done ∧ SameBytes s t := by
  dsimp only
  rw [State.core_back, State.rng_endConsumer, State.rng_seedJob]
  refine ⟨rfl, rfl, rfl, rfl, fun l => Vector.getElem_ofFn _, .of_endConsumer (fun d g => ?_) (fun d => ?_) rfl, .of_mem ?_⟩
  · rw [State.gang_seedJob]
    rfl
  · rw [State.part_seedJob]
    rfl
  · rw [State.mem_back, State.mem_endConsumer]
    rfl

/-- What the end of a FRESH seed leaves. -/
theorem freshSeed_leaves (s : State) (c : CoreId) (k : Cpl) (o : RngSeedOp) :
    let t := (((s.from_ c).seedFresh c o).endConsumer c k .done).back s
    (t.core c).rng.busy = none ∧ (t.core c).rng.fresh = true ∧ t.sec.drbg = (s.freshOutput o).1 ∧ t.sec.drbgCount = 1
      ∧ (∀ l : Fin 32, (t.core c).rng.lanes[l.val] =
          if o.mask.getLsbD l.val then
            let v := nth 0 (s.freshOutput o).2 ((threadsOf o.mask).idxOf l.val)
            { s := if v = 0 then baseState (s.core c).rng.seed else v, pos := 0 }
          else (s.core c).rng.lanes[l.val])
      ∧ Reports s t (.thread k) .done ∧ SameBytes s t := by
  dsimp only
  have sec : ((((s.from_ c).seedFresh c o).endConsumer c k .done).back s).sec = ((s.from_ c).seedFresh c o).sec :=
    State.sec_endConsumer _ c k .done
  rw [State.core_back, State.rng_endConsumer, State.rng_seedFresh, sec, State.sec_seedFresh]
  refine ⟨rfl, rfl, rfl, rfl, fun l => Vector.getElem_ofFn _, .of_endConsumer (fun d g => ?_) (fun d => ?_) rfl, .of_mem ?_⟩
  · rw [State.gang_seedFresh]
    rfl
  · rw [State.part_seedFresh]
    rfl
  · rw [State.mem_back, State.mem_endConsumer]
    rfl

theorem randomUnit : RandomUnit := by
  refine ⟨fun s c x rest head on idle => ?_, fun s c k o busy job => ?_,
    fun s c k o busy fresh => ⟨fun works => ?_, fun failed new => ?_⟩, fun s c k p o a busy place => ?_,
    fun s c k p o bs busy => ?_, fun s c l on stuck => ?_, fun s c l moving => ?_⟩
  · exact (exec_randomConsumerStart c s).trans (asCore_of_next (randomStartAt_takes (s := s.from_ c) head on idle))
  · exact ⟨_, (exec_randomConsumerComplete c s).trans (asCore_of_next (randomCompleteAt_jobSeed (s := s.from_ c) busy job)),
      jobSeed_leaves s c k o⟩
  · exact ⟨_, (exec_randomConsumerComplete c s).trans
      (asCore_of_next (randomCompleteAt_freshSeed (s := s.from_ c) busy fresh works)), freshSeed_leaves s c k o⟩
  · exact (exec_randomConsumerComplete c s).trans
      (asCore_of_next (randomCompleteAt_waits (s := s.from_ c) busy fresh failed new))
  · exact ⟨_, (exec_randomConsumerComplete c s).trans (asCore_of_next (randomCompleteAt_fill (s := s.from_ c) busy place)),
      endConsumer_leaves _ s c k _⟩
  · exact ⟨_, (exec_randomConsumerComplete c s).trans (asCore_of_next (randomCompleteAt_cat (s := s.from_ c) busy)),
      endConsumer_leaves _ s c k _⟩
  · refine ⟨_, (exec_stuckDetector c l s).trans (if_pos ⟨on, stuck⟩), ?_, ?_, fun m => ?_, .onCore s c _⟩
    · rw [State.rng_onRng]
    · rw [State.rng_onRng]
      exact satInc_eq_min 32 _
    · simp only [State.rng_onRng, Vector.getElem_set, Fin.ext_iff, eq_comm]
  · exact (exec_stuckDetector c l s).trans (if_neg fun due => moving due.2)

/-- What a FRESH seed leaves that is served as the retest passes. -/
theorem servedSeed_leaves (s : State) (c : CoreId) (k : Cpl) (o : RngSeedOp) :
    let t := ((((s.onSec (fun x => { x with retest := none, drbgWait := [] })).seedFresh c o).endConsumer c k .done).drbgCode
      .done).onSec (fun x => { x with keyWait := [] })
    t.sec.retest = none ∧ t.sec.drbgWait = [] ∧ (t.core c).rng.busy = none ∧ (t.core c).rng.fresh = true
      ∧ Reports s t (.thread k) .done := by
  dsimp only
  rw [State.sec_onSec, State.sec_drbgCode, State.sec_endConsumer, State.sec_seedFresh, State.core_onSec, State.core_drbgCode,
    State.rng_endConsumer, State.rng_seedFresh]
  refine ⟨rfl, rfl, rfl, rfl, .of_endConsumer (fun d g => ?_) (fun d => ?_)
    ((State.onSec_cores _ _).trans (State.onSec_cores _ _))⟩
  · rw [State.gang_seedFresh]
    rfl
  · rw [State.part_seedFresh]
    rfl

/-- What a FRESH seed leaves that fails after 10 ms, whatever keys go on waiting. -/
theorem failedSeed_leaves (s : State) (c : CoreId) (k : Cpl) (f : List (KeyUse × Nat) → List (KeyUse × Nat)) :
    let t := (((s.onSec (fun x => { x with drbgWait := [] })).endConsumer c k .health).drbgCode .health).onSec
      (fun x => { x with keyWait := f x.keyWait })
    t.sec.retest = s.sec.retest ∧ t.sec.drbgWait = [] ∧ (t.core c).rng = { (s.core c).rng with busy := none }
      ∧ Reports s t (.thread k) .health := by
  dsimp only
  rw [State.sec_onSec, State.sec_drbgCode, State.sec_endConsumer, State.core_onSec, State.core_drbgCode, State.rng_endConsumer]
  exact ⟨rfl, rfl, rfl,
    .of_endConsumer (w := s.onSec _) (fun _ _ => rfl) (fun _ => rfl) ((State.onSec_cores _ _).trans (State.onSec_cores _ _))⟩

theorem entropyEvents : EntropyEvents := by
  refine ⟨fun s => rfl, fun s u plain => ⟨fun within => ?_, fun works => ?_, fun works due => ?_, fun failed => ?_⟩,
    fun s c x holds failed new => ?_, fun s works pass => ?_, fun s t0 failed requests keys => ?_,
    fun s t0 failed noRequests noKeys => ?_, fun s c k o t0 t1 holds failed waiting noKeys => ⟨?_, fun late => ?_⟩⟩
  · exact ⟨_, (exec_drbgRequest u false s).trans (execDrbgRequest_steady plain (State.drbgGen_within 1 within)),
      rfl, rfl, rfl, rfl, rfl, rfl⟩
  · have run := (exec_drbgRequest u true s).trans (execDrbgRequest_resists plain s)
    rw [works] at run
    exact ⟨_, run, rfl, rfl, rfl, rfl, rfl, rfl⟩
  · exact ⟨_, (exec_drbgRequest u false s).trans (execDrbgRequest_steady plain (State.drbgGen_due 1 due works)),
      rfl, rfl, rfl, rfl, rfl⟩
  · have run := (exec_drbgRequest u true s).trans (execDrbgRequest_resists plain s)
    rw [if_neg (by simpa using failed)] at run
    have sec : ((s.report .health).drbgCode .health).sec = { s.sec with drbgLast := .health } :=
      congrArg (fun k : Sec => { k with drbgLast := .health }) (s.report_noted .health).sec
    refine ⟨_, run, ?_⟩
    rw [sec]
    exact ⟨rfl, rfl, rfl, rfl, s.report_cores _, s.report_mem _⟩
  · exact (exec_drbgRequest _ false s).trans (execDrbgRequest_freshWaits holds failed new)
  · exact (exec_retestExpiry pass s).trans (execRetestExpiry_idle works pass)
  · exact (exec_retestExpiry false s).trans (execRetestExpiry_early failed requests keys)
  · exact (exec_retestExpiry true s).trans (execRetestExpiry_alone failed noRequests noKeys)
  · have run := (exec_retestExpiry true s).trans (execRetestExpiry_pass failed noKeys)
    rw [State.endRetest_serves holds waiting] at run
    exact ⟨_, run, servedSeed_leaves s c k o⟩
  · have run := (exec_retestExpiry false s).trans (execRetestExpiry_fail failed (by rw [noKeys, List.filter_nil]))
    rw [State.endRetest_fails holds waiting (decide_eq_true late)] at run
    refine ⟨_, run, ?_⟩
    obtain ⟨retest, wait, rng, reports⟩ := failedSeed_leaves s c k (fun x => x.filter (fun w => !s.waited w.2))
    exact ⟨retest.trans failed, wait, rng, reports⟩

/-- Settles O32: a consumer of the random unit from its issue to its end, the stuck detector, and the DRBG's requests with the
retest of their source. -/
theorem randomCommands : Obligations.RandomCommands := ⟨randomIssue, randomUnit, entropyEvents⟩

end Sys2Proof.Claims
end

section
/-! SUPPORT. The tile sequencer (10 R216-R225, R232): what changes of a core's sequencer and array keep, what an engine's reads change,
and the equations of a nest's issue, start, commands and abort. -/

namespace Sys2Proof.Machine

open Sys2Proof.Claims

/-! ## Reading a sequencer and an array back -/

@[simp] theorem State.seq_onSeq (s : State) (c : CoreId) (f : Seq → Seq) : ((s.onSeq c f).core c).seq = f (s.core c).seq := by
  rw [State.onSeq, State.core_onCore]

@[simp] theorem State.arr_onSeq (s : State) (c d : CoreId) (f : Seq → Seq) : ((s.onSeq c f).core d).arr = (s.core d).arr :=
  State.core_onCore_congr Core.arr s c d

@[simp] theorem State.arr_onArr (s : State) (c : CoreId) (f : Arr → Arr) : ((s.onArr c f).core c).arr = f (s.core c).arr := by
  rw [State.onArr, State.core_onCore]

@[simp] theorem State.seq_onArr (s : State) (c d : CoreId) (f : Arr → Arr) : ((s.onArr c f).core d).seq = (s.core d).seq :=
  State.core_onCore_congr Core.seq s c d

@[simp] theorem State.seq_onAg (s : State) (c d : CoreId) (g : GroupId) (f : Group → Group) :
    ((s.onAg c g f).core d).seq = (s.core d).seq :=
  s.seq_onArr c d _

@[simp] theorem State.group_onAg (s : State) (c : CoreId) (g : GroupId) (f : Group → Group) :
    (s.onAg c g f).group c g = f (s.group c g) := by
  simp [State.group, State.onAg, vmod]

theorem State.group_onAg_other (s : State) (c : CoreId) {g h : GroupId} (f : Group → Group) (ne : h ≠ g) :
    (s.onAg c g f).group c h = s.group c h := by
  simp [State.group, State.onAg, vmod, Fin.val_ne_of_ne ne.symm]

/-- A change of the array beside its groups. -/
theorem State.group_onArr (s : State) (c : CoreId) {f : Arr → Arr} (hf : ∀ a, (f a).groups = a.groups := by intro; rfl)
    (g : GroupId) : (s.onArr c f).group c g = s.group c g := by
  rw [State.group, State.arr_onArr]
  simp only [hf]
  rfl

theorem State.group_onSeq (s : State) (c : CoreId) (f : Seq → Seq) (g : GroupId) : (s.onSeq c f).group c g = s.group c g := by
  rw [State.group, State.arr_onSeq, State.group]

theorem State.gang_onSeq (s : State) (c d : CoreId) (f : Seq → Seq) (g : GangId) : (s.onSeq c f).gang d g = s.gang d g :=
  State.gang_onCore_congr s c d g

theorem State.part_onSeq (s : State) (c d : CoreId) (f : Seq → Seq) : (s.onSeq c f).part d = s.part d :=
  State.core_onCore_congr Core.part s c d

@[simp] theorem State.mem_onSeq (s : State) (c : CoreId) (f : Seq → Seq) : (s.onSeq c f).mem = s.mem := rfl
@[simp] theorem State.mem_onArr (s : State) (c : CoreId) (f : Arr → Arr) : (s.onArr c f).mem = s.mem := rfl
@[simp] theorem State.mem_onAg (s : State) (c : CoreId) (g : GroupId) (f : Group → Group) : (s.onAg c g f).mem = s.mem := rfl

/-! ## Where an operand of the array lies (02 R52, 03 R69) -/

section
variable (s : State) (cores : Vector Core 192)

theorem State.place_cores : ({ s with cores } : State).place = s.place := rfl
theorem State.mapped_cores : ({ s with cores } : State).mapped = s.mapped := rfl
theorem State.reachable_cores : ({ s with cores } : State).reachable = s.reachable := rfl
theorem State.partOf_cores : ({ s with cores } : State).partOf = s.partOf := rfl
theorem State.coreCount_cores : ({ s with cores } : State).coreCount = s.coreCount := rfl

theorem State.translate_cores : ({ s with cores } : State).translate = s.translate := by
  funext p a r
  unfold State.translate
  rw [State.mapped_cores, State.partOf_cores]

end

/-- Which addresses resolve is not a matter of what a core does beside being bound. -/
theorem State.resolveLocal_onCore (s : State) (c : CoreId) {f : Core → Core} (bound : ∀ k, (f k).phys = k.phys) :
    (s.onCore c f).resolveLocal = s.resolveLocal := by
  have phys (d : CoreId) : ((s.onCore c f).core d).phys = (s.core d).phys := s.core_onCore_congr Core.phys c d bound
  have unbound : (s.onCore c f).unbound = s.unbound := by
    funext a
    unfold State.unbound
    simp only [phys]
    rw [State.onCore, State.setCore, State.place_cores, State.coreCount_cores]
  funext p a r
  unfold State.resolveLocal State.present
  rw [unbound]
  rw [State.onCore, State.setCore, State.translate_cores, State.place_cores, State.mapped_cores, State.reachable_cores]

section
variable (s : State) (c : CoreId) (f : Seq → Seq)

theorem State.place_onSeq : (s.onSeq c f).place = s.place := s.place_cores _

theorem State.resolveLocal_onSeq : (s.onSeq c f).resolveLocal = s.resolveLocal := s.resolveLocal_onCore c fun _ => rfl

/- The equation lemmas of `checkRange` and `rangeIn` are too deep for the kernel, which would count their literals out: the functions
are compared whole. -/
theorem State.checkRange_onSeq : (s.onSeq c f).checkRange = s.checkRange := by
  delta State.checkRange
  rw [State.resolveLocal_onSeq]

theorem State.rangeIn_onSeq : (s.onSeq c f).rangeIn = s.rangeIn := by
  delta State.rangeIn
  rw [State.resolveLocal_onSeq]

theorem State.isCrown_onSeq : (s.onSeq c f).isCrown = s.isCrown := by
  delta State.isCrown
  rw [State.place_onSeq]

theorem State.isCmemOf_onSeq : (s.onSeq c f).isCmemOf = s.isCmemOf := by
  delta State.isCmemOf
  rw [State.place_onSeq]

theorem State.isDram_onSeq : (s.onSeq c f).isDram = s.isDram := by
  delta State.isDram
  rw [State.place_onSeq]

theorem State.arrSource_onSeq : (s.onSeq c f).arrSource = s.arrSource := by
  delta State.arrSource
  rw [State.checkRange_onSeq, State.rangeIn_onSeq, State.isCrown_onSeq, State.isCmemOf_onSeq, State.isDram_onSeq]

end

/-! ## What an engine's reads change (09 R201, 11 R250) -/

theorem Counted.core_congr {α : Type} (g : Core → α) {s t : State} (h : Counted s t) (c : CoreId)
    (hg : ∀ k ce ue, g { k with eccCe := ce, eccUe := ue } = g k := by intros; rfl) : g (t.core c) = g (s.core c) := by
  obtain ⟨_, _, e⟩ := h.core c
  rw [e, hg]

theorem State.readPieces_counted (s : State) (p : PartId) (l : List (Nat × Nat)) : Counted s (s.readPieces p l).1 := by
  induction l generalizing s with
  | nil => exact .refl s
  | cons x l ih =>
    obtain ⟨a, n⟩ := x
    unfold State.readPieces
    split
    · exact .refl s
    next y _ =>
      have touched : Counted s (s.touch y n).1 := s.readLines_counted _
      split
      next t heq =>
        rw [heq] at touched
        have rest := ih t
        split
        next u bs heq => exact touched.trans (by rwa [heq] at rest)
        next u e heq => exact touched.trans (by rwa [heq] at rest)
      next heq =>
        rw [heq] at touched
        exact touched

theorem State.readDesc_counted (s : State) (p : PartId) (g : Addr) (n align : Nat) (fast : Bool) :
    Counted s (s.readDesc p g n align fast).1 := by
  unfold State.readDesc
  split
  · exact .refl s
  · split
    · exact .refl s
    · split
      · exact .refl s
      · unfold State.readStruct
        split
        · exact .refl s
        · exact s.readPieces_counted _ _

theorem State.readRangeGo_counted (s : State) (p : PartId) (fuel a n : Nat) : Counted s (s.readRangeGo p fuel a n).1 := by
  induction fuel generalizing s a n with
  | zero => exact .refl s
  | succ fuel ih =>
    unfold State.readRangeGo
    split
    · exact .refl s
    · dsimp only
      split
      · exact .refl s
      next x _ =>
        have line := s.readLine_counted (x / 64)
        split
        next t heq =>
          rw [heq] at line
          exact line.trans (ih t _ _)
        next heq =>
          rw [heq] at line
          exact line

theorem State.slotOf_counted (s : State) (p : PartId) (h : SparseHdr) (kb nb half : Nat) : Counted s (s.slotOf p h kb nb half).1 := by
  have range (t : State) (a n : Nat) : Counted t (t.readRange p a n).1 := t.readRangeGo_counted p _ a n
  unfold State.slotOf
  split
  · exact .refl s
  · dsimp only
    have map := range s (h.map + kb * h.nb / 8) ((kb * h.nb + nb) / 8 - kb * h.nb / 8 + 1)
    split
    · exact map
    · split
      · have dir := range (s.readRange p (h.map + kb * h.nb / 8) ((kb * h.nb + nb) / 8 - kb * h.nb / 8 + 1)).1 (h.dir + 4 * kb) 4
        split <;> exact map.trans dir
      · exact map

theorem State.slotsOf_counted (s : State) (p : PartId) (h : SparseHdr) (l : List (Nat × Nat × Nat)) :
    Counted s (s.slotsOf p h l).1 := by
  induction l generalizing s with
  | nil => exact .refl s
  | cons x l ih =>
    obtain ⟨kb, nb, half⟩ := x
    have slot := s.slotOf_counted p h kb nb half
    unfold State.slotsOf
    split
    next heq =>
      rw [heq] at slot
      exact slot
    next t a heq =>
      rw [heq] at slot
      have rest := ih t
      split
      next heq => exact slot.trans (by rwa [heq] at rest)
      next heq => exact slot.trans (by rwa [heq] at rest)

/-! ## A completion, seen by a sequencer (10 R225) -/

theorem State.seq_nestInner (s : State) (c : CoreId) (e : Code) : ((s.nestInner c e).core c).seq =
    { (s.core c).seq with run := (s.core c).seq.run.map (fun r =>
      { r with open_ := r.open_ - 1, failed := if e = .done then r.failed else r.failed.or (some e) }) } := by
  rw [State.nestInner, State.core_onCore]

/-- The nest that another command belongs to is not this core's. -/
theorem State.seq_finish_other (s : State) {o : Owner} {c : CoreId} (h : o ≠ .nest c) (e : Code) :
    ((s.finish o e).core c).seq = (s.core c).seq := by
  cases o with
  | thread k => exact s.finish_thread_core_congr Core.seq k e c
  | nest d =>
    have ne : c ≠ d := fun same => h (same ▸ rfl)
    exact congrArg Core.seq (s.core_onCore_other _ ne)
  | quiet => exact congrArg Core.seq (s.core_report e c)

/-- With no nest running, a completion leaves the sequencer as it was. -/
theorem State.seq_finish_idle (s : State) {c : CoreId} (idle : (s.core c).seq.run = none) (o : Owner) (e : Code) :
    ((s.finish o e).core c).seq = (s.core c).seq := by
  by_cases own : o = .nest c
  · rw [own, State.finish, State.seq_nestInner, idle, Option.map_none, ← idle]
  · exact s.seq_finish_other own e

theorem State.arr_finish (s : State) (o : Owner) (e : Code) (c : CoreId) : ((s.finish o e).core c).arr = (s.core c).arr :=
  s.finish_core_congr Core.arr o e c

theorem State.group_finish (s : State) (o : Owner) (e : Code) (c : CoreId) (g : GroupId) :
    (s.finish o e).group c g = s.group c g := by
  rw [State.group, State.arr_finish, State.group]

@[simp] theorem State.group_back (t s : State) (c : CoreId) (g : GroupId) : (t.back s).group c g = t.group c g := rfl

/-! ## A nest settles (10 R216, R225) -/

theorem State.nestSettle_goes {s : State} {c : CoreId} {r : NestRun} (run : (s.core c).seq.run = some r)
    (goes : r.open_ = 0 → r.ops ≠ [] ∧ r.failed = none) : s.nestSettle c = s := by
  rw [State.nestSettle, run]
  refine if_neg fun ⟨closed, ended⟩ => ?_
  obtain ⟨left, fine⟩ := goes closed
  simp [left, fine] at ended

theorem State.nestSettle_ends {s : State} {c : CoreId} {r : NestRun} (run : (s.core c).seq.run = some r) (closed : r.open_ = 0)
    (ended : r.ops = [] ∨ r.failed.isSome = true) :
    s.nestSettle c = (s.onSeq c (fun q => { q with run := none })).finish r.owner (r.failed.getD .done) := by
  rw [State.nestSettle, run]
  exact if_pos ⟨closed, ended⟩

end Sys2Proof.Machine
end

section
namespace Sys2Proof.Machine

open Sys2Proof.Claims

/-! ## Issue (10 R216) -/

theorem exec_nestRow {i : Instr} {h : Th} {desc : Addr} {cpl : Reg} {spo : Option (BitVec 2)}
    (row : (i = .seqRun h desc cpl ∧ spo = none) ∨ (i = .spkRun h desc cpl ∧ spo = some 1) ∨ (i = .spnRun h desc cpl ∧ spo = some 2))
    (s : State) : exec i s = nestIssue h desc cpl spo s := by
  obtain ⟨rfl, rfl⟩ | ⟨rfl, rfl⟩ | ⟨rfl, rfl⟩ := row <;> rfl

theorem State.nestRoom_iff (s : State) (c : CoreId) : s.nestRoom c = true ↔
    (s.core c).seq.queue.length + (if (s.core c).seq.run.isSome then 1 else 0) < 5 :=
  decide_eq_true_iff

theorem nestIssue_joins {s : State} {h : Th} (hm : MayIssue s h) (room : s.nestRoom h.core = true) (desc : Addr) (cpl : Reg)
    (spo : Option (BitVec 2)) : nestIssue h desc cpl spo s = .next ((Issued s h cpl).onSeq h.core (fun q => { q with
      queue := q.queue ++ [⟨.thread (s.cplOf h cpl), s.part h.core, desc, spo⟩] })) := by
  rw [nestIssue, room, State.engine_of_mayIssue hm, seen_part]
  rfl

theorem nestIssue_stalls {s : State} {h : Th} (full : s.nestRoom h.core = false) (desc : Addr) (cpl : Reg)
    (spo : Option (BitVec 2)) : nestIssue h desc cpl spo s = .next s := by
  rw [nestIssue, full, State.engine_of_no_room]

/-! ## The start of a nest (10 R217-R224) -/

theorem exec_nestStart (c : CoreId) (s : State) : exec (.nestStart c) s = asCore c (nestStartAt c) s := rfl
theorem exec_seqIssue (c : CoreId) (s : State) : exec (.seqIssue c) s = asCore c (seqIssueAt c) s := rfl
theorem exec_seqCtlAbort (c : CoreId) (stale : Bool) (s : State) : exec (.seqCtlAbort c stale) s = execSeqCtlAbort c stale s := rfl

/-- The head of the nest queue has left it. -/
def State.nestTaken (s : State) (c : CoreId) (rest : List NestCmd) : State := s.onSeq c (fun q => { q with queue := rest })

theorem nestStartAt_takes {s : State} {c : CoreId} {n : NestCmd} {rest : List NestCmd} (idle : (s.core c).seq.run = none)
    (head : (s.core c).seq.queue = n :: rest) (on : s.coreOn c = true) :
    nestStartAt c s = .next ((s.nestTaken c rest).nestStart c n) := by
  rw [nestStartAt, idle, head]
  exact if_pos on

section
variable {s v : State} {c : CoreId} {n : NestCmd}

theorem State.nestStart_unread {e : Code} (read : s.readDesc n.part n.desc 160 64 true = (v, .error e)) :
    s.nestStart c n = v.finish n.owner e := by
  rw [State.nestStart, read]

variable {bs : List Byte} (read : s.readDesc n.part n.desc 160 64 true = (v, .ok bs)) (dense : (parseNest bs n.spo).spo = 0)
  (calm : ¬ ((parseNest bs n.spo).rnd = 3 ∧ v.det c = true ∧ (v.core c).rng.fresh = true))

include read dense calm

/-- A nest without a header is judged by the acceptance table alone. -/
theorem State.nestStart_refused {e : Code}
    (check : v.nestCheck c (parseNest bs n.spo) (nestLens (v.core c).seq (parseNest bs n.spo)) = e) (bad : e ≠ .done) :
    s.nestStart c n = v.finish n.owner e := by
  rw [State.nestStart, read]
  simp only [dense, if_true, ne_eq, not_true_eq_false, if_false, if_neg calm, check]

theorem State.nestStart_accepted
    (check : v.nestCheck c (parseNest bs n.spo) (nestLens (v.core c).seq (parseNest bs n.spo)) = .done) :
    s.nestStart c n = v.nestAccept c n (parseNest bs n.spo) (nestLens (v.core c).seq (parseNest bs n.spo)) := by
  rw [State.nestStart, read]
  simp only [dense, if_true, ne_eq, not_true_eq_false, if_false, if_neg calm, check]

end

/-- The commands of a dense nest, iteration by iteration (10 R218). -/
def nestOps (d : NestDesc) (k : NestCut) (its : List (List Nat)) : List SeqOp :=
  ((List.range its.length).zip its).flatMap (fun p =>
    iterOps d k none p.1 (d.wsrc + iterOffset d p.2 true) (d.pre + iterOffset d p.2 false))

/-- A dense nest that has just been accepted, with its commands still to be issued (10 R221). -/
def NestRun.fresh (n : NestCmd) (d : NestDesc) (ops : List SeqOp) : NestRun :=
  ⟨n.owner, n.part, d, ops, 0, (List.range (d.ni * ceilDiv (nth (0, 0, 0, 0) d.levels 0).1 d.mrows)).map (· + d.gbase), none, false⟩

/-- The state in which a dense nest begins to run; `gone` tiles of it count as skipped. -/
def State.nestBegun (s : State) (c : CoreId) (n : NestCmd) (d : NestDesc) (ops : List SeqOp) (gone : Nat) : State :=
  s.onSeq c (fun q => { q with skip := satAdd 32 q.skip gone, half := 0, run := some (.fresh n d ops) })

theorem State.seq_nestBegun (s : State) (c : CoreId) (n : NestCmd) (d : NestDesc) (ops : List SeqOp) (gone : Nat) :
    ((s.nestBegun c n d ops gone).core c).seq =
      { (s.core c).seq with skip := satAdd 32 (s.core c).seq.skip gone, half := 0, run := some (.fresh n d ops) } :=
  s.seq_onSeq c _

theorem State.arr_nestBegun (s : State) (c : CoreId) (n : NestCmd) (d : NestDesc) (ops : List SeqOp) (gone : Nat) :
    ((s.nestBegun c n d ops gone).core c).arr = (s.core c).arr :=
  s.arr_onSeq c c _

/-- A dense nest is accepted with all its commands, or with none where its matrix is empty (10 R224). -/
theorem State.nestAccept_dense (s : State) (c : CoreId) (n : NestCmd) {d : NestDesc} (lens : List Nat) (dense : d.spo = 0) :
    ∃ gone, s.nestAccept c n d lens = (s.nestBegun c n d (if (nestCut d lens).lm = 0 ∨ (nestCut d lens).lo = 0 then [] else
      nestOps d (nestCut d lens) (outerIters (lens.drop 3))) gone).nestSettle c := by
  rw [State.nestAccept]
  simp only [dense, if_true, ne_eq, not_true_eq_false, if_false, List.getElem?_nil]
  by_cases empty : outerIters (lens.drop 3) = []
  · have none_ : nestOps d (nestCut d lens) [] = [] := rfl
    simp only [empty, or_true, if_true, none_, ite_self]
    exact ⟨_, rfl⟩
  · simp only [empty, or_false]
    exact ⟨_, rfl⟩

end Sys2Proof.Machine
end

section
namespace Sys2Proof.Machine

open Sys2Proof.Claims

/-! ## The commands of a nest (10 R218-R221, R224, 03 R74) -/

section
variable {s : State} {c : CoreId} {p : PartId} {o : Owner} {g : GroupId} {int : Bool} {width rows : Nat}

theorem State.agOpenBad_none {f : Option (BitVec 4)} (closed : (s.group c g).state = .closed) (wide : width = 128 ∨ width = 512)
    (some_ : 0 < rows) (fits : rows * width ≤ 32768) (format : ∀ x, f = some x → preloadOk int x = true) :
    s.agOpenBad c g int width rows f = none := by
  have shape : ¬ ((width ≠ 128 ∧ width ≠ 512) ∨ rows = 0 ∨ 32768 / max width 1 < rows) := by
    have room : rows ≤ 32768 / max width 1 := (Nat.le_div_iff_mul_le (by omega)).2 (by rwa [Nat.max_eq_left (by omega)])
    omega
  unfold State.agOpenBad
  rw [if_neg (Classical.not_not.2 closed), if_neg shape]
  cases f with
  | none => rfl
  | some x => simp [format x rfl]

theorem ite_width_eq (wide : Bool) : ((if wide then 512 else 128 : Nat) == 512) = wide := by
  cases wide <;> rfl

theorem State.agOpen_plain (fits : s.agOpenBad c g int width rows none = none) (stride cols prows : Nat) :
    s.agOpen c p o g int width rows none stride cols prows =
      (s.onAg c g (fun _ => { state := .opened, acctInt := int, wide := width == 512, rows := rows })).finish o .done := by
  simp only [State.agOpen, Option.map_none, fits, Option.filter_none, Option.isSome_none, Bool.false_and]

/- The place of the preload is kept under a name: the kernel would count out the literals of its range. -/
theorem State.agOpen_preload {a stride cols prows : Nat} {f : BitVec 4} (fits : s.agOpenBad c g int width rows (some f) = none)
    (some_ : 0 < cols) (source : s.arrSource c p a (elemBytes f ((prows - 1) * stride + cols)) true = .done) :
    s.agOpen c p o g int width rows (some (a, f)) stride cols prows =
      (s.onAg c g (fun _ => { state := .opened, acctInt := int, preload := true, wide := width == 512, rows := rows, loading := true
        })).onArr c (fun x => { x with
          xfers := x.xfers ++ [.preload o p g a f stride (rows / max prows 1) cols prows false 0 .done] }) := by
  have here : (cols != 0) = true := bne_iff_ne.2 (Nat.ne_of_gt some_)
  unfold State.agOpen
  obtain ⟨look, named⟩ : ∃ look, s.arrSource = look := ⟨_, rfl⟩
  rw [named] at source ⊢
  simp only [Option.map_some, fits, Option.filter_some, here, if_true, source, Option.isSome_some, Bool.and_true]

end

/-- The array once a load has entered the crown port's queue. -/
def Arr.withLoad (a : Arr) (o : Owner) (p : PartId) (op : LoadwOp) (slots : Option (List Nat × Nat × Bool × BitVec 4)) : Arr :=
  { a with
    seq := a.seq + 1
    loads := a.loads ++ [⟨o, p, a.seq, op, slots, false, .done⟩]
    halves := vmod a.halves op.whalf (fun h => { h with
      state := .loading, key := some ⟨op.wide, op.fmtA, op.fmtW, op.spo⟩, last := none, issued := a.seq }) }

theorem State.onArr_onArr (s : State) (c : CoreId) (f g : Arr → Arr) :
    (s.onArr c f).onArr c g = s.onArr c (fun a => g (f a)) := by
  simp [State.onArr, State.onCore, State.setCore, State.core]

theorem State.loadwIssue_dense {s : State} {c : CoreId} {p : PartId} {o : Owner} {op : LoadwOp} (dense : op.spo = 0)
    (pair : pairOk op.spo op.fmtA op.fmtW = true)
    (source : s.arrSource c p op.src.toNat (tileBytes (geometry op.spo op.wide op.fmtA op.fmtW) op.fmtW) false = .done) :
    s.loadwIssue c p o op none = s.onArr c (fun a => a.withLoad o p op none) := by
  have narrow : ¬ (op.spo.toNat ≥ 2 ∧ ((s.core c).arr.effWide = true ∨ op.wide = true)) := by simp [dense]
  unfold State.loadwIssue
  obtain ⟨look, named⟩ : ∃ look, s.arrSource = look := ⟨_, rfl⟩
  rw [named] at source ⊢
  simp only [narrow, pair, source, if_false, Bool.not_true, Bool.false_eq_true, List.findSome?_cons, List.findSome?_nil]
  rw [State.nextSeq]
  simp only [State.onArr_onArr]
  rfl

/-- The checks of a run look at the array only. -/
theorem State.runCheck_congr {s t : State} {c : CoreId} (same : (t.core c).arr = (s.core c).arr) (op : RunOp) (held : Bool) :
    t.runCheck c op held = s.runCheck c op held := by
  unfold State.runCheck State.group
  rw [same]

/-- The run of `op` in the run queue, not started, with issue number `n`. -/
def RunCmd.queued (a : Arr) (o : Owner) (p : PartId) (op : RunOp) (rlen : Option Nat) : RunCmd :=
  ⟨o, p, a.seq, op, a.effWide, a.halves[op.whalf.val].issued, rlen, false, 0, 0, false, [], [], false⟩

theorem State.runIssue_done {s : State} {c : CoreId} {op : RunOp} {held : Bool} (check : s.runCheck c op held = .done) (p : PartId)
    (o : Owner) (rlen : Option Nat) : s.runIssue c p o op rlen held =
      (s.onAg c op.group (fun g => { g with lastk := op.ktile.toNat, empty := false })).onArr c (fun a => { a with
        seq := a.seq + 1, runs := a.runs ++ [.queued a o p op rlen] }) := by
  rw [State.runIssue, check]
  simp only [State.nextSeq, State.onAg, State.onArr_onArr]
  rfl

section
variable {s : State} {c : CoreId} {op : CloseOp} {rows : Nat} (opened : (s.group c op.group).state = .opened) (some_ : 0 < rows)
  (format : fmtReserved op.fmt = false) (ovf : op.ovf ≠ 3) (steady : op.rnd ≠ 3)
  (paired : fmtPaired op.fmt = true → op.pstrm ≠ op.ostrm) (bypass : op.table = none)

include opened some_ format ovf steady paired bypass

theorem State.agClose_done (p : PartId) (o : Owner) (cols : Nat) : s.agClose c p o op cols rows false =
    (s.onAg c op.group (fun g => { g with state := .draining })).onArr c (fun a => { a with
      seq := a.seq + 1
      xfers := a.xfers ++ [.close o p a.seq op ((s.group c op.group).rows / max rows 1) cols
        ((s.group c op.group).rows / max rows 1 * rows) false 0 none] }) := by
  have apart : ¬ (fmtPaired op.fmt = true ∧ op.pstrm = op.ostrm) := fun ⟨two, same⟩ => paired two same
  have whole : rows ≠ 0 := Nat.ne_of_gt some_
  simp only [State.agClose, opened, format, ovf, steady, apart, bypass, whole, false_and, if_false, ne_eq, not_true_eq_false,
    Bool.false_eq_true, or_self, Option.isSome_none, State.nextSeq, State.onAg, State.onArr_onArr]
  rfl

end

/-! ## The next command of the running nest -/

theorem State.seq_nestOpen {s : State} {c : CoreId} {r : NestRun} (run : (s.core c).seq.run = some r) (rest : List SeqOp) :
    ((s.nestOpen c rest).core c).seq = { (s.core c).seq with run := some { r with ops := rest, open_ := r.open_ + 1 } } := by
  rw [State.nestOpen, State.seq_onSeq, run, Option.map_some]

/-- With a command open, a nest does not settle. -/
theorem State.nestSettle_opened {s : State} {c : CoreId} {r : NestRun} {rest : List SeqOp}
    (run : (s.core c).seq.run = some { r with ops := rest, open_ := r.open_ + 1 }) : s.nestSettle c = s :=
  State.nestSettle_goes run fun closed => absurd closed (Nat.succ_ne_zero _)

section
variable {s : State} {c : CoreId} {r : NestRun} {rest : List SeqOp} (run : (s.core c).seq.run = some r) (on : s.coreOn c = true)
  (fine : r.failed = none)

include run on fine

theorem seqIssueAt_opn {g : GroupId} {rows cols pre : Nat} (ops : r.ops = .opn g rows cols pre :: rest) :
    seqIssueAt c s = if (s.group c g).state ≠ .closed then .next s else
      .next (((s.nestOpen c rest).agOpen c r.part (.nest c) g (fmtIsInt r.d.fmtA) (if r.d.wide then 512 else 128)
        ((if r.d.spo = 2 then 2 else 1) * rows) (if r.d.start then some (pre, r.d.pfmt) else none)
        (nth (0, 0, 0, 0) r.d.levels 2).1 cols rows).nestSettle c) := by
  simp only [seqIssueAt, run, on, fine, ops, Bool.not_true, Option.isSome_none, Bool.false_eq_true, or_self, if_false]

theorem seqIssueAt_denseTile {k n src : Nat} (ops : r.ops = .tile k n src none :: rest) :
    seqIssueAt c s = .next ((s.nestLoad c r rest src none).nestSettle c) := by
  simp only [seqIssueAt, run, on, fine, ops, Bool.not_true, Option.isSome_none, Bool.false_eq_true, or_self, if_false]

theorem seqIssueAt_sparseTile {k n src : Nat} {h : SparseHdr} (ops : r.ops = .tile k n src (some h) :: rest) :
    seqIssueAt c s = .next ((s.nestSparse c r rest k n h).nestSettle c) := by
  simp only [seqIssueAt, run, on, fine, ops, Bool.not_true, Option.isSome_none, Bool.false_eq_true, or_self, if_false]

/-- The run of the tile in the half that was loaded last. -/
def nestRunOp (r : NestRun) (half : Fin 2) (k : Nat) (g : GroupId) (rows aoff : Nat) : RunOp :=
  ⟨g, BitVec.ofNat 20 k, 1 - half, r.d.fmtA, r.d.fmtW, r.d.spo, r.d.asrc, r.d.astrm, BitVec.ofNat 18 aoff, BitVec.ofNat 9 rows, 0,
    r.d.sstrm⟩

theorem seqIssueAt_run {k n : Nat} {g : GroupId} {rows aoff : Nat} {rlen : Option Nat}
    (ops : r.ops = .run k n g rows aoff rlen :: rest) : seqIssueAt c s = if 16 ≤ (s.core c).arr.queued then .next s else
      .next ((((s.nestOpen c rest).onSeq c (fun q => { q with pos := k })).runIssue c r.part (.nest c)
        (nestRunOp r (s.core c).seq.half k g rows aoff) rlen false).nestSettle c) := by
  simp only [seqIssueAt, run, on, fine, ops, Bool.not_true, Option.isSome_none, Bool.false_eq_true, or_self, if_false]
  rfl

/-- The close of a group as the nest's descriptor has it. -/
def nestCloseOp (d : NestDesc) (g : GroupId) (cbase : Nat) : CloseOp :=
  ⟨g, d.ostrm, d.pstrm, d.fmtOut, d.rnd, d.ovf, if d.bypass then none else some d.tab, BitVec.ofNat 12 cbase, d.cmode⟩

theorem seqIssueAt_close {g : GroupId} {rows cols cbase : Nat} (ops : r.ops = .close g rows cols cbase :: rest) :
    seqIssueAt c s = .next (((s.nestOpen c rest).agClose c r.part (.nest c) (nestCloseOp r.d g cbase) cols rows false).nestSettle c) := by
  simp only [seqIssueAt, run, on, fine, ops, Bool.not_true, Option.isSome_none, Bool.false_eq_true, or_self, if_false]
  rfl

end

/-! ## Stopping nests (10 R225, R232) -/

/-- Nests that complete together with one code. -/
def State.finishAll (s : State) (l : List NestCmd) (e : Code) : State := l.foldl (fun t n => t.finish n.owner e) s

/-- The nest that runs is stopped, and none waits. -/
def State.nestStopped (s : State) (c : CoreId) (e : Code) : State :=
  s.onSeq c (fun q => { q with queue := [], run := q.run.map (fun r => { r with failed := some e, aborted := true }) })

theorem State.seqAbort_eq (s : State) (c : CoreId) (stale : Bool) : s.seqAbort c stale =
    ((s.nestStopped c (if stale then .staleEpoch else .incomplete)).nestSettle c).finishAll (s.core c).seq.queue
      (if stale then .staleEpoch else .incomplete) := rfl

theorem execSeqCtlAbort_live {s : State} {c : CoreId} (live : s.regLive (c.val * 0x10_0000 + 0x2_0008) = true) (stale : Bool) :
    execSeqCtlAbort c stale s = .next (s.seqAbort c stale) := if_pos live

theorem State.seq_finishAll_idle {s : State} {c : CoreId} (idle : (s.core c).seq.run = none) (l : List NestCmd) (e : Code) :
    ((s.finishAll l e).core c).seq = (s.core c).seq := by
  induction l generalizing s with
  | nil => rfl
  | cons n l ih =>
    have head := s.seq_finish_idle idle n.owner e
    exact (ih (s := s.finish n.owner e) (head ▸ idle)).trans head

theorem State.seq_finishAll_other {s : State} {c : CoreId} {l : List NestCmd} (other : ∀ n ∈ l, n.owner ≠ .nest c) (e : Code) :
    ((s.finishAll l e).core c).seq = (s.core c).seq := by
  induction l generalizing s with
  | nil => rfl
  | cons n l ih =>
    obtain ⟨head, tail⟩ := List.forall_mem_cons.1 other
    exact (ih tail (s := s.finish n.owner e)).trans (s.seq_finish_other head e)

theorem State.queue_finish (s : State) (o : Owner) (e : Code) (c : CoreId) :
    ((s.finish o e).core c).seq.queue = (s.core c).seq.queue := by
  by_cases own : o = .nest c
  · rw [own, State.finish, State.seq_nestInner]
  · rw [s.seq_finish_other own e]

theorem State.queue_finishAll (s : State) (l : List NestCmd) (e : Code) (c : CoreId) :
    ((s.finishAll l e).core c).seq.queue = (s.core c).seq.queue := by
  induction l generalizing s with
  | nil => rfl
  | cons n l ih => exact (ih _).trans (s.queue_finish n.owner e c)

theorem State.arr_finishAll (s : State) (l : List NestCmd) (e : Code) (c : CoreId) :
    ((s.finishAll l e).core c).arr = (s.core c).arr := by
  induction l generalizing s with
  | nil => rfl
  | cons n l ih => exact (ih _).trans (s.arr_finish n.owner e c)

theorem State.mem_finishAll (s : State) (l : List NestCmd) (e : Code) : (s.finishAll l e).mem = s.mem := by
  induction l generalizing s with
  | nil => rfl
  | cons n l ih => exact (ih _).trans (s.finish_mem n.owner e)

/-- A nest that settles is left as it is, or completes. -/
theorem State.nestSettle_cases (s : State) (c : CoreId) :
    s.nestSettle c = s ∨ ∃ o e, s.nestSettle c = (s.onSeq c (fun q => { q with run := none })).finish o e := by
  unfold State.nestSettle
  split
  · split
    · exact .inr ⟨_, _, rfl⟩
    · exact .inl rfl
  · exact .inl rfl

theorem State.queue_nestSettle (s : State) (c : CoreId) : ((s.nestSettle c).core c).seq.queue = (s.core c).seq.queue := by
  obtain same | ⟨o, e, ended⟩ := s.nestSettle_cases c
  · rw [same]
  · rw [ended, State.queue_finish, State.seq_onSeq]

theorem State.arr_nestSettle (s : State) (c : CoreId) : ((s.nestSettle c).core c).arr = (s.core c).arr := by
  obtain same | ⟨o, e, ended⟩ := s.nestSettle_cases c
  · rw [same]
  · rw [ended, State.arr_finish, State.arr_onSeq]

theorem State.mem_nestSettle (s : State) (c : CoreId) : (s.nestSettle c).mem = s.mem := by
  obtain same | ⟨o, e, ended⟩ := s.nestSettle_cases c
  · rw [same]
  · rw [ended, State.finish_mem]
    rfl

/-! ## A completion, seen by every gang (09 R194, R197) -/

/-- A completion leaves a gang as it was, or writes its code into it. -/
theorem State.finish_gang (s : State) (o : Owner) (e : Code) (c : CoreId) (g : GangId) : (s.finish o e).gang c g = s.gang c g ∨
    ∃ k : Cpl, k.core = c ∧ k.gang = g ∧ (s.finish o e).gang c g = (s.writeCpl k e).gang c g := by
  cases o with
  | thread k =>
    obtain same | written := s.finish_thread_core k e
    · exact .inl (by rw [State.gang, same, State.gang])
    · have moved : (s.finish (.thread k) e).gang c g = (s.writeCpl k e).gang c g := by rw [State.gang, written, State.gang]
      by_cases core : k.core = c
      · by_cases gang : k.gang = g
        · exact .inr ⟨k, core, gang, moved⟩
        · subst core
          exact .inl (moved.trans (s.gang_onGang_other k.core _ (Ne.symm gang)))
      · refine .inl (moved.trans ?_)
        rw [State.gang, State.writeCpl, s.core_onGang_other _ _ (Ne.symm core), State.gang]
  | nest d => exact .inl (s.gang_onCore_congr d c g)
  | quiet => exact .inl (s.gang_report e c g)

theorem State.status_finish (s : State) (o : Owner) (e : Code) (c : CoreId) (g : GangId) :
    ((s.finish o e).gang c g).status = (s.gang c g).status := by
  obtain same | ⟨k, rfl, rfl, written⟩ := s.finish_gang o e c g
  · rw [same]
  · obtain ⟨_, _, _, gang⟩ := s.gang_writeCpl k e
    rw [written, gang]

theorem State.part_finish (s : State) (o : Owner) (e : Code) (c : CoreId) : (s.finish o e).part c = s.part c :=
  s.finish_core_congr Core.part o e c

theorem State.status_nestSettle (s : State) (c d : CoreId) (g : GangId) :
    ((s.nestSettle c).gang d g).status = (s.gang d g).status := by
  obtain same | ⟨o, e, ended⟩ := s.nestSettle_cases c
  · rw [same]
  · rw [ended, State.status_finish, State.gang_onSeq]

theorem State.part_nestSettle (s : State) (c d : CoreId) : (s.nestSettle c).part d = s.part d := by
  obtain same | ⟨o, e, ended⟩ := s.nestSettle_cases c
  · rw [same]
  · rw [ended, State.part_finish, State.part_onSeq]

end Sys2Proof.Machine

namespace Sys2Proof.Claims

open Sys2Proof.Machine

/-- A code that has reached its register stays there while commands complete with that same code. -/
theorem CodeIn.finish {t : State} {c : CoreId} {g : GangId} {m : BitVec 32} {r : Reg} {e : Code} (h : CodeIn t c g m r e) (o : Owner) :
    CodeIn (t.finish o e) c g m r e := by
  intro n hn
  obtain same | ⟨k, rfl, rfl, written⟩ := t.finish_gang o e c g
  · rw [same]
    exact h n hn
  · rw [written, State.writeCpl, State.gang_onGang]
    dsimp only
    split
    · rw [Gang.reg_foldl_setReg]
      split
      · rfl
      · exact h n hn
    · exact h n hn

theorem Reports.finish {s t : State} {o : Owner} {e : Code} (h : Reports s t o e) (o' : Owner) : Reports s (t.finish o' e) o e :=
  fun k own live answers => (h k own live answers).finish o'

theorem Reports.finishAll {s t : State} {o : Owner} {e : Code} (h : Reports s t o e) (l : List NestCmd) :
    Reports s (t.finishAll l e) o e := by
  induction l generalizing t with
  | nil => exact h
  | cons n l ih => exact ih (h.finish n.owner)

/-- Every nest of a list that completes has reported. -/
theorem Reports.of_finishAll {s t : State} (status : ∀ d g, (t.gang d g).status = (s.gang d g).status)
    (part : ∀ d, t.part d = s.part d) (l : List NestCmd) (e : Code) : ∀ n ∈ l, Reports s (t.finishAll l e) n.owner e := by
  induction l generalizing t with
  | nil => exact fun _ h => nomatch h
  | cons x l ih =>
    have head : Reports s (t.finish x.owner e) x.owner e := .of_finish_owner status part x.owner e (t.finish x.owner e)
    refine List.forall_mem_cons.2 ⟨head.finishAll l, ih (fun d g => ?_) fun d => ?_⟩
    · rw [State.status_finish, status]
    · rw [State.part_finish, part]

end Sys2Proof.Claims
end

section
namespace Sys2Proof.Claims

open Sys2Proof.Machine

/-! ## The nests (10 R216-R225, R232) -/

theorem nestsIssued : NestIssue := by
  intro i s h desc cpl spo row hm
  rw [exec_nestRow row, ← State.nestRoom_iff]
  refine ⟨fun room => nestIssue_joins hm room desc cpl spo, fun full => nestIssue_stalls ?_ desc cpl spo⟩
  exact Bool.eq_false_iff.2 fun room => Nat.not_lt.2 full ((s.nestRoom_iff h.core).1 room)

/-- What the end of a nest leaves with no other running, in a state whose gangs and cores are those of `v`. -/
theorem nestEnd_leaves {v w : State} {c : CoreId} (idle : (w.core c).seq.run = none) (gang : ∀ d g, w.gang d g = v.gang d g)
    (part : ∀ d, w.part d = v.part d) (o : Owner) (e : Code) (s : State) : let t := (w.finish o e).back s
    (t.core c).seq = (w.core c).seq ∧ (t.core c).arr = (w.core c).arr ∧ t.mem = w.mem ∧ Reports v t o e :=
  ⟨w.seq_finish_idle idle o e, w.arr_finish o e c, w.mem_finish_back o e s,
    .of_finish_owner (fun d g => congrArg Gang.status (gang d g)) part o e s⟩

theorem nestsStarted : NestStart := by
  intro s c n rest idle head on u
  have step {t : State} (next : u.nestStart c n = t) : exec (.nestStart c) s = .next (t.back s) :=
    (exec_nestStart c s).trans (asCore_of_next ((nestStartAt_takes (s := s.from_ c) idle head on).trans (congrArg _ next)))
  have seq : (u.core c).seq = { (s.core c).seq with queue := rest } := State.seq_onSeq _ _ _
  have keeps {v : State} {x : Except Code (List Byte)} (read : u.readDesc n.part n.desc 160 64 true = (v, x)) : Counted u v := by
    have counted := u.readDesc_counted n.part n.desc 160 64 true
    rwa [read] at counted
  -- what a refusal leaves
  have refused {v : State} (counted : Counted u v) (e : Code) (done : u.nestStart c n = v.finish n.owner e) :
      ∃ t, exec (.nestStart c) s = .next t ∧ (t.core c).seq.queue = rest ∧ (t.core c).seq.run = none ∧ t.mem = v.mem
        ∧ Reports v t n.owner e := by
    have vseq : (v.core c).seq = { (s.core c).seq with queue := rest } := (counted.core_congr Core.seq c).trans seq
    obtain ⟨tseq, -, mem, reports⟩ :=
      nestEnd_leaves (v := v) (w := v) (c := c) (by rw [vseq, idle]) (fun _ _ => rfl) (fun _ => rfl) n.owner e s
    exact ⟨_, step done, by rw [tseq, vseq], by rw [tseq, vseq, idle], mem, reports⟩
  refine ⟨fun v e read => refused (keeps read) e (State.nestStart_unread read), fun v bs read => ?_⟩
  intro d lens calm dense
  have counted := keeps read
  have vseq : (v.core c).seq = { (s.core c).seq with queue := rest } := (counted.core_congr Core.seq c).trans seq
  have lens_eq : nestLens (v.core c).seq d = lens := by rw [vseq]; rfl
  have calm' : ¬ (d.rnd = 3 ∧ v.det c = true ∧ (v.core c).rng.fresh = true) := by
    rw [State.det, counted.core_congr Core.det c, counted.core_congr Core.rng c]
    have det : (u.core c).det = s.det c := State.core_onCore_congr Core.det (s.from_ c) c c
    have rng : (u.core c).rng = (s.core c).rng := State.core_onCore_congr Core.rng (s.from_ c) c c
    rwa [det, rng]
  refine ⟨fun e check bad => refused counted e (State.nestStart_refused read dense calm' (lens_eq ▸ check) bad),
    fun check => ?_⟩
  intro k its ops
  have accepted := State.nestStart_accepted read dense calm' (lens_eq ▸ check)
  obtain ⟨gone, begun⟩ := v.nestAccept_dense c n lens dense
  rw [lens_eq, begun] at accepted
  refine ⟨fun lm lo some_ => ?_, fun empty => ?_⟩
  · rw [if_neg (not_or.2 ⟨lm, lo⟩)] at accepted
    have settled := State.nestSettle_goes (congrArg Seq.run (v.seq_nestBegun c n d ops gone)) fun _ => ⟨some_, rfl⟩
    refine ⟨_, step (accepted.trans settled), ?_, congrArg Seq.run (v.seq_nestBegun c n d ops gone), v.arr_nestBegun c n d ops gone, rfl⟩
    exact (congrArg Seq.queue (v.seq_nestBegun c n d ops gone)).trans (congrArg Seq.queue vseq)
  · rw [if_pos empty, State.nestSettle_ends (congrArg Seq.run (v.seq_nestBegun c n d [] gone)) rfl (.inl rfl)] at accepted
    obtain ⟨tseq, arr, mem, reports⟩ := nestEnd_leaves (v := v)
      (w := (v.nestBegun c n d [] gone).onSeq c (fun q => { q with run := none })) (c := c) (by rw [State.seq_onSeq])
      (fun d' g => by rw [State.gang_onSeq, State.nestBegun, State.gang_onSeq])
      (fun d' => by rw [State.part_onSeq, State.nestBegun, State.part_onSeq]) n.owner .done s
    refine ⟨_, step accepted, ?_, ?_, ?_, mem, reports⟩
    · exact (congrArg Seq.queue tseq).trans (by rw [State.seq_onSeq, State.seq_nestBegun, vseq])
    · exact (congrArg Seq.run tseq).trans (by rw [State.seq_onSeq])
    · exact arr.trans (by rw [State.arr_onSeq, State.arr_nestBegun])

theorem nestsAborted : NestAbort := by
  intro s c stale live code
  have stopped : ((s.nestStopped c code).core c).seq = { (s.core c).seq with
      queue := [], run := (s.core c).seq.run.map (fun r => { r with failed := some code, aborted := true }) } :=
    State.seq_onSeq _ _ _
  have run := (exec_seqCtlAbort c stale s).trans (execSeqCtlAbort_live live stale)
  rw [State.seqAbort_eq] at run
  refine ⟨_, run, ?_, fun r runs opened other => ?_, fun r runs closed => ?_, Reports.of_finishAll (fun d g => ?_) (fun d => ?_) _ _,
    ?_, .of_mem ?_⟩
  · rw [State.queue_finishAll, State.queue_nestSettle, stopped]
  · rw [runs] at stopped
    rw [State.seq_finishAll_other other, State.nestSettle_goes (congrArg Seq.run stopped) fun closed => absurd closed opened, stopped]
    rfl
  · rw [runs] at stopped
    have ended := State.nestSettle_ends (congrArg Seq.run stopped) closed (.inr rfl)
    have idle : (((s.nestStopped c code).nestSettle c).core c).seq.run = none := by
      rw [ended, State.seq_finish_idle _ (by rw [State.seq_onSeq]), State.seq_onSeq]
    rw [State.seq_finishAll_idle idle, idle]
  · rw [State.status_nestSettle, State.nestStopped, State.gang_onSeq]
  · rw [State.part_nestSettle, State.nestStopped, State.part_onSeq]
  · rw [State.arr_finishAll, State.arr_nestSettle, State.nestStopped, State.arr_onSeq]
  · rw [State.mem_finishAll, State.mem_nestSettle]
    rfl

end Sys2Proof.Claims
end

section
namespace Sys2Proof.Machine

open Sys2Proof.Claims

/-- A tile whose slots are all zero is skipped with its runs, once its blocks are looked up (04 R102-R103). -/
theorem State.nestSparse_skips {s v : State} {c : CoreId} {r : NestRun} {k n : Nat} {h : SparseHdr} {sl : List Nat}
    (sparse : r.d.spo = 1 ∨ r.d.spo = 2)
    (slots : s.slotsOf r.part h (tileBlocks r.d.spo r.d.wide (pairClass r.d.fmtA r.d.fmtW) k n 0) = (v, .ok sl))
    (zero : ∀ x ∈ sl, x = 0xFFFF_FFFF) (rest : List SeqOp) : s.nestSparse c r rest k n h = v.nestSkip c rest := by
  have blocks (nb : Nat) : tileBlocks r.d.spo r.d.wide (pairClass r.d.fmtA r.d.fmtW) k n nb =
      tileBlocks r.d.spo r.d.wide (pairClass r.d.fmtA r.d.fmtW) k n 0 := by
    obtain spk | spn := sparse
    · rw [spk]
      rfl
    · rw [spn]
      rfl
  have notMsk : r.d.spo ≠ 3 := by
    obtain spk | spn := sparse
    · simp [spk]
    · simp [spn]
  have all : sl.all (· == zeroSlot) = true := by simpa [zeroSlot] using zero
  unfold State.nestSparse
  simp only [notMsk, if_false, blocks, slots, all, if_true]

/-- The load of a dense tile, into the half that the next tile takes. -/
def nestLoadOp (r : NestRun) (half : Fin 2) (src : Nat) : LoadwOp :=
  ⟨half, BitVec.ofNat 64 src, r.d.wide, r.d.fmtA, r.d.fmtW, r.d.spo⟩

theorem State.nestLoad_dense (s : State) (c : CoreId) (r : NestRun) (rest : List SeqOp) (src : Nat) :
    s.nestLoad c r rest src none = ((s.nestOpen c rest).onSeq c (fun q => { q with half := 1 - q.half })).loadwIssue c r.part
      (.nest c) (nestLoadOp r (s.core c).seq.half src) none := rfl

/-- The group of a nest's open passes the checks of 02 R52 if its format does. -/
theorem nestOpen_accepts {s : State} {c : CoreId} {r : NestRun} {g : GroupId} {rows : Nat} (closed : (s.group c g).state = .closed)
    (some_ : 0 < rows) (fits : (if r.d.spo = 2 then 2 else 1) * rows * (if r.d.wide then 512 else 128) ≤ 32768)
    {f : Option (BitVec 4)} (rest : List SeqOp) (format : ∀ x, f = some x → preloadOk (fmtIsInt r.d.fmtA) x = true) :
    (s.nestOpen c rest).agOpenBad c g (fmtIsInt r.d.fmtA) (if r.d.wide then 512 else 128) ((if r.d.spo = 2 then 2 else 1) * rows) f
      = none := by
  have width : (if r.d.wide then 512 else 128) = 128 ∨ (if r.d.wide then 512 else 128) = 512 := by
    cases r.d.wide
    · exact .inl rfl
    · exact .inr rfl
  refine State.agOpenBad_none ?_ width (Nat.mul_pos ?_ some_) fits format
  · rw [State.nestOpen, State.group_onSeq, closed]
  · split <;> decide

theorem State.arr_nestSkip (s : State) (c : CoreId) (rest : List SeqOp) : ((s.nestSkip c rest).core c).arr = (s.core c).arr :=
  s.arr_onSeq c c _

section
variable {s : State} {c : CoreId} {r : NestRun} {rest : List SeqOp} (run : (s.core c).seq.run = some r) (on : s.coreOn c = true)
  (fine : r.failed = none)

include run

theorem State.seq_nestSkip : ((s.nestSkip c rest).core c).seq =
    { (s.core c).seq with skip := satInc 32 (s.core c).seq.skip, run := some { r with ops := dropRuns rest } } := by
  rw [State.nestSkip, State.seq_onSeq, run, Option.map_some]

include fine

/-- A plain open completes at once: the nest goes on with no command more open. -/
theorem State.seq_nestOpen_done (g : GroupId) (f : Group → Group) :
    ((((s.nestOpen c rest).onAg c g f).finish (.nest c) .done).core c).seq =
      { (s.core c).seq with run := some { r with ops := rest } } := by
  rw [State.finish, State.seq_nestInner, State.seq_onAg, State.seq_nestOpen run]
  simp [fine]

include on

section
variable {g : GroupId} {rows cols pre : Nat} (ops : r.ops = .opn g rows cols pre :: rest) (closed : (s.group c g).state = .closed)
  (some_ : 0 < rows) (fits : (if r.d.spo = 2 then 2 else 1) * rows * (if r.d.wide then 512 else 128) ≤ 32768)

include ops in
theorem seqIssueAt_opn_waits (busy : (s.group c g).state ≠ .closed) : seqIssueAt c s = .next s :=
  (seqIssueAt_opn run on fine ops).trans (if_pos busy)

include ops closed some_ fits

theorem seqIssueAt_opens (left : rest ≠ []) (plain : r.d.start = false) : seqIssueAt c s =
    .next (((s.nestOpen c rest).onAg c g (fun _ => { state := .opened, acctInt := fmtIsInt r.d.fmtA, wide := r.d.wide
                                                     rows := (if r.d.spo = 2 then 2 else 1) * rows })).finish (.nest c) .done) := by
  have settled (x : Group) := State.nestSettle_goes (congrArg Seq.run (State.seq_nestOpen_done run fine (rest := rest) g fun _ => x))
    fun _ => ⟨left, fine⟩
  rw [seqIssueAt_opn run on fine ops, if_neg (Classical.not_not.2 closed), plain, if_neg Bool.false_ne_true,
    State.agOpen_plain (nestOpen_accepts closed some_ fits rest fun _ h => nomatch h), settled, ite_width_eq]

theorem seqIssueAt_preloads (start : r.d.start = true) (cols_ : 0 < cols) (format : preloadOk (fmtIsInt r.d.fmtA) r.d.pfmt = true)
    (source : s.arrSource c r.part pre (elemBytes r.d.pfmt ((rows - 1) * (nth (0, 0, 0, 0) r.d.levels 2).1 + cols)) true = .done) :
    seqIssueAt c s = .next (((s.nestOpen c rest).onAg c g (fun _ => {
      state := .opened, acctInt := fmtIsInt r.d.fmtA, preload := true, wide := r.d.wide
      rows := (if r.d.spo = 2 then 2 else 1) * rows, loading := true })).onArr c (fun x => { x with
        xfers := x.xfers ++ [.preload (.nest c) r.part g pre r.d.pfmt (nth (0, 0, 0, 0) r.d.levels 2).1
          ((if r.d.spo = 2 then 2 else 1) * rows / max rows 1) cols rows false 0 .done] })) := by
  have place : (s.nestOpen c rest).arrSource = s.arrSource := s.arrSource_onSeq c _
  rw [← place] at source
  have accepts := nestOpen_accepts closed some_ fits rest (f := some r.d.pfmt) fun x h => Option.some.inj h ▸ format
  rw [seqIssueAt_opn run on fine ops, if_neg (Classical.not_not.2 closed), if_pos start,
    State.agOpen_preload accepts cols_ source, State.nestSettle_opened, ite_width_eq]
  rw [State.seq_onArr, State.seq_onAg, State.seq_nestOpen run]

end

theorem seqIssueAt_loads {k n src : Nat} (ops : r.ops = .tile k n src none :: rest) (dense : r.d.spo = 0)
    (pair : pairOk r.d.spo r.d.fmtA r.d.fmtW = true) (source : s.arrSource c r.part (src % 2 ^ 64)
      (tileBytes (geometry r.d.spo r.d.wide r.d.fmtA r.d.fmtW) r.d.fmtW) false = .done) :
    seqIssueAt c s = .next (((s.nestOpen c rest).onSeq c (fun q => { q with half := 1 - q.half })).onArr c (fun a =>
      a.withLoad (.nest c) r.part (nestLoadOp r (s.core c).seq.half src) none)) := by
  have place : ((s.nestOpen c rest).onSeq c (fun q => { q with half := 1 - q.half })).arrSource = s.arrSource :=
    (State.arrSource_onSeq _ _ _).trans (s.arrSource_onSeq c _)
  have address : (nestLoadOp r (s.core c).seq.half src).src.toNat = src % 2 ^ 64 := BitVec.toNat_ofNat _ _
  rw [← place, ← address] at source
  have issued := State.loadwIssue_dense (op := nestLoadOp r (s.core c).seq.half src) (o := .nest c) dense pair source
  rw [seqIssueAt_denseTile run on fine ops, State.nestLoad_dense, issued, State.nestSettle_opened]
  rw [State.seq_onArr, State.seq_onSeq, State.seq_nestOpen run]

theorem seqIssueAt_skips {k n src : Nat} {h : SparseHdr} {v : State} {sl : List Nat} (ops : r.ops = .tile k n src (some h) :: rest)
    (sparse : r.d.spo = 1 ∨ r.d.spo = 2)
    (slots : s.slotsOf r.part h (tileBlocks r.d.spo r.d.wide (pairClass r.d.fmtA r.d.fmtW) k n 0) = (v, .ok sl))
    (zero : ∀ x ∈ sl, x = 0xFFFF_FFFF) (more : dropRuns rest ≠ []) (runs : (v.core c).seq.run = some r) :
    seqIssueAt c s = .next (v.nestSkip c rest) := by
  rw [seqIssueAt_sparseTile run on fine ops, State.nestSparse_skips sparse slots zero,
    State.nestSettle_goes (congrArg Seq.run (State.seq_nestSkip runs)) fun _ => ⟨more, fine⟩]

section
variable {k n : Nat} {g : GroupId} {rows aoff : Nat} {rlen : Option Nat} (ops : r.ops = .run k n g rows aoff rlen :: rest)

include ops

theorem seqIssueAt_run_waits (full : 16 ≤ (s.core c).arr.queued) : seqIssueAt c s = .next s :=
  (seqIssueAt_run run on fine ops).trans (if_pos full)

theorem seqIssueAt_runs (room : (s.core c).arr.queued < 16)
    (check : s.runCheck c (nestRunOp r (s.core c).seq.half k g rows aoff) false = .done) : seqIssueAt c s =
      .next ((((s.nestOpen c rest).onSeq c (fun q => { q with pos := k })).onAg c g (fun x => { x with
        lastk := (BitVec.ofNat 20 k : BitVec 20).toNat, empty := false })).onArr c (fun a => { a with
          seq := a.seq + 1
          runs := a.runs ++ [.queued a (.nest c) r.part (nestRunOp r (s.core c).seq.half k g rows aoff) rlen] })) := by
  have arr : (((s.nestOpen c rest).onSeq c (fun q => { q with pos := k })).core c).arr = (s.core c).arr :=
    (State.arr_onSeq _ _ _ _).trans (s.arr_onSeq c c _)
  rw [seqIssueAt_run run on fine ops, if_neg (Nat.not_le.2 room),
    State.runIssue_done ((State.runCheck_congr arr _ _).trans check), State.nestSettle_opened]
  · rfl
  · rw [State.seq_onArr, State.seq_onAg, State.seq_onSeq, State.seq_nestOpen run]

end

theorem seqIssueAt_closes {g : GroupId} {rows cols cbase : Nat} (ops : r.ops = .close g rows cols cbase :: rest)
    (opened : (s.group c g).state = .opened) (some_ : 0 < rows) (format : fmtReserved r.d.fmtOut = false) (ovf : r.d.ovf ≠ 3)
    (steady : r.d.rnd ≠ 3) (paired : fmtPaired r.d.fmtOut = true → r.d.pstrm ≠ r.d.ostrm) (bypass : r.d.bypass = true) :
    seqIssueAt c s = .next (((s.nestOpen c rest).onAg c g (fun x => { x with state := .draining })).onArr c (fun a => { a with
      seq := a.seq + 1
      xfers := a.xfers ++ [.close (.nest c) r.part a.seq (nestCloseOp r.d g cbase) ((s.group c g).rows / max rows 1) cols
        ((s.group c g).rows / max rows 1 * rows) false 0 none] })) := by
  have group : (s.nestOpen c rest).group c g = s.group c g := s.group_onSeq c _ g
  have done := State.agClose_done (s := s.nestOpen c rest) (c := c) (op := nestCloseOp r.d g cbase) ((congrArg _ group).trans opened)
    some_ format ovf steady paired (if_pos bypass) r.part (.nest c) cols
  rw [seqIssueAt_close run on fine ops, done, State.nestSettle_opened]
  · rw [← group]
    rfl
  · rw [State.seq_onArr, State.seq_onAg, State.seq_nestOpen run]

end

end Sys2Proof.Machine
end

section
namespace Sys2Proof.Claims

open Sys2Proof.Machine

theorem nestsCommanded : NestCommands := by
  intro s c r rest run on fine left d a width fac maxO
  have run' : ((s.from_ c).core c).seq.run = some r := run
  have step {t : State} (next : seqIssueAt c (s.from_ c) = .next t) : exec (.seqIssue c) s = .next (t.back s) :=
    (exec_seqIssue c s).trans (asCore_of_next next)
  have going := State.seq_nestOpen run' rest
  have array : (((s.from_ c).nestOpen c rest).core c).arr = (s.core c).arr := State.arr_onSeq _ _ _ _
  have group (g : GroupId) : ((s.from_ c).nestOpen c rest).group c g = s.group c g := State.group_onSeq _ _ _ _
  have opening : ((s.from_ c).nestOpen c rest).mem = s.mem := rfl
  refine ⟨fun g rows cols pre ops => ⟨fun busy => ?_, fun closed some_ fits => ⟨fun plain => ?_, fun start cols_ format source => ?_⟩⟩,
    fun k n src ops dense pair source => ?_, fun k n src hd v sl ops sparse slots zero more => ?_,
    fun k n g rows aoff rlen ops => ⟨fun full => ?_, fun room => ?_⟩,
    fun g rows cols cbase ops opened some_ format ovf steady paired bypass => ?_⟩
  · exact step (t := s.from_ c) (seqIssueAt_opn_waits run' on fine ops busy)
  · refine ⟨_, step (seqIssueAt_opens run' on fine ops closed some_ fits left plain),
      congrArg Seq.run (State.seq_nestOpen_done run' fine g _), ?_, fun g' ne => ?_, .of_mem ?_⟩
    · rw [State.group_back, State.group_finish, State.group_onAg]
    · rw [State.group_back, State.group_finish, State.group_onAg_other _ _ _ ne, group]
    · rw [State.mem_finish_back, State.mem_onAg, opening]
  · refine ⟨_, step (seqIssueAt_preloads run' on fine ops closed some_ fits start cols_ format source), ?_, ?_, ?_, ?_, ?_, .of_mem ?_⟩
    · rw [State.core_back, State.seq_onArr, State.seq_onAg, going]
    · rw [State.group_back, State.group_onArr, State.group_onAg]
    · rw [State.group_back, State.group_onArr, State.group_onAg]
    · rw [State.group_back, State.group_onArr, State.group_onAg]
    · rw [State.core_back, State.arr_onArr, State.onAg, State.arr_onArr, array]
    · rw [State.mem_back, State.mem_onArr, State.mem_onAg, opening]
  · refine ⟨_, step (seqIssueAt_loads run' on fine ops dense pair source), ?_, ?_, ?_, .of_mem ?_⟩
    · rw [State.core_back, State.seq_onArr, State.seq_onSeq, going]
      rfl
    · rw [State.core_back, State.arr_onArr, State.arr_onSeq, array]
      rfl
    · rw [State.core_back, State.arr_onArr]
      simp [Arr.withLoad, vmod, nestLoadOp]
    · rw [State.mem_back, State.mem_onArr, State.mem_onSeq, opening]
  · have counted := (s.from_ c).slotsOf_counted r.part hd (tileBlocks d.spo d.wide (pairClass d.fmtA d.fmtW) k n 0)
    rw [slots] at counted
    have vrun : (v.core c).seq.run = some r := (congrArg Seq.run (counted.core_congr Core.seq c)).trans run
    have skipped := State.seq_nestSkip vrun (rest := rest)
    exact ⟨_, step (seqIssueAt_skips run' on fine ops sparse slots zero more vrun), congrArg Seq.run skipped,
      (congrArg Seq.skip skipped).trans (satInc_eq_min 32 _), congrArg Arr.loads (v.arr_nestSkip c rest), rfl⟩
  · exact step (t := s.from_ c) (seqIssueAt_run_waits run' on fine ops full)
  · intro op check
    refine ⟨_, step (seqIssueAt_runs run' on fine ops room check), ?_, ?_, ?_, ?_, ?_, .of_mem ?_⟩
    · rw [State.core_back, State.seq_onArr, State.seq_onAg, State.seq_onSeq]
    · rw [State.core_back, State.seq_onArr, State.seq_onAg, State.seq_onSeq, going]
    · rw [State.core_back, State.arr_onArr, State.onAg, State.arr_onArr, State.arr_onSeq, array]
      rfl
    · rw [State.group_back, State.group_onArr, State.group_onAg]
    · rw [State.group_back, State.group_onArr, State.group_onAg]
    · rw [State.mem_back, State.mem_onArr, State.mem_onAg, State.mem_onSeq, opening]
  · refine ⟨_, step (seqIssueAt_closes run' on fine ops opened some_ format ovf steady paired bypass), ?_, ?_, ?_, .of_mem ?_⟩
    · rw [State.core_back, State.seq_onArr, State.seq_onAg, going]
    · rw [State.group_back, State.group_onArr, State.group_onAg, group]
    · rw [State.core_back, State.arr_onArr, State.onAg, State.arr_onArr, array, nestCloseOp, if_pos bypass]
      rfl
    · rw [State.mem_back, State.mem_onArr, State.mem_onAg, opening]

/-- Settles O26: a nest from its issue through its start and its commands to its abort. -/
theorem nests : Obligations.Nests := ⟨nestsIssued, nestsStarted, nestsCommanded, nestsAborted⟩

end Sys2Proof.Claims
end

section
/-! SUPPORT. Messages, their timers and the notices that end operations (10 R227, 14 R319-R321, 18 R403): what the sending of notices
and the return of credits leave unchanged, and the equations of the messages' events. -/

namespace Sys2Proof.Claims

open Sys2Proof.Machine

/-- `t` is `s` after messages have left and codes have been reported: the memory, the trust unit, the operations and collectives under
way are as before, and so is each pier but for its ports. -/
structure Messaged (s t : State) : Prop where
  mem : t.mem = s.mem
  sec : t.sec = s.sec
  sentOps : t.sentOps = s.sentOps
  collRuns : t.collRuns = s.collRuns
  pier : ∀ p, ∃ ports, t.pier p = { s.pier p with ports }

/-- `t` is `s` after credits have returned to their windows, which lie in the quarters and the cores. -/
def Credited (s t : State) : Prop :=
  (∃ quarters cores, t = { s with quarters, cores }) ∧ ∀ c, (t.core c).seq = (s.core c).seq

section
variable {s t u : State}

theorem Messaged.of_piers (mem : t.mem = s.mem) (sec : t.sec = s.sec) (sentOps : t.sentOps = s.sentOps)
    (collRuns : t.collRuns = s.collRuns) (piers : t.piers = s.piers) : Messaged s t :=
  ⟨mem, sec, sentOps, collRuns, fun p => ⟨(s.pier p).ports, congrArg (·[p.val]) piers⟩⟩

theorem Messaged.refl (s : State) : Messaged s s := .of_piers rfl rfl rfl rfl rfl

theorem Messaged.trans (h : Messaged s t) (g : Messaged t u) : Messaged s u := by
  refine ⟨g.mem.trans h.mem, g.sec.trans h.sec, g.sentOps.trans h.sentOps, g.collRuns.trans h.collRuns, fun p => ?_⟩
  obtain ⟨_, first⟩ := h.pier p
  obtain ⟨ports, second⟩ := g.pier p
  exact ⟨ports, by rw [second, first]⟩

theorem Messaged.foldl {α : Type} {f : State → α → State} (h : ∀ s a, Messaged s (f s a)) (l : List α) (s : State) :
    Messaged s (l.foldl f s) := by
  induction l generalizing s with
  | nil => exact .refl s
  | cons a l ih => exact (h s a).trans (ih _)

theorem Messaged.ite {p : Prop} [Decidable p] (ht : Messaged s t) (hu : Messaged s u) : Messaged s (if p then t else u) := by
  split
  · exact ht
  · exact hu

theorem Messaged.onPort (s : State) (n : PortId) (f : Port → Port) : Messaged s (s.onPort n f) := by
  refine ⟨rfl, rfl, rfl, rfl, fun p => ?_⟩
  rw [State.onPort, State.pier_onPier_eq]
  split
  · exact ⟨_, rfl⟩
  · exact ⟨_, rfl⟩

/-- What is no port of a pier is as before. -/
theorem Messaged.pier_congr {α : Type} (h : Messaged s t) (g : Pier → α) (p : PierId) (hg : ∀ k ports, g { k with ports } = g k) :
    g (t.pier p) = g (s.pier p) := by
  obtain ⟨_, same⟩ := h.pier p
  rw [same, hg]

theorem Credited.refl (s : State) : Credited s s := ⟨⟨_, _, rfl⟩, fun _ => rfl⟩

theorem Credited.trans (h : Credited s t) (g : Credited t u) : Credited s u := by
  obtain ⟨⟨_, _, rfl⟩, seq⟩ := h
  obtain ⟨⟨_, _, rfl⟩, seq'⟩ := g
  exact ⟨⟨_, _, rfl⟩, fun c => (seq' c).trans (seq c)⟩

theorem Credited.foldl {α : Type} {f : State → α → State} (h : ∀ s a, Credited s (f s a)) (l : List α) (s : State) :
    Credited s (l.foldl f s) := by
  induction l generalizing s with
  | nil => exact .refl s
  | cons a l ih => exact (h s a).trans (ih _)

theorem Credited.messaged (h : Credited s t) : Messaged s t := by
  obtain ⟨⟨_, _, rfl⟩, -⟩ := h
  exact .of_piers rfl rfl rfl rfl rfl

theorem Credited.notices (h : Credited s t) : t.notices = s.notices := by
  obtain ⟨⟨_, _, rfl⟩, -⟩ := h
  rfl

end

end Sys2Proof.Claims

namespace Sys2Proof.Machine

open Sys2Proof.Claims

theorem Noted.notices {s t : State} (h : Noted s t) : t.notices = s.notices := by
  obtain ⟨_, _, _, _, _, _, _, rfl⟩ := h
  rfl

/-! ## What a notice and a completion leave unchanged -/

theorem State.onSnapg_messaged (s : State) (f : Snapg → Snapg) : Messaged s (s.onSnapg f) := .of_piers rfl rfl rfl rfl rfl

theorem State.dispatch_messaged {s t : State} {dst : Nat} {fb : Bool} {vc : Fin 8} {ad : Bool} {fs : List TxFlit}
    (h : s.dispatch dst fb vc ad fs = .ok t) : Messaged s t := by
  obtain ⟨u, queued, _, _, _, rfl⟩ := State.dispatch_ok h
  refine .trans ?_ (.of_piers (s := u) rfl rfl rfl rfl rfl)
  obtain rfl | ⟨n, rfl⟩ := queued
  · exact .refl _
  · exact .onPort _ _ _

theorem State.sendMsg_messaged {s t : State} {dst : Nat} {fb : Bool} {vc : Fin 8} {p : PartId} {ad : Bool} {op : Nat}
    {ep : Option Nat} {data : List Byte} (h : s.sendMsg dst fb vc p ad op ep data = .ok t) : Messaged s t :=
  .trans (t := s.onPart p (fun p => { p with counter := p.counter + 1 })) (.of_piers rfl rfl rfl rfl rfl) (State.dispatch_messaged h)

theorem State.trySend_messaged (s : State) (dst : Nat) (fb : Bool) (vc : Fin 8) (op : Nat) (data : List Byte) :
    Messaged s (s.trySend dst fb vc op data) := by
  unfold State.trySend
  split
  next sent => exact State.sendMsg_messaged sent
  · exact .refl s

/-- A notice leaves on VC 4 and is kept. -/
theorem State.notice_messaged (s : State) (dst op : Nat) (e : Code) : Messaged s (s.notice dst op e) :=
  (s.trySend_messaged dst s.fabricB 4 op _).trans (.of_piers rfl rfl rfl rfl rfl)

theorem State.notice_told (s : State) (dst op : Nat) (e : Code) : Told s (s.notice dst op e) dst op e :=
  congrArg (· ++ [(dst, op, e)]) (s.trySend_noted dst s.fabricB 4 op _).notices

theorem State.notice_cores (s : State) (dst op : Nat) (e : Code) : (s.notice dst op e).cores = s.cores :=
  (s.trySend_noted dst s.fabricB 4 op _).cores

theorem State.setCopy_messaged (s : State) (b : SnapBlock) (x : Snap) : Messaged s (s.setCopy b x) := by
  cases b <;> exact .of_piers rfl rfl rfl rfl rfl

theorem State.moduleTrigger_messaged (s : State) (x : BitVec 4) (l : Bool) : Messaged s (s.moduleTrigger x l) := by
  have captured (t : State) (b : SnapBlock) : Messaged t (t.capture b x l false) := .ite (.refl t) (t.setCopy_messaged _ _)
  have missed : Messaged s (if s.snapg.pwr.valid then s.onSnapg (fun g => { g with missed := satInc 32 g.missed }) else s) :=
    .ite (s.onSnapg_messaged _) (.refl s)
  exact missed.trans (.foldl captured _ _)

theorem State.sendTrigger_messaged (s : State) (target : Nat) (both : Bool) : Messaged s (s.sendTrigger target both) := by
  have sent (fb : State → Bool) (l : List Nat) (t : State) :
      Messaged t (l.foldl (fun u d => u.trySend d (fb u) 4 u.nextOp (leBytes 8 target)) t) :=
    .foldl (fun u d => u.trySend_messaged d _ 4 _ _) l t
  unfold State.sendTrigger
  refine .trans ?_ (State.onSnapg_messaged _ _)
  split
  · exact (sent (·.fabricB) _ s).trans (sent (!·.fabricB) _ _)
  · exact sent (·.fabricB) _ s

theorem State.matchTrigger_messaged (s : State) : Messaged s s.matchTrigger :=
  have taken := s.moduleTrigger_messaged 2 false
  .ite (.ite (taken.trans (State.sendTrigger_messaged _ _ _)) taken) (.refl s)

theorem State.report_messaged (s : State) (e : Code) : Messaged s (s.report e) :=
  have logged : Messaged s (if codeLogged e then s.addLog (.code e s.now) else s) := .ite (.of_piers rfl rfl rfl rfl rfl) (.refl s)
  .ite (logged.trans (State.matchTrigger_messaged _)) logged

theorem State.finishCpl_messaged (s : State) (c : Cpl) (e : Code) : Messaged s (s.finishCpl c e) :=
  .ite (.of_piers rfl rfl rfl rfl rfl) (.of_piers rfl rfl rfl rfl rfl)

theorem State.finish_messaged (s : State) (o : Owner) (e : Code) : Messaged s (s.finish o e) := by
  cases o with
  | thread c => exact (s.report_messaged e).trans (State.finishCpl_messaged _ _ _)
  | nest c => exact .of_piers rfl rfl rfl rfl rfl
  | quiet => exact s.report_messaged e

/-! ## What the return of credits leaves unchanged (11 R248) -/

theorem State.release_credited (s : State) (r : WinRef) (n : Nat) : Credited s (s.release r n) := by
  cases r with
  | scratch q w => exact ⟨⟨_, _, rfl⟩, fun _ => rfl⟩
  | cmem c w => exact ⟨⟨_, _, rfl⟩, fun d => State.core_onCore_congr Core.seq s c d⟩
  | remote => exact .refl s

theorem State.returnCredits_credited (s : State) (p : PartId) (a n : Nat) : Credited s (s.returnCredits p a n) := by
  refine .foldl (fun t l => ?_) _ s
  split
  · split
    · exact t.release_credited _ 1
    · exact .refl t
  · exact .refl t

end Sys2Proof.Machine
end

section
namespace Sys2Proof.Machine

open Sys2Proof.Claims

theorem exec_message (m : Msg) (s : State) : exec (.message m) s = execMessage m s := rfl
theorem exec_stallTimeout (src op : Nat) (s : State) : exec (.stallTimeout src op) s = execStallTimeout src op s := rfl
theorem exec_senderTimeout (op : Nat) (s : State) : exec (.senderTimeout op) s = execSenderTimeout op s := rfl
theorem exec_abortNotice (op : Nat) (x : Notice) (s : State) : exec (.abortNotice op x) s = execAbortNotice op x s := rfl

/-! ## A message at its pier (10 R227, 14 R319, R321, 18 R403) -/

/-- An event of a pier's engine that goes on leaves no requester at hand. -/
theorem asPier_of_next {p : PierId} {f : State → Out} {s t : State} (h : f (atPier s p) = .next t) : asPier p f s = .next (t.back s) := by
  change (match f (atPier s p) with | .next t => Host.Outcome.next (t.back s) | o => o) = _
  rw [h]

/-- The flow whose counters a message meets (18 R403). -/
def flowKey (m : Msg) : Nat × Nat × Nat := (m.src + 16384 * (if m.fabricB then 1 else 0), m.dst, m.vc.val)

/-- A message's bytes, if its tag is good (18 R402). -/
def State.plainOf (s : State) (m : Msg) : Option (List Byte) :=
  Config.gcmOpen (s.fabricKey m.part) (gcmNonce m.src m.fabricB m.part m.counter.toNat) m.aad m.data m.tag

/-- The pier's count of a message that its tag or its counter refuses. -/
def State.countRefused (s : State) (m : Msg) : State :=
  let t := s.onPier m.pier (fun p => { p with abort := satInc 32 p.abort })
  { t with sec := { t.sec with tagfail := satInc 32 t.sec.tagfail } }

theorem State.abort_countRefused (s : State) (m : Msg) :
    ((s.countRefused m).pier m.pier).abort = min (2 ^ 32 - 1) ((s.pier m.pier).abort + 1) := by
  change ((s.onPier m.pier (fun p => { p with abort := satInc 32 p.abort })).pier m.pier).abort = _
  rw [State.pier_onPier, satInc_eq_min]

/-- The message's earlier pieces are forgotten, and its counter is one of those seen. -/
def State.acceptMsg (s : State) (m : Msg) : State :=
  s.onPier m.pier (fun p => { p with
    msgs := p.msgs.filter (fun e => e.src != m.src || e.op != m.op) }.setMark (flowKey m) m.counter.toNat)

/-- The message's earlier pieces are forgotten. -/
def State.forgetMsg (s : State) (m : Msg) : State :=
  s.onPier m.pier (fun p => { p with msgs := p.msgs.filter (fun e => e.src != m.src || e.op != m.op) })

theorem State.dropMsg_cases (s : State) (m : Msg) (e : Code) :
    ∃ u, Credited (s.forgetMsg m) u ∧ s.dropMsg m.pier m e = u.notice m.src m.op e := by
  unfold State.dropMsg
  dsimp only
  split
  · exact ⟨_, State.returnCredits_credited _ _ _ _, rfl⟩
  · exact ⟨_, .refl _, rfl⟩

/-- A message discarded whole: its sender is told, its pieces are forgotten, and beside that only credits return. -/
theorem State.dropMsg_leaves (s : State) (m : Msg) (e : Code) : let t := s.dropMsg m.pier m e
    Told s t m.src m.op e ∧ Messaged (s.forgetMsg m) t ∧ ∀ c, (t.core c).seq = (s.core c).seq := by
  obtain ⟨u, credited, dropped⟩ := s.dropMsg_cases m e
  have kept : Messaged u (s.dropMsg m.pier m e) := dropped ▸ u.notice_messaged _ _ _
  refine ⟨?_, credited.messaged.trans kept, fun c => ?_⟩
  · rw [dropped, Told, u.notice_told, credited.notices]
    rfl
  · have cores : (s.dropMsg m.pier m e).cores = u.cores := dropped ▸ u.notice_cores _ _ _
    exact (congrArg (fun k => (k[c.val]).seq) cores).trans (credited.2 c)

/-- No piece of the message discarded stays with its pier. -/
theorem State.dropMsg_forgets (s : State) (m : Msg) (e : Code) :
    ∀ x ∈ ((s.dropMsg m.pier m e).pier m.pier).msgs, ¬ (x.src = m.src ∧ x.op = m.op) := by
  obtain ⟨-, kept, -⟩ := s.dropMsg_leaves m e
  rw [kept.pier_congr Pier.msgs m.pier fun _ _ => rfl, State.forgetMsg, State.pier_onPier]
  intro x hx same
  simp [same] at hx

section
variable {s : State} {m : Msg}

theorem opened_iff : ((s.pier m.pier).msgs.any (fun e => e.src == m.src && e.op == m.op)) = true ↔
    ∃ e ∈ (s.pier m.pier).msgs, e.src = m.src ∧ e.op = m.op := by
  simp

theorem piece_known (known : m.first = true ∨ ∃ e ∈ (s.pier m.pier).msgs, e.src = m.src ∧ e.op = m.op) :
    ¬ ((!m.first) = true ∧ (!(s.pier m.pier).msgs.any (fun e => e.src == m.src && e.op == m.op)) = true) := by
  rintro ⟨later, shut⟩
  obtain first | opened := known
  · rw [first] at later
    exact nomatch later
  · rw [opened_iff.2 opened] at shut
    exact nomatch shut

theorem messageAt_stale (data : tagged m.kind = true) (old : m.epoch ≠ (s.core (s.msgCore m)).seq.epoch) :
    messageAt m s = .next ((s.countStale (s.msgCore m)).dropMsg m.pier m .staleEpoch) :=
  if_pos ⟨data, old⟩

variable (good : tagged m.kind = true → m.epoch = (s.core (s.msgCore m)).seq.epoch)
include good

theorem messageAt_late (later : m.first = false) (shut : ¬ ∃ e ∈ (s.pier m.pier).msgs, e.src = m.src ∧ e.op = m.op) :
    messageAt m s = .next (s.onPier m.pier (fun p => { p with late := min (2 ^ 32 - 1) (p.late + 1) })) := by
  rw [← opened_iff] at shut
  unfold messageAt
  dsimp only
  rw [if_neg fun stale => stale.2 (good stale.1), if_pos (by simpa [later] using shut)]
  simp only [satInc_eq_min]

variable (known : m.first = true ∨ ∃ e ∈ (s.pier m.pier).msgs, e.src = m.src ∧ e.op = m.op)
include known

theorem messageAt_waits (more : m.last = false) :
    messageAt m s = .next (s.onPier m.pier (fun p => { p with
      msgs := p.msgs.filter (fun e => e.src != m.src || e.op != m.op) ++ [⟨m.src, m.op, m.part, m.addr, m.len, s.now⟩] })) := by
  unfold messageAt
  dsimp only
  rw [if_neg fun stale => stale.2 (good stale.1), if_neg (piece_known known), if_pos (by simp [more])]

variable (whole : m.last = true)
include whole

theorem messageAt_served {bs : List Byte} (opens : s.plainOf m = some bs)
    (new : counterOk ((s.pier m.pier).mark (flowKey m)) m.adaptive m.counter.toNat = true) :
    messageAt m s = .next ((s.acceptMsg m).serveMsg m bs) := by
  unfold State.plainOf at opens
  change counterOk ((s.pier m.pier).mark (m.src + 16384 * b2n m.fabricB, m.dst, m.vc.val)) _ _ = _ at new
  unfold messageAt
  dsimp only
  rw [if_neg fun stale => stale.2 (good stale.1), if_neg (piece_known known), if_neg (by simp [whole]), opens, new]
  rfl

theorem messageAt_refused
    (bad : s.plainOf m = none ∨ counterOk ((s.pier m.pier).mark (flowKey m)) m.adaptive m.counter.toNat = false) :
    messageAt m s = .next ((s.countRefused m).dropMsg m.pier m .incomplete) := by
  unfold State.plainOf at bad
  change _ ∨ counterOk ((s.pier m.pier).mark (m.src + 16384 * b2n m.fabricB, m.dst, m.vc.val)) _ _ = _ at bad
  unfold messageAt
  dsimp only
  rw [if_neg fun stale => stale.2 (good stale.1), if_neg (piece_known known), if_neg (by simp [whole])]
  split
  next opens new => simp [opens, new] at bad
  · rfl

end

/-! ## What a served write leaves (14 R319) -/

theorem State.answerTo_done (s : State) (m : Msg) (data : List Byte) :
    Messaged s (s.answerTo m data .done) ∧ (s.answerTo m data .done).notices = s.notices := by
  simp only [State.answerTo]
  split
  next sent => exact ⟨State.sendMsg_messaged sent, (State.sendMsg_noted sent).notices⟩
  · exact ⟨.refl s, rfl⟩

theorem State.answerTo_fails {e : Code} (fails : e ≠ .done) (s : State) (m : Msg) (data : List Byte) :
    s.answerTo m data e = s.notice m.src m.op e := by
  rw [State.answerTo]
  exact fails

theorem State.serveMsg_write {m : Msg} (write : m.kind = .write ∨ m.kind = .stream) (s : State) (bs : List Byte) :
    s.serveMsg m bs = (s.land m.part (m.addr.toNat % 2 ^ 49) bs).1.answerTo m [] (s.land m.part (m.addr.toNat % 2 ^ 49) bs).2 := by
  unfold State.serveMsg
  obtain write | stream := write
  · rw [write]
  · rw [stream]

end Sys2Proof.Machine
end

section
namespace Sys2Proof.Claims

open Sys2Proof.Machine

theorem messagesArrive : MessageArrives := by
  intro s m on p v c isOpen good key plain
  have passed (elsewhere : m.dst ≠ s.dev) : exec (.message m) s = .next s := by
    rw [exec_message, execMessage, if_pos (.inr elsewhere)]
  have here (mine : m.dst = s.dev) {t : State} (next : messageAt m v = .next t) : exec (.message m) s = .next (t.back s) := by
    rw [exec_message, execMessage, if_neg (by simp [on, mine]), asPier_of_next next]
  refine ⟨passed, fun mine bad => ?_, fun mine good later shut => here mine (messageAt_late (s := v) good later shut),
    fun mine good known more => here mine (messageAt_waits (s := v) good known more),
    fun mine good known whole => ⟨fun bad => ?_,
      fun bs opens new => ⟨here mine (messageAt_served (s := v) good known whole opens new), fun w e write lands => ?_⟩⟩⟩
  · obtain ⟨data, old⟩ := Classical.not_imp.1 bad
    obtain ⟨told, kept, seq⟩ := (v.countStale c).dropMsg_leaves m .staleEpoch
    refine ⟨_, here mine (messageAt_stale (s := v) data old), told, kept.mem, ?_, (v.countStale c).dropMsg_forgets m .staleEpoch⟩
    rw [State.core_back, seq, State.countStale, State.core_onCore]
    exact satInc_eq_min 32 _
  · obtain ⟨told, kept, -⟩ := (v.countRefused m).dropMsg_leaves m .incomplete
    refine ⟨_, here mine (messageAt_refused (s := v) good known whole bad), told, kept.mem, ?_, ?_⟩
    · exact (congrArg Sec.tagfail kept.sec).trans (satInc_eq_min 32 _)
    · have counted := kept.pier_congr Pier.abort m.pier fun _ _ => rfl
      rw [State.forgetMsg, State.pier_onPier] at counted
      exact counted.trans (v.abort_countRefused m)
  · have run := here mine (messageAt_served (s := v) good known whole opens new)
    rw [State.serveMsg_write write] at run
    change (v.acceptMsg m).land m.part (m.addr.toNat % 2 ^ 49) bs = (w, e) at lands
    rw [lands] at run
    by_cases done : e = .done
    · subst done
      obtain ⟨kept, notices⟩ := w.answerTo_done m []
      exact ⟨_, run, kept.mem, kept.sec, fun _ => notices, fun ne => absurd rfl ne⟩
    · rw [State.answerTo_fails done] at run
      have kept := w.notice_messaged m.src m.op e
      exact ⟨_, run, kept.mem, kept.sec, fun is => absurd is done, fun _ => w.notice_told m.src m.op e⟩

end Sys2Proof.Claims
end

section
namespace Sys2Proof.Machine

open Sys2Proof.Claims

/-! ## The end of a collective (15 R342) -/

/-- Its run is taken away, the credits of its staging return, its pier keeps its code, and the rest is codes and notices. -/
theorem State.collEnd_messaged (s : State) (g : Nat) (x : GroupSpec) (r : CollRun) (e : Code) (tell : Bool) :
    ∃ u : State, u.collRuns = s.collRuns.filter (fun y => y.1 != g) ∧ u.mem = s.mem
      ∧ Messaged (u.onPier (s.homePier g) (fun p => { p with coll := { p.coll with code := e } })) (s.collEnd g x r e tell) := by
  have finished (d : State) : Messaged d (r.issues.foldl (fun u (i : CollIssue) => u.finish (.thread i.owner) e) d) :=
    Messaged.foldl (f := fun u (i : CollIssue) => u.finish (.thread i.owner) e) (fun t i => t.finish_messaged (.thread i.owner) e) _ _
  have told (l : List GroupMember) (d : State) : Messaged d (l.foldl (fun u m => u.notice m.dev (collOp g r.num) e) d) :=
    Messaged.foldl (f := fun u (m : GroupMember) => u.notice m.dev (collOp g r.num) e)
      (fun t m => t.notice_messaged m.dev (collOp g r.num) e) _ _
  unfold State.collEnd
  dsimp only
  cases r.staged with
  | none => exact ⟨_, by rfl, by rfl, .ite ((finished _).trans (told _ _)) (finished _)⟩
  | some w =>
    refine ⟨_, ?_, ?_, .ite ((finished _).trans (told _ _)) (finished _)⟩
    · exact (State.release_credited _ w.1 w.2).messaged.collRuns
    · exact (State.release_credited _ w.1 w.2).messaged.mem

/-- A collective is over on this module: it runs no longer, its pier keeps its code, and the memory is as before. -/
theorem State.collEnd_leaves (s : State) (g : Nat) (x : GroupSpec) (r : CollRun) (e : Code) (tell : Bool) :
    let t := s.collEnd g x r e tell
    t.collOf g = none ∧ (t.pier (s.homePier g)).coll.code = e ∧ t.mem = s.mem := by
  obtain ⟨u, gone, mem, kept⟩ := s.collEnd_messaged g x r e tell
  refine ⟨?_, ?_, kept.mem.trans mem⟩
  · rw [State.collOf, kept.collRuns.trans gone]
    simp
  · rw [kept.pier_congr Pier.coll _ fun _ _ => rfl, State.pier_onPier]

/-! ## The end of an operation (14 R319-R320) -/

section
variable {s : State} {o : SentOp} {e : Code}

theorem State.endOp_alone (alone : o.coll = none) :
    s.endOp o e = { s with sentOps := s.sentOps.filter (fun x => x.id != o.id) }.finish o.owner e := by
  rw [State.endOp, alone]

theorem State.endOp_chunk {g : Nat × Nat × Bool} {x : GroupSpec} {r : CollRun} (chunk : o.coll = some g)
    (group : s.groupOf g.1 = some x) (runs : s.collOf g.1 = some r) :
    s.endOp o e = { s with sentOps := s.sentOps.filter (fun x => x.id != o.id) }.collEnd g.1 x r e true := by
  rw [State.endOp, chunk]
  change (match s.groupOf g.1, s.collOf g.1 with | some x, some r => _ | _, _ => _) = _
  rw [group, runs]

end

/-- The state without an operation that has been answered. -/
def State.withoutOp (s : State) (op : Nat) : State := { s with sentOps := s.sentOps.filter (fun x => x.id != op) }

theorem State.sentOps_withoutOp (s : State) (op : Nat) : ∀ x ∈ (s.withoutOp op).sentOps, x.id ≠ op := by
  intro x hx
  simpa using (List.mem_filter.1 hx).2

/-! ## The stall timer of a message (14 R319) -/

/-- A message's entry whose time is up at its pier. -/
def stalledAt (s : State) (src op : Nat) (i : PierId) (e : OpenMsg) : Bool :=
  e.src == src && e.op == op && decide (e.at_ + (s.pier i).stallNs ≤ s.now)

theorem stalledAt_none {s : State} {src op : Nat} {i : PierId}
    (none_ : ∀ e ∈ (s.pier i).msgs, ¬ (e.src = src ∧ e.op = op ∧ e.at_ + (s.pier i).stallMs * 1_000_000 ≤ s.now)) :
    (s.pier i).msgs.find? (stalledAt s src op i) = none := by
  refine List.find?_eq_none.2 fun e he up => none_ e he ?_
  rw [stalledAt, Bool.and_eq_true, Bool.and_eq_true, beq_iff_eq, beq_iff_eq, decide_eq_true_iff, and_assoc] at up
  exact up

/-- The first of the piers with a message whose time is up, and that message. -/
def State.firstStalled (s : State) (src op : Nat) : Option (PierId × OpenMsg) :=
  ([0, 1] : List PierId).findSome? (fun i => ((s.pier i).msgs.find? (stalledAt s src op i)).map (fun e => (i, e)))

theorem State.firstStalled_some {s : State} {src op : Nat} {i : PierId} {e : OpenMsg}
    (first : i = 1 → (s.pier 0).msgs.find? (stalledAt s src op 0) = none)
    (found : (s.pier i).msgs.find? (stalledAt s src op i) = some e) : s.firstStalled src op = some (i, e) := by
  have two : ∀ i : PierId, i = 0 ∨ i = 1 := by decide
  obtain rfl | rfl := two i
  · simp [State.firstStalled, found]
  · simp [State.firstStalled, first rfl, found]

/-- The entry of a stalled message is discarded and counted. -/
def State.dropStalled (s : State) (i : PierId) (e : OpenMsg) : State :=
  s.onPier i (fun p => { p with msgs := p.msgs.erase e, abort := satInc 32 p.abort })

theorem execStallTimeout_stalled {s : State} {src op : Nat} {i : PierId} {e : OpenMsg}
    (hit : s.firstStalled src op = some (i, e)) : execStallTimeout src op s =
      .next (((s.dropStalled i e).returnCredits e.part (e.addr.toNat % 2 ^ 49) e.len).notice src op .incomplete) := by
  unfold State.firstStalled stalledAt at hit
  unfold execStallTimeout
  dsimp only
  rw [hit]
  rfl

/-- A session's name is none of a device, so that a device with no message stalled has nothing to discard. -/
theorem execStallTimeout_idle {s : State} {src op : Nat} (device : src < 2 ^ 32)
    (none_ : ∀ i : PierId, (s.pier i).msgs.find? (stalledAt s src op i) = none) :
    execStallTimeout src op s = .next s := by
  have session (i : PierId) : (s.pier i).sessions.find? (fun x => sessionName x.sid == src &&
      x.msgs.any (fun m => m.1 == op && decide (m.2.2.2 + (s.pier i).stallNs ≤ s.now))) = none := by
    refine List.find?_eq_none.2 fun x _ named => ?_
    rw [Bool.and_eq_true, beq_iff_eq, sessionName] at named
    omega
  unfold stalledAt at none_
  simp [execStallTimeout, none_, session]

/-- What the discarding of a stalled message leaves. -/
theorem stalledDropped_leaves (s : State) (src op : Nat) (i : PierId) (e : OpenMsg) :
    let t := ((s.dropStalled i e).returnCredits e.part (e.addr.toNat % 2 ^ 49) e.len).notice src op .incomplete
    Told s t src op .incomplete ∧ Messaged (s.dropStalled i e) t := by
  have credited := (s.dropStalled i e).returnCredits_credited e.part (e.addr.toNat % 2 ^ 49) e.len
  refine ⟨?_, credited.messaged.trans (State.notice_messaged _ _ _ _)⟩
  rw [Told, State.notice_told, credited.notices]
  rfl

end Sys2Proof.Machine
end

section
namespace Sys2Proof.Machine

open Sys2Proof.Claims

/-! ## The timer of an operation (14 R320) -/

theorem State.gang_dropCredit (s : State) (c d : CoreId) (g : GangId) (dst : Nat) (fb : Bool) (a : Nat) :
    (s.dropCredit c dst fb a).gang d g = s.gang d g :=
  congrArg (·[g.val]) (State.core_onCore_congr Core.gangs s c d)

theorem State.part_dropCredit (s : State) (c d : CoreId) (dst : Nat) (fb : Bool) (a : Nat) :
    (s.dropCredit c dst fb a).part d = s.part d :=
  State.core_onCore_congr Core.part s c d

theorem State.credits_dropCredit (s : State) (c : CoreId) (dst : Nat) (fb : Bool) (a : Nat) :
    ((s.dropCredit c dst fb a).core c).credits = (s.core c).credits.filter (fun e => !e.covers dst fb a 1) := by
  rw [State.dropCredit, State.core_onCore]

section
variable {s : State} {op : Nat} {o : SentOp} (found : s.sentOps.find? (fun o => o.id == op) = some o)
include found

theorem id_of_found : o.id = op := by
  simpa using List.find?_some found

theorem execSenderTimeout_early (early : s.now < o.at_ + 2 * (s.pier (s.opPier o)).stallNs) :
    execSenderTimeout op s = .next s := by
  rw [execSenderTimeout, found]
  exact if_neg (Nat.not_le.2 early)

/-- The operation ends; the entry that its grant would take over goes with it. -/
theorem execSenderTimeout_late (late : o.at_ + 2 * (s.pier (s.opPier o)).stallNs ≤ s.now) :
    ∃ cores, execSenderTimeout op s = .next ({ s with cores }.endOp o .incomplete)
      ∧ (∀ c g, { s with cores }.gang c g = s.gang c g) ∧ ∀ c, { s with cores }.part c = s.part c := by
  rw [execSenderTimeout, found]
  dsimp only
  rw [if_pos late]
  cases o.credit with
  | none => exact ⟨s.cores, rfl, fun _ _ => rfl, fun _ => rfl⟩
  | some k =>
    exact ⟨_, rfl, fun d g => s.gang_dropCredit k.1 d g o.dst o.fabricB k.2.1, fun d => s.part_dropCredit k.1 d o.dst o.fabricB k.2.1⟩

/-! ## The notice of an operation (11 R247-R248, 14 R319, 15 R340) -/

variable (small : op < 4294967296) {e : Code} {gr : Option Grant}
include small

theorem execAbortNotice_fails (fails : e ≠ .done) : execAbortNotice op ⟨e, gr⟩ s = .next (s.endOp o e) := by
  simp [execAbortNotice, Nat.not_le.2 small, found, fails]

theorem execAbortNotice_done (noCredit : o.credit = none) (alone : o.coll = none) :
    execAbortNotice op ⟨.done, gr⟩ s = .next ((s.withoutOp op).finish o.owner .done) := by
  simp [execAbortNotice, Nat.not_le.2 small, found, noCredit, alone, State.withoutOp]

theorem execAbortNotice_chunk {g : Nat × Nat × Bool} (noCredit : o.credit = none) (chunk : o.coll = some g) :
    execAbortNotice op ⟨.done, gr⟩ s = .next ((s.withoutOp op).chunkBack g.1) := by
  simp [execAbortNotice, Nat.not_le.2 small, found, noCredit, chunk, State.withoutOp]

section
variable {c : CoreId} {a n : Nat} (credit : o.credit = some (c, a, n))
include credit

theorem execAbortNotice_dropped (drops : n = 0) : execAbortNotice op ⟨.done, gr⟩ s =
    .next (((s.withoutOp op).dropCredit c o.dst o.fabricB a).finish o.owner .done) := by
  simp [execAbortNotice, Nat.not_le.2 small, found, credit, drops, State.withoutOp]

theorem execAbortNotice_granted {g : Grant} (asks : n ≠ 0) : execAbortNotice op ⟨.done, some g⟩ s =
    .next (((s.withoutOp op).takeGrant c o a n g).finish o.owner .done) := by
  simp [execAbortNotice, Nat.not_le.2 small, found, credit, asks, State.withoutOp]

theorem execAbortNotice_bare (asks : n ≠ 0) : execAbortNotice op ⟨.done, none⟩ s =
    .next ((s.withoutOp op).finish o.owner .incomplete) := by
  simp [execAbortNotice, Nat.not_le.2 small, found, credit, asks, State.withoutOp]

end

end

theorem execAbortNotice_unknown {s : State} {op : Nat} (small : op < 2 ^ 32) (unknown : ∀ o ∈ s.sentOps, o.id ≠ op) (x : Notice) :
    execAbortNotice op x s = .next s := by
  have none_ : s.sentOps.find? (fun o => o.id == op) = none :=
    List.find?_eq_none.2 fun o ho same => unknown o ho (beq_iff_eq.1 same)
  rw [execAbortNotice, if_neg (by omega), none_]

theorem collOp_group {g : Nat} (small : g < 256) (num : Nat) : collOp g num % 256 = g := by
  unfold collOp
  omega

theorem execAbortNotice_collective {s : State} {g : Nat} {x : GroupSpec} {r : CollRun} {e : Code} {gr : Option Grant}
    (small : g < 256) (group : s.groupOf g = some x) (runs : s.collOf g = some r) (fails : e ≠ .done) :
    execAbortNotice (collOp g r.num) ⟨e, gr⟩ s = .next (s.collEnd g x r e false) := by
  have named : 2 ^ 32 ≤ collOp g r.num := by
    unfold collOp
    omega
  rw [execAbortNotice, if_pos named]
  dsimp only
  rw [collOp_group small, group, runs]
  exact if_pos ⟨rfl, fails⟩

/-- The entry of a grant, with the bytes kept of its generation and those granted. -/
theorem State.takeGrant_leaves (s : State) (c : CoreId) (o : SentOp) (a n : Nat) (g : Grant) : ∃ b, n ≤ b
    ∧ ((s.takeGrant c o a n g).core c).credits = (s.core c).credits.filter (fun x => !x.covers o.dst o.fabricB a 1)
        ++ [⟨.remote o.dst o.fabricB g.base g.size, g.gen, b⟩] := by
  rw [State.takeGrant, State.core_onCore, State.credits_dropCredit]
  exact ⟨_, Nat.le_add_left n _, rfl⟩

theorem State.gang_takeGrant (s : State) (c d : CoreId) (o : SentOp) (a n : Nat) (g : Grant) (k : GangId) :
    (s.takeGrant c o a n g).gang d k = s.gang d k :=
  (congrArg (·[k.val]) (State.core_onCore_congr Core.gangs _ c d)).trans (s.gang_dropCredit c d k o.dst o.fabricB a)

theorem State.part_takeGrant (s : State) (c d : CoreId) (o : SentOp) (a n : Nat) (g : Grant) :
    (s.takeGrant c o a n g).part d = s.part d :=
  (State.core_onCore_congr Core.part _ c d).trans (s.part_dropCredit c d o.dst o.fabricB a)

end Sys2Proof.Machine
end

section
namespace Sys2Proof.Claims

open Sys2Proof.Machine

/-- What the end of an operation leaves in a state whose gangs, cores and memory are those of `v`. -/
theorem opEnd_leaves {v w : State} (gang : ∀ c g, w.gang c g = v.gang c g) (part : ∀ c, w.part c = v.part c) (mem : w.mem = v.mem)
    (o : Owner) (e : Code) : let t := w.finish o e
    Reports v t o e ∧ t.sentOps = w.sentOps ∧ (∀ c, (t.core c).credits = (w.core c).credits) ∧ t.mem = v.mem := by
  have kept := w.finish_messaged o e
  exact ⟨.of_finish_owner (fun c g => congrArg Gang.status (gang c g)) part o e (w.finish o e), kept.sentOps,
    fun c => w.finish_core_congr Core.credits o e c, kept.mem.trans mem⟩

theorem messageTimers : MessageTimers := by
  refine ⟨fun s src op i e first found => ?_, fun s src op none_ device => ?_, fun s op o found => ⟨fun early => ?_,
    fun late alone => ?_, fun g x r late chunk group runs => ?_⟩⟩
  · have hit := State.firstStalled_some (i := i) (fun second => stalledAt_none (first second)) found
    obtain ⟨told, kept⟩ := stalledDropped_leaves s src op i e
    refine ⟨_, (exec_stallTimeout src op s).trans (execStallTimeout_stalled hit), told, kept.mem, ?_, ?_⟩
    · rw [kept.pier_congr Pier.msgs i fun _ _ => rfl, State.dropStalled, State.pier_onPier]
    · rw [kept.pier_congr Pier.abort i fun _ _ => rfl, State.dropStalled, State.pier_onPier, satInc_eq_min]
  · refine (exec_stallTimeout src op s).trans (execStallTimeout_idle device fun i => stalledAt_none fun e he up => ?_)
    obtain ⟨source, operation, -⟩ := up
    exact none_ i e he ⟨source, operation⟩
  · rw [Nat.mul_assoc] at early
    exact (exec_senderTimeout op s).trans (execSenderTimeout_early found early)
  · rw [Nat.mul_assoc] at late
    obtain ⟨cores, run, gang, part⟩ := execSenderTimeout_late found late
    rw [State.endOp_alone alone, id_of_found found] at run
    obtain ⟨reports, sentOps, -, mem⟩ :=
      opEnd_leaves (v := s) (w := State.withoutOp { s with cores } op) gang part rfl o.owner .incomplete
    refine ⟨_, (exec_senderTimeout op s).trans run, reports, mem, fun x hx => ?_⟩
    exact State.sentOps_withoutOp { s with cores } op x (sentOps ▸ hx)
  · rw [Nat.mul_assoc] at late
    obtain ⟨cores, run, -, -⟩ := execSenderTimeout_late found late
    rw [State.endOp_chunk (s := { s with cores }) chunk group runs] at run
    exact ⟨_, (exec_senderTimeout op s).trans run, State.collEnd_leaves _ g.1 x r .incomplete true⟩

theorem noticesTaken : Notices := by
  refine ⟨fun s op e gr o small found => ⟨fun alone plain => ?_, fun c a n credit done => ?_, fun g chunk noCredit => ?_⟩,
    fun s g num e gr x r small group runs number fails => ?_, fun s op e gr small unknown => ?_⟩
  · obtain ⟨reports, sentOps, -, mem⟩ := opEnd_leaves (v := s) (w := s.withoutOp op) (fun _ _ => rfl) (fun _ => rfl) rfl o.owner e
    refine ⟨_, (exec_abortNotice op ⟨e, gr⟩ s).trans ?_, reports, sentOps, mem⟩
    by_cases done : e = .done
    · subst done
      exact execAbortNotice_done found small (plain.resolve_left fun fails => fails rfl) alone
    · rw [execAbortNotice_fails found small done, State.endOp_alone alone, id_of_found found]
      rfl
  · subst done
    refine ⟨fun drops => ?_, fun g asks grant => ?_, fun asks bare => ?_⟩
    · obtain ⟨reports, -, credits, mem⟩ := opEnd_leaves (v := s) (w := (s.withoutOp op).dropCredit c o.dst o.fabricB a)
        (fun d k => (s.withoutOp op).gang_dropCredit c d k o.dst o.fabricB a)
        (fun d => (s.withoutOp op).part_dropCredit c d o.dst o.fabricB a) rfl o.owner .done
      exact ⟨_, (exec_abortNotice op _ s).trans (execAbortNotice_dropped found small credit drops), reports,
        (credits c).trans ((s.withoutOp op).credits_dropCredit c o.dst o.fabricB a), mem⟩
    · subst grant
      obtain ⟨reports, -, credits, mem⟩ := opEnd_leaves (v := s) (w := (s.withoutOp op).takeGrant c o a n g)
        (fun d k => (s.withoutOp op).gang_takeGrant c d o a n g k) (fun d => (s.withoutOp op).part_takeGrant c d o a n g) rfl o.owner .done
      obtain ⟨b, granted, taken⟩ := (s.withoutOp op).takeGrant_leaves c o a n g
      exact ⟨_, b, (exec_abortNotice op _ s).trans (execAbortNotice_granted found small credit asks), reports, granted,
        (credits c).trans taken, mem⟩
    · subst bare
      obtain ⟨reports, -, -, mem⟩ := opEnd_leaves (v := s) (w := s.withoutOp op) (fun _ _ => rfl) (fun _ => rfl) rfl o.owner .incomplete
      exact ⟨_, (exec_abortNotice op _ s).trans (execAbortNotice_bare found small credit asks), reports, mem⟩
  · refine ⟨fun done => ?_, fun x r fails group runs => ?_⟩
    · subst done
      exact (exec_abortNotice op _ s).trans (execAbortNotice_chunk found small noCredit chunk)
    · have run := (exec_abortNotice op ⟨e, gr⟩ s).trans (execAbortNotice_fails found small fails)
      rw [State.endOp_chunk chunk group runs] at run
      exact ⟨_, run, State.collEnd_leaves _ g.1 x r e true⟩
  · subst number
    obtain ⟨ended, code, mem⟩ := s.collEnd_leaves g x r e false
    exact ⟨_, (exec_abortNotice _ ⟨e, gr⟩ s).trans (execAbortNotice_collective small group runs fails), ended, mem, code⟩
  · exact (exec_abortNotice op ⟨e, gr⟩ s).trans (execAbortNotice_unknown small unknown _)

/-- Settles O38: a message at its pier, the timers of messages and operations, and the notices that end operations. -/
theorem messages : Obligations.Messages := ⟨messagesArrive, messageTimers, noticesTaken⟩

end Sys2Proof.Claims
end
